-- ==== Sys2Proof/Word.lean ====
section
/-! DEFINITION. The words the spec names: 32-bit bus words, bytes, bit strings (R7, R8), the values of NUM (R15) and the pair
of them that is a complex value (R13). -/

namespace Sys2Proof

/-- A 32-bit register or bus word (R7). -/
abbrev Word := BitVec 32

/-- A byte (R9). -/
abbrev Byte := BitVec 8

/-- A bit string (R8): index 0 is the first bit sent or stored. -/
abbrev Bits := List Bool

/-- A value of NUM (R15). The rational numbers are written out. Whatever else a NUM computes with (the irrational numbers of
exact arithmetic, the infinities of a rounding format) it names by a number of its own choice, so that every NUM has its
values here as plain data (log 4). -/
inductive Scalar where
  | rat (q : ℚ)
  | other (n : Nat)
deriving DecidableEq, Repr, Inhabited

/-- Zero. Every NUM holds it exactly (log 5). -/
def Scalar.zero : Scalar := .rat 0

/-- A complex value (R13): real and imaginary part, each a value of NUM. -/
structure Cplx where
  re : Scalar
  im : Scalar
deriving DecidableEq, Repr, Inhabited

/-- The complex zero. -/
def Cplx.zero : Cplx := ⟨.rat 0, .rat 0⟩

/-- The complex one: the pilot value of R188. -/
def Cplx.one : Cplx := ⟨.rat 1, .rat 0⟩

/-- The complex minus one. -/
def Cplx.negOne : Cplx := ⟨.rat (-1), .rat 0⟩

end Sys2Proof
end

