-- ==== Sys2Proof/Syntax.lean ====
section
/-! DEFINITION. The eleven commands of the opcode map (R151), one constructor per row of spec/opcode_table.json, with the
operands of R153. A count, a length or an ignored argument is a natural number that WellFormed bounds by the 24 bits
of ARG. -/

namespace Sys2Proof

/-- A command of the block (R151). -/
inductive Instr where
  /-- `NOP` (R200); ARG is kept, to encode it again, and ignored. -/
  | nop (arg : Nat)
  /-- `ALLOC_DEFAULT` (R201): ARG = M. -/
  | allocDefault (m : Nat)
  /-- `ALLOC_VALIDATE` (R212): ARG = M. -/
  | allocValidate (m : Nat)
  /-- `TX_CREATE` (R230): ARG[0] = use_default. -/
  | txCreate (useDefault : Bool)
  /-- `TX_ASSEMBLE` (R233): ARG = payload_len. -/
  | txAssemble (len : Nat)
  /-- `TX_WRITESYMBOL` (R236). -/
  | txWriteSymbol
  /-- `TX_DESTROY` (R239). -/
  | txDestroy
  /-- `RX_CREATE` (R300): ARG[0] = use_default. -/
  | rxCreate (useDefault : Bool)
  /-- `RX_EXECUTE` (R303): ARG = n. -/
  | rxExecute (n : Nat)
  /-- `RX_ACK` (R305). -/
  | rxAck
  /-- `RX_DESTROY` (R306). -/
  | rxDestroy
deriving DecidableEq, Repr

end Sys2Proof
end

