-- ==== Sys2Proof/WellFormed.lean ====
section
/-! DEFINITION. Which commands have an encoding: ARG is a 24-bit unsigned integer (R150, R153). -/

namespace Sys2Proof

/-- A value fits the 24-bit field ARG (R150). -/
def fitsArg (n : Nat) : Bool := decide (n < 2 ^ 24)

/-- The operands of a command fit its encoding (R153). -/
def Instr.wellFormed : Instr → Bool
  | .nop arg => fitsArg arg
  | .allocDefault m => fitsArg m
  | .allocValidate m => fitsArg m
  | .txCreate _ => true
  | .txAssemble len => fitsArg len
  | .txWriteSymbol => true
  | .txDestroy => true
  | .rxCreate _ => true
  | .rxExecute n => fitsArg n
  | .rxAck => true
  | .rxDestroy => true

end Sys2Proof
end

