-- ==== Sys2Proof/Decode.lean ====
section
/-! DEFINITION. The decoder of command words (R150, R151, R153 to R155), total on every word, and the encoder. -/

namespace Sys2Proof

/-- Why a command word is no command (R154). Each completes with ILLEGAL_COMMAND. -/
inductive DecodeError where
  /-- OPC is not in the opcode map of R151. -/
  | reservedOpcode
  /-- An assigned OPC with a nonzero ARG bit where R153 requires 0. -/
  | reservedArg
deriving DecidableEq, Repr

/-- OPC, bits 7:0 of a command word (R150). -/
def opcOf (w : Word) : Nat := (w.extractLsb' 0 8).toNat

/-- ARG, bits 31:8 of a command word (R150). -/
def argOf (w : Word) : Nat := (w.extractLsb' 8 24).toNat

/-- ARG must be 0 (R153). -/
def noArg (w : Word) (i : Instr) : Except DecodeError Instr :=
  if argOf w = 0 then .ok i else .error .reservedArg

/-- ARG[0] is use_default and ARG[23:1] must be 0 (R153). -/
def flagArg (w : Word) (i : Bool → Instr) : Except DecodeError Instr :=
  if argOf w < 2 then .ok (i (argOf w == 1)) else .error .reservedArg

/-- Every CMD write is exactly one command word (R150, R155); the opcode map is R151. -/
def decode (w : Word) : Except DecodeError Instr :=
  match opcOf w with
  | 0x00 => .ok (.nop (argOf w))
  | 0x01 => .ok (.allocDefault (argOf w))
  | 0x02 => .ok (.allocValidate (argOf w))
  | 0x10 => flagArg w .txCreate
  | 0x11 => .ok (.txAssemble (argOf w))
  | 0x12 => noArg w .txWriteSymbol
  | 0x13 => noArg w .txDestroy
  | 0x20 => flagArg w .rxCreate
  | 0x21 => .ok (.rxExecute (argOf w))
  | 0x22 => noArg w .rxAck
  | 0x23 => noArg w .rxDestroy
  | _ => .error .reservedOpcode

/-- `w = (ARG << 8) | OPC` (R150). -/
def commandWord (opc arg : Nat) : Word := (BitVec.ofNat 32 arg <<< 8) ||| BitVec.ofNat 32 opc

/-- The word of a command (R151, R157). -/
def encode : Instr → Word
  | .nop arg => commandWord 0x00 arg
  | .allocDefault m => commandWord 0x01 m
  | .allocValidate m => commandWord 0x02 m
  | .txCreate d => commandWord 0x10 d.toNat
  | .txAssemble len => commandWord 0x11 len
  | .txWriteSymbol => commandWord 0x12 0
  | .txDestroy => commandWord 0x13 0
  | .rxCreate d => commandWord 0x20 d.toNat
  | .rxExecute n => commandWord 0x21 n
  | .rxAck => commandWord 0x22 0
  | .rxDestroy => commandWord 0x23 0

/-- What the decoder reads from a table word: a command is one 32-bit write, so the bits above `nbits` are 0 and
nothing more is laid out (R155). -/
def decodeTableWord (nbits w : Nat) : Option Instr :=
  match decode (BitVec.ofNat 32 (w % 2 ^ nbits)) with
  | .ok i => some i
  | .error _ => none

end Sys2Proof
end

