-- ==== Sys2Proof/Machine/Binary32.lean ====
section
/-! DEFINITION. IEEE binary32, the format of every real value on the bus (R110), and the rounding to it (R16). -/

namespace Sys2Proof.Machine

/-- A binary32 word is neither a NaN nor an infinity (R16). -/
def f32Finite (w : Word) : Bool := decide ((w.extractLsb' 23 8).toNat ≠ 255)

/-- The value of a finite binary32 word (R110). -/
def f32Value (w : Word) : ℚ :=
  let e := (w.extractLsb' 23 8).toNat
  let f := (w.extractLsb' 0 23).toNat
  let m := if e = 0 then f else 2 ^ 23 + f
  let x := max e 1
  let v := if 150 ≤ x then mkRat (m * 2 ^ (x - 150) : Nat) 1 else mkRat m (2 ^ (150 - x))
  if w.getLsbD 31 then -v else v

/-- `floor(log2(n / d))` for positive `n` and `d`. -/
def ratLog2 (n d : Nat) : Int :=
  let l : Int := (Nat.log2 n : Int) - (Nat.log2 d : Int)
  if n * 2 ^ (-l).toNat < d * 2 ^ l.toNat then l - 1 else l

/-- `n / d` rounded to the nearest natural number, ties to even. -/
def roundEven (n d : Nat) : Nat :=
  let q := n / d
  let r := n % d
  if d < 2 * r ∨ (2 * r = d ∧ q % 2 = 1) then q + 1 else q

/-- The magnitude bits of the binary32 word nearest `n / d`, ties to even, at most those of the infinity (R16). -/
def f32Magnitude (n d : Nat) : Nat :=
  if n = 0 then 0
  else
    let e := max (ratLog2 n d) (-126)
    let sh := e - 23
    let r := roundEven (n * 2 ^ (-sh).toNat) (d * 2 ^ sh.toNat)
    min ((e + 126).toNat * 2 ^ 23 + r) (255 * 2 ^ 23)

/-- `b32(x)` (R16, D49): round to nearest even; beyond the range, the signed infinity. -/
def f32Round (q : ℚ) : Word :=
  BitVec.ofNat 32 ((if q < 0 then 2 ^ 31 else 0) + f32Magnitude q.num.natAbs q.den)

end Sys2Proof.Machine
end

