-- ==== Sys2Proof/Machine/Codes.lean ====
section
/-! DEFINITION. Bit strings, bytes and symbol indices (R8 to R11), the pseudo-noise generator (R182), and the code
lengths of the CRC and FEC schemes (R175, R176). -/

namespace Sys2Proof.Machine

/-- `ceil(a / b)` (R11): the least natural `q` with `q * b >= a`, for `b >= 1`. -/
def ceilDiv (a b : Nat) : Nat := (a + (b - 1)) / b

/-- `pad(n, b)` (R8): `b` followed by zero bits up to length `n`. -/
def pad (n : Nat) (b : Bits) : Bits := b ++ List.replicate (n - b.length) false

/-- One byte as eight bits, most significant first (R9). -/
def byteBits (x : Byte) : Bits := (List.range 8).map fun j => x.getLsbD (7 - j)

/-- `bits(B)` (R9). -/
def bits (B : List Byte) : Bits := B.flatMap byteBits

/-- The natural number a bit string stands for, its first bit the most significant (R10). -/
def bitsToNat (b : Bits) : Nat := b.foldl (fun acc x => 2 * acc + x.toNat) 0

/-- The `d`-bit expansion of `u`, most significant bit first (R10). -/
def natToBits (d u : Nat) : Bits := (List.range d).map fun j => u.testBit (d - 1 - j)

/-- `bytes(b)` (R9): the bytes of a bit string, eight bits each. -/
def bytes (b : Bits) : List Byte :=
  (List.range (b.length / 8)).map fun i => BitVec.ofNat 8 (bitsToNat ((b.drop (8 * i)).take 8))

/-- `group(d, b)` (R10): the indices of consecutive groups of `d` bits, the last one zero-padded. -/
def group (d : Nat) (b : Bits) : List Nat :=
  let n := ceilDiv b.length d
  let p := pad (d * n) b
  (List.range n).map fun q => bitsToNat ((p.drop (q * d)).take d)

/-- `ungroup(d, u)` (R10): the concatenation of the `d`-bit expansions. -/
def ungroup (d : Nat) (u : List Nat) : Bits := u.flatMap (natToBits d)

/-- One step of the pseudo-noise generator (R182): the output bit and the next 15-bit state. -/
def pnStep (s : BitVec 15) : Bool × BitVec 15 :=
  let b := (s.getLsbD 14).xor (s.getLsbD 13)
  (b, (s <<< 1) ||| (if b then 1 else 0))

/-- `pn(seed, n)` (R182). -/
def pn (s : BitVec 15) : Nat → Bits
  | 0 => []
  | n + 1 => (pnStep s).1 :: pn (pnStep s).2 n

/-- `SEED_S0` (R182). -/
def seedS0 : BitVec 15 := 0x1D6B

/-- `SEED_S1` (R182). -/
def seedS1 : BitVec 15 := 0x6E25

/-- `crc_len(s)` in bits (R175). The reserved codes 6 to 15 are never used with it: they are refused first. -/
def crcLen (s : Nat) : Nat :=
  match s with
  | 1 => 8
  | 2 => 8
  | 3 => 16
  | 4 => 24
  | 5 => 32
  | _ => 0

/-- `enc_len(f, n)` in bits (R176). The reserved codes 4 to 15 are never used with it: they are refused first. -/
def encLen (f n : Nat) : Nat :=
  match f with
  | 1 => 3 * n
  | 2 => 7 * ceilDiv n 4
  | 3 => 12 * ceilDiv n 8
  | _ => n

/-- The bits a code block of a FEC scheme takes in (R176); a scheme that has no blocks takes one bit at a time. -/
def fecBlock (f : Nat) : Nat :=
  match f with
  | 2 => 4
  | 3 => 8
  | _ => 1

/-- The CRC scheme code of the header, CRC16 (R180). -/
def hdrCrc : Nat := 3

/-- The FEC scheme code of the header, HAMMING74 (R180). -/
def hdrFec : Nat := 2

/-- Length of the CRC-protected header block `hm`, 104 + 16 bits (R180). -/
def hdrBlockBits : Nat := 120

/-- `HDR_CODED_BITS` (R5, R180). -/
def hdrCodedBits : Nat := 210

/-- `NS` (R5): short training symbols. -/
def nShort : Nat := 2

/-- `NPRE` (R5): training symbols in all. -/
def nPre : Nat := 3

/-- `P_PILOT` (R5). -/
def pPilot : Nat := 8

/-- `H_USER` (R5): bytes of the user header. -/
def hUser : Nat := 8

/-- `M_MIN` (R5). -/
def mMin : Nat := 16

end Sys2Proof.Machine
end

