-- ==== Sys2Proof/Config.lean ====
section
/-! DEFINITION. What an implementation fixes: the build parameters of R5 and, as constants WITHOUT A BODY, the open
parameters: the numeric implementation NUM (R15), the external collaborators (R20 to R26) and the contents of
buffer words nothing has written (R116). -/

namespace Sys2Proof

open Machine (crcLen encLen fecBlock pad ceilDiv f32Round)

/-! ## The build -/

/-- The build parameters of R5 and their stated ranges; the default values are those R5 shows. A value outside its range
cannot be built (R5, I-9). The last three ranges are DEDUCED: log 3. -/
structure Build where
  /-- `M_MAX`: largest legal M; `G_MAX = M_MAX`. -/
  mMax : Nat := 2048
  /-- `N_BUF`: capacity of RX_SAMP in samples. -/
  nBuf : Nat := 65536
  /-- `PAYLOAD_MAX`, in bytes. -/
  payloadMax : Nat := 65535
  /-- `DETECT_THRESHOLD`. -/
  detectThreshold : ℚ := 1 / 2
  /-- `TRACK_GAIN`. -/
  trackGain : ℚ := 1 / 4
  /-- `TRACK_CAP`, in radians. -/
  trackCap : ℚ := 1 / 8
  /-- `STAT_CLAMP_DB`. -/
  statClampDb : ℚ := 100
  /-- `MODSET`: the legal (modulation_scheme, modulation_depth) pairs. -/
  modset : List (Nat × Nat) := [(1, 1), (1, 2), (1, 3), (2, 4), (2, 6)]
  mMax_even : mMax % 2 = 0 := by decide
  mMax_range : 16 ≤ mMax ∧ mMax ≤ 4096 := by decide
  nBuf_range : 1 ≤ nBuf ∧ nBuf ≤ 131072 := by decide
  payloadMax_range : payloadMax ≤ 65535 := by decide
  trackCap_range : 0 ≤ trackCap := by norm_num
  statClampDb_range : 0 ≤ statClampDb := by norm_num
  /-- Schemes 1 and 2 (R177), depths a 4-bit field holds (R59, R179). -/
  modset_range : ∀ p ∈ modset, (p.1 = 1 ∨ p.1 = 2) ∧ 1 ≤ p.2 ∧ p.2 ≤ 15 := by decide
deriving DecidableEq, Repr

/-! ## Rational arithmetic, to show that the structures below have members -/

/-- A real operation, on rational values. -/
def ratOp1 (f : ℚ → ℚ) : Scalar → Scalar
  | .rat p => .rat (f p)
  | _ => .other 0

/-- A real operation of two operands, on rational values. -/
def ratOp2 (f : ℚ → ℚ → ℚ) : Scalar → Scalar → Scalar
  | .rat p, .rat q => .rat (f p q)
  | _, _ => .other 0

/-- A comparison, on rational values. -/
def ratLt : Scalar → Scalar → Bool
  | .rat p, .rat q => decide (p < q)
  | _, _ => false

/-- The sum of a list of rational values. -/
def ratSum (l : List Scalar) : Scalar := l.foldr (ratOp2 (· + ·)) (.rat 0)

/-- `wrap` on rational values, for the value 355/113 of pi. -/
def ratWrap : Scalar → Scalar
  | .rat a => .rat (a - (2 * (355 / 113)) * ⌈(a - 355 / 113) / (2 * (355 / 113))⌉)
  | _ => .rat 0

/-- Complex quotient, on rational values. -/
def ratCdiv : Cplx → Cplx → Cplx
  | ⟨.rat a, .rat b⟩, ⟨.rat c, .rat d⟩ =>
    ⟨.rat ((a * c + b * d) / (c ^ 2 + d ^ 2)), .rat ((b * c - a * d) / (c ^ 2 + d ^ 2))⟩
  | _, _ => ⟨.other 0, .other 0⟩

/-- Complex product, on rational values. -/
def ratCmul (z w : Cplx) : Cplx :=
  ⟨ratOp2 (· - ·) (ratOp2 (· * ·) z.re w.re) (ratOp2 (· * ·) z.im w.im),
    ratOp2 (· + ·) (ratOp2 (· * ·) z.re w.im) (ratOp2 (· * ·) z.im w.re)⟩

/-! ## NUM -/

/-- `NUM` (R5, R15): a numeric implementation of real and complex arithmetic whose operations may round, the order of
operations in a sum left to it. Its values are those of `Scalar`: a rational one stands for itself, what the others stand
for is NUM's affair. `Num.IsExact` says which NUMs are the reference reading. The default operations are exact where the
result is rational; they only show that a NUM exists. Laws: log 5. -/
structure Num where
  /-- Whether NUM can hold a rational value (R16). -/
  holds : ℚ → Bool := fun _ => true
  /-- What NUM makes of a rational value it cannot hold. -/
  approx : ℚ → Scalar := .rat
  /-- Comparison: R15 has every comparison of a rule made on the values NUM computes. -/
  lt : Scalar → Scalar → Bool := ratLt
  /-- Equality as NUM sees it, for the tests against 0. -/
  eq : Scalar → Scalar → Bool := fun a b => decide (a = b)
  /-- `b32` of a value that is not a rational one (R16, D49). -/
  otherWord : Nat → Word := fun _ => 0x7FC00000
  /-- The value NUM uses for pi. -/
  pi : Scalar := .rat (355 / 113)
  neg : Scalar → Scalar := ratOp1 (- ·)
  add : Scalar → Scalar → Scalar := ratOp2 (· + ·)
  sub : Scalar → Scalar → Scalar := ratOp2 (· - ·)
  mul : Scalar → Scalar → Scalar := ratOp2 (· * ·)
  div : Scalar → Scalar → Scalar := ratOp2 (· / ·)
  /-- The sum of a list of reals, in any order of operations. -/
  sum : List Scalar → Scalar := ratSum
  cadd : Cplx → Cplx → Cplx := fun z w => ⟨ratOp2 (· + ·) z.re w.re, ratOp2 (· + ·) z.im w.im⟩
  csub : Cplx → Cplx → Cplx := fun z w => ⟨ratOp2 (· - ·) z.re w.re, ratOp2 (· - ·) z.im w.im⟩
  cmul : Cplx → Cplx → Cplx := ratCmul
  cdiv : Cplx → Cplx → Cplx := ratCdiv
  /-- A real times a complex value. -/
  cscale : Scalar → Cplx → Cplx := fun a z => ⟨ratOp2 (· * ·) a z.re, ratOp2 (· * ·) a z.im⟩
  /-- The sum of a list of complex values, in any order of operations. -/
  csum : List Cplx → Cplx := fun l => ⟨ratSum (l.map Cplx.re), ratSum (l.map Cplx.im)⟩
  /-- `|z|²` (R13). -/
  normSq : Cplx → Scalar := fun z => ratOp2 (· + ·) (ratOp2 (· * ·) z.re z.re) (ratOp2 (· * ·) z.im z.im)
  /-- `cexp(a)` (R13). -/
  cexp : Scalar → Cplx := fun _ => Cplx.one
  /-- `arg(z)` (R13). -/
  arg : Cplx → Scalar := fun _ => .rat 0
  /-- `wrap(a)` (R13). -/
  wrap : Scalar → Scalar := ratWrap
  /-- `log10` (R13). -/
  log10 : Scalar → Scalar := fun _ => .rat 0
  lt_rat : ∀ p q, lt (.rat p) (.rat q) = decide (p < q) := by intros; rfl
  eq_rat : ∀ p q, eq (.rat p) (.rat q) = decide (p = q) := by intros; simp
  lt_asymm : ∀ a b, lt a b = true → lt b a = false := by
    intro a b; cases a <;> cases b <;> simp [ratLt]; exact le_of_lt
  /-- Taking a rational value into NUM keeps its order. -/
  conv_mono : ∀ p q, p ≤ q →
      lt (if holds q then .rat q else approx q) (if holds p then .rat p else approx p) = false := by
    intro p q h; simpa [ratLt] using h
  holds_zero : holds 0 = true := by rfl
  normSq_zero : normSq Cplx.zero = .rat 0 := by simp [Cplx.zero, ratOp2]
  sum_zeros : ∀ n : Nat, sum (List.replicate n (.rat 0)) = .rat 0 := by
    intro n; induction n with
    | zero => rfl
    | succ n ih => rw [List.replicate_succ]; show ratOp2 _ _ (ratSum _) = _; rw [ih]; simp [ratOp2]
  mul_zero : ∀ a, lt (.rat 0) (mul a (.rat 0)) = false := by intro a; cases a <;> simp [ratOp2, ratLt]
  arg_zero : arg Cplx.zero = .rat 0 := by rfl
  /-- R13: `arg` and `wrap` answer values above -pi and at most pi; 0 is such a value. -/
  arg_range : ∀ z, lt pi (arg z) = false ∧ lt (arg z) (neg pi) = false ∧ eq (arg z) (neg pi) = false := by
    intro z; norm_num [ratLt, ratOp1]
  wrap_range : ∀ a, lt pi (wrap a) = false ∧ lt (wrap a) (neg pi) = false ∧ eq (wrap a) (neg pi) = false := by
    intro a
    cases a with
    | other n => norm_num [ratWrap, ratLt, ratOp1]
    | rat a =>
      have h1 := Int.le_ceil ((a - 355 / 113 : ℚ) / (2 * (355 / 113)))
      have h2 := Int.ceil_lt_add_one ((a - 355 / 113 : ℚ) / (2 * (355 / 113)))
      rw [← sub_lt_iff_lt_add, lt_div_iff₀ (by norm_num)] at h2
      rw [div_le_iff₀ (by norm_num)] at h1
      simp only [ratWrap, ratLt, ratOp1, decide_eq_false_iff_not, Scalar.rat.injEq, not_lt]
      refine ⟨by linarith, by linarith, fun h => ?_⟩
      linarith
  zero_range : lt pi (.rat 0) = false ∧ lt (.rat 0) (neg pi) = false ∧ eq (.rat 0) (neg pi) = false := by
    norm_num [ratLt, ratOp1]
  /-- Rounding to the bus keeps the order: what lies between two values with the same word has that word (R16). -/
  word_between : ∀ n p q, lt (.rat p) (.other n) = true → lt (.other n) (.rat q) = true → f32Round p = f32Round q →
      otherWord n = f32Round p := by
    intro n p q h; simp [ratLt] at h
  /-- A value beyond every rational one is an infinity on the bus (R16). -/
  word_top : ∀ n, (∀ q, lt (.rat q) (.other n) = true) → otherWord n = 0x7F800000 := by
    intro n h; exact absurd (h 0) (by simp [ratLt])
  word_bottom : ∀ n, (∀ q, lt (.other n) (.rat q) = true) → otherWord n = 0xFF800000 := by
    intro n h; exact absurd (h 0) (by simp [ratLt])
deriving Inhabited

/-- `a ≤ b` as NUM sees it. -/
def Num.le (N : Num) (a b : Scalar) : Bool := N.lt a b || N.eq a b

/-- A complex value is 0 as NUM sees it. -/
def Num.isZero (N : Num) (z : Cplx) : Bool := N.eq z.re .zero && N.eq z.im .zero

/-- A value lies in the range of `arg` and `wrap`, (-pi, pi] (R13). -/
def Num.InTurn (N : Num) (x : Scalar) : Prop :=
  N.lt N.pi x = false ∧ N.lt x (N.neg N.pi) = false ∧ N.eq x (N.neg N.pi) = false

/-- A complex value of NUM as a complex number, where `v` gives the real number each value stands for. -/
noncomputable def Cplx.toC (v : Scalar → ℝ) (z : Cplx) : ℂ := ⟨v z.re, v z.im⟩

/-- The reference reading of R15: NUM is EXACT real and complex arithmetic, with the functions of R13 as mathematics defines
them. `v` gives the real number each value stands for, no two values the same one. Laws/Exact.lean shows that such a NUM
exists. -/
structure Num.IsExact (N : Num) (v : Scalar → ℝ) : Prop where
  injective : Function.Injective v
  rat : ∀ q : ℚ, v (.rat q) = q
  holds : ∀ q, N.holds q = true
  lt : ∀ a b, N.lt a b = true ↔ v a < v b
  eq : ∀ a b, N.eq a b = true ↔ v a = v b
  pi : v N.pi = Real.pi
  neg : ∀ a, v (N.neg a) = -v a
  add : ∀ a b, v (N.add a b) = v a + v b
  sub : ∀ a b, v (N.sub a b) = v a - v b
  mul : ∀ a b, v (N.mul a b) = v a * v b
  div : ∀ a b, v b ≠ 0 → v (N.div a b) = v a / v b
  sum : ∀ l, v (N.sum l) = (l.map v).sum
  cadd : ∀ z w, (N.cadd z w).toC v = z.toC v + w.toC v
  csub : ∀ z w, (N.csub z w).toC v = z.toC v - w.toC v
  cmul : ∀ z w, (N.cmul z w).toC v = z.toC v * w.toC v
  cdiv : ∀ z w, w.toC v ≠ 0 → (N.cdiv z w).toC v = z.toC v / w.toC v
  cscale : ∀ a z, (N.cscale a z).toC v = v a * z.toC v
  csum : ∀ l, (N.csum l).toC v = (l.map (Cplx.toC v)).sum
  normSq : ∀ z, v (N.normSq z) = Complex.normSq (z.toC v)
  cexp : ∀ a, (N.cexp a).toC v = Complex.exp (v a * Complex.I)
  arg : ∀ z, v (N.arg z) = Complex.arg (z.toC v)
  wrap : ∀ a, v (N.wrap a) = toIocMod Real.two_pi_pos (-Real.pi) (v a)
  log10 : ∀ a, 0 < v a → v (N.log10 a) = Real.logb 10 (v a)

/-! ## The collaborators -/

/-- A constellation, only to show that one with the properties of R24 and R25 exists. -/
def sampleMod (m d u : Nat) : Cplx :=
  if m = 1 ∧ d = 1 then (if u = 0 then Cplx.one else Cplx.negOne) else ⟨.rat (u + 1), .rat 0⟩

/-- A demodulator for `sampleMod`. -/
def sampleDemod (N : Num) (m d : Nat) (z : Cplx) : Nat :=
  if m = 1 ∧ d = 1 then (if N.le .zero z.re then 0 else 1)
  else match z.re with
    | .rat q => min (2 ^ d - 1) ⌊q - 1⌋₊
    | _ => 0

theorem sampleDemod_sampleMod (N : Num) (m d u : Nat) (hu : u < 2 ^ d) : sampleDemod N m d (sampleMod m d u) = u := by
  unfold sampleDemod sampleMod
  by_cases h : m = 1 ∧ d = 1
  · obtain ⟨rfl, rfl⟩ := h
    have : u = 0 ∨ u = 1 := by omega
    rcases this with rfl | rfl <;> simp [Cplx.one, Cplx.negOne, Num.le, Scalar.zero, N.lt_rat, N.eq_rat]
  · have h1 : ⌊(u : ℚ) + 1 - 1⌋₊ = u := by rw [add_sub_cancel_right, Nat.floor_natCast]
    simp only [h, if_false, h1]; omega

theorem sampleDemod_lt (N : Num) (m d : Nat) (z : Cplx) : sampleDemod N m d z < 2 ^ d := by
  have := Nat.one_le_two_pow (n := d)
  unfold sampleDemod
  by_cases h : m = 1 ∧ d = 1
  · obtain ⟨rfl, rfl⟩ := h; simp only [and_self, if_true]; split <;> decide
  · simp only [h, if_false]; split <;> omega

theorem sampleMod_isZero (N : Num) (m d u : Nat) : N.isZero (sampleMod m d u) = false := by
  have h : (u : ℚ) + 1 ≠ 0 := by positivity
  unfold sampleMod Cplx.one Cplx.negOne Num.isZero Scalar.zero
  split
  · split <;> simp [N.eq_rat]
  · simp [N.eq_rat, h]

theorem pad_encLen_pad (f : Nat) (b : Bits) :
    pad (encLen f b.length) b = pad (encLen f (fecBlock f * ceilDiv b.length (fecBlock f)))
      (pad (fecBlock f * ceilDiv b.length (fecBlock f)) b) := by
  have key : ∀ n k, b.length ≤ k → pad n b = pad n (pad k b) ∨ ¬ k ≤ n := by
    intro n k hk
    by_cases hn : k ≤ n
    · left
      simp only [pad, List.length_append, List.length_replicate, List.append_assoc, List.append_cancel_left_eq]
      rw [← List.replicate_add]; congr 1; omega
    · exact .inr hn
  have hl : b.length ≤ fecBlock f * ceilDiv b.length (fecBlock f) ∧
      fecBlock f * ceilDiv b.length (fecBlock f) ≤ encLen f b.length ∧
      encLen f (fecBlock f * ceilDiv b.length (fecBlock f)) = encLen f b.length := by
    rcases f with _ | _ | _ | _ | f <;> simp only [fecBlock, encLen, ceilDiv] <;> omega
  rw [hl.2.2]
  exact (key _ _ hl.1).resolve_right (by simpa using hl.2.1)

/-- The external collaborators with the properties R20 to R25 and R176 require of them and nothing more (log 8), for a NUM
and a MODSET. The default values only show that such functions exist. -/
structure Ext (N : Num) (modset : List (Nat × Nat)) where
  /-- `CRC(s, B)` (R20). -/
  crc : Nat → List Byte → Bits := fun s _ => List.replicate (crcLen s) false
  /-- `FEC_ENC(f, b)` (R22). -/
  fecEnc : Nat → Bits → Bits := fun f b => pad (encLen f b.length) b
  /-- `FEC_DEC(f, n, c)` (R23). -/
  fecDec : Nat → Nat → Bits → Bits := fun _ n c => c.take n
  /-- `MOD(m, d, u)` (R24). -/
  mod : Nat → Nat → Nat → Cplx := sampleMod
  /-- `DEMOD(m, d, z)` (R24). -/
  demod : Nat → Nat → Cplx → Nat := sampleDemod N
  crc_length : ∀ s B, (crc s B).length = crcLen s := by simp
  fecEnc_length : ∀ f b, (fecEnc f b).length = encLen f b.length := by
    intro f b; simp only [pad, encLen, ceilDiv, List.length_append, List.length_replicate]; split <;> omega
  /-- The input is zero-padded to a whole number of code blocks before coding (R176). -/
  fecEnc_pad : ∀ f b, fecEnc f b = fecEnc f (pad (fecBlock f * ceilDiv b.length (fecBlock f)) b) := by
    intro f b
    have h : (pad (fecBlock f * ceilDiv b.length (fecBlock f)) b).length = fecBlock f * ceilDiv b.length (fecBlock f) := by
      simp only [pad, List.length_append, List.length_replicate]
      have : b.length ≤ fecBlock f * ceilDiv b.length (fecBlock f) := by
        unfold fecBlock ceilDiv; split <;> omega
      omega
    simp only [h]; exact pad_encLen_pad f b
  fecEnc_none : ∀ b, fecEnc 0 b = b := by intro b; simp [pad, encLen]
  fecDec_length : ∀ f n c, c.length = encLen f n → (fecDec f n c).length = n := by
    intro f n c h; simp only [encLen, ceilDiv] at h; simp only [List.length_take]; split at h <;> omega
  fecDec_fecEnc : ∀ f b, fecDec f b.length (fecEnc f b) = b := by intro f b; simp [pad]
  fecDec_none : ∀ n c, c.length = n → fecDec 0 n c = c := by intro n c h; simp [← h]
  demod_lt : ∀ m d z, (m, d) ∈ modset → demod m d z < 2 ^ d := by
    intro m d z _; exact sampleDemod_lt N m d z
  demod_mod : ∀ m d u, (m, d) ∈ modset → u < 2 ^ d → demod m d (mod m d u) = u := by
    intro m d u _ hu; exact sampleDemod_sampleMod N m d u hu
  mod_nonzero : ∀ m d u, (m, d) ∈ modset → u < 2 ^ d → N.isZero (mod m d u) = false := by
    intro m d u _ _; exact sampleMod_isZero N m d u
  /-- BPSK is fixed (R25). -/
  mod_bpsk : mod 1 1 0 = Cplx.one ∧ mod 1 1 1 = Cplx.negOne := by
    constructor <;> rfl
  demod_bpsk : ∀ z, demod 1 1 z = if N.le .zero z.re then 0 else 1 := by intro z; rfl
deriving Inhabited

/-! ## The open parameters -/

/-- The block's numeric implementation: OPEN (R15, D10), so a constant without a body (log 4). -/
opaque Config.num : Num

/-- The block's collaborators, for a build's MODSET: OPEN (R20 to R26, D21, D22), so a constant without a body (log 8). -/
opaque Config.ext : (modset : List (Nat × Nat)) → Ext Config.num modset

/-- The `n`-th draw (R116, I-3): a byte under no law, read where nothing has written (log 9). -/
opaque Config.draw : Nat → Byte

end Sys2Proof
end

