-- ==== Sys2Proof/Machine/State.lean ====
section
/-! DEFINITION. The machine's state: the host-visible registers (R52 to R71), the TX record (R74), the RX record (R75), the
buffer memories (R77), the build (R5), and three fields of the model's own: the host's accesses still to come, the word the
last read returned, and the count of draws. Faults and refusals. The state after reset (R450, R451). -/

namespace Sys2Proof.Machine

/-- A subcarrier role (R170). -/
inductive Role where
  | null
  | pilot
  | data
deriving DecidableEq, Repr

/-- The generator sequencer's states (R60, R238). -/
inductive TxState where
  | writePreamble
  | writeHeader
  | writePayload
  | done
deriving DecidableEq, Repr

/-- The synchronizer's states (R67, R308). `reset` is entered and left within one command (R330): log 15. -/
inductive RxState where
  | seekPreamble
  | trainingShort
  | trainingLong
  | header
  | payload
  | reset
deriving DecidableEq, Repr

/-- The TX unit's record (R74), under the spec's names without `tx_`. -/
structure TxUnit where
  created : Bool
  M : Nat
  G : Nat
  L : Nat
  alloc : List Role
  D : List Nat
  PL : List Nat
  ND : Nat
  NPL : Nat
  NH : Nat
  crc : Nat
  fi : Nat
  fo : Nat
  mm : Nat
  md : Nat
  state : TxState
  symcnt : Nat
  NP : Nat
  paylen : Nat
  hc : Bits
  pu : List Nat
deriving DecidableEq, Repr

/-- The TX record at reset (R74, R451). The fields R74 marks "—" are empty: DESIGN CHOICE, log 10. -/
def TxUnit.reset : TxUnit :=
  { created := false, M := 0, G := 0, L := 0, alloc := [], D := [], PL := [], ND := 0, NPL := 0, NH := 0,
    crc := 0, fi := 0, fo := 0, mm := 0, md := 0, state := .done, symcnt := 0, NP := 0, paylen := 0,
    hc := [], pu := [] }

/-- The RX unit's record (R75), under the spec's names without `rx_`. Its `res_pay` is the RES_PAY window of the
memory (R77, log 14). -/
structure RxUnit where
  created : Bool
  M : Nat
  G : Nat
  L : Nat
  ctx : Word
  alloc : List Role
  D : List Nat
  PL : List Nat
  ND : Nat
  NPL : Nat
  NH : Nat
  /-- `s0t`: the time-domain short training symbol. -/
  s0t : List Cplx
  /-- `E0`: its energy. -/
  e0 : Scalar
  /-- `S1`: the long training vector. -/
  s1 : List Cplx
  state : RxState
  /-- `hist`: the newest sample is the last entry. -/
  hist : List Cplx
  fill : Nat
  rhoPrev : Scalar
  jj : Nat
  pkVal : Scalar
  pkM1 : Scalar
  pkP1 : Scalar
  pkOff : Nat
  nuHat : Scalar
  tauFrac : Scalar
  phi : Scalar
  sb : List Cplx
  sbn : Nat
  /-- `H`: the per-subcarrier channel gain. -/
  H : List Cplx
  tauHat : Scalar
  nuRes : Scalar
  theta : Scalar
  snrDb : Scalar
  rssiDb : Scalar
  sym : Nat
  cbits : Bits
  hb : List Byte
  plLen : Nat
  plCrc : Nat
  plFi : Nat
  plFo : Nat
  plMm : Nat
  plMd : Nat
  NP : Nat
  plBits : Nat
  evt : Bool
  execN : Nat
  pos : Nat
  resFlags : BitVec 3
  resPaylen : Nat
  resBytes : Nat
  resSnr : Scalar
  resRssi : Scalar
  resCtx : Word
  resHdr : List Byte
deriving DecidableEq, Repr

/-- The RX record at reset (R75, R451). The fields R75 marks "—" are empty or 0: DESIGN CHOICE, log 10. -/
def RxUnit.reset : RxUnit :=
  { created := false, M := 0, G := 0, L := 0, ctx := 0, alloc := [], D := [], PL := [], ND := 0, NPL := 0, NH := 0,
    s0t := [], e0 := .zero, s1 := [], state := .seekPreamble, hist := [], fill := 0, rhoPrev := .zero, jj := 0,
    pkVal := .zero, pkM1 := .zero, pkP1 := .zero, pkOff := 0, nuHat := .zero, tauFrac := .zero, phi := .zero, sb := [], sbn := 0,
    H := [], tauHat := .zero, nuRes := .zero, theta := .zero, snrDb := .zero, rssiDb := .zero, sym := 0, cbits := [],
    hb := List.replicate 13 0, plLen := 0, plCrc := 0, plFi := 0, plFo := 0, plMm := 0, plMd := 0, NP := 0,
    plBits := 0, evt := false, execN := 0, pos := 0, resFlags := 0, resPaylen := 0, resBytes := 0,
    resSnr := .zero, resRssi := .zero, resCtx := 0, resHdr := List.replicate 8 0 }

/-- One access of the host (R104, R105), at an offset from BASE (R100) and with a size in bytes, or the platform's reset
pulse between two accesses (R450). -/
inductive Access where
  | read (a : BitVec 21) (size : Nat)
  | write (a : BitVec 21) (size : Nat) (v : Word)
  | reset
deriving DecidableEq, Repr

/-- The buffer memories (R77): (offset, byte) pairs in the canonical form `Memory.wf` states. -/
abbrev Memory := List Host.Cell

/-- The machine's state. -/
structure State where
  /-- The build the block is (R5): the parameters a model takes as arguments. Fixed: no step changes it (log 3). -/
  build : Build
  /-- RESP (R57). -/
  resp : Word
  /-- TX_CFG (R58). -/
  txCfg : Word
  /-- TX_PROPS (R59). -/
  txProps : Word
  /-- RX_CFG (R65). -/
  rxCfg : Word
  /-- RX_CTX (R66). -/
  rxCtx : Word
  /-- The TX record (R74). -/
  tx : TxUnit
  /-- The RX record (R75). -/
  rx : RxUnit
  /-- The buffer memories (R77). -/
  mem : Memory
  /-- The model's own: how many draws have been taken (R116, log 9). -/
  draws : Nat
  /-- The model's own: the accesses the host has still to make, the next one first (log 1). -/
  host : List Access
  /-- The model's own: the word the last completed host read returned (R104, log 11). -/
  rdata : Option Word
deriving DecidableEq, Repr

/-- Why the machine stops. -/
inductive Fault where
  /-- Raised by a step whose host access is unmapped, misaligned or not 32 bits wide (R104, R105, R108). The spec has a
  model record it as a fault of the host program (R108, I-4). Safe: the block's state is unchanged by it and the
  model makes no claim about what the platform does next (log 12). -/
  | busError
deriving DecidableEq, Repr

/-- Why the model gives no next state. -/
inductive Refusal where
  /-- Raised for an instruction that has no meaning yet; no arm of exec is left so. Safe. -/
  | notModelled (mnemonic : String)
  /-- Raised by RX_EXECUTE and RX_ACK when they consume a sample whose word is a NaN or an infinity: R16 and I-2 have the
  model refuse the command. Safe (log 13). -/
  | nonFiniteSample
deriving DecidableEq, Repr

/-- A block of any build right after the hardware reset (R450, R451): nothing listed in the memory, no access queued. -/
def State.resetOf (b : Build) : State :=
  { build := b, resp := 0, txCfg := 0, txProps := 0, rxCfg := 0, rxCtx := 0, tx := TxUnit.reset, rx := RxUnit.reset,
    mem := [], draws := 0, host := [], rdata := none }

/-- The machine right after the hardware reset (R450, R451), of the build whose parameters are R5's defaults. -/
def State.reset : State := State.resetOf {}

end Sys2Proof.Machine
end

