-- ==== Sys2Proof/Machine/Flags.lean ====
section
/-! DEFINITION. The status codes (R152) and every status word the block shows: RESP (R57), TX_STATUS (R60), RX_STATUS (R67),
the result flags (R71, R328). The block has no condition codes (R73). -/

namespace Sys2Proof.Machine

/-- The status codes of R152. -/
inductive Status where
  | ok
  | configurationError
  | invalidAllocation
  | payloadTooLarge
  | notAssembled
  | notCreated
  | illegalCommand
  | reentrant
  | argumentRange
  | eventPending
  | noEvent
deriving DecidableEq, Repr

/-- The code a status has in RESP[7:0] (R152). -/
def statusCode : Status → Nat
  | .ok => 0x00
  | .configurationError => 0x01
  | .invalidAllocation => 0x02
  | .payloadTooLarge => 0x03
  | .notAssembled => 0x04
  | .notCreated => 0x05
  | .illegalCommand => 0x06
  | .reentrant => 0x07
  | .argumentRange => 0x08
  | .eventPending => 0x09
  | .noEvent => 0x0A

/-- The RESP word (R57): status in [7:0], is_last in [8], samples_written in [31:16]. -/
def respWord (st : Status) (isLast : Bool) (samples : Nat) : Word :=
  (BitVec.ofNat 32 samples <<< 16) ||| (BitVec.ofNat 32 isLast.toNat <<< 8) ||| BitVec.ofNat 32 (statusCode st)

/-- The code of a sequencer state in TX_STATUS[1:0] (R60). -/
def txStateCode : TxState → Nat
  | .writePreamble => 0
  | .writeHeader => 1
  | .writePayload => 2
  | .done => 3

/-- TX_STATUS (R60): while the unit is not created, [1:0] reads 3. -/
def txStatusWord (u : TxUnit) : Word :=
  if u.created then BitVec.ofNat 32 (4 + txStateCode u.state) else 3

/-- The code of a synchronizer state in RX_STATUS[2:0] (R67). -/
def rxStateCode : RxState → Nat
  | .seekPreamble => 0
  | .trainingShort => 1
  | .trainingLong => 2
  | .header => 3
  | .payload => 4
  | .reset => 5

/-- RX_STATUS (R67): state in [2:0] (0 while not created), rx_created in [3], evt in [4]. -/
def rxStatusWord (u : RxUnit) : Word :=
  BitVec.ofNat 32 ((if u.created then rxStateCode u.state else 0) + 8 * u.created.toNat + 16 * u.evt.toNat)

/-- The result flags of an event (R328): frame_detected is always 1. -/
def eventFlags (hdrValid payValid : Bool) : BitVec 3 :=
  BitVec.ofNat 3 (1 + 2 * hdrValid.toNat + 4 * payValid.toNat)

end Sys2Proof.Machine
end

