-- ==== Sys2Proof/Machine/Ops.lean ====
section
/-! DEFINITION. The named operations: the address map (R100), the buffer memories (R101 to R103, R116), the updates of the
state, the answer of a command (R57, R401), and the block's one exception entry and its return: the event pause (R328,
R410) and RESET (R330, R412). -/

namespace Sys2Proof.Machine

/-! ## The address map -/

/-- The regions of R100. -/
inductive Region where
  | ctrl
  | alloc
  | txHdr
  | txPay
  | txSym
  | resPay
  | rxSamp
deriving DecidableEq, Repr

/-- The first offset of a region (R100). -/
def regionBase : Region → Nat
  | .ctrl => 0x000000
  | .alloc => 0x010000
  | .txHdr => 0x020000
  | .txPay => 0x030000
  | .txSym => 0x040000
  | .resPay => 0x050000
  | .rxSamp => 0x100000

/-- The valid length of a region in bytes (R100); `G_MAX = M_MAX` (R5). -/
def regionSize (b : Build) : Region → Nat
  | .ctrl => 0x100
  | .alloc => 4 * b.mMax
  | .txHdr => 8
  | .txPay => 4 * ceilDiv b.payloadMax 4
  | .txSym => 8 * (b.mMax + b.mMax)
  | .resPay => 4 * ceilDiv b.payloadMax 4
  | .rxSamp => 8 * b.nBuf

/-- Whether an offset lies in a region. -/
def inRegion (b : Build) (r : Region) (a : Nat) : Bool :=
  decide (regionBase r ≤ a) && decide (a - regionBase r < regionSize b r)

/-- The region of an offset (R100); `none` is unmapped. -/
def regionOf (b : Build) (a : Nat) : Option Region :=
  [Region.ctrl, .alloc, .txHdr, .txPay, .txSym, .resPay, .rxSamp].find? (fun r => inRegion b r a)

/-! ## The buffer memories -/

/-- The bits of a byte that hold anything: two of each ALLOC word (R101), none of the padding (R102), none outside
the buffers, all elsewhere. The other bits read 0 and ignore writes. -/
def storeMask (b : Build) (a : Nat) : Byte :=
  match regionOf b a with
  | some .alloc => if a % 4 = 0 then 0x03 else 0x00
  | some .txHdr => 0xFF
  | some .txPay => if a < regionBase .txPay + b.payloadMax then 0xFF else 0x00
  | some .txSym => 0xFF
  | some .resPay => if a < regionBase .resPay + b.payloadMax then 0xFF else 0x00
  | some .rxSamp => 0xFF
  | _ => 0x00

/-- What an unlisted offset reads as (R116): 0 in RES_PAY and where no bit is held, no value elsewhere. -/
def unlisted (b : Build) (a : Nat) : Option Byte :=
  if regionOf b a = some .resPay ∨ storeMask b a = 0 then some 0 else none

/-- The listed byte of an offset. -/
def memFind : Memory → Nat → Option Byte
  | [], _ => none
  | c :: m, a => if c.1 = a then some c.2 else memFind m a

/-- The memory without an offset. -/
def memErase : Memory → Nat → Memory
  | [], _ => []
  | c :: m, a => if c.1 = a then m else c :: memErase m a

/-- The memory with an offset listed in its place. -/
def memInsert : Memory → Nat → Byte → Memory
  | [], a, b => [(a, b)]
  | c :: m, a, b => if a < c.1 then (a, b) :: c :: m else if a = c.1 then (a, b) :: m else c :: memInsert m a b

/-- Store one byte, only its held bits, keeping the canonical form. -/
def memPut (b : Build) (m : Memory) (a : Nat) (v : Byte) : Memory :=
  if unlisted b a = some (v &&& storeMask b a) then memErase m a else memInsert m a (v &&& storeMask b a)

/-- Store consecutive bytes. -/
def memPutBytes (b : Build) (m : Memory) (a : Nat) : List Byte → Memory
  | [] => m
  | v :: vs => memPutBytes b (memPut b m a v) (a + 1) vs

/-- The byte an offset holds, or `none` where nothing has written since reset (R116). -/
def memPeek (b : Build) (m : Memory) (a : Nat) : Option Byte :=
  match memFind m a with
  | some v => some v
  | none => unlisted b a

/-- Read one byte; where nothing has written, the next draw, its held bits only (R116, I-3, log 9). The second result is
the count of draws afterwards. -/
def memGet (b : Build) (m : Memory) (draws a : Nat) : Byte × Nat :=
  match memPeek b m a with
  | some v => (v, draws)
  | none => (Config.draw draws &&& storeMask b a, draws + 1)

/-- Read the bytes at a list of offsets, in order. -/
def memGets (b : Build) (m : Memory) (draws : Nat) : List Nat → List Byte × Nat
  | [] => ([], draws)
  | a :: as =>
    let g := memGet b m draws a
    let r := memGets b m g.2 as
    (g.1 :: r.1, r.2)

/-- The four bytes of a word, the lowest offset first (R106). -/
def wordBytes (w : Word) : List Byte :=
  [w.extractLsb' 0 8, w.extractLsb' 8 8, w.extractLsb' 16 8, w.extractLsb' 24 8]

/-- The word of bytes, the first in [7:0] (R102, R106). -/
def wordOfBytes (bs : List Byte) : Word :=
  bs.foldr (fun b w => (w <<< 8) ||| b.setWidth 32) 0

/-- Store a word (R105, R106). -/
def memPutWord (b : Build) (m : Memory) (a : Nat) (w : Word) : Memory := memPutBytes b m a (wordBytes w)

/-- Read a word (R104, R106). -/
def memGetWord (b : Build) (m : Memory) (draws a : Nat) : Word × Nat :=
  let g := memGets b m draws [a, a + 1, a + 2, a + 3]
  (wordOfBytes g.1, g.2)

/-- The memory with a region as it reads when nothing is listed in it. -/
def memClear (b : Build) (m : Memory) (r : Region) : Memory := m.filter fun c => !inRegion b r c.1

/-- A listed cell is canonical: it holds only held bits and is not what the offset reads as unlisted. -/
def cellOk (b : Build) (c : Host.Cell) : Bool :=
  decide (c.2 &&& storeMask b c.1 = c.2) && decide (unlisted b c.1 ≠ some c.2)

/-- The canonical form of the memory: offsets strictly rising, every cell canonical. -/
def Memory.wf (b : Build) (m : Memory) : Bool := decide (m.Pairwise fun x y => x.1 < y.1) && m.all (cellOk b)

/-! ## Updates of the state -/

def State.setResp (s : State) (v : Word) : State := { s with resp := v }
def State.setTxCfg (s : State) (v : Word) : State := { s with txCfg := v }
def State.setTxProps (s : State) (v : Word) : State := { s with txProps := v }
def State.setRxCfg (s : State) (v : Word) : State := { s with rxCfg := v }
def State.setRxCtx (s : State) (v : Word) : State := { s with rxCtx := v }
def State.setTx (s : State) (v : TxUnit) : State := { s with tx := v }
def State.setRx (s : State) (v : RxUnit) : State := { s with rx := v }
def State.setMem (s : State) (v : Memory) : State := { s with mem := v }
def State.setDraws (s : State) (v : Nat) : State := { s with draws := v }
def State.setHost (s : State) (v : List Access) : State := { s with host := v }
def State.setRdata (s : State) (v : Option Word) : State := { s with rdata := v }

/-- `respond(status)` (R57, R401): RESP is written, is_last and samples_written are 0. -/
def respond (st : Status) (s : State) : State := s.setResp (respWord st false 0)

/-! ## The event pause and RESET -/

/-- `post_event` (R328, R410): the result record is written and `evt` set; nothing else is saved or changed. -/
def postEvent (hdrValid payValid : Bool) (payload : List Byte) (s : State) : State :=
  let r := s.rx
  (s.setRx { r with
    resFlags := eventFlags hdrValid payValid
    resHdr := r.hb.take hUser
    resPaylen := if hdrValid then r.plLen else 0
    resBytes := if hdrValid then r.plLen else 0
    resSnr := r.snrDb
    resRssi := r.rssiDb
    resCtx := r.ctx
    evt := true }).setMem
      (if hdrValid then memPutBytes s.build s.mem (regionBase .resPay) payload else s.mem)

/-- What `reset_fsm` does to the RX record (R330): every field marked (R) in R75 takes its bracketed value and the state
is SEEK_PREAMBLE; the fields R330 names as left unchanged are. -/
def resetRecord (r : RxUnit) : RxUnit :=
  { RxUnit.reset with
    created := r.created
    M := r.M
    G := r.G
    L := r.L
    ctx := r.ctx
    alloc := r.alloc
    D := r.D
    PL := r.PL
    ND := r.ND
    NPL := r.NPL
    NH := r.NH
    s0t := r.s0t
    e0 := r.e0
    s1 := r.s1
    hist := List.replicate (2 * r.L) Cplx.zero
    sb := List.replicate r.L Cplx.zero
    H := List.replicate r.M Cplx.zero
    evt := r.evt
    execN := r.execN
    pos := r.pos }

/-- `reset_fsm` (R330): the RESET state, entered and left at once; `res_pay` is zeroed too. -/
def resetFsm (s : State) : State := (s.setRx (resetRecord s.rx)).setMem (memClear s.build s.mem .resPay)

/-- The platform's hardware reset between two accesses (R450): the whole block as at reset, of the build it is; the host's
queue, the count of draws and the last word read are not the block's (log 22). -/
def hardwareReset (s : State) : State :=
  { State.resetOf s.build with draws := s.draws, host := s.host, rdata := s.rdata }

end Sys2Proof.Machine
end

