-- ==== Sys2Proof/Machine/Operands.lean ====
section
/-! DEFINITION. The operands of the commands (R153): the configuration registers' fields (R58, R59), the legality checks
(R205, R231, R232), and the allocation table argument with its validity (R170, R202, R212). -/

namespace Sys2Proof.Machine

/-- M, bits 15:0 of TX_CFG or RX_CFG (R58, R65). -/
def cfgM (w : Word) : Nat := (w.extractLsb' 0 16).toNat

/-- G, bits 31:16 of TX_CFG or RX_CFG (R58, R65). -/
def cfgG (w : Word) : Nat := (w.extractLsb' 16 16).toNat

/-- `legal_M(M)` (R205). -/
def legalM (b : Build) (m : Nat) : Bool := decide (m % 2 = 0) && decide (mMin ≤ m) && decide (m ≤ b.mMax)

/-- The first creation check (R231, R301): a legal M and `G <= M`. -/
def legalMG (b : Build) (m g : Nat) : Bool := legalM b m && decide (g ≤ m)

/-- The fields of TX_PROPS (R59). -/
structure Props where
  crc : Nat
  fi : Nat
  fo : Nat
  mm : Nat
  md : Nat
  npre : Nat
deriving DecidableEq, Repr

/-- The fields of a TX_PROPS word (R59). -/
def propsOf (w : Word) : Props :=
  { crc := (w.extractLsb' 0 4).toNat
    fi := (w.extractLsb' 4 4).toNat
    fo := (w.extractLsb' 8 4).toNat
    mm := (w.extractLsb' 12 4).toNat
    md := (w.extractLsb' 16 4).toNat
    npre := (w.extractLsb' 20 4).toNat }

/-- The bits of TX_PROPS that hold anything (R59). -/
def propsMask : Word := 0x00FFFFFF

/-- The pair is in MODSET (R177). -/
def legalPair (b : Build) (mm md : Nat) : Bool := b.modset.contains (mm, md)

/-- `legal_props(p)` (R232). -/
def legalProps (b : Build) (p : Props) : Bool :=
  decide (p.crc ≤ 5) && decide (p.fi ≤ 3) && decide (p.fo ≤ 3) && legalPair b p.mm p.md && decide (p.npre = nPre)

/-- The code of a role (R170). -/
def roleCode : Role → Byte
  | .null => 0
  | .pilot => 1
  | .data => 2

/-- The role of a code; code 3 is no role and a table that holds it is refused first (R170, R212). -/
def roleOfCode (b : Byte) : Role :=
  if b = 1 then .pilot else if b = 2 then .data else .null

/-- `valid_alloc(t)` on role codes (R212). -/
def validAlloc (t : List Byte) : Bool :=
  t.all (fun b => decide (b.toNat ≤ 2)) && decide (1 ≤ t.count 1) && decide (1 ≤ t.count 2)

/-- The default table's role at subcarrier `k` (R202): with `i = |f(k)|`, used are `1 <= i <= M/2 - Gd - 1`, and the pilots
are where `i + P_PILOT/2` is a multiple of P_PILOT. -/
def defaultRole (m k : Nat) : Role :=
  let m2 := m / 2
  let gd := max 2 (m / 16)
  let i := if k < m2 then k else m - k
  if 1 ≤ i ∧ i + gd + 1 ≤ m2 then (if (i + pPilot / 2) % pPilot = 0 then .pilot else .data) else .null

/-- `init_default(M)` (R202). -/
def initDefault (m : Nat) : List Role := (List.range m).map (defaultRole m)

/-- The offset of ALLOC word `k` (R101); its role code is in the byte at that offset. -/
def allocAddr (k : Nat) : Nat := regionBase .alloc + 4 * k

/-- ALLOC entries 0..M−1 (R111), with the count of draws afterwards. -/
def allocCodes (s : State) (m : Nat) : List Byte × Nat := memGets s.build s.mem s.draws ((List.range m).map allocAddr)

/-- The table argument of a CREATE (R153): `init_default(M)` or ALLOC entries 0..M−1. -/
def tableArg (useDefault : Bool) (m : Nat) (s : State) : List Byte × Nat :=
  if useDefault then ((initDefault m).map roleCode, s.draws) else allocCodes s m

/-- The increasing list of the indices that have a role (R74). -/
def indicesOf (r : Role) (alloc : List Role) : List Nat :=
  (List.range alloc.length).filter fun k => decide (alloc[k]? = some r)

end Sys2Proof.Machine
end

