-- ==== Sys2Proof/Machine/Numeric.lean ====
section
/-! DEFINITION. Numbers: values taken from the bus (R16), the primitives of R13 and R14, and the OFDM symbol and its
transforms (R17 to R19). Every computation goes through a numeric implementation `N` (R15); the machine's is `Config.num`. -/

namespace Sys2Proof

open Machine

/-! ## Values on the bus -/

/-- A rational value as NUM takes it in: exactly when NUM can hold it (R16). The samples, and every constant, parameter and
integer of a formula (1/2, 10, M, L, ND, DETECT_THRESHOLD, TRACK_GAIN, …) enter this way: DESIGN CHOICE, log 6. -/
def Num.ofRat (N : Num) (q : ℚ) : Scalar := if N.holds q then .rat q else N.approx q

/-- `b32(x)` (R16, D49): the binary32 word a value of NUM is rounded to on the bus. -/
def Num.toWord (N : Num) : Scalar → Word
  | .rat q => f32Round q
  | .other n => N.otherWord n

namespace Machine

/-- A finite bus value taken into NUM (R16). -/
def numOfWord (N : Num) (w : Word) : Scalar := N.ofRat (f32Value w)

/-! ## Real and complex primitives -/

/-- `max(x, y)` as NUM compares. -/
def maxN (N : Num) (x y : Scalar) : Scalar := if N.lt x y then y else x

/-- `min(x, y)` as NUM compares. -/
def minN (N : Num) (x y : Scalar) : Scalar := if N.lt y x then y else x

/-- `clamp(x, lo, hi) = min(hi, max(lo, x))` (R13). -/
def clamp (N : Num) (x lo hi : Scalar) : Scalar := minN N hi (maxN N lo x)

/-- `conj(z)` (R13). -/
def conj (N : Num) (z : Cplx) : Cplx := ⟨z.re, N.neg z.im⟩

/-- `2*pi*p/q`, bracketed ((2*pi)*p)/q (log 17). -/
def turns (N : Num) (p q : Scalar) : Scalar := N.div (N.mul (N.mul (N.ofRat 2) N.pi) p) q

/-- `f(k)` (R14): the signed frequency of subcarrier `k`. -/
def freq (m k : Nat) : Int := if k < m / 2 then (k : Int) else (k : Int) - (m : Int)

/-! ## The OFDM symbol -/

/-- `IDFT_M(X)` (R18). The product `k*n` is formed exactly, as an integer, before NUM sees it: DESIGN CHOICE, log 17. -/
def idft (N : Num) (X : List Cplx) : List Cplx :=
  let m := X.length
  (List.range m).map fun n =>
    N.cscale (N.div (N.ofRat 1) (N.ofRat m))
      (N.csum (X.zipIdx.map fun p => N.cmul p.1 (N.cexp (turns N (N.ofRat (p.2 * n : Nat)) (N.ofRat m)))))

/-- `DFT_M(y)` (R18). The product `k*n` is formed exactly, as an integer, before NUM sees it: DESIGN CHOICE, log 17. -/
def dft (N : Num) (y : List Cplx) : List Cplx :=
  let m := y.length
  (List.range m).map fun k =>
    N.csum (y.zipIdx.map fun p => N.cmul p.1 (N.cexp (N.neg (turns N (N.ofRat (k * p.2 : Nat)) (N.ofRat m)))))

/-- `ofdm(X)` (R17): the inverse transform behind a copy of its last G samples. -/
def ofdm (N : Num) (g : Nat) (X : List Cplx) : List Cplx :=
  let b := idft N X
  b.drop (b.length - g) ++ b

/-- `strip(sb)` (R19). -/
def strip (g m : Nat) (sb : List Cplx) : List Cplx := (sb.drop g).take m

end Machine

end Sys2Proof
end

