-- ==== Sys2Proof/Machine/Frame.lean ====
section
/-! DEFINITION. The frame (Part B of the encodings): the code chains of header and payload (R178 to R180, R234, R235), the
symbol counts (R6, R242), the training vectors (R184, R185) and the symbol vectors (R186, R187, R237). -/

namespace Sys2Proof.Machine

variable {N : Num} {ms : List (Nat × Nat)} (X : Ext N ms)

/-! ## Counts -/

/-- `NH = ceil(HDR_CODED_BITS / ND)` (R6). -/
def headerSymbols (nd : Nat) : Nat := ceilDiv hdrCodedBits nd

/-- `PBITS`, the coded payload length (R178, R242). -/
def payloadBits (crc fi fo len : Nat) : Nat := encLen fi (encLen fo (8 * len + crcLen crc))

/-- `NP = max(1, ceil(ceil(PBITS / md) / ND))` (R242). -/
def payloadSymbols (nd md pbits : Nat) : Nat := max 1 (ceilDiv (ceilDiv pbits md) nd)

/-! ## Code chains -/

/-- The 13-byte header block (R179, R234). -/
def headerBytes (uh : List Byte) (len : Nat) (p : Props) : List Byte :=
  uh ++ [BitVec.ofNat 8 (len / 256), BitVec.ofNat 8 (len % 256), BitVec.ofNat 8 (p.mm * 16 + p.md),
    BitVec.ofNat 8 (p.crc * 32 + p.fi), BitVec.ofNat 8 p.fo]

/-- The header code chain (R180): CRC16, then HAMMING74. -/
def headerChain (hd : List Byte) : Bits := X.fecEnc hdrFec (bits hd ++ X.crc hdrCrc hd)

/-- `header_code(UH, len)` (R234). -/
def headerCode (uh : List Byte) (len : Nat) (p : Props) : Bits := headerChain X (headerBytes uh len p)

/-- The payload code chain up to the coded bits `pc` (R178): CRC, then the outer code, then the inner code. Each code pads
its input with zeros to whole blocks (R176: `fecEnc_pad` of Ext). -/
def payloadChain (crc fi fo : Nat) (pb : List Byte) : Bits :=
  X.fecEnc fi (X.fecEnc fo (bits pb ++ X.crc crc pb))

/-- `payload_code(PB)` (R178, R235): the symbol indices. -/
def payloadCode (p : Props) (pb : List Byte) : List Nat :=
  group p.md (payloadChain X p.crc p.fi p.fo pb)

/-! ## Training vectors -/

/-- Put `1 - 2*b` for the successive bits `b` on the active subcarriers, 0 on the NULL ones (R184, R185). -/
def placeTraining : List Role → Bits → List Cplx
  | [], _ => []
  | .null :: rs, bs => Cplx.zero :: placeTraining rs bs
  | _ :: rs, [] => Cplx.zero :: placeTraining rs []
  | _ :: rs, b :: bs => (if b then Cplx.negOne else Cplx.one) :: placeTraining rs bs

/-- `NA`, the number of active subcarriers (R6). -/
def activeCount (alloc : List Role) : Nat := alloc.countP fun r => decide (r ≠ .null)

/-- S0 (R184). -/
def trainShort (alloc : List Role) : List Cplx := placeTraining alloc (pn seedS0 (activeCount alloc))

/-- S1 (R185). -/
def trainLong (alloc : List Role) : List Cplx := placeTraining alloc (pn seedS1 (activeCount alloc))

/-! ## Symbol vectors -/

/-- A header or payload symbol's vector (R186, R187): 0 on NULL, the pilot value 1 on PILOT (R188), and on the `i`-th DATA
subcarrier the point `f i`. -/
def dataVector (alloc : List Role) (D : List Nat) (f : Nat → Cplx) : List Cplx :=
  (List.range alloc.length).map fun k =>
    match alloc.getD k .null with
    | .pilot => Cplx.one
    | .data => f (D.idxOf k)
    | .null => Cplx.zero

/-- Header symbol `h` (R186, padding R189). -/
def headerVector (u : TxUnit) (h : Nat) : List Cplx :=
  dataVector u.alloc u.D fun i =>
    let q := h * u.ND + i
    if q < hdrCodedBits then X.mod 1 1 (u.hc.getD q false).toNat else X.mod 1 1 0

/-- Payload symbol `p` (R187, padding R189). -/
def payloadVector (u : TxUnit) (p : Nat) : List Cplx :=
  dataVector u.alloc u.D fun i =>
    let q := p * u.ND + i
    if q < u.pu.length then X.mod u.mm u.md (u.pu.getD q 0) else X.mod u.mm u.md 0

/-- `symbol_vector(c)` (R237). -/
def symbolVector (u : TxUnit) (c : Nat) : List Cplx :=
  if c < nShort then trainShort u.alloc
  else if c < nPre then trainLong u.alloc
  else if c < nPre + u.NH then headerVector X u (c - nPre)
  else payloadVector X u (c - nPre - u.NH)

/-- `T`, the symbols of a frame (R181, R236). -/
def frameSymbols (u : TxUnit) : Nat := nPre + u.NH + u.NP

/-- `state_of(c)` (R238). -/
def txStateOf (u : TxUnit) (c : Nat) : TxState :=
  if c < nPre then .writePreamble
  else if c < nPre + u.NH then .writeHeader
  else if c < frameSymbols u then .writePayload
  else .done

/-- The words of a complex sample on the bus (R103, R110), real part first. -/
def sampleBytes (N : Num) (z : Cplx) : List Byte := wordBytes (N.toWord z.re) ++ wordBytes (N.toWord z.im)

end Sys2Proof.Machine
end

