-- ==== Sys2Proof/Machine/Estimation.lean ====
section
/-! DEFINITION. The synchronizer's computations (R360 to R382): detection, timing, frequency offset, channel, equalization,
tracking, statistics, decoding. Pure functions of the RX record, over a numeric implementation `N` and collaborators `X`. -/

namespace Sys2Proof.Machine

/-! ## Detection and timing -/

/-- `push(x)` (R361). -/
def push (x : Cplx) (r : RxUnit) : RxUnit :=
  { r with hist := r.hist.drop 1 ++ [x], fill := min (r.fill + 1) (2 * r.L) }

/-- The correlation of a window against `s0t`, normalized by both energies (R362). -/
def correlation (N : Num) (s0t : List Cplx) (e0 : Scalar) (w : List Cplx) : Scalar :=
  let c := N.csum (List.zipWith (fun s x => N.cmul (conj N s) x) s0t w)
  let ew := N.sum (w.map N.normSq)
  if N.lt .zero (N.mul e0 ew) then N.div (N.normSq c) (N.mul e0 ew) else .zero

/-- `rho()` (R362): the window is the L newest samples (R360). -/
def rho (N : Num) (r : RxUnit) : Scalar := correlation N r.s0t r.e0 (r.hist.drop r.L)

/-- `interp(a, b, c)` (R365). -/
def interp (N : Num) (a b c : Scalar) : Scalar :=
  let den := N.add (N.sub a (N.mul (N.ofRat 2) b)) c
  let t := if N.eq den .zero then .zero else N.div (N.mul (N.ofRat (1 / 2)) (N.sub a c)) den
  clamp N t (N.ofRat (-1 / 2)) (N.ofRat (1 / 2))

/-- `cfo_estimate()` (R366). -/
def cfoEstimate (N : Num) (r : RxUnit) : Scalar :=
  let p := N.csum (List.zipWith (fun y x => N.cmul y (conj N x)) (r.hist.drop r.L) r.hist)
  N.div (N.arg p) (N.ofRat r.L)

/-- `nco(x)` (R367): the derotated sample. -/
def ncoSample (N : Num) (phi : Scalar) (x : Cplx) : Cplx := N.cmul x (N.cexp (N.neg phi))

/-- The NCO phase after one sample (R367). -/
def ncoPhase (N : Num) (phi nuHat : Scalar) : Scalar := N.wrap (N.add phi nuHat)

/-! ## Channel and equalizer -/

/-- A complex entry of a vector. -/
def at0 (v : List Cplx) (k : Nat) : Cplx := v.getD k Cplx.zero

/-- The pilot with the largest `f(p) < f(k)` (R371). -/
def pilotBelow (m : Nat) (pl : List Nat) (k : Nat) : Option Nat :=
  pl.foldl (fun acc p =>
    if freq m p < freq m k then
      match acc with
      | none => some p
      | some q => if freq m q < freq m p then some p else some q
    else acc) none

/-- The pilot with the smallest `f(p) > f(k)` (R371). -/
def pilotAbove (m : Nat) (pl : List Nat) (k : Nat) : Option Nat :=
  pl.foldl (fun acc p =>
    if freq m k < freq m p then
      match acc with
      | none => some p
      | some q => if freq m p < freq m q then some p else some q
    else acc) none

/-- `interpolate(k)` (R371) from the pilot gains `h`. -/
def interpolate (N : Num) (m : Nat) (pl : List Nat) (h : Nat → Cplx) (k : Nat) : Cplx :=
  match pilotBelow m pl k, pilotAbove m pl k with
  | some a, some b =>
    N.cadd (h a) (N.cscale
      (N.div (N.ofRat (freq m k - freq m a : Int)) (N.ofRat (freq m b - freq m a : Int))) (N.csub (h b) (h a)))
  | some a, none => h a
  | none, some b => h b
  | none, none => Cplx.zero

/-- `channel_estimate(Y)` (R370). -/
def channelEstimate (N : Num) (r : RxUnit) (Y : List Cplx) : List Cplx :=
  let gain := fun k => N.cdiv (at0 Y k) (at0 r.s1 k)
  (List.range r.M).map fun k =>
    match r.alloc.getD k .null with
    | .pilot => gain k
    | .data => interpolate N r.M r.PL gain k
    | .null => Cplx.zero

/-- One equalized value (R372): 0 where the gain is 0. -/
def equalizeAt (N : Num) (m : Nat) (tauHat theta : Scalar) (y h : Cplx) (k : Nat) : Cplx :=
  if N.isZero h then Cplx.zero
  else
    N.cmul (N.cmul (N.cdiv y h)
      (N.cexp (N.neg (turns N (N.mul (N.ofRat (freq m k : Int)) tauHat) (N.ofRat m))))) (N.cexp (N.neg theta))

/-- `equalize(Y)` (R372). NULL subcarriers are not equalized; the vector holds 0 there and no rule reads it. -/
def equalize (N : Num) (r : RxUnit) (Y : List Cplx) : List Cplx :=
  (List.range r.M).map fun k =>
    match r.alloc.getD k .null with
    | .null => Cplx.zero
    | _ => equalizeAt N r.M r.tauHat r.theta (at0 Y k) (at0 r.H k) k

/-- `track(Z)` (R374): theta for the next symbol. TRACK_GAIN and TRACK_CAP enter NUM by `Num.ofRat` (DESIGN CHOICE, log 6). -/
def trackTheta (b : Build) (N : Num) (pl : List Nat) (theta : Scalar) (Z : List Cplx) : Scalar :=
  let e := N.arg (N.csum (pl.map fun k => N.cmul (at0 Z k) (conj N Cplx.one)))
  let delta := clamp N (N.mul (N.ofRat b.trackGain) e) (N.ofRat (-b.trackCap)) (N.ofRat b.trackCap)
  N.wrap (N.add theta delta)

/-! ## Statistics -/

/-- A bound of ±STAT_CLAMP_DB (R376, R377). -/
def clampDb (b : Build) (N : Num) (x : Scalar) : Scalar :=
  clamp N x (N.ofRat (-b.statClampDb)) (N.ofRat b.statClampDb)

/-- `rssi(sb)` (R376). -/
def rssi (b : Build) (N : Num) (m g : Nat) (sb : List Cplx) : Scalar :=
  let p := N.mul (N.div (N.ofRat 1) (N.ofRat m)) (N.sum ((sb.drop g).map N.normSq))
  if N.eq p .zero then N.ofRat (-b.statClampDb) else clampDb b N (N.mul (N.ofRat 10) (N.log10 p))

/-- `snr(Y, H)` (R377). -/
def snr (b : Build) (N : Num) (r : RxUnit) (Y H : List Cplx) : Scalar :=
  let s := N.mul (N.div (N.ofRat 1) (N.ofRat r.ND)) (N.sum (r.D.map fun k => N.normSq (at0 H k)))
  let n := N.mul (N.div (N.ofRat 1) (N.ofRat r.ND))
    (N.sum (r.D.map fun k => N.normSq (N.csub (at0 Y k) (N.cmul (at0 H k) (at0 r.s1 k)))))
  if N.eq s .zero then N.ofRat (-b.statClampDb)
  else if N.eq n .zero then N.ofRat b.statClampDb
  else clampDb b N (N.mul (N.ofRat 10) (N.log10 (N.div s n)))

/-! ## Decoding -/

/-- `crc_ok(s, B, c)` (R21). -/
def crcOk {N : Num} {ms : List (Nat × Nat)} (X : Ext N ms) (s : Nat) (b : List Byte) (c : Bits) : Bool := decide (X.crc s b = c)

/-- A byte of the header block as a number. -/
def hdrByte (hb : List Byte) (i : Nat) : Nat := (hb.getD i 0).toNat

/-- The payload length field, bytes 8 and 9 (R179, R381). -/
def hdrLen (hb : List Byte) : Nat := hdrByte hb 8 * 256 + hdrByte hb 9

/-- The property fields of a header (R381). They carry no num_preamble_symbols; `npre` is the only legal one. -/
def hdrProps (hb : List Byte) : Props :=
  { mm := hdrByte hb 10 / 16
    md := hdrByte hb 10 % 16
    crc := hdrByte hb 11 / 32
    fi := hdrByte hb 11 % 32
    fo := hdrByte hb 12 % 32
    npre := nPre }

/-- `fields_legal(hb)` (R380). -/
def fieldsLegal (b : Build) (hb : List Byte) : Bool :=
  legalProps b (hdrProps hb) && decide (hdrByte hb 12 / 32 = 0) && decide (hdrLen hb ≤ b.payloadMax)

/-- `header_decode(cbits)` (R380). -/
def headerDecode (b : Build) {N : Num} {ms : List (Nat × Nat)} (X : Ext N ms) (cbits : Bits) : Bool × List Byte :=
  let hm := X.fecDec hdrFec hdrBlockBits cbits
  let hb := bytes (hm.take 104)
  (crcOk X hdrCrc hb (hm.drop 104) && fieldsLegal b hb, hb)

/-- `payload_decode(cbits)` (R382). -/
def payloadDecode {N : Num} {ms : List (Nat × Nat)} (X : Ext N ms) (len crc fi fo : Nat) (cbits : Bits) : Bool × List Byte :=
  let npm := 8 * len + crcLen crc
  let npo := encLen fo npm
  let po := X.fecDec fi npo cbits
  let pm := X.fecDec fo npm po
  let pb := bytes (pm.take (8 * len))
  (crcOk X crc pb (pm.drop (8 * len)), pb)

end Sys2Proof.Machine
end

