-- ==== Sys2Proof/Machine/Allocator.lean ====
section
/-! DEFINITION. The allocator commands: NOP (R200), ALLOC_DEFAULT (R201), ALLOC_VALIDATE (R212). -/

namespace Sys2Proof.Machine

/-- Write role codes into ALLOC entries from `k` on (R101, R201): one word each. -/
def putAlloc (b : Build) (m : Memory) (k : Nat) : List Role → Memory
  | [] => m
  | r :: rs => putAlloc b (memPutWord b m (allocAddr k) ((roleCode r).setWidth 32)) (k + 1) rs

/-- `ALLOC_DEFAULT` as a change of state (R201). -/
def allocDefault (m : Nat) (s : State) : State :=
  if legalM s.build m then respond .ok (s.setMem (putAlloc s.build s.mem 0 (initDefault m)))
  else respond .configurationError s

/-- `ALLOC_VALIDATE` as a change of state (R212); a word the host never wrote is a draw (R116). -/
def allocValidate (m : Nat) (s : State) : State :=
  if legalM s.build m then
    let t := allocCodes s m
    respond (if validAlloc t.1 then .ok else .invalidAllocation) (s.setDraws t.2)
  else respond .configurationError s

/-- NOP (R200): every ARG is accepted and ignored. -/
def execNop (_arg : Nat) (s : State) : Host.Outcome State Fault Refusal := .next (respond .ok s)

/-- ALLOC_DEFAULT (R201). -/
def execAllocDefault (m : Nat) (s : State) : Host.Outcome State Fault Refusal := .next (allocDefault m s)

/-- ALLOC_VALIDATE (R212). -/
def execAllocValidate (m : Nat) (s : State) : Host.Outcome State Fault Refusal := .next (allocValidate m s)

end Sys2Proof.Machine
end

