-- ==== Sys2Proof/Machine/Generator.lean ====
section
/-! DEFINITION. The generator commands: TX_CREATE (R230, R231), TX_ASSEMBLE (R233), TX_WRITESYMBOL (R236), TX_DESTROY (R239). -/

namespace Sys2Proof.Machine

/-- The TX record a successful TX_CREATE leaves (R230). What it does not assign keeps its value. -/
def txCreated (u : TxUnit) (m g : Nat) (t : List Role) (p : Props) : TxUnit :=
  let d := indicesOf .data t
  let pl := indicesOf .pilot t
  { u with
    created := true
    M := m
    G := g
    L := m + g
    alloc := t
    D := d
    PL := pl
    ND := d.length
    NPL := pl.length
    NH := headerSymbols d.length
    crc := p.crc
    fi := p.fi
    fo := p.fo
    mm := p.mm
    md := p.md
    state := .done
    symcnt := 0
    NP := 0
    paylen := 0 }

/-- `TX_CREATE` as a change of state (R230), its checks in the order of R231. -/
def txCreate (useDefault : Bool) (s : State) : State :=
  let m := cfgM s.txCfg
  let g := cfgG s.txCfg
  if legalMG s.build m g then
    let t := tableArg useDefault m s
    let s1 := s.setDraws t.2
    if validAlloc t.1 && legalProps s.build (propsOf s.txProps) then
      respond .ok (s1.setTx (txCreated s.tx m g (t.1.map roleOfCode) (propsOf s.txProps)))
    else respond .configurationError s1
  else respond .configurationError s

/-- The TX record a successful TX_ASSEMBLE leaves (R233). -/
def txAssembled {N : Num} {ms : List (Nat × Nat)} (X : Ext N ms) (u : TxUnit) (p : Props) (uh pb : List Byte)
    (len : Nat) : TxUnit :=
  { u with
    crc := p.crc
    fi := p.fi
    fo := p.fo
    mm := p.mm
    md := p.md
    hc := headerCode X uh len p
    pu := payloadCode X p pb
    NP := payloadSymbols u.ND p.md (payloadBits p.crc p.fi p.fo len)
    paylen := len
    symcnt := 0
    state := .writePreamble }

/-- The bytes TX_ASSEMBLE reads (R111): TX_HDR bytes 0..7, then TX_PAY bytes 0..len−1. -/
def txBytes (s : State) (len : Nat) : List Byte × List Byte × Nat :=
  let h := memGets s.build s.mem s.draws ((List.range hUser).map (regionBase .txHdr + ·))
  let b := memGets s.build s.mem h.2 ((List.range len).map (regionBase .txPay + ·))
  (h.1, b.1, b.2)

/-- `TX_ASSEMBLE` as a change of state (R233). -/
def txAssemble (len : Nat) (s : State) : State :=
  if !s.tx.created then respond .notCreated s
  else if s.build.payloadMax < len then respond .payloadTooLarge s
  else if !legalProps s.build (propsOf s.txProps) then respond .configurationError s
  else
    let b := txBytes s len
    respond .ok ((s.setDraws b.2.2).setTx (txAssembled (Config.ext s.build.modset) s.tx (propsOf s.txProps) b.1 b.2.1 len))

/-- The samples of the next symbol (R236): the first L of `ofdm(symbol_vector(c))`. -/
def txSymbol (N : Num) {ms : List (Nat × Nat)} (X : Ext N ms) (u : TxUnit) : List Cplx :=
  (ofdm N u.G (symbolVector X u u.symcnt)).take u.L

/-- `TX_WRITESYMBOL` as a change of state (R236). -/
def txWriteSymbol (s : State) : State :=
  if !s.tx.created then respond .notCreated s
  else if s.tx.state = .done then respond .notAssembled s
  else
    let u := s.tx
    let c := u.symcnt
    let z := txSymbol Config.num (Config.ext s.build.modset) u
    ((s.setMem (memPutBytes s.build s.mem (regionBase .txSym) (z.flatMap (sampleBytes Config.num)))).setTx
      { u with symcnt := c + 1, state := txStateOf u (c + 1) }).setResp
        (respWord .ok (decide (c + 1 = frameSymbols u)) u.L)

/-- `TX_DESTROY` as a change of state (R239). -/
def txDestroy (s : State) : State :=
  if !s.tx.created then respond .notCreated s
  else respond .ok (s.setTx TxUnit.reset)

/-- TX_CREATE (R230). -/
def execTxCreate (useDefault : Bool) (s : State) : Host.Outcome State Fault Refusal := .next (txCreate useDefault s)

/-- TX_ASSEMBLE (R233). -/
def execTxAssemble (len : Nat) (s : State) : Host.Outcome State Fault Refusal := .next (txAssemble len s)

/-- TX_WRITESYMBOL (R236). -/
def execTxWriteSymbol (s : State) : Host.Outcome State Fault Refusal := .next (txWriteSymbol s)

/-- TX_DESTROY (R239). -/
def execTxDestroy (s : State) : Host.Outcome State Fault Refusal := .next (txDestroy s)

end Sys2Proof.Machine
end

