-- ==== Sys2Proof/Machine/Synchronizer.lean ====
section
/-! DEFINITION. The synchronizer: the per-sample step and its state machine (R308, R320 to R330), the consumption loop (R304)
and the commands RX_CREATE (R300), RX_EXECUTE (R303), RX_ACK (R305), RX_DESTROY (R306). -/

namespace Sys2Proof.Machine

/-! ## The per-sample step -/

/-- `seek_step(x)` (R321). -/
def seekStep (b : Build) (N : Num) (x : Cplx) (r0 : RxUnit) : RxUnit :=
  let r := push x r0
  if r.L ≤ r.fill then
    let p := rho N r
    let r1 :=
      if N.lt (N.ofRat b.detectThreshold) p then
        { r with pkVal := p, pkOff := 0, pkM1 := r.rhoPrev, pkP1 := .zero, jj := 0, state := .trainingShort }
      else r
    { r1 with rhoPrev := p }
  else r

/-- The peak search of one sample (R322, R364): the update is tested before the capture of the next value. -/
def peakSearch (N : Num) (p : Scalar) (r : RxUnit) : RxUnit :=
  let r1 := if r.jj ≤ r.L - 1 ∧ N.lt r.pkVal p = true then { r with pkVal := p, pkOff := r.jj, pkM1 := r.rhoPrev } else r
  let r2 := if r1.jj = r1.pkOff + 1 then { r1 with pkP1 := p } else r1
  { r2 with rhoPrev := p }

/-- `short_step(x)` (R322). -/
def shortStep (N : Num) (x : Cplx) (r0 : RxUnit) : RxUnit :=
  let r := push x { r0 with jj := r0.jj + 1 }
  let r3 := peakSearch N (rho N r) r
  if r3.jj = r3.pkOff + (nShort - 1) * r3.L then
    { r3 with
      tauFrac := interp N r3.pkM1 r3.pkVal r3.pkP1
      nuHat := cfoEstimate N r3
      phi := .zero
      sbn := 0
      state := .trainingLong }
  else r3

/-- `long_symbol(Y)` (R324, R378). -/
def longSymbol (b : Build) (N : Num) (Y : List Cplx) (r : RxUnit) : RxUnit :=
  let h := channelEstimate N r Y
  { r with
    H := h
    rssiDb := rssi b N r.M r.G r.sb
    snrDb := snr b N r Y h
    theta := .zero
    tauHat := .zero
    nuRes := .zero
    sym := 0
    cbits := []
    state := .header }

/-- The header bits of one symbol appended (R325, R373), at most HDR_CODED_BITS in all. -/
def headerBits {N : Num} {ms : List (Nat × Nat)} (X : Ext N ms) (r : RxUnit) (Z : List Cplx) : Bits :=
  r.cbits ++ (r.D.map fun k => decide (X.demod 1 1 (at0 Z k) ≠ 0)).take (hdrCodedBits - r.cbits.length)

/-- The RX record when a header has decoded valid (R325, R381). -/
def headerAccepted (hb : List Byte) (r : RxUnit) : RxUnit :=
  let p := hdrProps hb
  let n := payloadBits p.crc p.fi p.fo (hdrLen hb)
  { r with
    hb := hb
    plLen := hdrLen hb
    plMm := p.mm
    plMd := p.md
    plCrc := p.crc
    plFi := p.fi
    plFo := p.fo
    plBits := n
    NP := payloadSymbols r.ND p.md n
    sym := 0
    cbits := []
    state := .payload }

/-- `header_symbol(Y)` (R325). -/
def headerSymbol {ms : List (Nat × Nat)} (N : Num) (X : Ext N ms) (Y : List Cplx) (s : State) : State :=
  let r := s.rx
  let r1 := { r with cbits := headerBits X r (equalize N r Y), sym := r.sym + 1 }
  if r1.sym = r1.NH then
    let d := headerDecode s.build X r1.cbits
    if d.1 then s.setRx (headerAccepted d.2 r1)
    else postEvent false false [] (s.setRx { r1 with hb := d.2 })
  else s.setRx r1

/-- The payload bits of one symbol appended (R326, R373), at most `pl_bits` in all. -/
def payloadSymbolBits {N : Num} {ms : List (Nat × Nat)} (X : Ext N ms) (r : RxUnit) (Z : List Cplx) : Bits :=
  r.cbits ++ (ungroup r.plMd (r.D.map fun k => X.demod r.plMm r.plMd (at0 Z k))).take (r.plBits - r.cbits.length)

/-- `payload_symbol(Y)` (R326): equalized with theta as it was, then tracked. -/
def payloadSymbol {ms : List (Nat × Nat)} (N : Num) (X : Ext N ms) (Y : List Cplx) (s : State) : State :=
  let r := s.rx
  let Z := equalize N r Y
  let r1 := { r with
    cbits := payloadSymbolBits X r Z
    theta := trackTheta s.build N r.PL r.theta Z
    sym := r.sym + 1 }
  if r1.sym = r1.NP then
    let d := payloadDecode X r1.plLen r1.plCrc r1.plFi r1.plFo r1.cbits
    postEvent true d.1 d.2 (s.setRx r1)
  else s.setRx r1

/-- One derotated sample into the symbol buffer (R323, R367). -/
def collect (N : Num) (x : Cplx) (r : RxUnit) : RxUnit :=
  { r with
    sb := r.sb.set r.sbn (ncoSample N r.phi x)
    sbn := r.sbn + 1
    phi := ncoPhase N r.phi r.nuHat }

/-- `symbol_step(x)` (R323). -/
def symbolStep {ms : List (Nat × Nat)} (N : Num) (X : Ext N ms) (x : Cplx) (s : State) : State :=
  let r := collect N x s.rx
  if r.sbn = r.L then
    let r1 := { r with sbn := 0 }
    let Y := dft N (strip r1.G r1.M r1.sb)
    match r1.state with
    | .trainingLong => s.setRx (longSymbol s.build N Y r1)
    | .header => headerSymbol N X Y (s.setRx r1)
    | .payload => payloadSymbol N X Y (s.setRx r1)
    | _ => s.setRx r1
  else s.setRx r

/-- `step(x)` (R320). It is never called in RESET (R330); there the model performs RESET, which consumes no sample,
and then the step of SEEK_PREAMBLE (log 15). -/
def sampleStep {ms : List (Nat × Nat)} (N : Num) (X : Ext N ms) (x : Cplx) (s : State) : State :=
  match s.rx.state with
  | .seekPreamble => s.setRx (seekStep s.build N x s.rx)
  | .trainingShort => s.setRx (shortStep N x s.rx)
  | .trainingLong => symbolStep N X x s
  | .header => symbolStep N X x s
  | .payload => symbolStep N X x s
  | .reset => (resetFsm s).setRx (seekStep s.build N x (resetFsm s).rx)

/-! ## The consumption loop -/

/-- The two words of RX_SAMP sample `i` (R103, R304), with the count of draws afterwards. -/
def sampleWords (s : State) (i : Nat) : Word × Word × Nat :=
  let re := memGetWord s.build s.mem s.draws (regionBase .rxSamp + 8 * i)
  let im := memGetWord s.build s.mem re.2 (regionBase .rxSamp + 8 * i + 4)
  (re.1, im.1, im.2)

/-- Consume `RX_SAMP[pos]` (R304): `none` when one of its words is a NaN or an infinity (R16, I-2). -/
def consume {ms : List (Nat × Nat)} (N : Num) (X : Ext N ms) (s : State) : Option State :=
  let w := sampleWords s s.rx.pos
  if f32Finite w.1 && f32Finite w.2.1 then
    some (sampleStep N X ⟨numOfWord N w.1, numOfWord N w.2.1⟩
      ((s.setDraws w.2.2).setRx { s.rx with pos := s.rx.pos + 1 }))
  else none

/-- `run()` (R304) over at most `k` samples: it stops right after the sample that posts an event. -/
def runSamples {ms : List (Nat × Nat)} (N : Num) (X : Ext N ms) : Nat → State → Host.Outcome State Fault Refusal
  | 0, s => .next (respond .ok s)
  | k + 1, s =>
    match consume N X s with
    | none => .refused .nonFiniteSample
    | some t => if t.rx.evt then .next (respond .eventPending t) else runSamples N X k t

/-- `run()` (R304): the samples `pos .. exec_n - 1`. -/
def run (s : State) : Host.Outcome State Fault Refusal :=
  runSamples Config.num (Config.ext s.build.modset) (s.rx.execN - s.rx.pos) s

/-! ## The commands -/

/-- The RX record a successful RX_CREATE leaves, before `reset_fsm` (R300). -/
def rxCreated (N : Num) (ctx : Word) (u : RxUnit) (m g : Nat) (t : List Role) : RxUnit :=
  let d := indicesOf .data t
  let pl := indicesOf .pilot t
  let w := ofdm N g (trainShort t)
  { u with
    created := true
    M := m
    G := g
    L := m + g
    ctx := ctx
    alloc := t
    D := d
    PL := pl
    ND := d.length
    NPL := pl.length
    NH := headerSymbols d.length
    s0t := w
    e0 := N.sum (w.map N.normSq)
    s1 := trainLong t
    evt := false
    execN := 0
    pos := 0 }

/-- `RX_CREATE` as a change of state (R300), its checks in the order of R402. -/
def rxCreate (useDefault : Bool) (s : State) : State :=
  if s.rx.evt then respond .reentrant s
  else
    let m := cfgM s.rxCfg
    let g := cfgG s.rxCfg
    if legalMG s.build m g then
      let t := tableArg useDefault m s
      let s1 := s.setDraws t.2
      if validAlloc t.1 then
        respond .ok (resetFsm (s1.setRx (rxCreated Config.num s.rxCtx s.rx m g (t.1.map roleOfCode))))
      else respond .configurationError s1
    else respond .configurationError s

/-- `RX_DESTROY` as a change of state (R306): every field of the RX record, `res_pay` among them, takes its reset value. -/
def rxDestroy (s : State) : State :=
  if !s.rx.created then respond .notCreated s
  else if s.rx.evt then respond .reentrant s
  else respond .ok ((s.setRx RxUnit.reset).setMem (memClear s.build s.mem .resPay))

/-- RX_CREATE (R300). -/
def execRxCreate (useDefault : Bool) (s : State) : Host.Outcome State Fault Refusal := .next (rxCreate useDefault s)

/-- RX_EXECUTE (R303, R307). -/
def execRxExecute (n : Nat) (s : State) : Host.Outcome State Fault Refusal :=
  if !s.rx.created then .next (respond .notCreated s)
  else if s.rx.evt then .next (respond .reentrant s)
  else if s.build.nBuf < n then .next (respond .argumentRange s)
  else if n = 0 then .next (respond .ok s)
  else run (s.setRx { s.rx with execN := n, pos := 0 })

/-- RX_ACK (R305, R412): the return from the event pause. -/
def execRxAck (s : State) : Host.Outcome State Fault Refusal :=
  if !s.rx.created then .next (respond .notCreated s)
  else if !s.rx.evt then .next (respond .noEvent s)
  else run (resetFsm (s.setRx { s.rx with evt := false }))

/-- RX_DESTROY (R306). -/
def execRxDestroy (s : State) : Host.Outcome State Fault Refusal := .next (rxDestroy s)

end Sys2Proof.Machine
end

