-- ==== Sys2Proof/Machine/Bus.lean ====
section
/-! DEFINITION. The host's bus: the register map (R52 to R72), and what one access does (R104, R105, R107 to R109). -/

namespace Sys2Proof.Machine

/-- The registers of R52 to R71. -/
inductive Reg where
  | id
  | cap0
  | cap1
  | cap2
  | cmd
  | resp
  | txCfg
  | txProps
  | txStatus
  | txSymcnt
  | txNsymHdr
  | txNsymPay
  | txPaylen
  | rxCfg
  | rxCtx
  | rxStatus
  | rxExecN
  | rxPos
  | rxCfo
  | rxTfrac
  | rxPhase
  | rxNsymHdr
  | rxNsymPay
  | rxSymcnt
  | resFlags
  | resPaylen
  | resBytes
  | resSnr
  | resRssi
  | resCtx
  | resHdr0
  | resHdr1
deriving DecidableEq, Repr

/-- The register at an offset; every other offset of the control window is reserved (R72). -/
def regAt (a : Nat) : Option Reg :=
  match a with
  | 0x000 => some .id
  | 0x004 => some .cap0
  | 0x008 => some .cap1
  | 0x00C => some .cap2
  | 0x010 => some .cmd
  | 0x014 => some .resp
  | 0x020 => some .txCfg
  | 0x024 => some .txProps
  | 0x028 => some .txStatus
  | 0x02C => some .txSymcnt
  | 0x030 => some .txNsymHdr
  | 0x034 => some .txNsymPay
  | 0x038 => some .txPaylen
  | 0x040 => some .rxCfg
  | 0x044 => some .rxCtx
  | 0x048 => some .rxStatus
  | 0x04C => some .rxExecN
  | 0x050 => some .rxPos
  | 0x054 => some .rxCfo
  | 0x058 => some .rxTfrac
  | 0x05C => some .rxPhase
  | 0x060 => some .rxNsymHdr
  | 0x064 => some .rxNsymPay
  | 0x068 => some .rxSymcnt
  | 0x080 => some .resFlags
  | 0x084 => some .resPaylen
  | 0x088 => some .resBytes
  | 0x08C => some .resSnr
  | 0x090 => some .resRssi
  | 0x094 => some .resCtx
  | 0x098 => some .resHdr0
  | 0x09C => some .resHdr1
  | _ => none

/-- The offset of CMD (R56). -/
def cmdAddr : BitVec 21 := 0x010

/-- CAP0 (R53). -/
def cap0Word (b : Build) : Word := BitVec.ofNat 32 (b.payloadMax * 2 ^ 16 + b.mMax)

/-- CAP1 (R54). -/
def cap1Word (b : Build) : Word := BitVec.ofNat 32 b.nBuf

/-- CAP2 (R55). -/
def cap2Word : Word := BitVec.ofNat 32 (pPilot * 2 ^ 16 + nPre * 2 ^ 12 + nShort * 2 ^ 8 + hUser)

/-- The value a register reads (R52 to R71). -/
def readReg (s : State) : Reg → Word
  | .id => 0x4F46444D
  | .cap0 => cap0Word s.build
  | .cap1 => cap1Word s.build
  | .cap2 => cap2Word
  | .cmd => 0
  | .resp => s.resp
  | .txCfg => s.txCfg
  | .txProps => s.txProps
  | .txStatus => txStatusWord s.tx
  | .txSymcnt => BitVec.ofNat 32 s.tx.symcnt
  | .txNsymHdr => BitVec.ofNat 32 s.tx.NH
  | .txNsymPay => BitVec.ofNat 32 s.tx.NP
  | .txPaylen => BitVec.ofNat 32 (s.tx.paylen % 2 ^ 16)
  | .rxCfg => s.rxCfg
  | .rxCtx => s.rxCtx
  | .rxStatus => rxStatusWord s.rx
  | .rxExecN => BitVec.ofNat 32 s.rx.execN
  | .rxPos => BitVec.ofNat 32 s.rx.pos
  | .rxCfo => Config.num.toWord s.rx.nuHat
  | .rxTfrac => Config.num.toWord s.rx.tauFrac
  | .rxPhase => Config.num.toWord s.rx.theta
  | .rxNsymHdr => BitVec.ofNat 32 s.rx.NH
  | .rxNsymPay => BitVec.ofNat 32 s.rx.NP
  | .rxSymcnt => BitVec.ofNat 32 s.rx.sym
  | .resFlags => s.rx.resFlags.setWidth 32
  | .resPaylen => BitVec.ofNat 32 (s.rx.resPaylen % 2 ^ 16)
  | .resBytes => BitVec.ofNat 32 s.rx.resBytes
  | .resSnr => Config.num.toWord s.rx.resSnr
  | .resRssi => Config.num.toWord s.rx.resRssi
  | .resCtx => s.rx.resCtx
  | .resHdr0 => wordOfBytes (s.rx.resHdr.take 4)
  | .resHdr1 => wordOfBytes ((s.rx.resHdr.drop 4).take 4)

/-- A write to a register other than CMD (R105): only the four RW registers store anything, TX_PROPS without its
reserved bits (R59). -/
def writeReg (s : State) (v : Word) : Reg → State
  | .txCfg => s.setTxCfg v
  | .txProps => s.setTxProps (v &&& propsMask)
  | .rxCfg => s.setRxCfg v
  | .rxCtx => s.setRxCtx v
  | _ => s

/-- An access that decodes (R104, R105, R107, R109): aligned, 32 bits wide, in a region, and not a reserved register. -/
def accessOk (b : Build) (a : BitVec 21) (size : Nat) : Bool :=
  decide (size = 4) && decide (a.toNat % 4 = 0) &&
    match regionOf b a.toNat with
    | none => false
    | some .ctrl => (regAt a.toNat).isSome
    | some _ => true

/-- The word a decoded read returns (R104), with the count of draws afterwards. -/
def busWord (s : State) (a : BitVec 21) : Word × Nat :=
  match regAt a.toNat with
  | some r => (readReg s r, s.draws)
  | none => memGetWord s.build s.mem s.draws a.toNat

/-- A decoded read (R104): the block's state is unchanged; the word goes to the host. -/
def busRead (s : State) (a : BitVec 21) : State :=
  let w := busWord s a
  (s.setDraws w.2).setRdata (some w.1)

/-- A decoded write other than to CMD (R105): TX_SYM, RES_PAY and the read-only registers ignore it. -/
def busWrite (s : State) (a : BitVec 21) (v : Word) : State :=
  match regAt a.toNat with
  | some r => writeReg s v r
  | none =>
    match regionOf s.build a.toNat with
    | some .txSym => s
    | some .resPay => s
    | _ => s.setMem (memPutWord s.build s.mem a.toNat v)

/-- A CMD write whose word is no command (R154, R401): ILLEGAL_COMMAND and no other effect. -/
def illegalCommand (s : State) : State := respond .illegalCommand s

end Sys2Proof.Machine
end

