-- ==== Sys2Proof/Machine/Dispatch.lean ====
section
/-! DEFINITION. The meaning of every command: one arm per constructor of Instr. -/

namespace Sys2Proof.Machine

def exec (i : Instr) (s : State) : Host.Outcome State Fault Refusal :=
  match i with
  | .nop arg => Sys2Proof.Machine.execNop arg s
  | .allocDefault m => Sys2Proof.Machine.execAllocDefault m s
  | .allocValidate m => Sys2Proof.Machine.execAllocValidate m s
  | .txCreate useDefault => Sys2Proof.Machine.execTxCreate useDefault s
  | .txAssemble len => Sys2Proof.Machine.execTxAssemble len s
  | .txWriteSymbol => Sys2Proof.Machine.execTxWriteSymbol s
  | .txDestroy => Sys2Proof.Machine.execTxDestroy s
  | .rxCreate useDefault => Sys2Proof.Machine.execRxCreate useDefault s
  | .rxExecute n => Sys2Proof.Machine.execRxExecute n s
  | .rxAck => Sys2Proof.Machine.execRxAck s
  | .rxDestroy => Sys2Proof.Machine.execRxDestroy s

end Sys2Proof.Machine
end

