-- ==== Sys2Proof/Machine/Perform.lean ====
section
/-! DEFINITION. One access of the host performed (R104, R105, R112, R154, R450). -/

namespace Sys2Proof.Machine

/-- A decoded write (R105): a write to CMD performs its command completely (R112); a word that is no command is answered
ILLEGAL_COMMAND (R154). -/
def performWrite (a : BitVec 21) (v : Word) (s : State) : Host.Outcome State Fault Refusal :=
  if a = cmdAddr then
    match decode v with
    | .ok i => exec i s
    | .error _ => .next (illegalCommand s)
  else .next (busWrite s a v)

/-- One access of the host, or the platform's reset pulse (R450). A rejected access is a bus error without effect (R108). -/
def perform (x : Access) (s : State) : Host.Outcome State Fault Refusal :=
  match x with
  | .read a size => if accessOk s.build a size then .next (busRead s a) else .fault .busError
  | .write a size v => if accessOk s.build a size then performWrite a v s else .fault .busError
  | .reset => .next (hardwareReset s)

/-- The state in which the host's next access writes the word `w` to CMD. -/
def queueCommand (s : State) (w : Word) : State := s.setHost (.write cmdAddr 4 w :: s.host)

end Sys2Proof.Machine
end

