-- ==== Sys2Proof/Machine/Step.lean ====
section
/-! DEFINITION. One step of the machine: the next access of the host (R112, R113), or nothing when there is none. -/

namespace Sys2Proof.Machine

/-- The next host access is taken off the queue and performed. With none queued the block is idle and holds all state
(R426, R452, R472). -/
def step (s : State) : Host.Outcome State Fault Refusal :=
  match s.host with
  | [] => .next s
  | x :: rest => perform x (s.setHost rest)

/-- The state in which the host's next access writes the word `w` to CMD: commands are written, not fetched (R51, R113), so
this is where a step takes its next command from. It stands for the host that issues it (log 1). -/
def State.withFetchWord (s : State) (nbits w : Nat) : State :=
  queueCommand s (BitVec.ofNat 32 (w % 2 ^ nbits))

end Sys2Proof.Machine
end

