-- ==== Sys2Proof/Safety.lean ====
section
/-! DEFINITION. What counts as a safe run, and the invariants claims are stated with. -/

namespace Sys2Proof

open Machine

/-- The next step does not stop with a fault: the host's next access is no bus error (R108). -/
def Safe (s : State) : Prop := ∀ r, step s ≠ .fault r

/-- Every buffer word the next `n` samples are read from has been written and is finite (R414: the host's duty). -/
def SamplesReady (s : State) (first n : Nat) : Prop :=
  ∀ i, first ≤ i → i < first + n →
    f32Finite (sampleWords s i).1 = true ∧ f32Finite (sampleWords s i).2.1 = true ∧ (sampleWords s i).2.2 = s.draws

/-- The memory keeps its canonical form. -/
def MemInv (s : State) : Prop := s.mem.wf s.build = true

/-- The dimensions of a created instance, of either unit, agree with its table (R74, R75, R231, R301). -/
def DimsOk (b : Build) (M G L : Nat) (alloc : List Role) (D PL : List Nat) (ND NPL NH : Nat) : Prop :=
  legalMG b M G = true ∧ L = M + G ∧ alloc.length = M ∧ D = indicesOf .data alloc ∧ PL = indicesOf .pilot alloc ∧
    ND = D.length ∧ NPL = PL.length ∧ 1 ≤ ND ∧ 1 ≤ NPL ∧ NH = headerSymbols ND ∧ 1 ≤ NH ∧ NH ≤ 210

/-- The latched properties of the TX unit. -/
def txProperties (u : TxUnit) : Props :=
  { crc := u.crc, fi := u.fi, fo := u.fo, mm := u.mm, md := u.md, npre := nPre }

/-- The TX record is at reset while not created; a created one agrees with its table, has legal properties, and its
sequencer is where its symbol count says (R74, R76, R231, R238). -/
def TxInv (s : State) : Prop :=
  (s.tx.created = false → s.tx = TxUnit.reset) ∧
  (s.tx.created = true →
    DimsOk s.build s.tx.M s.tx.G s.tx.L s.tx.alloc s.tx.D s.tx.PL s.tx.ND s.tx.NPL s.tx.NH ∧
    legalProps s.build (txProperties s.tx) = true ∧
    s.tx.symcnt ≤ frameSymbols s.tx ∧
    (s.tx.state ≠ .done →
      s.tx.state = txStateOf s.tx s.tx.symcnt ∧ 1 ≤ s.tx.NP ∧ s.tx.symcnt < frameSymbols s.tx ∧
        s.tx.hc.length = hdrCodedBits))

/-- The RX record is at reset while not created; a created one agrees with its table and its buffers have the sizes R75
gives; it is never left in RESET (R67). -/
def RxShapeInv (s : State) : Prop :=
  s.rx.state ≠ .reset ∧
  (s.rx.created = false → s.rx = RxUnit.reset) ∧
  (s.rx.created = true →
    DimsOk s.build s.rx.M s.rx.G s.rx.L s.rx.alloc s.rx.D s.rx.PL s.rx.ND s.rx.NPL s.rx.NH ∧
    s.rx.s0t.length = s.rx.L ∧ s.rx.s1.length = s.rx.M ∧ s.rx.hist.length = 2 * s.rx.L ∧
    s.rx.sb.length = s.rx.L ∧ s.rx.H.length = s.rx.M ∧ s.rx.fill ≤ 2 * s.rx.L ∧ s.rx.sbn < s.rx.L)

/-- The result record is empty (R71, R330). -/
def ResultEmpty (s : State) : Prop :=
  s.rx.resFlags = 0 ∧ s.rx.resPaylen = 0 ∧ s.rx.resBytes = 0 ∧ s.rx.resSnr = .zero ∧ s.rx.resRssi = .zero ∧ s.rx.resCtx = 0 ∧
    s.rx.resHdr = List.replicate 8 0 ∧ ∀ a, inRegion s.build .resPay a = true → memPeek s.build s.mem a = some 0

/-- An event is pending only in a created unit, in the state that posted it and within its buffer; while none is
pending the result record reads 0 (R71, R308, R415). -/
def EventInv (s : State) : Prop :=
  (s.rx.evt = true → s.rx.created = true ∧ (s.rx.state = .header ∨ s.rx.state = .payload)) ∧
  s.rx.pos ≤ s.rx.execN ∧ s.rx.execN ≤ s.build.nBuf ∧
  (s.rx.evt = false → ResultEmpty s)

/-- A value is not below one bound nor above the other, as NUM compares. -/
def Within (N : Num) (x lo hi : Scalar) : Prop := N.lt x lo = false ∧ N.lt hi x = false

/-- The ranges of the RX unit's reals: the phases are wrapped (D48), the peak fraction and the statistics clamped (R365,
R376, R377), the residuals 0 (R378). -/
def RangeInv (s : State) : Prop :=
  Config.num.InTurn s.rx.phi ∧ Config.num.InTurn s.rx.theta ∧
  Within Config.num s.rx.tauFrac (Config.num.ofRat (-1 / 2)) (Config.num.ofRat (1 / 2)) ∧
  Within Config.num s.rx.snrDb (Config.num.ofRat (-s.build.statClampDb)) (Config.num.ofRat s.build.statClampDb) ∧
  Within Config.num s.rx.rssiDb (Config.num.ofRat (-s.build.statClampDb)) (Config.num.ofRat s.build.statClampDb) ∧
  s.rx.tauHat = .zero ∧ s.rx.nuRes = .zero

/-- The accumulated coded bits are exactly those of the symbols processed so far, and the parsed length is at most
PAYLOAD_MAX (R325, R326, R380, R383). -/
def CountInv (s : State) : Prop :=
  (s.rx.created = true → 1 ≤ s.rx.ND ∧ s.rx.D.length = s.rx.ND ∧ s.rx.NH = headerSymbols s.rx.ND) ∧
  (s.rx.created = false → s.rx.state = .seekPreamble) ∧
  s.rx.plLen ≤ s.build.payloadMax ∧
  (s.rx.state = .header → s.rx.cbits.length = min hdrCodedBits (s.rx.sym * s.rx.ND) ∧
    (s.rx.evt = false → s.rx.sym < s.rx.NH)) ∧
  (s.rx.state = .payload → s.rx.cbits.length = min s.rx.plBits (s.rx.sym * s.rx.ND * s.rx.plMd) ∧
    s.rx.NP = payloadSymbols s.rx.ND s.rx.plMd s.rx.plBits ∧ (s.rx.evt = false → s.rx.sym < s.rx.NP))

/-- The reserved bits of TX_PROPS read 0 (R59). -/
def PropsInv (s : State) : Prop := s.txProps &&& 0xFF000000 = 0

/-! ## The words of the spec's tables -/

/-- The offsets of R52 to R71 that a write does not change: every register but CMD and the four RW ones. -/
def readOnlyOffsets : List Nat :=
  [0x000, 0x004, 0x008, 0x00C, 0x014, 0x028, 0x02C, 0x030, 0x034, 0x038, 0x048, 0x04C, 0x050, 0x054, 0x058, 0x05C,
    0x060, 0x064, 0x068, 0x080, 0x084, 0x088, 0x08C, 0x090, 0x094, 0x098, 0x09C]

/-- The offsets of R52 to R71. -/
def registerOffsets : List Nat := readOnlyOffsets ++ [0x010, 0x020, 0x024, 0x040, 0x044]

/-- The offsets of R100 and R72 that are neither unmapped nor reserved, at the parameters of the build. -/
def Mapped (b : Build) (a : Nat) : Prop :=
  a ∈ registerOffsets ∨
  (0x010000 ≤ a ∧ a < 0x010000 + 4 * b.mMax) ∨
  (0x020000 ≤ a ∧ a < 0x020000 + 8) ∨
  (0x030000 ≤ a ∧ a < 0x030000 + 4 * ((b.payloadMax + 3) / 4)) ∨
  (0x040000 ≤ a ∧ a < 0x040000 + 8 * (2 * b.mMax)) ∨
  (0x050000 ≤ a ∧ a < 0x050000 + 4 * ((b.payloadMax + 3) / 4)) ∨
  (0x100000 ≤ a ∧ a < 0x100000 + 8 * b.nBuf)

/-- `valid_alloc` of R212, on role codes: every code is a role, and both PILOT and DATA occur. -/
def ValidTable (t : List Byte) : Prop := (∀ c ∈ t, c = 0 ∨ c = 1 ∨ c = 2) ∧ 1 ∈ t ∧ 2 ∈ t

/-- ALLOC entries 0 to `t.length - 1` hold the codes of `t` (R101). -/
def TableIs (s : State) (t : List Byte) : Prop := ∀ k < t.length, memPeek s.build s.mem (0x010000 + 4 * k) = some (t.getD k 0)

/-- The bytes from an offset on are written and are `bs`. -/
def BytesAt (b : Build) (m : Memory) (a : Nat) (bs : List Byte) : Prop :=
  ∀ k < bs.length, memPeek b m (a + k) = some (bs.getD k 0)

/-- Every byte outside the `n` bytes from an offset on reads in one memory as in the other. -/
def SameOutside (b : Build) (m m' : Memory) (a n : Nat) : Prop :=
  ∀ x, x < a ∨ a + n ≤ x → memPeek b m' x = memPeek b m x

/-- The fields of the RX record that only a CREATE or a DESTROY changes (R76). -/
def SameInstance (r q : RxUnit) : Prop :=
  r.created = q.created ∧ r.M = q.M ∧ r.G = q.G ∧ r.L = q.L ∧ r.ctx = q.ctx ∧ r.alloc = q.alloc ∧ r.D = q.D ∧
    r.PL = q.PL ∧ r.ND = q.ND ∧ r.NPL = q.NPL ∧ r.NH = q.NH ∧ r.s0t = q.s0t ∧ r.e0 = q.e0 ∧ r.s1 = q.s1

/-- How a command that consumes samples ends (R304, R410): with OK, every sample consumed and no event; or with
EVENT_PENDING and the event that one of two states posts, RES_FLAGS naming it. -/
def ConsumptionEnds (t : State) : Prop :=
  (t.resp = 0x00000000 ∧ t.rx.evt = false ∧ t.rx.pos = t.rx.execN) ∨
  (t.resp = 0x00000009 ∧ t.rx.evt = true ∧ t.rx.pos ≤ t.rx.execN ∧
    ((t.rx.state = .header ∧ t.rx.resFlags = 1 ∧ t.rx.resPaylen = 0 ∧ t.rx.resBytes = 0) ∨
     (t.rx.state = .payload ∧ (t.rx.resFlags = 3 ∨ t.rx.resFlags = 7) ∧ t.rx.resPaylen = t.rx.plLen ∧
       t.rx.resBytes = t.rx.plLen)))

/-! ## A frame in progress -/

/-- A host access that is none of those R240 excludes: no TX_ASSEMBLE, TX_CREATE or TX_DESTROY, and no hardware reset. -/
def LeavesFrame (x : Access) : Prop :=
  x ≠ .reset ∧ ∀ n w i, x = .write cmdAddr n w → decode w = .ok i →
    (∀ d, i ≠ .txCreate d) ∧ (∀ len, i ≠ .txAssemble len) ∧ i ≠ .txDestroy

/-- Run `n` steps: the RESP word after each that performs a TX_WRITESYMBOL, in order, and the state reached; `none` when a
step stops. -/
def symbolAnswers : Nat → State → Option (List Word × State)
  | 0, s => some ([], s)
  | n + 1, s =>
    match step s with
    | .next t =>
      (symbolAnswers n t).map fun r =>
        (if s.host.head? = some (.write cmdAddr 4 0x00000012) then t.resp :: r.1 else r.1, r.2)
    | _ => none

/-! ## Samples fed to the synchronizer -/

/-- Sample `i` of RX_SAMP as NUM takes it in (R16, R103, R304): the value of its two binary32 words, real part first. -/
def busSample (N : Num) (s : State) (i : Nat) : Cplx :=
  ⟨N.ofRat (f32Value (memGetWord s.build s.mem s.draws (0x100000 + 8 * i)).1),
    N.ofRat (f32Value (memGetWord s.build s.mem s.draws (0x100000 + 8 * i + 4)).1)⟩

/-- The step of the synchronizer for each of a list of samples, in turn (R320). -/
def feed {ms : List (Nat × Nat)} (N : Num) (X : Ext N ms) (zs : List Cplx) (s : State) : State :=
  zs.foldl (fun t x => sampleStep N X x t) s

/-! ## A noiseless channel -/

/-- The exact samples of the frame that a TX unit emits from its first symbol on (R181, R236), not yet rounded to the bus. -/
def frameSamples {ms : List (Nat × Nat)} (N : Num) (X : Ext N ms) (u : TxUnit) : List Cplx :=
  (List.range (frameSymbols u)).flatMap fun c => ofdm N u.G (symbolVector X u c)

/-- A generator and a synchronizer made by their CREATE commands with the same M, G and table (R302), a frame of `pb`
assembled in the one, the other freshly reset. -/
structure Linked {N : Num} (b : Build) (X : Ext N b.modset) (t : List Role) (p : Props) (uh pb : List Byte) (u : TxUnit)
    (s : State) : Prop where
  build : s.build = b
  mem : MemInv s
  threshold : b.detectThreshold < 1
  dims : legalMG b t.length u.G = true
  pilot : Role.pilot ∈ t
  data : Role.data ∈ t
  props : legalProps b p = true
  header : uh.length = 8
  length : pb.length ≤ b.payloadMax
  tx : ∃ u0 p0, u = txAssembled X (txCreated u0 t.length u.G t p0) p uh pb pb.length
  rx : ∃ ctx r0, s.rx = resetRecord (rxCreated N ctx r0 t.length u.G t)

end Sys2Proof
end

