-- ==== Sys2Proof/Certificates/Slice0/Obligations.lean ====
section
/-! DEFINITION. The statements about the model, for the provers. Each is `def Obligations.<Name> : Prop`. -/

open Sys2Proof Sys2Proof.Machine

/-! ## Command words -/

/-- Decoding the word of any command whose operands fit gives the command back (R150, R151, R153). -/
def Obligations.DecodeOfEncode : Prop := ∀ i : Instr, i.wellFormed = true → decode (encode i) = .ok i

/-- Every word that decodes is the word of its command, so no bit of it is dropped (R150, R151, R153, R155). -/
def Obligations.EncodeOfDecode : Prop :=
  ∀ (w : Word) (i : Instr), decode w = .ok i → encode i = w ∧ i.wellFormed = true

/-- Which words are no command (R154), and which of the two reasons comes first (R402). -/
def Obligations.RejectedWords : Prop :=
  ∀ w : Word,
    (decode w = .error .reservedOpcode ↔
      w.toNat % 256 ∉ [0x00, 0x01, 0x02, 0x10, 0x11, 0x12, 0x13, 0x20, 0x21, 0x22, 0x23]) ∧
    (decode w = .error .reservedArg ↔
      (w.toNat % 256 ∈ [0x12, 0x13, 0x22, 0x23] ∧ w.toNat / 256 ≠ 0) ∨
      (w.toNat % 256 ∈ [0x10, 0x20] ∧ w.toNat / 512 ≠ 0))

/-- Words written out in 95_test_vectors.md V-ENC, one for every command, decode to the command they stand for. -/
def Obligations.DecodedWords : Prop :=
  decode 0xABCDEF00 = .ok (.nop 0xABCDEF) ∧ decode 0x00001001 = .ok (.allocDefault 16) ∧
  decode 0x00004002 = .ok (.allocValidate 64) ∧ decode 0x00000110 = .ok (.txCreate true) ∧
  decode 0x00000010 = .ok (.txCreate false) ∧ decode 0x00000611 = .ok (.txAssemble 6) ∧
  decode 0x00000012 = .ok .txWriteSymbol ∧ decode 0x00000013 = .ok .txDestroy ∧
  decode 0x00000120 = .ok (.rxCreate true) ∧ decode 0x00006421 = .ok (.rxExecute 100) ∧
  decode 0x00000022 = .ok .rxAck ∧ decode 0x00000023 = .ok .rxDestroy

/-! ## Steps -/

/-- A 32-bit write to CMD of a word that decodes performs its command, the access taken off the host's queue (R105,
R112); a command whose word the host writes to CMD next is the one the next step performs, on the state as it is; a word
that is no command is answered ILLEGAL_COMMAND and has no other effect (R154). -/
def Obligations.StepRunsCommand : Prop :=
  (∀ (s : State) (rest : List Access) (w : Word) (i : Instr),
    s.host = .write cmdAddr 4 w :: rest → decode w = .ok i → step s = exec i (s.setHost rest)) ∧
  (∀ (s : State) (i : Instr), i.wellFormed = true → step (s.withFetchWord 32 (encode i).toNat) = exec i s) ∧
  (∀ (s : State) (rest : List Access) (w : Word) (e : DecodeError),
    s.host = .write cmdAddr 4 w :: rest → decode w = .error e →
      step s = .next ((s.setHost rest).setResp 0x00000006))

/-- A host access is a bus error exactly when it is not 32 bits wide, misaligned, unmapped or to a reserved register
offset, whatever the state (R72, R100, R104, R105, R107, R108). -/
def Obligations.BusErrorExactly : Prop :=
  ∀ (s : State) (rest : List Access) (a : BitVec 21) (n : Nat) (v : Word) (x : Access),
    x = .read a n ∨ x = .write a n v → s.host = x :: rest →
      (step s = .fault .busError ↔ ¬ (n = 4 ∧ a.toNat % 4 = 0 ∧ Mapped s.build a.toNat))

/-- A read gives the host the word its register or buffer holds and leaves every register, record and buffer as it was;
reading a register, or a word of which every byte has been written, a second time gives the same word (R104, R116). A byte
that nothing has written is a fresh draw each time it is read, one draw a byte, so that a second read of it may differ: that
is the model's choice (log 9), and the statement does not say of such a word that R104's second read gives the first one's
word. The count of draws and the word read are the model's own fields (log 11). -/
def Obligations.ReadsChangeNothing : Prop :=
  ∀ (s : State) (rest : List Access) (a : BitVec 21), a.toNat % 4 = 0 → Mapped s.build a.toNat →
    (s.host = .read a 4 :: rest →
      step s = .next (((s.setHost rest).setDraws (busWord s a).2).setRdata (some (busWord s a).1))) ∧
    (s.host = .read a 4 :: .read a 4 :: rest →
      (a.toNat < 0x100 ∨ ∀ j < 4, memPeek s.build s.mem (a.toNat + j) ≠ none) →
        ∃ t, step s = .next t ∧ t = (s.setHost (.read a 4 :: rest)).setRdata (some (busWord s a).1) ∧
          step t = .next ((s.setHost rest).setRdata (some (busWord s a).1)))

/-- A write to a read-only register, to TX_SYM or to RES_PAY is ignored (R105). -/
def Obligations.IgnoredWrites : Prop :=
  ∀ (s : State) (rest : List Access) (a : BitVec 21) (v : Word),
    s.host = .write a 4 v :: rest → a.toNat % 4 = 0 →
    (a.toNat ∈ readOnlyOffsets ∨ (0x040000 ≤ a.toNat ∧ a.toNat < 0x040000 + 16 * s.build.mMax) ∨
      (0x050000 ≤ a.toNat ∧ a.toNat < 0x050000 + 4 * ((s.build.payloadMax + 3) / 4))) →
      step s = .next (s.setHost rest)

/-- What every register reads (R52 to R71): the constants, RESP, the four read-write registers, the status words, the
counters, the estimates rounded to binary32 and the result record; and that a write to one of the four read-write registers
stores the word written, TX_PROPS without bits 31:24. That the registers show the record's fields in every state is the
model's inference: while a unit is not created by log 19, and the result registers with no event pending, where R71 has them
read 0, by log 24 (EventStaysConsistent states that the record is 0 there). -/
def Obligations.RegisterReads : Prop :=
  ∀ (s : State) (rest : List Access) (v : Word),
    (s.host = .write 0x020 4 v :: rest → step s = .next ((s.setHost rest).setTxCfg v)) ∧
    (s.host = .write 0x024 4 v :: rest → step s = .next ((s.setHost rest).setTxProps (v &&& 0x00FFFFFF))) ∧
    (s.host = .write 0x040 4 v :: rest → step s = .next ((s.setHost rest).setRxCfg v)) ∧
    (s.host = .write 0x044 4 v :: rest → step s = .next ((s.setHost rest).setRxCtx v)) ∧
    ∀ (a : BitVec 21) (w : Word),
      ((a, w) ∈ [((0x000 : BitVec 21), (0x4F46444D : Word)),
          (0x004, BitVec.ofNat 32 (65536 * s.build.payloadMax + s.build.mMax)), (0x008, BitVec.ofNat 32 s.build.nBuf),
          (0x00C, 0x00083208), (0x010, 0), (0x014, s.resp), (0x020, s.txCfg), (0x024, s.txProps),
          (0x028, if s.tx.created then
            (match s.tx.state with | .writePreamble => 4 | .writeHeader => 5 | .writePayload => 6 | .done => 7) else 3),
          (0x02C, BitVec.ofNat 32 s.tx.symcnt), (0x030, BitVec.ofNat 32 s.tx.NH), (0x034, BitVec.ofNat 32 s.tx.NP),
          (0x038, (BitVec.ofNat 16 s.tx.paylen).setWidth 32), (0x040, s.rxCfg), (0x044, s.rxCtx),
          (0x048, BitVec.ofNat 32 ((if s.rx.evt then 16 else 0) + if s.rx.created then
            (match s.rx.state with
              | .seekPreamble => 8 | .trainingShort => 9 | .trainingLong => 10 | .header => 11 | .payload => 12
              | .reset => 13) else 0)),
          (0x04C, BitVec.ofNat 32 s.rx.execN), (0x050, BitVec.ofNat 32 s.rx.pos),
          (0x054, Config.num.toWord s.rx.nuHat), (0x058, Config.num.toWord s.rx.tauFrac),
          (0x05C, Config.num.toWord s.rx.theta), (0x060, BitVec.ofNat 32 s.rx.NH), (0x064, BitVec.ofNat 32 s.rx.NP),
          (0x068, BitVec.ofNat 32 s.rx.sym), (0x080, s.rx.resFlags.setWidth 32),
          (0x084, (BitVec.ofNat 16 s.rx.resPaylen).setWidth 32), (0x088, BitVec.ofNat 32 s.rx.resBytes),
          (0x08C, Config.num.toWord s.rx.resSnr), (0x090, Config.num.toWord s.rx.resRssi), (0x094, s.rx.resCtx)] →
        busWord s a = (w, s.draws)) ∧
      (s.rx.resHdr.length = 8 → ∀ j < 4,
        ((busWord s 0x098).1.extractLsb' (8 * j) 8 = s.rx.resHdr.getD j 0) ∧
        ((busWord s 0x09C).1.extractLsb' (8 * j) 8 = s.rx.resHdr.getD (4 + j) 0))

/-- A word the host writes to ALLOC, TX_HDR, TX_PAY or RX_SAMP reads back, its held bits only, and no byte outside the
word changes (R101, R102, R103, R105, R106): two bits of an ALLOC word, the bytes below PAYLOAD_MAX of the last TX_PAY
word, else all. -/
def Obligations.BufferWritesReadBack : Prop :=
  ∀ (s : State) (rest : List Access) (a : BitVec 21) (v k : Word),
    MemInv s → s.host = .write a 4 v :: rest → a.toNat % 4 = 0 →
    ((0x010000 ≤ a.toNat ∧ a.toNat < 0x010000 + 4 * s.build.mMax ∧ k = 0x00000003) ∨
     (0x020000 ≤ a.toNat ∧ a.toNat < 0x020008 ∧ k = 0xFFFFFFFF) ∨
     (0x030000 ≤ a.toNat ∧ a.toNat + 4 ≤ 0x030000 + s.build.payloadMax ∧ k = 0xFFFFFFFF) ∨
     (0x030000 ≤ a.toNat ∧ a.toNat < 0x030000 + s.build.payloadMax ∧ 0x030000 + s.build.payloadMax < a.toNat + 4 ∧
       k = BitVec.ofNat 32 (2 ^ (8 * (s.build.payloadMax % 4)) - 1)) ∨
     (0x100000 ≤ a.toNat ∧ a.toNat < 0x100000 + 8 * s.build.nBuf ∧ k = 0xFFFFFFFF)) →
      ∃ t, step s = .next t ∧ t = (s.setHost rest).setMem t.mem ∧ busWord t a = (v &&& k, s.draws) ∧
        SameOutside s.build s.mem t.mem a.toNat 4

/-- With no access queued the block is idle and holds all state (R426, R452). The platform's reset puts every register,
both records and the buffers where they are after reset; the host's queue, the last word it read and the count of draws
are no state of the block (R450; log 22). The record fields R74 and R75 leave open at reset are the model's empty lists and
zeros (log 10). -/
def Obligations.IdleAndHardwareReset : Prop :=
  ∀ (s : State) (rest : List Access),
    (s.host = [] → step s = .next s) ∧
    (s.host = .reset :: rest →
      step s = .next ((((State.resetOf s.build).setHost rest).setRdata s.rdata).setDraws s.draws))

/-- Every host-visible register reads its reset value after reset (R451), for any build, and RES_PAY reads 0 (R116); with
R5's defaults CAP0 reads 0xFFFF0800 and CAP1 0x00010000. -/
def Obligations.ResetRegisters : Prop :=
  readReg State.reset .cap0 = 0xFFFF0800 ∧ readReg State.reset .cap1 = 0x00010000 ∧
  ∀ b : Build,
    readReg (State.resetOf b) .id = 0x4F46444D ∧ readReg (State.resetOf b) .cap2 = 0x00083208 ∧
    readReg (State.resetOf b) .cap0 = BitVec.ofNat 32 (65536 * b.payloadMax + b.mMax) ∧
    readReg (State.resetOf b) .cap1 = BitVec.ofNat 32 b.nBuf ∧
    readReg (State.resetOf b) .txStatus = 0x00000003 ∧
    (∀ r : Reg, r ∉ [Reg.id, .cap0, .cap1, .cap2, .txStatus] → readReg (State.resetOf b) r = 0) ∧
    (State.resetOf b).tx.created = false ∧ (State.resetOf b).rx.created = false ∧ (State.resetOf b).rx.evt = false ∧
    ∀ a, inRegion b .resPay a = true → memPeek b (State.resetOf b).mem a = some 0

/-! ## Answers -/

/-- What RESP can hold after a command (R57, R152): a status code up to 0x0A, the reserved bits 0, `is_last` and
`samples_written` only after a TX_WRITESYMBOL that returns OK. -/
def Obligations.ResponseFields : Prop :=
  ∀ (i : Instr) (s t : State), exec i s = .next t →
    (t.resp.extractLsb' 0 8).toNat ≤ 0x0A ∧ t.resp.extractLsb' 9 7 = 0 ∧
    (t.resp.extractLsb' 8 1 ≠ 0 ∨ t.resp.extractLsb' 16 16 ≠ 0 →
      i = .txWriteSymbol ∧ t.resp.extractLsb' 0 8 = 0)

/-- A command that ends with an error status has no effect but on RESP, whose other fields are 0 (R401). The count of
draws may advance where a table that nothing wrote is examined (log 27). -/
def Obligations.ErrorsChangeNothing : Prop :=
  ∀ (i : Instr) (s t : State), exec i s = .next t →
    t.resp.extractLsb' 0 8 ≠ 0x00 → t.resp.extractLsb' 0 8 ≠ 0x09 →
      t = (s.setDraws t.draws).setResp (t.resp &&& 0x000000FF)

/-! ## The allocator -/

/-- NOP answers OK and changes nothing else, whatever its argument and in every state (R200). -/
def Obligations.NopCompletes : Prop := ∀ (arg : Nat) (s : State), exec (.nop arg) s = .next (s.setResp 0x00000000)

/-- ALLOC_DEFAULT with a legal M writes the codes of the default table, NULL 0, PILOT 1, DATA 2 (R170), into ALLOC entries 0 to
M−1 and nothing else (R101, R201). -/
def Obligations.AllocDefaultWritesTable : Prop :=
  ∀ (s : State) (m : Nat), MemInv s → m % 2 = 0 → 16 ≤ m → m ≤ s.build.mMax →
    ∃ t, exec (.allocDefault m) s = .next t ∧ t = (s.setMem t.mem).setResp 0x00000000 ∧
      (∀ k < m, memGetWord s.build t.mem t.draws (0x010000 + 4 * k) =
        (match (initDefault m).getD k .null with | .null => 0 | .pilot => 1 | .data => 2, s.draws)) ∧
      SameOutside s.build s.mem t.mem 0x010000 (4 * m)

/-- ALLOC_VALIDATE with a legal M answers OK on a valid table and INVALID_ALLOCATION on another, and changes nothing else
(R212); with an illegal M it answers CONFIGURATION_ERROR and changes nothing else, and so does ALLOC_DEFAULT (R201, R205). -/
def Obligations.AllocValidateAnswers : Prop :=
  ∀ (s : State) (m : Nat),
    (∀ c : List Byte, m % 2 = 0 → 16 ≤ m → m ≤ s.build.mMax → c.length = m → TableIs s c →
      (ValidTable c → exec (.allocValidate m) s = .next (s.setResp 0x00000000)) ∧
      (¬ ValidTable c → exec (.allocValidate m) s = .next (s.setResp 0x00000002))) ∧
    (¬ (m % 2 = 0 ∧ 16 ≤ m ∧ m ≤ s.build.mMax) →
      exec (.allocDefault m) s = .next (s.setResp 0x00000001) ∧
      exec (.allocValidate m) s = .next (s.setResp 0x00000001))

/-- The default table of every legal M (R203): which subcarriers are null, which of the used ones are pilots, and how
many there are of each. -/
def Obligations.DefaultTable : Prop :=
  ∀ m : Nat, m % 2 = 0 → 16 ≤ m → m ≤ 4096 →
    let u := m / 2 - max 2 (m / 16) - 1
    (initDefault m).length = m ∧
    (∀ k < m, (initDefault m).getD k .null =
      (if 1 ≤ (freq m k).natAbs ∧ (freq m k).natAbs ≤ u then
        (if (freq m k).natAbs % 8 = 4 then .pilot else .data) else .null)) ∧
    (initDefault m).count .pilot = 2 * ((u + 4) / 8) ∧
    (initDefault m).count .data = 2 * u - 2 * ((u + 4) / 8) ∧
    2 ≤ (initDefault m).count .pilot ∧ 8 ≤ (initDefault m).count .data

/-! ## The generator -/

/-- `legal_props` (R232), on the fields of the TX_PROPS word. -/
def Obligations.LegalProperties : Prop :=
  ∀ (b : Build) (w : Word), legalProps b (propsOf w) = true ↔
    (w.toNat % 16 ≤ 5 ∧ w.toNat / 2 ^ 4 % 16 ≤ 3 ∧ w.toNat / 2 ^ 8 % 16 ≤ 3 ∧
      (w.toNat / 2 ^ 12 % 16, w.toNat / 2 ^ 16 % 16) ∈ b.modset ∧ w.toNat / 2 ^ 20 % 16 = 3)

/-- TX_CREATE with M = TX_CFG[15:0] even, at least 16 and at most M_MAX, G = TX_CFG[31:16] at most M (R58, R231), legal
properties and a valid table, the default one or the one in ALLOC, creates the instance R230 gives, with the fields R59 gives
latched, and changes nothing else but RESP. -/
def Obligations.TxCreateCompletes : Prop :=
  ∀ (s : State) (d : Bool) (c : List Role) (M G : Nat) (D PL : List Nat),
    M = s.txCfg.toNat % 65536 → G = s.txCfg.toNat / 65536 →
    D = (List.range M).filter (fun k => decide (c.getD k .null = .data)) →
    PL = (List.range M).filter (fun k => decide (c.getD k .null = .pilot)) →
    M % 2 = 0 → 16 ≤ M → M ≤ s.build.mMax → G ≤ M → legalProps s.build (propsOf s.txProps) = true →
    ((d = true ∧ c = initDefault M) ∨
     (d = false ∧ c.length = M ∧ TableIs s (c.map roleCode) ∧ Role.pilot ∈ c ∧ Role.data ∈ c)) →
      exec (.txCreate d) s = .next ((s.setTx { s.tx with
        created := true
        M := M
        G := G
        L := M + G
        alloc := c
        D := D
        PL := PL
        ND := D.length
        NPL := PL.length
        NH := ceilDiv 210 D.length
        crc := s.txProps.toNat % 16
        fi := s.txProps.toNat / 2 ^ 4 % 16
        fo := s.txProps.toNat / 2 ^ 8 % 16
        mm := s.txProps.toNat / 2 ^ 12 % 16
        md := s.txProps.toNat / 2 ^ 16 % 16
        state := .done
        symcnt := 0
        NP := 0
        paylen := 0 }).setResp 0x00000000)

/-- TX_CREATE answers CONFIGURATION_ERROR on an M = TX_CFG[15:0] that is odd, below 16 or above M_MAX, on a G = TX_CFG[31:16]
above M, on an invalid table in ALLOC, or on illegal properties, and an existing instance survives (R58, R230, R231). -/
def Obligations.TxCreateFailures : Prop :=
  ∀ (s : State) (d : Bool) (c : List Byte) (M G : Nat), M = s.txCfg.toNat % 65536 → G = s.txCfg.toNat / 65536 →
    (M % 2 = 1 ∨ M < 16 ∨ s.build.mMax < M ∨ M < G → exec (.txCreate d) s = .next (s.setResp 0x00000001)) ∧
    (c.length = M → TableIs s c → ¬ ValidTable c →
      exec (.txCreate false) s = .next (s.setResp 0x00000001)) ∧
    (legalProps s.build (propsOf s.txProps) = false → exec (.txCreate true) s = .next (s.setResp 0x00000001)) ∧
    (c.length = M → TableIs s c → legalProps s.build (propsOf s.txProps) = false →
      exec (.txCreate false) s = .next (s.setResp 0x00000001))

/-- TX_ASSEMBLE in a created instance with a length up to PAYLOAD_MAX and legal properties encodes the bytes in TX_HDR and
TX_PAY and rewinds the sequencer (R233, R234, R235, R242), and changes nothing else but RESP. -/
def Obligations.TxAssembleCompletes : Prop :=
  ∀ (s : State) (len : Nat) (p : Props) (uh pb : List Byte),
    s.tx.created = true → len ≤ s.build.payloadMax → p = propsOf s.txProps → legalProps s.build p = true →
    uh.length = 8 → BytesAt s.build s.mem 0x020000 uh →
    pb.length = len → BytesAt s.build s.mem 0x030000 pb →
      exec (.txAssemble len) s = .next ((s.setTx { s.tx with
        crc := p.crc
        fi := p.fi
        fo := p.fo
        mm := p.mm
        md := p.md
        hc := (Config.ext s.build.modset).fecEnc 2
          (bits (headerBytes uh len p) ++ (Config.ext s.build.modset).crc 3 (headerBytes uh len p))
        pu := group p.md ((Config.ext s.build.modset).fecEnc p.fi
          ((Config.ext s.build.modset).fecEnc p.fo (bits pb ++ (Config.ext s.build.modset).crc p.crc pb)))
        NP := max 1 (ceilDiv (ceilDiv (encLen p.fi (encLen p.fo (8 * len + crcLen p.crc))) p.md) s.tx.ND)
        paylen := len
        symcnt := 0
        state := .writePreamble }).setResp 0x00000000)

/-- TX_WRITESYMBOL with a frame in progress writes the L samples of the next symbol into TX_SYM, rounded to binary32, counts
it, puts the sequencer where R238 has it after that many symbols (below 3, below 3 + NH, below T = 3 + NH + NP, at T), and
answers L and whether it was the last; no byte outside those samples changes (R236, R238). -/
def Obligations.TxWriteSymbolCompletes : Prop :=
  ∀ s : State, MemInv s → TxInv s → s.tx.created = true → s.tx.state ≠ .done →
    ∃ t, exec .txWriteSymbol s = .next t ∧
      t = ((s.setTx { s.tx with
        symcnt := s.tx.symcnt + 1
        state :=
          if s.tx.symcnt + 1 < 3 then .writePreamble
          else if s.tx.symcnt + 1 < 3 + s.tx.NH then .writeHeader
          else if s.tx.symcnt + 1 < 3 + s.tx.NH + s.tx.NP then .writePayload
          else .done }).setMem t.mem).setResp
          (BitVec.ofNat 32 (65536 * s.tx.L +
            (if s.tx.symcnt + 1 = 3 + s.tx.NH + s.tx.NP then 256 else 0))) ∧
      (∀ i < s.tx.L,
        memGetWord s.build t.mem t.draws (0x040000 + 8 * i) =
          (Config.num.toWord ((ofdm Config.num s.tx.G
            (symbolVector (Config.ext s.build.modset) s.tx s.tx.symcnt)).getD i Cplx.zero).re, t.draws) ∧
        memGetWord s.build t.mem t.draws (0x040000 + 8 * i + 4) =
          (Config.num.toWord ((ofdm Config.num s.tx.G
            (symbolVector (Config.ext s.build.modset) s.tx s.tx.symcnt)).getD i Cplx.zero).im, t.draws)) ∧
      SameOutside s.build s.mem t.mem 0x040000 (8 * s.tx.L)

/-- The failures of TX_ASSEMBLE, TX_WRITESYMBOL and TX_DESTROY, in their order, none with another effect (R233, R236, R239,
R402). -/
def Obligations.TxCommandFailures : Prop :=
  ∀ (s : State) (len : Nat),
    (s.tx.created = false →
      exec (.txAssemble len) s = .next (s.setResp 0x00000005) ∧
      exec .txWriteSymbol s = .next (s.setResp 0x00000005) ∧
      exec .txDestroy s = .next (s.setResp 0x00000005)) ∧
    (s.tx.created = true → s.build.payloadMax < len → exec (.txAssemble len) s = .next (s.setResp 0x00000003)) ∧
    (s.tx.created = true → len ≤ s.build.payloadMax → legalProps s.build (propsOf s.txProps) = false →
      exec (.txAssemble len) s = .next (s.setResp 0x00000001)) ∧
    (s.tx.created = true → s.tx.state = .done → exec .txWriteSymbol s = .next (s.setResp 0x00000004))

/-- Symbol accounting (R240): after a TX_ASSEMBLE that answers OK, over any accesses of the host that complete (reads, writes,
other commands), none of them a TX_ASSEMBLE, TX_CREATE or TX_DESTROY, the first T = NPRE + NH + NP TX_WRITESYMBOLs answer OK,
the T-th and no other with `is_last`, each with `samples_written` = M + G, T·(M + G) in all; every later one answers
NOT_ASSEMBLED. A hardware reset is no command and ends the frame too (R450). -/
def Obligations.SymbolAccounting : Prop :=
  ∀ (s0 s t : State) (len n : Nat) (ws : List Word),
    TxInv s0 → exec (.txAssemble len) s0 = .next s → s.resp = 0x00000000 →
    (∀ x ∈ s.host.take n, LeavesFrame x) → symbolAnswers n s = some (ws, t) →
      let T := 3 + s.tx.NH + s.tx.NP
      (∀ k < ws.length, ws.getD k 0 =
        if k < T then BitVec.ofNat 32 (65536 * (s.tx.M + s.tx.G) + if k + 1 = T then 256 else 0) else 0x00000004) ∧
      (T ≤ ws.length →
        (ws.filter fun w => decide (w.extractLsb' 0 8 = 0)).length = T ∧
        (ws.filter fun w => decide (w.extractLsb' 8 1 = 1)).length = 1 ∧
        (ws.map fun w => (w.extractLsb' 16 16).toNat).sum = T * (s.tx.M + s.tx.G)) ∧
      t.tx.symcnt = min ws.length T ∧ (t.tx.state = .done ↔ T ≤ ws.length) ∧
      ws.length = ((s.host.take n).filter fun x => decide (x = .write cmdAddr 4 0x00000012)).length

/-- The vectors of a frame's symbols (R237): symbols 0 and 1 carry S0 and symbol 2 S1 for the instance's table
(TrainingVectors says what they hold); in the header and payload symbols from 3 on, null subcarriers carry 0, pilots 1, the
`i`-th data subcarrier the next coded bit or payload index, index 0 beyond the last one (R186, R187, R189). -/
def Obligations.SymbolVectors : Prop :=
  ∀ (N : Sys2Proof.Num) (ms : List (Nat × Nat)) (X : Ext N ms) (u : TxUnit) (c : Nat),
    u.D = indicesOf .data u.alloc → u.ND = u.D.length →
    (c = 0 ∨ c = 1 → symbolVector X u c = trainShort u.alloc) ∧
    (c = 2 → symbolVector X u c = trainLong u.alloc) ∧
    (3 ≤ c →
      (symbolVector X u c).length = u.alloc.length ∧
      (∀ k < u.alloc.length,
        (u.alloc.getD k .null = .null → (symbolVector X u c).getD k Cplx.one = Cplx.zero) ∧
        (u.alloc.getD k .null = .pilot → (symbolVector X u c).getD k Cplx.zero = Cplx.one)) ∧
      (∀ i < u.ND,
        (c < 3 + u.NH → (symbolVector X u c).getD (u.D.getD i 0) Cplx.zero =
          (if (c - 3) * u.ND + i < 210 then X.mod 1 1 (u.hc.getD ((c - 3) * u.ND + i) false).toNat else X.mod 1 1 0)) ∧
        (3 + u.NH ≤ c → (symbolVector X u c).getD (u.D.getD i 0) Cplx.zero =
          (if (c - 3 - u.NH) * u.ND + i < u.pu.length then X.mod u.mm u.md (u.pu.getD ((c - 3 - u.NH) * u.ND + i) 0)
            else X.mod u.mm u.md 0))))

/-- The pseudo-noise bits (R182): from a 15-bit state, for each output `b` the exclusive or of bits 14 and 13, then the state
shifted left with `b` put in. The training vectors (R184, R185): the `i`-th active subcarrier carries 1 − 2·b for the `i`-th
bit of the sequence of its seed, null ones 0. -/
def Obligations.TrainingVectors : Prop :=
  (∀ (st : Nat → BitVec 15) (n : Nat),
    (∀ i, st (i + 1) = (st i <<< 1) ||| (((st i >>> 14) ^^^ (st i >>> 13)) &&& 1)) →
      (pn (st 0) n).length = n ∧
      ∀ i < n, (pn (st 0) n).getD i false = decide (((st i >>> 14) ^^^ (st i >>> 13)) &&& 1 = 1)) ∧
  ∀ (alloc : List Role) (k : Nat), k < alloc.length →
    (trainShort alloc).length = alloc.length ∧ (trainLong alloc).length = alloc.length ∧
    (alloc.getD k .null = .null →
      (trainShort alloc).getD k Cplx.one = Cplx.zero ∧ (trainLong alloc).getD k Cplx.one = Cplx.zero) ∧
    (alloc.getD k .null ≠ .null →
      (trainShort alloc).getD k Cplx.zero =
        (if (pn 0x1D6B (activeCount alloc)).getD (activeCount (alloc.take k)) false then Cplx.negOne else Cplx.one) ∧
      (trainLong alloc).getD k Cplx.zero =
        (if (pn 0x6E25 (activeCount alloc)).getD (activeCount (alloc.take k)) false then Cplx.negOne else Cplx.one))

/-- An OFDM symbol is the inverse transform behind a copy of its last G samples, and stripping the prefix gives the
transform back (R17, R19). -/
def Obligations.CyclicPrefix : Prop :=
  ∀ (N : Sys2Proof.Num) (g : Nat) (V : List Cplx), g ≤ V.length →
    (ofdm N g V).length = V.length + g ∧
    (∀ i < g, (ofdm N g V).getD i Cplx.zero = (idft N V).getD (V.length - g + i) Cplx.zero) ∧
    (∀ i < V.length, (ofdm N g V).getD (g + i) Cplx.zero = (idft N V).getD i Cplx.zero) ∧
    strip g V.length (ofdm N g V) = idft N V

/-- The transforms in exact arithmetic (R18): each is its sum of R18, and the forward one undoes the inverse one. -/
def Obligations.TransformsInverse : Prop :=
  ∀ (N : Sys2Proof.Num) (v : Scalar → ℝ), N.IsExact v → ∀ V : List Cplx,
    dft N (idft N V) = V ∧
    (∀ n < V.length, ((idft N V).getD n Cplx.zero).toC v =
      (1 / (V.length : ℂ)) * ∑ k ∈ Finset.range V.length, (V.getD k Cplx.zero).toC v *
        Complex.exp (2 * Real.pi * k * n / V.length * Complex.I)) ∧
    (∀ k < V.length, ((dft N V).getD k Cplx.zero).toC v =
      ∑ n ∈ Finset.range V.length, (V.getD n Cplx.zero).toC v *
        Complex.exp (-(2 * Real.pi * k * n / V.length * Complex.I)))

/-! ## The synchronizer's commands -/

/-- RX_CREATE with no event pending, M = RX_CFG[15:0] even, at least 16 and at most M_MAX, G = RX_CFG[31:16] at most M (R65,
R301) and a valid table creates the instance R300 gives, in SEEK_PREAMBLE with every per-frame field cleared and RES_PAY
zeroed, and changes nothing else but RESP. -/
def Obligations.RxCreateCompletes : Prop :=
  ∀ (s : State) (d : Bool) (c : List Role) (M G : Nat) (D PL : List Nat),
    M = s.rxCfg.toNat % 65536 → G = s.rxCfg.toNat / 65536 →
    D = (List.range M).filter (fun k => decide (c.getD k .null = .data)) →
    PL = (List.range M).filter (fun k => decide (c.getD k .null = .pilot)) →
    s.rx.evt = false → M % 2 = 0 → 16 ≤ M → M ≤ s.build.mMax → G ≤ M →
    ((d = true ∧ c = initDefault M) ∨
     (d = false ∧ c.length = M ∧ TableIs s (c.map roleCode) ∧ Role.pilot ∈ c ∧ Role.data ∈ c)) →
      ∃ t, exec (.rxCreate d) s = .next t ∧ t = ((s.setRx { RxUnit.reset with
        created := true
        M := M
        G := G
        L := M + G
        ctx := s.rxCtx
        alloc := c
        D := D
        PL := PL
        ND := D.length
        NPL := PL.length
        NH := ceilDiv 210 D.length
        s0t := ofdm Config.num G (trainShort c)
        e0 := Config.num.sum ((ofdm Config.num G (trainShort c)).map Config.num.normSq)
        s1 := trainLong c
        hist := List.replicate (2 * (M + G)) Cplx.zero
        sb := List.replicate (M + G) Cplx.zero
        H := List.replicate M Cplx.zero }).setMem t.mem).setResp 0x00000000 ∧
      (∀ x, inRegion s.build .resPay x = true → memPeek s.build t.mem x = some 0) ∧
      SameOutside s.build s.mem t.mem 0x050000 (regionSize s.build .resPay)

/-- The failures of RX_CREATE (M = RX_CFG[15:0] odd, below 16 or above M_MAX, G = RX_CFG[31:16] above M, an invalid table
in ALLOC), RX_EXECUTE, RX_ACK and RX_DESTROY, in their order, none with another effect (R65, R300, R301, R303, R305, R306,
R402); and the model's refusal, whole, of an RX_EXECUTE or RX_ACK that comes to a sample with a NaN or an infinity, be it
the first or after `k` samples without an event (R16, I-2; log 13). -/
def Obligations.RxCommandFailures : Prop :=
  ∀ (s : State) (d : Bool) (n : Nat) (c : List Byte) (M G : Nat), M = s.rxCfg.toNat % 65536 → G = s.rxCfg.toNat / 65536 →
    (s.rx.evt = false → M % 2 = 1 ∨ M < 16 ∨ s.build.mMax < M ∨ M < G →
      exec (.rxCreate d) s = .next (s.setResp 0x00000001)) ∧
    (s.rx.evt = false → c.length = M → TableIs s c → ¬ ValidTable c →
      exec (.rxCreate false) s = .next (s.setResp 0x00000001)) ∧
    (s.rx.created = false →
      exec (.rxExecute n) s = .next (s.setResp 0x00000005) ∧
      exec .rxAck s = .next (s.setResp 0x00000005) ∧
      exec .rxDestroy s = .next (s.setResp 0x00000005)) ∧
    (s.rx.created = true → s.rx.evt = false → s.build.nBuf < n →
      exec (.rxExecute n) s = .next (s.setResp 0x00000008)) ∧
    (s.rx.created = true → s.rx.evt = false → exec .rxAck s = .next (s.setResp 0x0000000A)) ∧
    (∀ (k : Nat) (t : State), s.rx.created = true → s.rx.evt = false → n ≤ s.build.nBuf → k < n →
      exec (.rxExecute k) s = .next t → t.rx.evt = false →
      (f32Finite (sampleWords t k).1 = false ∨ f32Finite (sampleWords t k).2.1 = false) →
        exec (.rxExecute n) s = .refused .nonFiniteSample) ∧
    (∀ (k : Nat) (t : State), s.rx.created = true → s.rx.evt = true → s.rx.pos + k < s.rx.execN →
      exec .rxAck (s.setRx { s.rx with execN := s.rx.pos + k }) = .next t → t.rx.evt = false →
      (f32Finite (sampleWords t (s.rx.pos + k)).1 = false ∨ f32Finite (sampleWords t (s.rx.pos + k)).2.1 = false) →
        exec .rxAck s = .refused .nonFiniteSample)

/-- While an event is pending, RX_CREATE, RX_EXECUTE and RX_DESTROY are refused with REENTRANT and have no effect (R411). -/
def Obligations.ReentrantCommands : Prop :=
  ∀ (s : State) (d : Bool) (n : Nat), s.rx.created = true → s.rx.evt = true →
    exec (.rxCreate d) s = .next (s.setResp 0x00000007) ∧
    exec (.rxExecute n) s = .next (s.setResp 0x00000007) ∧
    exec .rxDestroy s = .next (s.setResp 0x00000007)

/-- RX_EXECUTE with n = 0 responds OK and changes nothing else (R307). -/
def Obligations.ExecuteNothing : Prop :=
  ∀ s : State, s.rx.created = true → s.rx.evt = false → exec (.rxExecute 0) s = .next (s.setResp 0x00000000)

/-- RX_EXECUTE over written, finite samples completes, with OK after all of them or with the event of one of them. What it
leaves in the RX record (but for `exec_n` and `pos`) and in the memory is what step(x) leaves, applied in turn to the first
`pos` samples of RX_SAMP taken into NUM, and no sample but the last of them has posted an event (R16, R303, R304, R320,
R410). The instance, the generator, the registers and every byte outside RES_PAY are as before. -/
def Obligations.RxExecuteCompletes : Prop :=
  ∀ (s : State) (n : Nat), MemInv s → s.rx.plLen ≤ s.build.payloadMax → s.rx.created = true → s.rx.evt = false →
    1 ≤ n → n ≤ s.build.nBuf → SamplesReady s 0 n →
      let after := fun k => feed Config.num (Config.ext s.build.modset) ((List.range k).map (busSample Config.num s)) s
      ∃ t, exec (.rxExecute n) s = .next t ∧ ConsumptionEnds t ∧ t.rx.execN = n ∧ 1 ≤ t.rx.pos ∧
        t = ((s.setRx t.rx).setMem t.mem).setResp t.resp ∧ SameInstance t.rx s.rx ∧
        SameOutside s.build s.mem t.mem 0x050000 (regionSize s.build .resPay) ∧
        t.rx = { (after t.rx.pos).rx with execN := n, pos := t.rx.pos } ∧ t.mem = (after t.rx.pos).mem ∧
        ∀ k < t.rx.pos, (after k).rx.evt = false

/-- RX_ACK while an event is pending performs RESET on the record and the result registers and is then the run over the
remaining samples `RX_SAMP[pos .. exec_n - 1]` (R305, R330, R412); with none remaining it answers OK and the reset record
is all it leaves; over written, finite samples it completes, with OK or with the next event, and leaves what step(x) leaves,
applied in turn to the samples from `pos` on, as RX_EXECUTE does (R16, R304, R320). -/
def Obligations.RxAckCompletes : Prop :=
  ∀ s : State, s.rx.created = true → s.rx.evt = true →
    exec .rxAck s = run (resetFsm (s.setRx { s.rx with evt := false })) ∧
    (s.rx.pos = s.rx.execN →
      exec .rxAck s = .next (((s.setRx { resetRecord s.rx with evt := false }).setMem
        (memClear s.build s.mem .resPay)).setResp 0x00000000) ∧
      (∀ x, memPeek s.build (memClear s.build s.mem .resPay) x =
        if inRegion s.build .resPay x then some 0 else memPeek s.build s.mem x)) ∧
    (MemInv s → s.rx.pos ≤ s.rx.execN → s.rx.execN ≤ s.build.nBuf →
      SamplesReady s s.rx.pos (s.rx.execN - s.rx.pos) →
        let after := fun k => feed Config.num (Config.ext s.build.modset)
          ((List.range k).map fun i => busSample Config.num s (s.rx.pos + i)) (resetFsm (s.setRx { s.rx with evt := false }))
        ∃ t, exec .rxAck s = .next t ∧ ConsumptionEnds t ∧ t.rx.execN = s.rx.execN ∧ s.rx.pos ≤ t.rx.pos ∧
          t = ((s.setRx t.rx).setMem t.mem).setResp t.resp ∧ SameInstance t.rx s.rx ∧
          SameOutside s.build s.mem t.mem 0x050000 (regionSize s.build .resPay) ∧
          t.rx = { (after (t.rx.pos - s.rx.pos)).rx with execN := s.rx.execN, pos := t.rx.pos } ∧
          t.mem = (after (t.rx.pos - s.rx.pos)).mem ∧ ∀ k < t.rx.pos - s.rx.pos, (after k).rx.evt = false)

/-- TX_DESTROY in a created instance returns the TX record to reset and changes nothing else but RESP (R239). RX_DESTROY with
no event pending returns the RX record to reset, RES_PAY with it, and changes nothing else but RESP (R306). The record
fields R74 and R75 leave open at reset are the model's empty lists and zeros (log 10). -/
def Obligations.DestroyCompletes : Prop :=
  ∀ s : State,
    (s.tx.created = true → exec .txDestroy s = .next ((s.setTx TxUnit.reset).setResp 0x00000000)) ∧
    (s.rx.created = true → s.rx.evt = false →
      ∃ t, exec .rxDestroy s = .next t ∧ t = ((s.setRx RxUnit.reset).setMem t.mem).setResp 0x00000000 ∧
        (∀ x, inRegion s.build .resPay x = true → memPeek s.build t.mem x = some 0) ∧
        SameOutside s.build s.mem t.mem 0x050000 (regionSize s.build .resPay))

/-- Chunking invariance (R331): when one RX_EXECUTE consumes `a` samples without an event and the host then moves the next
`b` into place for a second, the two together leave the RX record, the answer and RES_PAY as one RX_EXECUTE of all
`a + b` does, but for `exec_n` and `pos`, which count within a command. -/
def Obligations.ChunkingInvariance : Prop :=
  ∀ (s t : State) (m : Memory) (a b : Nat),
    MemInv s → m.wf s.build = true → s.rx.plLen ≤ s.build.payloadMax → s.rx.created = true → s.rx.evt = false →
    1 ≤ a → 1 ≤ b → a + b ≤ s.build.nBuf → SamplesReady s 0 (a + b) →
    exec (.rxExecute a) s = .next t → t.rx.evt = false →
    (∀ i < b, sampleWords (t.setMem m) i = sampleWords s (a + i)) →
    (∀ x, inRegion s.build .resPay x = true → memPeek s.build m x = memPeek s.build t.mem x) →
      ∃ u v, exec (.rxExecute (a + b)) s = .next u ∧ exec (.rxExecute b) (t.setMem m) = .next v ∧
        u.resp = v.resp ∧ u.rx = { v.rx with pos := v.rx.pos + a, execN := a + b } ∧
        ∀ x, inRegion s.build .resPay x = true → memPeek s.build u.mem x = memPeek s.build v.mem x

/-- The state machine of R308, for one consumed sample while no event is pending: which state each state goes to and on
what, and that only a completed header or payload posts an event. -/
def Obligations.StateMachine : Prop :=
  ∀ (N : Sys2Proof.Num) (ms : List (Nat × Nat)) (X : Ext N ms) (x : Cplx) (s t : State),
    s.rx.evt = false → t = sampleStep N X x s →
    (s.rx.state = .seekPreamble → t.rx.evt = false ∧
      (t.rx.state = if s.rx.L ≤ min (s.rx.fill + 1) (2 * s.rx.L) ∧
          N.lt (N.ofRat s.build.detectThreshold) (rho N (push x s.rx)) = true
        then .trainingShort else .seekPreamble)) ∧
    (s.rx.state = .trainingShort → t.rx.evt = false ∧ t.rx.jj = s.rx.jj + 1 ∧
      (t.rx.state = if t.rx.jj = t.rx.pkOff + s.rx.L then .trainingLong else .trainingShort)) ∧
    (s.rx.state = .trainingLong → t.rx.evt = false ∧
      (t.rx.state = if s.rx.sbn + 1 = s.rx.L then .header else .trainingLong)) ∧
    (s.rx.state = .header →
      (s.rx.sbn + 1 = s.rx.L ∧ s.rx.sym + 1 = s.rx.NH →
        let r := { collect N x s.rx with sbn := 0 }
        let cb := headerBits X r (equalize N r (dft N (strip r.G r.M r.sb)))
        ((headerDecode s.build X cb).1 = true → t.rx.state = .payload ∧ t.rx.evt = false ∧ t.rx.sym = 0) ∧
        ((headerDecode s.build X cb).1 = false → t.rx.state = .header ∧ t.rx.evt = true ∧ t.rx.resFlags = 1)) ∧
      (¬ (s.rx.sbn + 1 = s.rx.L ∧ s.rx.sym + 1 = s.rx.NH) → t.rx.state = .header ∧ t.rx.evt = false)) ∧
    (s.rx.state = .payload → t.rx.state = .payload ∧
      (t.rx.evt = true ↔ s.rx.sbn + 1 = s.rx.L ∧ s.rx.sym + 1 = s.rx.NP))

/-- Posting an event (R328, R410) writes the result record and `evt` and nothing else: the payload bytes into RES_PAY when
the header is valid, every other field of the record and every other byte as before. -/
def Obligations.PostedEvent : Prop :=
  ∀ (s t : State) (h p : Bool) (b : List Byte), MemInv s → b.length ≤ s.build.payloadMax → t = postEvent h p b s →
    t = (s.setRx { s.rx with
      resFlags := BitVec.ofNat 3 (1 + 2 * h.toNat + 4 * p.toNat)
      resHdr := s.rx.hb.take 8
      resPaylen := if h then s.rx.plLen else 0
      resBytes := if h then s.rx.plLen else 0
      resSnr := s.rx.snrDb
      resRssi := s.rx.rssiDb
      resCtx := s.rx.ctx
      evt := true }).setMem t.mem ∧
    (h = false → t.mem = s.mem) ∧
    (h = true → BytesAt s.build t.mem 0x050000 b ∧ SameOutside s.build s.mem t.mem 0x050000 b.length)

/-- A stream of zeros is never detected (R303's example, R362): from SEEK_PREAMBLE with an empty history and a
DETECT_THRESHOLD that is not negative, RX_EXECUTE over any number of zero samples answers OK, consumes them all and stays in
SEEK_PREAMBLE without an event. It rests on the laws of NUM that log 5 names. -/
def Obligations.SilenceFindsNothing : Prop :=
  ∀ (s : State) (n : Nat), 0 ≤ s.build.detectThreshold →
    s.rx.created = true → s.rx.evt = false → s.rx.state = .seekPreamble →
    (∀ z ∈ s.rx.hist, z = Cplx.zero) → 1 ≤ n → n ≤ s.build.nBuf → (∀ i < n, sampleWords s i = (0, 0, s.draws)) →
      ∃ t, exec (.rxExecute n) s = .next t ∧ t.resp = 0x00000000 ∧ t.rx.pos = n ∧ t.rx.execN = n ∧
        t.rx.state = .seekPreamble ∧ t.rx.evt = false

/-! ## A noiseless channel -/

/-- Noiseless alignment (R333): a frame of a linked generator, zero CFO and no noise, after `k` samples of exact zeros, no
window before the end of the first short symbol detected and DETECT_THRESHOLD below 1, in exact arithmetic. Detection falls
on the last sample of the first short symbol with ρ = 1, the long symbol begins after the second with pk_off = 0 and
nu_hat = 0, and it gives H = 1 on every active subcarrier. -/
def Obligations.NoiselessAlignment : Prop :=
  ∀ (N : Sys2Proof.Num) (v : Scalar → ℝ) (b : Build) (X : Ext N b.modset) (t : List Role) (p : Props)
    (uh pb : List Byte) (u : TxUnit) (s : State) (k : Nat),
    N.IsExact v → Linked b X t p uh pb u s →
    let z := List.replicate k Cplx.zero ++ frameSamples N X u
    (feed N X (z.take (k + u.L - 1)) s).rx.state = .seekPreamble →
      (feed N X (z.take (k + u.L)) s).rx.state = .trainingShort ∧
      (feed N X (z.take (k + u.L)) s).rx.pkVal = .rat 1 ∧
      (feed N X (z.take (k + 2 * u.L - 1)) s).rx.state = .trainingShort ∧
      (feed N X (z.take (k + 2 * u.L)) s).rx.state = .trainingLong ∧
      (feed N X (z.take (k + 2 * u.L)) s).rx.pkOff = 0 ∧
      (feed N X (z.take (k + 2 * u.L)) s).rx.nuHat = .rat 0 ∧
      (feed N X (z.take (k + 3 * u.L)) s).rx.state = .header ∧
      ∀ j < t.length, (feed N X (z.take (k + 3 * u.L)) s).rx.H.getD j Cplx.zero =
        if t.getD j .null = .null then Cplx.zero else Cplx.one

/-- The noiseless round trip (R27, R333, T-RT): the synchronizer fed that frame, in exact arithmetic, posts one event, with
its last sample, with frame_detected, header_valid and payload_valid, the user header, the length and the payload that
were assembled, and an SNR of STAT_CLAMP_DB (R377). -/
def Obligations.NoiselessRoundTrip : Prop :=
  ∀ (N : Sys2Proof.Num) (v : Scalar → ℝ) (b : Build) (X : Ext N b.modset) (t : List Role) (p : Props)
    (uh pb : List Byte) (u : TxUnit) (s : State) (k : Nat),
    N.IsExact v → Linked b X t p uh pb u s →
    let z := List.replicate k Cplx.zero ++ frameSamples N X u
    (feed N X (z.take (k + u.L - 1)) s).rx.state = .seekPreamble →
      (∀ n < z.length, (feed N X (z.take n) s).rx.evt = false) ∧
      (feed N X z s).rx.evt = true ∧ (feed N X z s).rx.state = .payload ∧ (feed N X z s).rx.resFlags = 7 ∧
      (feed N X z s).rx.resHdr = uh ∧ (feed N X z s).rx.resPaylen = pb.length ∧
      (feed N X z s).rx.resBytes = pb.length ∧ (feed N X z s).rx.resCtx = s.rx.ctx ∧
      (feed N X z s).rx.resSnr = .rat b.statClampDb ∧
      BytesAt b (feed N X z s).mem 0x050000 pb

/-! ## Estimation -/

/-- Properties of the correlation in exact arithmetic (R363): it lies between 0 and 1; it is 1 exactly when the window is a
nonzero complex multiple of the training symbol; scaling the window by a nonzero complex constant changes nothing; and a
window of zeros gives 0. -/
def Obligations.CorrelationBounds : Prop :=
  ∀ (N : Sys2Proof.Num) (v : Scalar → ℝ), N.IsExact v → ∀ (s w : List Cplx) (z : Cplx), s.length = w.length →
    let e0 := N.sum (s.map N.normSq)
    0 ≤ v (correlation N s e0 w) ∧ v (correlation N s e0 w) ≤ 1 ∧
    (0 < v e0 → (v (correlation N s e0 w) = 1 ↔
      ∃ c : ℂ, c ≠ 0 ∧ w.map (Cplx.toC v) = s.map fun x => c * x.toC v)) ∧
    (z ≠ Cplx.zero → correlation N s e0 (w.map (N.cmul z)) = correlation N s e0 w) ∧
    correlation N s e0 (List.replicate s.length Cplx.zero) = .rat 0

/-- Interpolation (R371): pilots are ordered by signed frequency, k below M/2 and k − M from there on (R14); the pilots a
data subcarrier's gain comes from are the nearest by signed frequency on either side; between two of them the gain is
interpolated linearly, beyond the last one and below the first one it is held. That a NUM which rounds multiplies H[b] −
H[a] by the quotient (fk − f(a))/(f(b) − f(a)), and that these two differences are formed exactly, as integers, is the
model's choice (log 17); R371 writes (H[b] − H[a])·(fk − f(a))/(f(b) − f(a)). -/
def Obligations.InterpolatedGain : Prop :=
  ∀ (m : Nat) (pl : List Nat) (k : Nat),
    freq m k = (if k < m / 2 then (k : Int) else (k : Int) - (m : Int)) ∧
    (∀ a, pilotBelow m pl k = some a →
      a ∈ pl ∧ freq m a < freq m k ∧ ∀ p ∈ pl, freq m p < freq m k → freq m p ≤ freq m a) ∧
    (pilotBelow m pl k = none → ∀ p ∈ pl, freq m k ≤ freq m p) ∧
    (∀ b, pilotAbove m pl k = some b →
      b ∈ pl ∧ freq m k < freq m b ∧ ∀ p ∈ pl, freq m k < freq m p → freq m b ≤ freq m p) ∧
    (pilotAbove m pl k = none → ∀ p ∈ pl, freq m p ≤ freq m k) ∧
    ((∀ p ∈ pl, p < m) → ∀ (N : Sys2Proof.Num) (h : Nat → Cplx) (a b : Nat),
      (a ∈ pl ∧ freq m a < freq m k ∧ (∀ p ∈ pl, freq m p < freq m k → freq m p ≤ freq m a) →
        (b ∈ pl ∧ freq m k < freq m b ∧ (∀ p ∈ pl, freq m k < freq m p → freq m b ≤ freq m p) →
          interpolate N m pl h k = N.cadd (h a) (N.cscale
            (N.div (N.ofRat (freq m k - freq m a : Int)) (N.ofRat (freq m b - freq m a : Int))) (N.csub (h b) (h a)))) ∧
        ((∀ p ∈ pl, freq m p ≤ freq m k) → interpolate N m pl h k = h a)) ∧
      (b ∈ pl ∧ freq m k < freq m b ∧ (∀ p ∈ pl, freq m k < freq m p → freq m b ≤ freq m p) →
        (∀ p ∈ pl, freq m k ≤ freq m p) → interpolate N m pl h k = h b))

/-! ## Coding -/

/-- Bits and bytes are inverse to each other, most significant bit first within a byte (R9). -/
def Obligations.BitsAndBytes : Prop :=
  (∀ B : List Byte, bytes (bits B) = B) ∧ (∀ b : Bits, b.length % 8 = 0 → bits (bytes b) = b) ∧
  (∀ (B : List Byte) (i j : Nat), i < B.length → j < 8 → (bits B).getD (8 * i + j) false = (B.getD i 0).getLsbD (7 - j))

/-- Grouping bits into symbol indices and back (R10): the groups are `ceil(|b|/d)` many (R11), index `q` is the sum of
`b[qd + j]·2^(d-1-j)`, the first bit of a group its most significant and bits beyond the last one 0, each index is below 2^d,
and ungrouping them gives the bits back with zero padding. -/
def Obligations.GroupAndUngroup : Prop :=
  ∀ (d : Nat) (b : Bits), 1 ≤ d →
    (b.length ≤ ceilDiv b.length d * d ∧ ∀ q, b.length ≤ q * d → ceilDiv b.length d ≤ q) ∧
    (group d b).length = ceilDiv b.length d ∧ (∀ u ∈ group d b, u < 2 ^ d) ∧
    (∀ q < ceilDiv b.length d,
      (group d b).getD q 0 = ∑ j ∈ Finset.range d, (b.getD (q * d + j) false).toNat * 2 ^ (d - 1 - j)) ∧
    ungroup d (group d b) = pad (d * ceilDiv b.length d) b

/-- The header's 13 bytes (R179): the user header, then payload_len / 256, payload_len % 256, 16·modulation_scheme +
modulation_depth, 32·crc_scheme + fec_inner and fec_outer. What the generator codes as a header the synchronizer decodes to
the same 13 bytes, valid, with the same length and properties (R180, R234, R380, R381). -/
def Obligations.HeaderRoundTrip : Prop :=
  ∀ (N : Sys2Proof.Num) (ms : List (Nat × Nat)) (X : Ext N ms) (b : Build) (uh : List Byte) (len : Nat) (p : Props),
    uh.length = 8 → len ≤ b.payloadMax → legalProps b p = true →
    ((headerBytes uh len p).drop 8).map BitVec.toNat =
      [len / 256, len % 256, 16 * p.mm + p.md, 32 * p.crc + p.fi, p.fo] ∧
    (headerCode X uh len p).length = 210 ∧
    headerDecode b X (headerCode X uh len p) = (true, headerBytes uh len p) ∧
    (headerBytes uh len p).take 8 = uh ∧ hdrLen (headerBytes uh len p) = len ∧ hdrProps (headerBytes uh len p) = p

/-- The payload round trip (R27, R178, R382): the symbol indices the generator sends, each modulated and demodulated, and
the bits they stand for cut at the coded length, decode to the payload with payload_valid = 1. -/
def Obligations.PayloadRoundTrip : Prop :=
  ∀ (N : Sys2Proof.Num) (b : Build) (X : Ext N b.modset) (p : Props) (pb : List Byte), legalProps b p = true →
    payloadDecode X pb.length p.crc p.fi p.fo
      ((ungroup p.md ((payloadCode X p pb).map fun u => X.demod p.mm p.md (X.mod p.mm p.md u))).take
        (payloadBits p.crc p.fi p.fo pb.length)) = (true, pb)

/-- The code lengths (R175, R176) in numbers. Length agreement (R383): from a valid header the synchronizer computes the
payload symbol count of the generator that sent it and the length of its coded payload, and that many symbols carry at
least that many bits. -/
def Obligations.LengthAgreement : Prop :=
  (List.range 6).map crcLen = [0, 8, 8, 16, 24, 32] ∧
  (∀ n, encLen 0 n = n ∧ encLen 1 n = 3 * n ∧ encLen 2 n = 7 * ((n + 3) / 4) ∧ encLen 3 n = 12 * ((n + 7) / 8)) ∧
  ∀ (N : Sys2Proof.Num) (ms : List (Nat × Nat)) (X : Ext N ms) (b : Build) (u : TxUnit) (r : RxUnit) (p : Props)
    (uh pb : List Byte), uh.length = 8 → pb.length ≤ b.payloadMax → legalProps b p = true → r.ND = u.ND → 1 ≤ u.ND →
    let q := headerAccepted (headerBytes uh pb.length p) r
    q.NP = (txAssembled X u p uh pb pb.length).NP ∧
    q.plBits = (payloadChain X p.crc p.fi p.fo pb).length ∧
    q.plBits ≤ q.NP * r.ND * q.plMd

/-- Rounding to the bus (R16, D49, R110). Every rational value below 2^128 − 2^103 in magnitude rounds to the finite word
nearest it, of two equally near words to the even one, and any greater magnitude to the signed infinity; the sign bit is
set exactly for negative values. A finite word is what its own value rounds to; the negative zero, whose value is 0, rounds
to +0 (log 7). -/
def Obligations.RoundToNearest : Prop :=
  (∀ q : ℚ, |q| < 2 ^ 128 - 2 ^ 103 →
    f32Finite (f32Round q) = true ∧ ((f32Round q).getLsbD 31 = true ↔ q < 0) ∧
    ∀ w : Word, f32Finite w = true →
      |q - f32Value (f32Round q)| ≤ |q - f32Value w| ∧
      (|q - f32Value (f32Round q)| = |q - f32Value w| → f32Value w ≠ f32Value (f32Round q) →
        (f32Round q).getLsbD 0 = false)) ∧
  (∀ q : ℚ, 2 ^ 128 - 2 ^ 103 ≤ |q| → f32Round q = if q < 0 then 0xFF800000 else 0x7F800000) ∧
  (∀ w : Word, f32Finite w = true → f32Round (f32Value w) = if w = 0x80000000 then 0 else w)

/-! ## What every step keeps -/

/-- Every step keeps the buffer memories in their canonical form (R77, R101, R102, R116; the form is the model's own), and
the reserved bits of TX_PROPS at 0 (R59). -/
def Obligations.MemoryStaysCanonical : Prop :=
  (∀ s t : State, MemInv s → step s = .next t → MemInv t) ∧
  (∀ s t : State, PropsInv s → step s = .next t → PropsInv t)

/-- Every step keeps the TX record consistent: at reset while not created, and in a created instance its dimensions those
of its table, its properties legal, its sequencer where its symbol count says (R74, R76, R231, R238). At reset the fields
R74 leaves open are the model's empty lists (log 10). -/
def Obligations.TxRecordStaysConsistent : Prop := ∀ s t : State, TxInv s → step s = .next t → TxInv t

/-- Every step keeps the RX record consistent: at reset while not created, never in RESET, and in a created instance its
dimensions those of its table and its buffers of the sizes R75 gives (R67, R75, R76, R301, R330). At reset the fields R75
leaves open (the table, s0t, E0, S1) are the model's empty lists and zeros (log 10). -/
def Obligations.RxRecordStaysConsistent : Prop := ∀ s t : State, RxShapeInv s → step s = .next t → RxShapeInv t

/-- Every step keeps `pos ≤ exec_n ≤ N_BUF`; an event is pending only in a created unit and in a state that posts one, and
while none is pending the result registers and RES_PAY are 0 (R68, R71, R308, R415). -/
def Obligations.EventStaysConsistent : Prop :=
  ∀ s t : State, MemInv s → TxInv s → EventInv s → step s = .next t → EventInv t

/-- Every step keeps the phases wrapped, the fractional peak offset and the statistics within their clamps, and the
residuals at 0 (R365, R367, R374, R376, R377, R378). The phase range rests on a law of NUM that log 5 names. -/
def Obligations.EstimatesStayInRange : Prop := ∀ s t : State, RangeInv s → step s = .next t → RangeInv t

/-- Every step keeps the accumulated bits at exactly the count the symbols processed so far carry, cut at the coded length,
and the symbol count below the frame's (R325, R326, R383). -/
def Obligations.CollectedBitsStayCounted : Prop := ∀ s t : State, CountInv s → step s = .next t → CountInv t

/-- All of these invariants hold right after reset, of any build (R450, R451). The fields R74 and R75 leave open are the
model's (log 10); that 0 lies in the ranges of NUM's angles is a law that log 5 names. -/
def Obligations.InvariantsAtReset : Prop :=
  ∀ b : Build, MemInv (State.resetOf b) ∧ PropsInv (State.resetOf b) ∧ TxInv (State.resetOf b) ∧
    RxShapeInv (State.resetOf b) ∧ EventInv (State.resetOf b) ∧ RangeInv (State.resetOf b) ∧ CountInv (State.resetOf b)

/-! ## Whole-machine rules -/

/-- The two units share no state (R50, R424): an allocator or generator command leaves the RX record, a synchronizer
command the TX record; no command changes a configuration register or what the host has queued or read. -/
def Obligations.UnitsShareNoState : Prop :=
  ∀ (i : Instr) (s t : State), exec i s = .next t →
    t.build = s.build ∧ t.txCfg = s.txCfg ∧ t.txProps = s.txProps ∧ t.rxCfg = s.rxCfg ∧ t.rxCtx = s.rxCtx ∧
    t.host = s.host ∧ t.rdata = s.rdata ∧
    ((∃ n, i = .nop n ∨ i = .allocDefault n ∨ i = .allocValidate n) → t.tx = s.tx ∧ t.rx = s.rx) ∧
    ((∃ d n, i = .txCreate d ∨ i = .txAssemble n ∨ i = .txWriteSymbol ∨ i = .txDestroy) → t.rx = s.rx) ∧
    ((∃ d n, i = .rxCreate d ∨ i = .rxExecute n ∨ i = .rxAck ∨ i = .rxDestroy) → t.tx = s.tx)

/-- Which command writes which buffer (R77, R101, R111): ALLOC only ALLOC_DEFAULT, TX_SYM only TX_WRITESYMBOL, RES_PAY only
the commands of the RX unit, and TX_HDR, TX_PAY and RX_SAMP none. -/
def Obligations.BuffersWrittenBy : Prop :=
  ∀ (i : Instr) (s t : State) (r : Region) (x : Nat), MemInv s → TxInv s → s.rx.plLen ≤ s.build.payloadMax →
    exec i s = .next t → inRegion s.build r x = true → memPeek s.build t.mem x ≠ memPeek s.build s.mem x →
      (r = .alloc ∧ ∃ m, i = .allocDefault m) ∨ (r = .txSym ∧ i = .txWriteSymbol) ∨
      (r = .resPay ∧ ((∃ d, i = .rxCreate d) ∨ (∃ n, i = .rxExecute n) ∨ i = .rxAck ∨ i = .rxDestroy))

/-- The constants of an instance change only when it is created or destroyed (R76). -/
def Obligations.InstanceConstants : Prop :=
  ∀ (i : Instr) (s t : State), exec i s = .next t →
    ((∀ d, i ≠ .rxCreate d) → i ≠ .rxDestroy → SameInstance t.rx s.rx) ∧
    ((∀ d, i ≠ .txCreate d) → i ≠ .txDestroy →
      t.tx.created = s.tx.created ∧ t.tx.M = s.tx.M ∧ t.tx.G = s.tx.G ∧ t.tx.L = s.tx.L ∧ t.tx.alloc = s.tx.alloc ∧
        t.tx.D = s.tx.D ∧ t.tx.PL = s.tx.PL ∧ t.tx.ND = s.tx.ND ∧ t.tx.NPL = s.tx.NPL ∧ t.tx.NH = s.tx.NH)
end

