-- ==== Sys2Proof/Laws/State.lean ====
section
/-! SUPPORT. What each update of the state leaves in each field: one lemma per field per update, all by rfl. -/

namespace Sys2Proof.Machine

variable (s : State)

@[simp] theorem State.setResp_build (v : Word) : (s.setResp v).build = s.build := rfl
@[simp] theorem State.setResp_resp (v : Word) : (s.setResp v).resp = v := rfl
@[simp] theorem State.setResp_txCfg (v : Word) : (s.setResp v).txCfg = s.txCfg := rfl
@[simp] theorem State.setResp_txProps (v : Word) : (s.setResp v).txProps = s.txProps := rfl
@[simp] theorem State.setResp_rxCfg (v : Word) : (s.setResp v).rxCfg = s.rxCfg := rfl
@[simp] theorem State.setResp_rxCtx (v : Word) : (s.setResp v).rxCtx = s.rxCtx := rfl
@[simp] theorem State.setResp_tx (v : Word) : (s.setResp v).tx = s.tx := rfl
@[simp] theorem State.setResp_rx (v : Word) : (s.setResp v).rx = s.rx := rfl
@[simp] theorem State.setResp_mem (v : Word) : (s.setResp v).mem = s.mem := rfl
@[simp] theorem State.setResp_draws (v : Word) : (s.setResp v).draws = s.draws := rfl
@[simp] theorem State.setResp_host (v : Word) : (s.setResp v).host = s.host := rfl
@[simp] theorem State.setResp_rdata (v : Word) : (s.setResp v).rdata = s.rdata := rfl

@[simp] theorem State.setTxCfg_build (v : Word) : (s.setTxCfg v).build = s.build := rfl
@[simp] theorem State.setTxCfg_resp (v : Word) : (s.setTxCfg v).resp = s.resp := rfl
@[simp] theorem State.setTxCfg_txCfg (v : Word) : (s.setTxCfg v).txCfg = v := rfl
@[simp] theorem State.setTxCfg_txProps (v : Word) : (s.setTxCfg v).txProps = s.txProps := rfl
@[simp] theorem State.setTxCfg_rxCfg (v : Word) : (s.setTxCfg v).rxCfg = s.rxCfg := rfl
@[simp] theorem State.setTxCfg_rxCtx (v : Word) : (s.setTxCfg v).rxCtx = s.rxCtx := rfl
@[simp] theorem State.setTxCfg_tx (v : Word) : (s.setTxCfg v).tx = s.tx := rfl
@[simp] theorem State.setTxCfg_rx (v : Word) : (s.setTxCfg v).rx = s.rx := rfl
@[simp] theorem State.setTxCfg_mem (v : Word) : (s.setTxCfg v).mem = s.mem := rfl
@[simp] theorem State.setTxCfg_draws (v : Word) : (s.setTxCfg v).draws = s.draws := rfl
@[simp] theorem State.setTxCfg_host (v : Word) : (s.setTxCfg v).host = s.host := rfl
@[simp] theorem State.setTxCfg_rdata (v : Word) : (s.setTxCfg v).rdata = s.rdata := rfl

@[simp] theorem State.setTxProps_build (v : Word) : (s.setTxProps v).build = s.build := rfl
@[simp] theorem State.setTxProps_resp (v : Word) : (s.setTxProps v).resp = s.resp := rfl
@[simp] theorem State.setTxProps_txCfg (v : Word) : (s.setTxProps v).txCfg = s.txCfg := rfl
@[simp] theorem State.setTxProps_txProps (v : Word) : (s.setTxProps v).txProps = v := rfl
@[simp] theorem State.setTxProps_rxCfg (v : Word) : (s.setTxProps v).rxCfg = s.rxCfg := rfl
@[simp] theorem State.setTxProps_rxCtx (v : Word) : (s.setTxProps v).rxCtx = s.rxCtx := rfl
@[simp] theorem State.setTxProps_tx (v : Word) : (s.setTxProps v).tx = s.tx := rfl
@[simp] theorem State.setTxProps_rx (v : Word) : (s.setTxProps v).rx = s.rx := rfl
@[simp] theorem State.setTxProps_mem (v : Word) : (s.setTxProps v).mem = s.mem := rfl
@[simp] theorem State.setTxProps_draws (v : Word) : (s.setTxProps v).draws = s.draws := rfl
@[simp] theorem State.setTxProps_host (v : Word) : (s.setTxProps v).host = s.host := rfl
@[simp] theorem State.setTxProps_rdata (v : Word) : (s.setTxProps v).rdata = s.rdata := rfl

@[simp] theorem State.setRxCfg_build (v : Word) : (s.setRxCfg v).build = s.build := rfl
@[simp] theorem State.setRxCfg_resp (v : Word) : (s.setRxCfg v).resp = s.resp := rfl
@[simp] theorem State.setRxCfg_txCfg (v : Word) : (s.setRxCfg v).txCfg = s.txCfg := rfl
@[simp] theorem State.setRxCfg_txProps (v : Word) : (s.setRxCfg v).txProps = s.txProps := rfl
@[simp] theorem State.setRxCfg_rxCfg (v : Word) : (s.setRxCfg v).rxCfg = v := rfl
@[simp] theorem State.setRxCfg_rxCtx (v : Word) : (s.setRxCfg v).rxCtx = s.rxCtx := rfl
@[simp] theorem State.setRxCfg_tx (v : Word) : (s.setRxCfg v).tx = s.tx := rfl
@[simp] theorem State.setRxCfg_rx (v : Word) : (s.setRxCfg v).rx = s.rx := rfl
@[simp] theorem State.setRxCfg_mem (v : Word) : (s.setRxCfg v).mem = s.mem := rfl
@[simp] theorem State.setRxCfg_draws (v : Word) : (s.setRxCfg v).draws = s.draws := rfl
@[simp] theorem State.setRxCfg_host (v : Word) : (s.setRxCfg v).host = s.host := rfl
@[simp] theorem State.setRxCfg_rdata (v : Word) : (s.setRxCfg v).rdata = s.rdata := rfl

@[simp] theorem State.setRxCtx_build (v : Word) : (s.setRxCtx v).build = s.build := rfl
@[simp] theorem State.setRxCtx_resp (v : Word) : (s.setRxCtx v).resp = s.resp := rfl
@[simp] theorem State.setRxCtx_txCfg (v : Word) : (s.setRxCtx v).txCfg = s.txCfg := rfl
@[simp] theorem State.setRxCtx_txProps (v : Word) : (s.setRxCtx v).txProps = s.txProps := rfl
@[simp] theorem State.setRxCtx_rxCfg (v : Word) : (s.setRxCtx v).rxCfg = s.rxCfg := rfl
@[simp] theorem State.setRxCtx_rxCtx (v : Word) : (s.setRxCtx v).rxCtx = v := rfl
@[simp] theorem State.setRxCtx_tx (v : Word) : (s.setRxCtx v).tx = s.tx := rfl
@[simp] theorem State.setRxCtx_rx (v : Word) : (s.setRxCtx v).rx = s.rx := rfl
@[simp] theorem State.setRxCtx_mem (v : Word) : (s.setRxCtx v).mem = s.mem := rfl
@[simp] theorem State.setRxCtx_draws (v : Word) : (s.setRxCtx v).draws = s.draws := rfl
@[simp] theorem State.setRxCtx_host (v : Word) : (s.setRxCtx v).host = s.host := rfl
@[simp] theorem State.setRxCtx_rdata (v : Word) : (s.setRxCtx v).rdata = s.rdata := rfl

@[simp] theorem State.setTx_build (v : TxUnit) : (s.setTx v).build = s.build := rfl
@[simp] theorem State.setTx_resp (v : TxUnit) : (s.setTx v).resp = s.resp := rfl
@[simp] theorem State.setTx_txCfg (v : TxUnit) : (s.setTx v).txCfg = s.txCfg := rfl
@[simp] theorem State.setTx_txProps (v : TxUnit) : (s.setTx v).txProps = s.txProps := rfl
@[simp] theorem State.setTx_rxCfg (v : TxUnit) : (s.setTx v).rxCfg = s.rxCfg := rfl
@[simp] theorem State.setTx_rxCtx (v : TxUnit) : (s.setTx v).rxCtx = s.rxCtx := rfl
@[simp] theorem State.setTx_tx (v : TxUnit) : (s.setTx v).tx = v := rfl
@[simp] theorem State.setTx_rx (v : TxUnit) : (s.setTx v).rx = s.rx := rfl
@[simp] theorem State.setTx_mem (v : TxUnit) : (s.setTx v).mem = s.mem := rfl
@[simp] theorem State.setTx_draws (v : TxUnit) : (s.setTx v).draws = s.draws := rfl
@[simp] theorem State.setTx_host (v : TxUnit) : (s.setTx v).host = s.host := rfl
@[simp] theorem State.setTx_rdata (v : TxUnit) : (s.setTx v).rdata = s.rdata := rfl

@[simp] theorem State.setRx_build (v : RxUnit) : (s.setRx v).build = s.build := rfl
@[simp] theorem State.setRx_resp (v : RxUnit) : (s.setRx v).resp = s.resp := rfl
@[simp] theorem State.setRx_txCfg (v : RxUnit) : (s.setRx v).txCfg = s.txCfg := rfl
@[simp] theorem State.setRx_txProps (v : RxUnit) : (s.setRx v).txProps = s.txProps := rfl
@[simp] theorem State.setRx_rxCfg (v : RxUnit) : (s.setRx v).rxCfg = s.rxCfg := rfl
@[simp] theorem State.setRx_rxCtx (v : RxUnit) : (s.setRx v).rxCtx = s.rxCtx := rfl
@[simp] theorem State.setRx_tx (v : RxUnit) : (s.setRx v).tx = s.tx := rfl
@[simp] theorem State.setRx_rx (v : RxUnit) : (s.setRx v).rx = v := rfl
@[simp] theorem State.setRx_mem (v : RxUnit) : (s.setRx v).mem = s.mem := rfl
@[simp] theorem State.setRx_draws (v : RxUnit) : (s.setRx v).draws = s.draws := rfl
@[simp] theorem State.setRx_host (v : RxUnit) : (s.setRx v).host = s.host := rfl
@[simp] theorem State.setRx_rdata (v : RxUnit) : (s.setRx v).rdata = s.rdata := rfl

@[simp] theorem State.setMem_build (v : Memory) : (s.setMem v).build = s.build := rfl
@[simp] theorem State.setMem_resp (v : Memory) : (s.setMem v).resp = s.resp := rfl
@[simp] theorem State.setMem_txCfg (v : Memory) : (s.setMem v).txCfg = s.txCfg := rfl
@[simp] theorem State.setMem_txProps (v : Memory) : (s.setMem v).txProps = s.txProps := rfl
@[simp] theorem State.setMem_rxCfg (v : Memory) : (s.setMem v).rxCfg = s.rxCfg := rfl
@[simp] theorem State.setMem_rxCtx (v : Memory) : (s.setMem v).rxCtx = s.rxCtx := rfl
@[simp] theorem State.setMem_tx (v : Memory) : (s.setMem v).tx = s.tx := rfl
@[simp] theorem State.setMem_rx (v : Memory) : (s.setMem v).rx = s.rx := rfl
@[simp] theorem State.setMem_mem (v : Memory) : (s.setMem v).mem = v := rfl
@[simp] theorem State.setMem_draws (v : Memory) : (s.setMem v).draws = s.draws := rfl
@[simp] theorem State.setMem_host (v : Memory) : (s.setMem v).host = s.host := rfl
@[simp] theorem State.setMem_rdata (v : Memory) : (s.setMem v).rdata = s.rdata := rfl

@[simp] theorem State.setDraws_build (v : Nat) : (s.setDraws v).build = s.build := rfl
@[simp] theorem State.setDraws_resp (v : Nat) : (s.setDraws v).resp = s.resp := rfl
@[simp] theorem State.setDraws_txCfg (v : Nat) : (s.setDraws v).txCfg = s.txCfg := rfl
@[simp] theorem State.setDraws_txProps (v : Nat) : (s.setDraws v).txProps = s.txProps := rfl
@[simp] theorem State.setDraws_rxCfg (v : Nat) : (s.setDraws v).rxCfg = s.rxCfg := rfl
@[simp] theorem State.setDraws_rxCtx (v : Nat) : (s.setDraws v).rxCtx = s.rxCtx := rfl
@[simp] theorem State.setDraws_tx (v : Nat) : (s.setDraws v).tx = s.tx := rfl
@[simp] theorem State.setDraws_rx (v : Nat) : (s.setDraws v).rx = s.rx := rfl
@[simp] theorem State.setDraws_mem (v : Nat) : (s.setDraws v).mem = s.mem := rfl
@[simp] theorem State.setDraws_draws (v : Nat) : (s.setDraws v).draws = v := rfl
@[simp] theorem State.setDraws_host (v : Nat) : (s.setDraws v).host = s.host := rfl
@[simp] theorem State.setDraws_rdata (v : Nat) : (s.setDraws v).rdata = s.rdata := rfl

@[simp] theorem State.setHost_build (v : List Access) : (s.setHost v).build = s.build := rfl
@[simp] theorem State.setHost_resp (v : List Access) : (s.setHost v).resp = s.resp := rfl
@[simp] theorem State.setHost_txCfg (v : List Access) : (s.setHost v).txCfg = s.txCfg := rfl
@[simp] theorem State.setHost_txProps (v : List Access) : (s.setHost v).txProps = s.txProps := rfl
@[simp] theorem State.setHost_rxCfg (v : List Access) : (s.setHost v).rxCfg = s.rxCfg := rfl
@[simp] theorem State.setHost_rxCtx (v : List Access) : (s.setHost v).rxCtx = s.rxCtx := rfl
@[simp] theorem State.setHost_tx (v : List Access) : (s.setHost v).tx = s.tx := rfl
@[simp] theorem State.setHost_rx (v : List Access) : (s.setHost v).rx = s.rx := rfl
@[simp] theorem State.setHost_mem (v : List Access) : (s.setHost v).mem = s.mem := rfl
@[simp] theorem State.setHost_draws (v : List Access) : (s.setHost v).draws = s.draws := rfl
@[simp] theorem State.setHost_host (v : List Access) : (s.setHost v).host = v := rfl
@[simp] theorem State.setHost_rdata (v : List Access) : (s.setHost v).rdata = s.rdata := rfl

@[simp] theorem State.setRdata_build (v : Option Word) : (s.setRdata v).build = s.build := rfl
@[simp] theorem State.setRdata_resp (v : Option Word) : (s.setRdata v).resp = s.resp := rfl
@[simp] theorem State.setRdata_txCfg (v : Option Word) : (s.setRdata v).txCfg = s.txCfg := rfl
@[simp] theorem State.setRdata_txProps (v : Option Word) : (s.setRdata v).txProps = s.txProps := rfl
@[simp] theorem State.setRdata_rxCfg (v : Option Word) : (s.setRdata v).rxCfg = s.rxCfg := rfl
@[simp] theorem State.setRdata_rxCtx (v : Option Word) : (s.setRdata v).rxCtx = s.rxCtx := rfl
@[simp] theorem State.setRdata_tx (v : Option Word) : (s.setRdata v).tx = s.tx := rfl
@[simp] theorem State.setRdata_rx (v : Option Word) : (s.setRdata v).rx = s.rx := rfl
@[simp] theorem State.setRdata_mem (v : Option Word) : (s.setRdata v).mem = s.mem := rfl
@[simp] theorem State.setRdata_draws (v : Option Word) : (s.setRdata v).draws = s.draws := rfl
@[simp] theorem State.setRdata_host (v : Option Word) : (s.setRdata v).host = s.host := rfl
@[simp] theorem State.setRdata_rdata (v : Option Word) : (s.setRdata v).rdata = v := rfl

@[simp] theorem respond_build (st : Status) : (respond st s).build = s.build := rfl
@[simp] theorem respond_resp (st : Status) : (respond st s).resp = respWord st false 0 := rfl
@[simp] theorem respond_txCfg (st : Status) : (respond st s).txCfg = s.txCfg := rfl
@[simp] theorem respond_txProps (st : Status) : (respond st s).txProps = s.txProps := rfl
@[simp] theorem respond_rxCfg (st : Status) : (respond st s).rxCfg = s.rxCfg := rfl
@[simp] theorem respond_rxCtx (st : Status) : (respond st s).rxCtx = s.rxCtx := rfl
@[simp] theorem respond_tx (st : Status) : (respond st s).tx = s.tx := rfl
@[simp] theorem respond_rx (st : Status) : (respond st s).rx = s.rx := rfl
@[simp] theorem respond_mem (st : Status) : (respond st s).mem = s.mem := rfl
@[simp] theorem respond_draws (st : Status) : (respond st s).draws = s.draws := rfl
@[simp] theorem respond_host (st : Status) : (respond st s).host = s.host := rfl
@[simp] theorem respond_rdata (st : Status) : (respond st s).rdata = s.rdata := rfl

@[simp] theorem resetFsm_build : (resetFsm s).build = s.build := rfl
@[simp] theorem resetFsm_resp : (resetFsm s).resp = s.resp := rfl
@[simp] theorem resetFsm_txCfg : (resetFsm s).txCfg = s.txCfg := rfl
@[simp] theorem resetFsm_txProps : (resetFsm s).txProps = s.txProps := rfl
@[simp] theorem resetFsm_rxCfg : (resetFsm s).rxCfg = s.rxCfg := rfl
@[simp] theorem resetFsm_rxCtx : (resetFsm s).rxCtx = s.rxCtx := rfl
@[simp] theorem resetFsm_tx : (resetFsm s).tx = s.tx := rfl
@[simp] theorem resetFsm_draws : (resetFsm s).draws = s.draws := rfl
@[simp] theorem resetFsm_host : (resetFsm s).host = s.host := rfl
@[simp] theorem resetFsm_rdata : (resetFsm s).rdata = s.rdata := rfl
@[simp] theorem resetFsm_rx : (resetFsm s).rx = resetRecord s.rx := rfl
@[simp] theorem resetFsm_mem : (resetFsm s).mem = memClear s.build s.mem .resPay := rfl

@[simp] theorem postEvent_build (h p : Bool) (b : List Byte) : (postEvent h p b s).build = s.build := rfl
@[simp] theorem postEvent_resp (h p : Bool) (b : List Byte) : (postEvent h p b s).resp = s.resp := rfl
@[simp] theorem postEvent_txCfg (h p : Bool) (b : List Byte) : (postEvent h p b s).txCfg = s.txCfg := rfl
@[simp] theorem postEvent_txProps (h p : Bool) (b : List Byte) : (postEvent h p b s).txProps = s.txProps := rfl
@[simp] theorem postEvent_rxCfg (h p : Bool) (b : List Byte) : (postEvent h p b s).rxCfg = s.rxCfg := rfl
@[simp] theorem postEvent_rxCtx (h p : Bool) (b : List Byte) : (postEvent h p b s).rxCtx = s.rxCtx := rfl
@[simp] theorem postEvent_tx (h p : Bool) (b : List Byte) : (postEvent h p b s).tx = s.tx := rfl
@[simp] theorem postEvent_draws (h p : Bool) (b : List Byte) : (postEvent h p b s).draws = s.draws := rfl
@[simp] theorem postEvent_host (h p : Bool) (b : List Byte) : (postEvent h p b s).host = s.host := rfl
@[simp] theorem postEvent_rdata (h p : Bool) (b : List Byte) : (postEvent h p b s).rdata = s.rdata := rfl
@[simp] theorem postEvent_evt (h p : Bool) (b : List Byte) : (postEvent h p b s).rx.evt = true := rfl
@[simp] theorem postEvent_state (h p : Bool) (b : List Byte) : (postEvent h p b s).rx.state = s.rx.state := rfl
@[simp] theorem postEvent_execN (h p : Bool) (b : List Byte) : (postEvent h p b s).rx.execN = s.rx.execN := rfl
@[simp] theorem postEvent_pos (h p : Bool) (b : List Byte) : (postEvent h p b s).rx.pos = s.rx.pos := rfl
@[simp] theorem postEvent_created (h p : Bool) (b : List Byte) : (postEvent h p b s).rx.created = s.rx.created := rfl

end Sys2Proof.Machine
end

