-- ==== Sys2Proof/Laws/Memory.lean ====
section
/-! SUPPORT. The buffer memories: every operation keeps the canonical form, and what reading after a write gives. -/

namespace Sys2Proof.Machine

variable {bd : Build}

/-! ## Finding a listed byte -/

/-- Offsets strictly rising. -/
abbrev Rising (m : Memory) : Prop := m.Pairwise fun x y => x.1 < y.1

theorem memory_wf_iff (m : Memory) : m.wf bd = true ↔ Rising m ∧ ∀ c ∈ m, cellOk bd c = true := by
  simp [Memory.wf, List.all_eq_true]

theorem memFind_eq_none_of_lt {m : Memory} {a : Nat} (h : ∀ c ∈ m, a < c.1) : memFind m a = none := by
  induction m with
  | nil => rfl
  | cons c m ih =>
    have hc := h c (by simp)
    rw [memFind, if_neg (by omega)]
    exact ih fun d hd => h d (by simp [hd])

theorem memErase_subset {m : Memory} {a : Nat} {c : Host.Cell} (h : c ∈ memErase m a) : c ∈ m := by
  induction m with
  | nil => exact h
  | cons d m ih =>
    rw [memErase] at h
    split at h
    · exact List.mem_cons_of_mem _ h
    · rcases List.mem_cons.1 h with rfl | h
      · simp
      · exact List.mem_cons_of_mem _ (ih h)

theorem memInsert_mem {m : Memory} {a : Nat} {b : Byte} {c : Host.Cell} (h : c ∈ memInsert m a b) :
    c = (a, b) ∨ c ∈ m := by
  induction m with
  | nil => exact .inl (by simpa [memInsert] using h)
  | cons d m ih =>
    rw [memInsert] at h
    split at h
    · rcases List.mem_cons.1 h with rfl | h
      · exact .inl rfl
      · exact .inr h
    · split at h
      · rcases List.mem_cons.1 h with rfl | h
        · exact .inl rfl
        · exact .inr (List.mem_cons_of_mem _ h)
      · rcases List.mem_cons.1 h with rfl | h
        · exact .inr (by simp)
        · exact (ih h).imp id (List.mem_cons_of_mem _)

theorem memErase_rising {m : Memory} (h : Rising m) (a : Nat) : Rising (memErase m a) := by
  induction m with
  | nil => exact h
  | cons c m ih =>
    rw [Rising, List.pairwise_cons] at h
    rw [memErase]
    split
    · exact h.2
    · exact List.pairwise_cons.2 ⟨fun d hd => h.1 d (memErase_subset hd), ih h.2⟩

theorem memInsert_rising {m : Memory} (h : Rising m) (a : Nat) (b : Byte) : Rising (memInsert m a b) := by
  induction m with
  | nil => simp [memInsert]
  | cons c m ih =>
    have h' := List.pairwise_cons.1 h
    rw [memInsert]
    split
    · rename_i hlt
      refine List.pairwise_cons.2 ⟨fun d hd => ?_, h⟩
      rcases List.mem_cons.1 hd with rfl | hd
      · exact hlt
      · have := h'.1 d hd; simp only; omega
    · split
      · rename_i heq
        exact List.pairwise_cons.2 ⟨fun d hd => by have := h'.1 d hd; simp only; omega, h'.2⟩
      · refine List.pairwise_cons.2 ⟨fun d hd => ?_, ih h'.2⟩
        rcases memInsert_mem hd with rfl | hd
        · simp only; omega
        · exact h'.1 d hd

theorem memFind_memErase {m : Memory} (h : Rising m) (a x : Nat) :
    memFind (memErase m a) x = if x = a then none else memFind m x := by
  induction m with
  | nil => simp [memErase, memFind]
  | cons c m ih =>
    have h' := List.pairwise_cons.1 h
    rw [memErase]
    split
    · rename_i hc
      by_cases hx : x = a
      · subst hx
        rw [if_pos rfl, memFind_eq_none_of_lt]
        intro d hd; have := h'.1 d hd; omega
      · rw [if_neg hx, memFind, if_neg (by omega)]
    · rename_i hc
      rw [memFind, memFind, ih h'.2]
      by_cases hx : c.1 = x
      · rw [if_pos hx, if_pos hx, if_neg (by omega)]
      · rw [if_neg hx, if_neg hx]

theorem memFind_memInsert (m : Memory) (a x : Nat) (b : Byte) :
    memFind (memInsert m a b) x = if x = a then some b else memFind m x := by
  induction m with
  | nil => simp [memInsert, memFind, eq_comm]
  | cons c m ih =>
    rw [memInsert]
    split
    · rw [memFind]; simp [eq_comm]
    · split
      · rename_i h
        rw [memFind, memFind]
        by_cases hx : x = a
        · simp [hx]
        · rw [if_neg (by simp only; omega), if_neg hx, if_neg (by omega)]
      · rename_i h1 h2
        rw [memFind, memFind, ih]
        by_cases hx : c.1 = x
        · rw [if_pos hx, if_pos hx, if_neg (by omega)]
        · rw [if_neg hx, if_neg hx]

/-! ## One byte stored -/

theorem storeMask_idem (b k : Byte) : b &&& k &&& k = b &&& k := by rw [BitVec.and_assoc, BitVec.and_self]

theorem memPeek_eq (m : Memory) (x : Nat) : memPeek bd m x = (memFind m x).or (unlisted bd x) := by
  unfold memPeek; cases memFind m x <;> rfl

/-- What storing one byte can do: the byte reads back with its held bits, every other byte reads as before. -/
theorem memPeek_memPut {m : Memory} (h : Rising m) (a x : Nat) (b : Byte) :
    memPeek bd (memPut bd m a b) x = if x = a then some (b &&& storeMask bd a) else memPeek bd m x := by
  simp only [memPeek_eq]
  unfold memPut
  by_cases hu : unlisted bd a = some (b &&& storeMask bd a)
  · rw [if_pos hu, memFind_memErase h]
    by_cases hx : x = a
    · subst hx; simp [hu]
    · simp [hx]
  · rw [if_neg hu, memFind_memInsert]
    by_cases hx : x = a
    · simp [hx]
    · simp [hx]

theorem memPut_rising {m : Memory} (h : Rising m) (a : Nat) (b : Byte) : Rising (memPut bd m a b) := by
  unfold memPut; split
  · exact memErase_rising h a
  · exact memInsert_rising h a _

theorem memPut_wf {m : Memory} (h : m.wf bd = true) (a : Nat) (b : Byte) : (memPut bd m a b).wf bd = true := by
  rw [memory_wf_iff] at h ⊢
  refine ⟨memPut_rising h.1 a b, fun c hc => ?_⟩
  unfold memPut at hc
  split at hc
  · exact h.2 c (memErase_subset hc)
  · rename_i hu
    rcases memInsert_mem hc with rfl | hc
    · simp [cellOk, storeMask_idem, hu]
    · exact h.2 c hc

/-! ## Bytes, words, windows -/

theorem memPutBytes_rising {m : Memory} (h : Rising m) (a : Nat) (bs : List Byte) : Rising (memPutBytes bd m a bs) := by
  induction bs generalizing m a with
  | nil => exact h
  | cons b bs ih => exact ih (memPut_rising h a b) (a + 1)

theorem memPutBytes_wf {m : Memory} (h : m.wf bd = true) (a : Nat) (bs : List Byte) : (memPutBytes bd m a bs).wf bd = true := by
  induction bs generalizing m a with
  | nil => exact h
  | cons b bs ih => exact ih (memPut_wf h a b) (a + 1)

/-- What storing consecutive bytes can do. -/
theorem memPeek_memPutBytes {m : Memory} (h : Rising m) (a x : Nat) (bs : List Byte) :
    memPeek bd (memPutBytes bd m a bs) x =
      if a ≤ x ∧ x < a + bs.length then some (bs.getD (x - a) 0 &&& storeMask bd x) else memPeek bd m x := by
  induction bs generalizing m a with
  | nil =>
    have h0 : ¬ (a ≤ x ∧ x < a + ([] : List Byte).length) := by rw [List.length_nil]; omega
    simp only [memPutBytes, h0, if_false]
  | cons b bs ih =>
    rw [memPutBytes, ih (memPut_rising h a b), memPeek_memPut h]
    simp only [List.length_cons]
    by_cases h1 : a + 1 ≤ x ∧ x < a + 1 + bs.length
    · rw [if_pos h1, if_pos (by omega), show x - a = (x - (a + 1)) + 1 by omega, List.getD_cons_succ]
    · rw [if_neg h1]
      by_cases h2 : x = a
      · subst h2; rw [if_pos rfl, if_pos (by omega), Nat.sub_self, List.getD_cons_zero]
      · rw [if_neg h2, if_neg (by omega)]

theorem memPutWord_wf {m : Memory} (h : m.wf bd = true) (a : Nat) (w : Word) : (memPutWord bd m a w).wf bd = true :=
  memPutBytes_wf h a _

theorem memClear_wf {m : Memory} (h : m.wf bd = true) (r : Region) : (memClear bd m r).wf bd = true := by
  rw [memory_wf_iff] at h ⊢
  exact ⟨h.1.filter _, fun c hc => h.2 c (List.mem_filter.1 hc).1⟩

theorem memFind_memClear (m : Memory) (r : Region) (x : Nat) :
    memFind (memClear bd m r) x = if inRegion bd r x = true then none else memFind m x := by
  induction m with
  | nil => simp [memClear, memFind]
  | cons c m ih =>
    unfold memClear at ih ⊢
    rw [List.filter_cons]
    by_cases hc : inRegion bd r c.1 = true
    · simp only [hc, Bool.not_true, Bool.false_eq_true, if_false, ih, memFind]
      by_cases hx : c.1 = x
      · subst hx; simp [hc]
      · simp [hx]
    · simp only [hc, Bool.not_false, if_true, memFind, ih]
      by_cases hx : c.1 = x
      · subst hx; simp [hc]
      · simp [hx]

/-- Clearing a region leaves every byte outside it as it read. -/
theorem memPeek_memClear_other (m : Memory) (r : Region) (x : Nat) (h : inRegion bd r x = false) :
    memPeek bd (memClear bd m r) x = memPeek bd m x := by
  rw [memPeek_eq, memPeek_eq, memFind_memClear]; simp [h]

/-! ## Reading -/

/-- Reading a byte that is written gives it and takes no draw. -/
theorem memGet_of_peek {m : Memory} {a : Nat} {b : Byte} (h : memPeek bd m a = some b) (n : Nat) :
    memGet bd m n a = (b, n) := by
  simp [memGet, h]

theorem memGets_length (m : Memory) (n : Nat) (as : List Nat) : (memGets bd m n as).1.length = as.length := by
  induction as generalizing n with
  | nil => rfl
  | cons a as ih => simp [memGets, ih]

/-- Reading bytes that are all written takes no draw. -/
theorem memGets_of_peek {m : Memory} {as : List Nat} {f : Nat → Byte} (h : ∀ a ∈ as, memPeek bd m a = some (f a)) (n : Nat) :
    memGets bd m n as = (as.map f, n) := by
  induction as with
  | nil => rfl
  | cons a as ih =>
    have ha := memGet_of_peek (h a (by simp)) n
    simp only [memGets, ha, ih fun x hx => h x (by simp [hx]), List.map_cons]

/-- The bytes of a word give the word back (R106). -/
theorem wordOfBytes_wordBytes (w : Word) : wordOfBytes (wordBytes w) = w := by
  apply BitVec.eq_of_getLsbD_eq
  intro i hi
  simp only [wordOfBytes, wordBytes, List.foldr_cons, List.foldr_nil, BitVec.getLsbD_or, BitVec.getLsbD_shiftLeft,
    BitVec.getLsbD_setWidth, BitVec.getLsbD_extractLsb', hi, decide_true, Bool.true_and]
  have : i < 8 ∨ (8 ≤ i ∧ i < 16) ∨ (16 ≤ i ∧ i < 24) ∨ (24 ≤ i ∧ i < 32) := by omega
  rcases this with h | h | h | h <;> interval_cases i <;> simp

end Sys2Proof.Machine
end

