-- ==== Sys2Proof/Laws/Bus.lean ====
section
/-! SUPPORT. The address map is a partition, what each window holds of a byte, and what one step of the machine can do. -/

namespace Sys2Proof.Machine

variable {bd : Build}

/-! ## The address map -/

theorem inRegion_iff (r : Region) (a : Nat) :
    inRegion bd r a = true ↔ regionBase r ≤ a ∧ a < regionBase r + regionSize bd r := by
  simp only [inRegion, Bool.and_eq_true, decide_eq_true_eq]; omega

/-- The regions do not overlap (R100). -/
theorem region_unique {r q : Region} {a : Nat} (hr : inRegion bd r a = true) (hq : inRegion bd q a = true) : r = q := by
  rw [inRegion_iff] at hr hq
  have h1 := bd.mMax_range; have h2 := bd.nBuf_range; have h3 := bd.payloadMax_range
  cases r <;> cases q <;> first
    | rfl
    | (simp only [regionBase, regionSize, ceilDiv] at hr hq; omega)

/-- An offset is of the region it lies in. -/
theorem regionOf_eq_some {r : Region} {a : Nat} : regionOf bd a = some r ↔ inRegion bd r a = true := by
  constructor
  · intro h
    unfold regionOf at h
    exact List.find?_some (p := fun r => inRegion bd r a) h
  · intro h
    cases hq : regionOf bd a with
    | none =>
      unfold regionOf at hq
      rw [List.find?_eq_none] at hq
      exact absurd h (hq r (by cases r <;> simp))
    | some q =>
      unfold regionOf at hq
      rw [region_unique h (List.find?_some (p := fun r => inRegion bd r a) hq)]

theorem regionOf_of_inRegion {r : Region} {a : Nat} (h : inRegion bd r a = true) : regionOf bd a = some r :=
  regionOf_eq_some.2 h

theorem storeMask_rxSamp {a : Nat} (h : inRegion bd .rxSamp a = true) : storeMask bd a = 0xFF := by
  simp [storeMask, regionOf_of_inRegion h]

theorem storeMask_txSym {a : Nat} (h : inRegion bd .txSym a = true) : storeMask bd a = 0xFF := by
  simp [storeMask, regionOf_of_inRegion h]

theorem storeMask_txHdr {a : Nat} (h : inRegion bd .txHdr a = true) : storeMask bd a = 0xFF := by
  simp [storeMask, regionOf_of_inRegion h]

theorem storeMask_alloc {a : Nat} (h : inRegion bd .alloc a = true) : storeMask bd a = if a % 4 = 0 then 0x03 else 0x00 := by
  simp [storeMask, regionOf_of_inRegion h]

theorem storeMask_txPay {a : Nat} (h : inRegion bd .txPay a = true) :
    storeMask bd a = if a < regionBase .txPay + bd.payloadMax then 0xFF else 0x00 := by
  simp [storeMask, regionOf_of_inRegion h]

theorem storeMask_resPay {a : Nat} (h : inRegion bd .resPay a = true) :
    storeMask bd a = if a < regionBase .resPay + bd.payloadMax then 0xFF else 0x00 := by
  simp [storeMask, regionOf_of_inRegion h]

/-- RES_PAY reads 0 where nothing is listed (R116). -/
theorem unlisted_resPay {a : Nat} (h : inRegion bd .resPay a = true) : unlisted bd a = some 0 := by
  simp [unlisted, regionOf_of_inRegion h]

/-- After RESET every byte of RES_PAY reads 0 (R330). -/
theorem memPeek_memClear_resPay (m : Memory) {a : Nat} (h : inRegion bd .resPay a = true) :
    memPeek bd (memClear bd m .resPay) a = some 0 := by
  rw [memPeek_eq, memFind_memClear, h, if_pos rfl, unlisted_resPay h]; rfl

/-! ## One step -/

/-- Everything a step that answers a next state can have done. -/
theorem step_cases {s t : State} (h : step s = .next t) :
    (s.host = [] ∧ t = s) ∨
    (∃ x rest, s.host = x :: rest ∧
      ((∃ a n, x = .read a n ∧ accessOk s.build a n = true ∧ t = busRead (s.setHost rest) a) ∨
       (∃ a n v, x = .write a n v ∧ accessOk s.build a n = true ∧ a ≠ cmdAddr ∧ t = busWrite (s.setHost rest) a v) ∨
       (∃ n v i, x = .write cmdAddr n v ∧ accessOk s.build cmdAddr n = true ∧ decode v = .ok i ∧
         exec i (s.setHost rest) = .next t) ∨
       (∃ n v e, x = .write cmdAddr n v ∧ accessOk s.build cmdAddr n = true ∧ decode v = .error e ∧
         t = illegalCommand (s.setHost rest)) ∨
       (x = .reset ∧ t = hardwareReset (s.setHost rest)))) := by
  unfold step at h
  cases hh : s.host with
  | nil =>
    simp only [hh] at h
    exact .inl ⟨rfl, by injection h with h; exact h.symm⟩
  | cons x rest =>
    simp only [hh] at h
    refine .inr ⟨x, rest, rfl, ?_⟩
    cases x with
    | read a n =>
      simp only [perform] at h
      split at h
      · injection h with h; exact .inl ⟨a, n, rfl, ‹_›, h.symm⟩
      · cases h
    | write a n v =>
      simp only [perform] at h
      split at h
      · rename_i hok
        unfold performWrite at h
        split at h
        · rename_i ha
          subst ha
          cases hd : decode v with
          | ok i => simp only [hd] at h; exact .inr (.inr (.inl ⟨n, v, i, rfl, hok, hd, h⟩))
          | error e =>
            simp only [hd] at h; injection h with h
            exact .inr (.inr (.inr (.inl ⟨n, v, e, rfl, hok, hd, h.symm⟩)))
        · rename_i ha
          injection h with h; exact .inr (.inl ⟨a, n, v, rfl, hok, ha, h.symm⟩)
      · cases h
    | reset => simp only [perform] at h; injection h with h; exact .inr (.inr (.inr (.inr ⟨rfl, h.symm⟩)))

/-- A property that every access keeps is kept by every step. -/
theorem step_keeps {P : State → Prop} (hostQ : ∀ s q, P s → P (s.setHost q)) (rd : ∀ s a, P s → P (busRead s a))
    (wr : ∀ s a v, P s → P (busWrite s a v)) (ill : ∀ s, P s → P (illegalCommand s))
    (rst : ∀ s, P s → P (hardwareReset s)) (ex : ∀ i s t, P s → exec i s = .next t → P t)
    {s t : State} (hs : P s) (h : step s = .next t) : P t := by
  rcases step_cases h with ⟨-, rfl⟩ | ⟨x, rest, -, h⟩
  · exact hs
  · have hq := hostQ s rest hs
    rcases h with ⟨a, n, -, -, rfl⟩ | ⟨a, n, v, -, -, -, rfl⟩ | ⟨n, v, i, -, -, -, h⟩ | ⟨n, v, e, -, -, -, rfl⟩ | ⟨-, rfl⟩
    · exact rd _ a hq
    · exact wr _ a v hq
    · exact ex i _ t hq h
    · exact ill _ hq
    · exact rst _ hq

end Sys2Proof.Machine
end

