-- ==== Sys2Proof/Laws/Access.lean ====
section
/-! SUPPORT. Which host accesses are accepted (R72, R100, R104, R105), and what a command cannot answer. -/

namespace Sys2Proof.Machine

variable {bd : Build}

theorem regAt_isSome_iff {a : Nat} (h : a < 0x100) : (regAt a).isSome = true ↔ a ∈ registerOffsets := by
  have : ∀ a < 0x100, (regAt a).isSome = true ↔ a ∈ registerOffsets := by decide +kernel
  exact this a h

theorem registerOffsets_lt {a : Nat} (h : a ∈ registerOffsets) : a < 0x100 := by
  have : ∀ a ∈ registerOffsets, a < 0x100 := by decide
  exact this a h

theorem regAt_eq_none {a : Nat} (h : 0x100 ≤ a) : regAt a = none := by
  unfold regAt
  split <;> first | rfl | omega

/-- An access is accepted exactly when it is 32 bits wide, aligned and mapped (R104, R105, R107). -/
theorem accessOk_iff (a : BitVec 21) (n : Nat) : accessOk bd a n = true ↔ n = 4 ∧ a.toNat % 4 = 0 ∧ Mapped bd a.toNat := by
  generalize hx : a.toNat = x
  simp only [accessOk, hx, Bool.and_eq_true, decide_eq_true_eq, and_assoc, and_congr_right_iff]
  intro _ _
  cases hr : regionOf bd x with
  | none =>
    simp only [Bool.false_eq_true, false_iff]
    intro hm
    have key : ∀ r : Region, ¬ (regionBase r ≤ x ∧ x < regionBase r + regionSize bd r) := by
      intro r hin
      rw [← inRegion_iff] at hin
      rw [regionOf_of_inRegion hin] at hr
      cases hr
    rcases hm with h | h | h | h | h | h | h
    · exact key .ctrl ⟨Nat.zero_le _, by have := registerOffsets_lt h; simpa [regionBase, regionSize] using this⟩
    · exact key .alloc (by simp only [regionBase, regionSize]; omega)
    · exact key .txHdr (by simp only [regionBase, regionSize]; omega)
    · exact key .txPay (by simp only [regionBase, regionSize, ceilDiv]; omega)
    · exact key .txSym (by simp only [regionBase, regionSize]; omega)
    · exact key .resPay (by simp only [regionBase, regionSize, ceilDiv]; omega)
    · exact key .rxSamp (by simp only [regionBase, regionSize]; omega)
  | some r =>
    have hin := (inRegion_iff r x).1 (regionOf_eq_some.1 hr)
    cases r <;> simp only [regionBase, regionSize, ceilDiv] at hin
    case ctrl =>
      simp only
      rw [regAt_isSome_iff (by omega)]
      constructor
      · exact .inl
      · rintro (h | h)
        · exact h
        · omega
    all_goals
      simp only [true_iff]
      exact .inr (by omega)

/-! ## The step for each accepted access -/

theorem accessOk_cmd : accessOk bd cmdAddr 4 = true := (accessOk_iff _ _).2 ⟨rfl, by decide, .inl (by decide)⟩

/-- An accepted read (R104). -/
theorem step_read {s : State} {rest : List Access} {a : BitVec 21} {n : Nat} (h : s.host = .read a n :: rest)
    (ok : accessOk s.build a n = true) : step s = .next (busRead (s.setHost rest) a) := by
  simp only [step, h, perform]; exact if_pos ok

/-- An accepted write to anything but CMD (R105). -/
theorem step_write {s : State} {rest : List Access} {a : BitVec 21} {n : Nat} {v : Word} (h : s.host = .write a n v :: rest)
    (ok : accessOk s.build a n = true) (ha : a ≠ cmdAddr) : step s = .next (busWrite (s.setHost rest) a v) := by
  simp only [step, h, perform, performWrite, if_neg ha]; exact if_pos ok

/-- A command (R112), or a word that is none (R154). -/
theorem step_command {s : State} {rest : List Access} {v : Word} (h : s.host = .write cmdAddr 4 v :: rest) :
    step s = match decode v with
      | .ok i => exec i (s.setHost rest)
      | .error _ => .next (illegalCommand (s.setHost rest)) := by
  simp only [step, h, perform, performWrite, if_true]; exact if_pos accessOk_cmd

/-- A rejected access is a bus error (R108). -/
theorem step_rejected {s : State} {rest : List Access} {x : Access} {a : BitVec 21} {n : Nat} {v : Word}
    (h : s.host = x :: rest) (hx : x = .read a n ∨ x = .write a n v) (ok : accessOk s.build a n = false) :
    step s = .fault .busError := by
  have ok' : ¬ accessOk (s.setHost rest).build a n = true := by rw [State.setHost_build, ok]; decide
  rcases hx with rfl | rfl <;> simp only [step, h, perform] <;> exact if_neg ok'

/-- No command is a bus error (R400). -/
theorem runSamples_ne_fault {N : Num} {ms : List (Nat × Nat)} {X : Ext N ms} {k : Nat} {s : State} {f : Fault} :
    runSamples N X k s ≠ .fault f := by
  induction k generalizing s with
  | zero => simp [runSamples]
  | succ k ih =>
    rw [runSamples]
    cases consume N X s with
    | none => simp
    | some u =>
      simp only
      split
      · simp
      · exact ih

theorem exec_ne_fault (i : Instr) (s : State) (f : Fault) : exec i s ≠ .fault f := by
  cases i <;> simp only [exec, execNop, execAllocDefault, execAllocValidate, execTxCreate, execTxAssemble,
    execTxWriteSymbol, execTxDestroy, execRxCreate, execRxExecute, execRxAck, execRxDestroy, run]
  all_goals
    repeat' split
    all_goals first | exact runSamples_ne_fault | simp

end Sys2Proof.Machine
end

