-- ==== Sys2Proof/Laws/Bytes.lean ====
section
/-! SUPPORT. Reading bytes and words that are written. -/

namespace Sys2Proof.Machine

variable {bd : Build}

/-- Reading consecutive written bytes gives them and takes no draw. -/
theorem memGets_of_bytesAt {m : Memory} {a : Nat} {bs : List Byte} (h : BytesAt bd m a bs) (n : Nat) :
    memGets bd m n ((List.range bs.length).map (a + ·)) = (bs, n) := by
  have hr : ∀ x ∈ (List.range bs.length).map (a + ·), memPeek bd m x = some (bs.getD (x - a) 0) := by
    intro x hx
    obtain ⟨k, hk, rfl⟩ := List.mem_map.1 hx
    rw [h k (List.mem_range.1 hk), Nat.add_sub_cancel_left]
  rw [memGets_of_peek hr]
  congr 1
  apply List.ext_getElem
  · simp
  · intro i h1 h2
    simp [h2]

/-- Reading a word whose four bytes are written gives them and takes no draw. -/
theorem memGetWord_of_peek {m : Memory} {a : Nat} {b0 b1 b2 b3 : Byte} (h0 : memPeek bd m a = some b0)
    (h1 : memPeek bd m (a + 1) = some b1) (h2 : memPeek bd m (a + 2) = some b2) (h3 : memPeek bd m (a + 3) = some b3) (n : Nat) :
    memGetWord bd m n a = (wordOfBytes [b0, b1, b2, b3], n) := by
  simp only [memGetWord, memGets, memGet_of_peek h0, memGet_of_peek h1, memGet_of_peek h2, memGet_of_peek h3]

/-- Memories in which the four bytes of a word read alike read the word alike. -/
theorem memGetWord_congr {m m' : Memory} {a : Nat} (h : ∀ j < 4, memPeek bd m (a + j) = memPeek bd m' (a + j)) (n : Nat) :
    memGetWord bd m n a = memGetWord bd m' n a := by
  have hg : ∀ d j, j < 4 → memGet bd m d (a + j) = memGet bd m' d (a + j) := by
    intro d j hj; simp only [memGet, h j hj]
  have h0 := fun d => hg d 0 (by omega)
  simp only [Nat.add_zero] at h0
  simp only [memGetWord, memGets, h0, fun d => hg d 1 (by omega), fun d => hg d 2 (by omega), fun d => hg d 3 (by omega)]

end Sys2Proof.Machine
end

