-- ==== Sys2Proof/Laws/Run.lean ====
section
/-! SUPPORT. The consumption loop (R304): what consuming one sample can do, and the induction over a run. -/

namespace Sys2Proof.Machine

variable {N : Num} {ms : List (Nat × Nat)} {X : Ext N ms}

/-- Everything consuming a sample can do: both words are finite and the record takes one step, `pos` first advanced. -/
theorem consume_cases {s t : State} (h : consume N X s = some t) :
    f32Finite (sampleWords s s.rx.pos).1 = true ∧ f32Finite (sampleWords s s.rx.pos).2.1 = true ∧
    t = sampleStep N X ⟨numOfWord N (sampleWords s s.rx.pos).1, numOfWord N (sampleWords s s.rx.pos).2.1⟩
      ((s.setDraws (sampleWords s s.rx.pos).2.2).setRx { s.rx with pos := s.rx.pos + 1 }) := by
  unfold consume at h
  simp only at h
  split at h
  · rename_i hf
    rw [Bool.and_eq_true] at hf
    exact ⟨hf.1, hf.2, by injection h with h; exact h.symm⟩
  · cases h

/-- A run that answers a next state ends with OK after consuming its samples, or with EVENT_PENDING. -/
theorem runSamples_next {k : Nat} {s t : State} (h : runSamples N X k s = .next t) :
    ∃ u, t = respond .ok u ∨ t = respond .eventPending u := by
  induction k generalizing s with
  | zero => rw [runSamples] at h; injection h with h; exact ⟨s, .inl h.symm⟩
  | succ k ih =>
    rw [runSamples] at h
    cases hc : consume N X s with
    | none => simp only [hc] at h; cases h
    | some u =>
      simp only [hc] at h
      split at h
      · injection h with h; exact ⟨u, .inr h.symm⟩
      · exact ih h

/-- The induction over a run: a property kept by consuming a sample while no event is pending, and by answering, holds
where the run ends. -/
theorem runSamples_keeps {P : State → Prop}
    (one : ∀ s t, P s → s.rx.evt = false → consume N X s = some t → P t) (ans : ∀ st s, P s → P (respond st s))
    {k : Nat} {s t : State} (hs : P s) (he : s.rx.evt = false) (h : runSamples N X k s = .next t) : P t := by
  induction k generalizing s with
  | zero => rw [runSamples] at h; injection h with h; exact h ▸ ans _ _ hs
  | succ k ih =>
    rw [runSamples] at h
    cases hc : consume N X s with
    | none => simp only [hc] at h; cases h
    | some u =>
      have hu := one s u hs he hc
      simp only [hc] at h
      split at h
      · injection h with h; exact h ▸ ans _ _ hu
      · rename_i hne; exact ih hu (by simpa using hne) h

/-! ## The commands that run -/

/-- RX_EXECUTE past its checks runs over its samples (R303). -/
theorem exec_rxExecute_runs {s : State} {n : Nat} (hc : s.rx.created = true) (he : s.rx.evt = false) (h1 : 1 ≤ n)
    (h2 : n ≤ s.build.nBuf) :
    exec (.rxExecute n) s = runSamples Config.num (Config.ext s.build.modset) n (s.setRx { s.rx with execN := n, pos := 0 }) := by
  show execRxExecute n s = _
  unfold execRxExecute
  rw [if_neg (by rw [hc]; decide), if_neg (by rw [he]; decide),
    if_neg (show ¬ s.build.nBuf < n from Nat.not_lt.2 h2), if_neg (by omega)]
  rfl

/-- RX_ACK past its checks runs on from a reset record (R305). -/
theorem exec_rxAck_runs {s : State} (hc : s.rx.created = true) (he : s.rx.evt = true) :
    exec .rxAck s = runSamples Config.num (Config.ext s.build.modset) (s.rx.execN - s.rx.pos)
      (resetFsm (s.setRx { s.rx with evt := false })) := by
  show execRxAck s = _
  unfold execRxAck
  rw [if_neg (by rw [hc]; decide), if_neg (by rw [he]; decide)]
  rfl

end Sys2Proof.Machine
end

