-- ==== Sys2Proof/Laws/Sample.lean ====
section
/-! SUPPORT. One sample's step (R320 to R326): what it can do to the state and what it leaves. -/

namespace Sys2Proof.Machine

variable {N : Num} {ms : List (Nat × Nat)} {X : Ext N ms}

/-- What a header symbol can do (R325): collect bits, accept the header, or post an event with header_valid = 0. -/
theorem headerSymbol_cases {ms : List (Nat × Nat)} (N : Num) (X : Ext N ms) (Y : List Cplx) (s : State) :
    (∃ r1, r1 = { s.rx with cbits := headerBits X s.rx (equalize N s.rx Y), sym := s.rx.sym + 1 } ∧
      ((r1.sym ≠ r1.NH ∧ headerSymbol N X Y s = s.setRx r1) ∨
       (r1.sym = r1.NH ∧ (headerDecode s.build X r1.cbits).1 = true ∧
         headerSymbol N X Y s = s.setRx (headerAccepted (headerDecode s.build X r1.cbits).2 r1)) ∨
       (r1.sym = r1.NH ∧ (headerDecode s.build X r1.cbits).1 = false ∧
         headerSymbol N X Y s =
           postEvent false false [] (s.setRx { r1 with hb := (headerDecode s.build X r1.cbits).2 })))) := by
  refine ⟨_, rfl, ?_⟩
  unfold headerSymbol
  simp only
  split
  · rename_i h
    refine .inr ?_
    split
    · exact .inl ⟨h, ‹_›, rfl⟩
    · rename_i hd; exact .inr ⟨h, Bool.eq_false_iff.2 hd, rfl⟩
  · exact .inl ⟨‹_›, rfl⟩

/-- What a payload symbol can do (R326): collect bits and track, or post an event with header_valid = 1. -/
theorem payloadSymbol_cases {ms : List (Nat × Nat)} (N : Num) (X : Ext N ms) (Y : List Cplx) (s : State) :
    (∃ r1, r1 = { s.rx with
        cbits := payloadSymbolBits X s.rx (equalize N s.rx Y)
        theta := trackTheta s.build N s.rx.PL s.rx.theta (equalize N s.rx Y)
        sym := s.rx.sym + 1 } ∧
      ((r1.sym ≠ r1.NP ∧ payloadSymbol N X Y s = s.setRx r1) ∨
       (r1.sym = r1.NP ∧ payloadSymbol N X Y s =
         postEvent true (payloadDecode X r1.plLen r1.plCrc r1.plFi r1.plFo r1.cbits).1
           (payloadDecode X r1.plLen r1.plCrc r1.plFi r1.plFo r1.cbits).2 (s.setRx r1)))) := by
  refine ⟨_, rfl, ?_⟩
  unfold payloadSymbol
  simp only
  split
  · exact .inr ⟨‹_›, rfl⟩
  · exact .inl ⟨‹_›, rfl⟩

/-- What a sample in a symbol state can do (R323): fill the buffer, or complete a symbol of the state it is in. -/
theorem symbolStep_cases {ms : List (Nat × Nat)} (N : Num) (X : Ext N ms) (x : Cplx) (s : State) :
    ((collect N x s.rx).sbn ≠ (collect N x s.rx).L ∧ symbolStep N X x s = s.setRx (collect N x s.rx)) ∨
    (∃ r1 Y, r1 = { collect N x s.rx with sbn := 0 } ∧ (collect N x s.rx).sbn = (collect N x s.rx).L ∧
      Y = dft N (strip r1.G r1.M r1.sb) ∧
      ((r1.state = .trainingLong ∧ symbolStep N X x s = s.setRx (longSymbol s.build N Y r1)) ∨
       (r1.state = .header ∧ symbolStep N X x s = headerSymbol N X Y (s.setRx r1)) ∨
       (r1.state = .payload ∧ symbolStep N X x s = payloadSymbol N X Y (s.setRx r1)) ∨
       (r1.state ≠ .trainingLong ∧ r1.state ≠ .header ∧ r1.state ≠ .payload ∧ symbolStep N X x s = s.setRx r1))) := by
  unfold symbolStep
  simp only
  split
  · rename_i h
    refine .inr ⟨_, _, rfl, h, rfl, ?_⟩
    split
    · exact .inl ⟨‹_›, rfl⟩
    · exact .inr (.inl ⟨‹_›, rfl⟩)
    · exact .inr (.inr (.inl ⟨‹_›, rfl⟩))
    · rename_i h1 h2 h3; exact .inr (.inr (.inr ⟨h1, h2, h3, rfl⟩))
  · exact .inl ⟨‹_›, rfl⟩

/-- Posting an event changes the RX record and the memory, nothing else (R328). -/
theorem postEvent_eq (h p : Bool) (b : List Byte) (s : State) (r : RxUnit) :
    postEvent h p b (s.setRx r) = (s.setRx (postEvent h p b (s.setRx r)).rx).setMem (postEvent h p b (s.setRx r)).mem :=
  rfl

/-- A sample touches the RX record and the memory, nothing else. -/
theorem sampleStep_only_rx_mem {ms : List (Nat × Nat)} (N : Num) (X : Ext N ms) (x : Cplx) (s : State) :
    ∃ r m, sampleStep N X x s = (s.setRx r).setMem m := by
  have hdr : ∀ Y u, ∃ r m, headerSymbol N X Y (s.setRx u) = (s.setRx r).setMem m := by
    intro Y u
    obtain ⟨r1, -, h | h | h⟩ := headerSymbol_cases N X Y (s.setRx u)
    · exact ⟨r1, s.mem, by rw [h.2]; rfl⟩
    · exact ⟨headerAccepted (headerDecode s.build X r1.cbits).2 r1, s.mem, by rw [h.2.2]; rfl⟩
    · exact ⟨(postEvent false false [] (s.setRx { r1 with hb := (headerDecode s.build X r1.cbits).2 })).rx, s.mem,
        by rw [h.2.2]; rfl⟩
  have pay : ∀ Y u, ∃ r m, payloadSymbol N X Y (s.setRx u) = (s.setRx r).setMem m := by
    intro Y u
    obtain ⟨r1, -, h | h⟩ := payloadSymbol_cases N X Y (s.setRx u)
    · exact ⟨r1, s.mem, by rw [h.2]; rfl⟩
    · exact ⟨_, _, by rw [h.2]; exact postEvent_eq _ _ _ s r1⟩
  have sym : ∃ r m, symbolStep N X x s = (s.setRx r).setMem m := by
    rcases symbolStep_cases N X x s with ⟨-, h⟩ | ⟨r1, Y, -, -, -, ⟨-, h⟩ | ⟨-, h⟩ | ⟨-, h⟩ | ⟨-, -, -, h⟩⟩
    · exact ⟨collect N x s.rx, s.mem, by rw [h]; rfl⟩
    · exact ⟨longSymbol s.build N Y r1, s.mem, by rw [h]; rfl⟩
    · rw [h]; exact hdr Y r1
    · rw [h]; exact pay Y r1
    · exact ⟨r1, s.mem, by rw [h]; rfl⟩
  unfold sampleStep
  split
  · exact ⟨seekStep s.build N x s.rx, s.mem, rfl⟩
  · exact ⟨shortStep N x s.rx, s.mem, rfl⟩
  · exact sym
  · exact sym
  · exact sym
  · exact ⟨seekStep s.build N x (resetFsm s).rx, memClear s.build s.mem .resPay, rfl⟩

/-! ## What a sample leaves of the RX record -/

@[simp] theorem collect_state (x : Cplx) (r : RxUnit) : (collect N x r).state = r.state := rfl
@[simp] theorem collect_evt (x : Cplx) (r : RxUnit) : (collect N x r).evt = r.evt := rfl
@[simp] theorem collect_L (x : Cplx) (r : RxUnit) : (collect N x r).L = r.L := rfl
@[simp] theorem collect_sbn (x : Cplx) (r : RxUnit) : (collect N x r).sbn = r.sbn + 1 := rfl
@[simp] theorem collect_sb_length (x : Cplx) (r : RxUnit) : (collect N x r).sb.length = r.sb.length := by
  simp [collect]
@[simp] theorem push_fill (x : Cplx) (r : RxUnit) : (push x r).fill = min (r.fill + 1) (2 * r.L) := rfl
@[simp] theorem push_evt (x : Cplx) (r : RxUnit) : (push x r).evt = r.evt := rfl
@[simp] theorem push_state (x : Cplx) (r : RxUnit) : (push x r).state = r.state := rfl
@[simp] theorem push_L (x : Cplx) (r : RxUnit) : (push x r).L = r.L := rfl

theorem push_hist_length (x : Cplx) (r : RxUnit) (h : 0 < r.hist.length) :
    (push x r).hist.length = r.hist.length := by
  simp only [push, List.length_append, List.length_drop, List.length_cons, List.length_nil]; omega

@[simp] theorem longSymbol_evt (bd : Build) (Y : List Cplx) (r : RxUnit) : (longSymbol bd N Y r).evt = r.evt := rfl
@[simp] theorem longSymbol_state (bd : Build) (Y : List Cplx) (r : RxUnit) : (longSymbol bd N Y r).state = .header := rfl
@[simp] theorem headerAccepted_evt (hb : List Byte) (r : RxUnit) : (headerAccepted hb r).evt = r.evt := rfl
@[simp] theorem headerAccepted_state (hb : List Byte) (r : RxUnit) : (headerAccepted hb r).state = .payload := rfl

/-- `seek_step` only ever leaves its state for RX_TRAINING_SHORT (R321). -/
theorem seekStep_state (bd : Build) (N : Num) (x : Cplx) (r : RxUnit) :
    (seekStep bd N x r).state = r.state ∨ (seekStep bd N x r).state = .trainingShort := by
  unfold seekStep
  simp only
  split
  · split
    · exact .inr rfl
    · exact .inl rfl
  · exact .inl rfl

theorem seekStep_evt (bd : Build) (N : Num) (x : Cplx) (r : RxUnit) : (seekStep bd N x r).evt = r.evt := by
  unfold seekStep; simp only; split
  · split <;> rfl
  · rfl

/-- The peak search leaves everything but its own registers (R364). -/
theorem peakSearch_frame (p : Scalar) (r : RxUnit) :
    ∃ a b c d, peakSearch N p r = { r with pkVal := a, pkOff := b, pkM1 := c, pkP1 := d, rhoPrev := p } := by
  unfold peakSearch; simp only; repeat' split
  all_goals exact ⟨_, _, _, _, rfl⟩

theorem peakSearch_evt (p : Scalar) (r : RxUnit) : (peakSearch N p r).evt = r.evt := by
  obtain ⟨a, b, c, d, h⟩ := peakSearch_frame (N := N) p r; rw [h]

theorem peakSearch_state (p : Scalar) (r : RxUnit) : (peakSearch N p r).state = r.state := by
  obtain ⟨a, b, c, d, h⟩ := peakSearch_frame (N := N) p r; rw [h]

/-- What a sample in RX_TRAINING_SHORT can do (R322): search on, or end the state. -/
theorem shortStep_cases (N : Num) (x : Cplx) (r : RxUnit) :
    ∃ q a b c d, q = { push x { r with jj := r.jj + 1 } with
        pkVal := a, pkOff := b, pkM1 := c, pkP1 := d, rhoPrev := rho N (push x { r with jj := r.jj + 1 }) } ∧
      ((q.jj = q.pkOff + q.L ∧ shortStep N x r = { q with
          tauFrac := interp N q.pkM1 q.pkVal q.pkP1
          nuHat := cfoEstimate N q
          phi := .zero
          sbn := 0
          state := .trainingLong }) ∨
       (q.jj ≠ q.pkOff + q.L ∧ shortStep N x r = q)) := by
  obtain ⟨a, b, c, d, h⟩ := peakSearch_frame (N := N) (rho N (push x { r with jj := r.jj + 1 })) (push x { r with jj := r.jj + 1 })
  refine ⟨_, a, b, c, d, rfl, ?_⟩
  unfold shortStep
  simp only [h, show nShort - 1 = 1 from rfl, Nat.one_mul]
  split
  · exact .inl ⟨‹_›, rfl⟩
  · exact .inr ⟨‹_›, rfl⟩

theorem shortStep_evt (N : Num) (x : Cplx) (r : RxUnit) : (shortStep N x r).evt = r.evt := by
  obtain ⟨q, a, b, c, d, rfl, ⟨-, h⟩ | ⟨-, h⟩⟩ := shortStep_cases N x r <;> rw [h] <;> rfl

/-- `short_step` only ever leaves its state for RX_TRAINING_LONG (R322). -/
theorem shortStep_state (N : Num) (x : Cplx) (r : RxUnit) :
    (shortStep N x r).state = r.state ∨ (shortStep N x r).state = .trainingLong := by
  obtain ⟨q, a, b, c, d, rfl, ⟨-, h⟩ | ⟨-, h⟩⟩ := shortStep_cases N x r <;> rw [h]
  · exact .inr rfl
  · exact .inl rfl

end Sys2Proof.Machine
end

