-- ==== Sys2Proof/Laws/Counters.lean ====
section
/-! SUPPORT. A sample's step reads neither `exec_n` nor `pos` (R331: "`step` reads only the RX record and one sample"), so it
commutes with setting them. -/

namespace Sys2Proof.Machine

/-- A record with other counters of the command. -/
def recount (r : RxUnit) (p e : Nat) : RxUnit := { r with pos := p, execN := e }

variable {ms : List (Nat × Nat)} (b : Build) (N : Num) (X : Ext N ms) (x : Cplx) (Y : List Cplx) (s : State) (r : RxUnit)
  (p e : Nat)

theorem seekStep_recount : seekStep b N x (recount r p e) = recount (seekStep b N x r) p e := by
  unfold seekStep
  simp only
  rw [show rho N (push x (recount r p e)) = rho N (push x r) from rfl,
    show (push x (recount r p e)).L = (push x r).L from rfl, show (push x (recount r p e)).fill = (push x r).fill from rfl]
  split_ifs <;> rfl

theorem peakSearch_recount (q : Scalar) : peakSearch N q (recount r p e) = recount (peakSearch N q r) p e := by
  unfold peakSearch
  simp only
  rw [show (recount r p e).jj = r.jj from rfl, show (recount r p e).L = r.L from rfl,
    show (recount r p e).pkVal = r.pkVal from rfl]
  by_cases h : r.jj ≤ r.L - 1 ∧ N.lt r.pkVal q = true
  · simp only [if_pos h]; split_ifs <;> rfl
  · simp only [if_neg h, show (recount r p e).jj = r.jj from rfl, show (recount r p e).pkOff = r.pkOff from rfl]
    split_ifs <;> rfl

theorem shortStep_recount : shortStep N x (recount r p e) = recount (shortStep N x r) p e := by
  unfold shortStep
  simp only
  rw [show push x { recount r p e with jj := (recount r p e).jj + 1 } = recount (push x { r with jj := r.jj + 1 }) p e from rfl,
    peakSearch_recount, show rho N (recount (push x { r with jj := r.jj + 1 }) p e) = rho N (push x { r with jj := r.jj + 1 })
      from rfl]
  generalize peakSearch N (rho N (push x { r with jj := r.jj + 1 })) (push x { r with jj := r.jj + 1 }) = q
  rw [show (recount q p e).jj = q.jj from rfl, show (recount q p e).pkOff = q.pkOff from rfl,
    show (recount q p e).L = q.L from rfl]
  split_ifs <;> rfl

/-- `f` acts on a state alike whatever the counters are, and leaves them. -/
def CountsApart (f : State → State) : Prop :=
  ∀ (s : State) (r : RxUnit) (p e : Nat),
    f (s.setRx (recount r p e)) = (f (s.setRx r)).setRx (recount (f (s.setRx r)).rx p e)

theorem headerSymbol_counts : CountsApart (headerSymbol N X Y) := by
  intro s r p e
  obtain ⟨r1, rfl, h⟩ := headerSymbol_cases N X Y (s.setRx r)
  obtain ⟨r2, rfl, k⟩ := headerSymbol_cases N X Y (s.setRx (recount r p e))
  rcases h with ⟨a, h⟩ | ⟨a, d, h⟩ | ⟨a, d, h⟩ <;> rcases k with ⟨a', k⟩ | ⟨a', d', k⟩ | ⟨a', d', k⟩
  all_goals first | exact absurd a' a | exact absurd a a' | exact (Bool.false_ne_true (d.symm.trans d')).elim |
    exact (Bool.false_ne_true (d'.symm.trans d)).elim | (rw [h, k]; rfl)

theorem payloadSymbol_counts : CountsApart (payloadSymbol N X Y) := by
  intro s r p e
  obtain ⟨r1, rfl, h⟩ := payloadSymbol_cases N X Y (s.setRx r)
  obtain ⟨r2, rfl, k⟩ := payloadSymbol_cases N X Y (s.setRx (recount r p e))
  rcases h with ⟨a, h⟩ | ⟨a, h⟩ <;> rcases k with ⟨a', k⟩ | ⟨a', k⟩
  all_goals first | exact absurd a' a | exact absurd a a' | (rw [h, k]; rfl)

theorem symbolStep_counts : CountsApart (symbolStep N X x) := by
  intro s r p e
  rcases symbolStep_cases N X x (s.setRx r) with ⟨a, h⟩ | ⟨r1, Y, rfl, a, rfl, h⟩
  · rcases symbolStep_cases N X x (s.setRx (recount r p e)) with ⟨-, k⟩ | ⟨-, -, -, a', -⟩
    · rw [h, k]; rfl
    · exact absurd a' a
  rcases symbolStep_cases N X x (s.setRx (recount r p e)) with ⟨a', -⟩ | ⟨r2, Y2, rfl, -, rfl, k⟩
  · exact absurd a a'
  have hs : ({ collect N x (s.setRx (recount r p e)).rx with sbn := 0 } : RxUnit).state =
    ({ collect N x (s.setRx r).rx with sbn := 0 } : RxUnit).state := rfl
  rw [hs] at k
  rcases h with ⟨a1, h⟩ | ⟨a1, h⟩ | ⟨a1, h⟩ | ⟨a1, a2, a3, h⟩
  · rw [a1] at k; simp only [reduceCtorEq, false_and, or_false, true_and, ne_eq, not_true_eq_false] at k; rw [h, k]; rfl
  · rw [a1] at k
    simp only [reduceCtorEq, false_and, or_false, false_or, true_and, ne_eq, not_true_eq_false, and_false] at k
    rw [h, k]; exact headerSymbol_counts N X _ (s.setRx r) { collect N x r with sbn := 0 } p e
  · rw [a1] at k
    simp only [reduceCtorEq, false_and, or_false, false_or, true_and, ne_eq, not_true_eq_false, and_false] at k
    rw [h, k]; exact payloadSymbol_counts N X _ (s.setRx r) { collect N x r with sbn := 0 } p e
  · rcases k with ⟨b, -⟩ | ⟨b, -⟩ | ⟨b, -⟩ | ⟨-, -, -, k⟩
    · exact absurd b a1
    · exact absurd b a2
    · exact absurd b a3
    · rw [h, k]; rfl

/-- One sample's step does not read the counters of the command, and leaves them. -/
theorem sampleStep_counts : CountsApart (sampleStep N X x) := by
  intro s r p e
  have key : ∀ q : RxUnit, sampleStep N X x (s.setRx q) = match q.state with
      | .seekPreamble => s.setRx (seekStep s.build N x q)
      | .trainingShort => s.setRx (shortStep N x q)
      | .trainingLong => symbolStep N X x (s.setRx q)
      | .header => symbolStep N X x (s.setRx q)
      | .payload => symbolStep N X x (s.setRx q)
      | .reset => (resetFsm (s.setRx q)).setRx (seekStep s.build N x (resetFsm (s.setRx q)).rx) := fun _ => rfl
  rw [key, key, show (recount r p e).state = r.state from rfl]
  cases r.state <;> simp only
  · rw [seekStep_recount]; rfl
  · rw [shortStep_recount]; rfl
  · exact symbolStep_counts N X x s r p e
  · exact symbolStep_counts N X x s r p e
  · exact symbolStep_counts N X x s r p e
  · rw [show (resetFsm (s.setRx (recount r p e))).rx = recount (resetFsm (s.setRx r)).rx p e from rfl, seekStep_recount]; rfl

end Sys2Proof.Machine
end

