-- ==== Sys2Proof/Laws/Decode.lean ====
section
/-! SUPPORT. The two fields of a command word, as numbers. -/

namespace Sys2Proof

theorem opcOf_eq (w : Word) : opcOf w = w.toNat % 256 := by simp [opcOf]

theorem argOf_eq (w : Word) : argOf w = w.toNat / 256 := by
  simp [argOf, Nat.shiftRight_eq_div_pow]; omega

/-- A command word is `256·ARG + OPC` (R150). -/
theorem commandWord_eq {opc : Nat} (h : opc < 256) (arg : Nat) : commandWord opc arg = BitVec.ofNat 32 (256 * arg + opc) := by
  have e : BitVec.ofNat 32 arg <<< 8 = BitVec.ofNat 32 (arg <<< 8) := by
    apply BitVec.eq_of_toNat_eq; simp [Nat.shiftLeft_eq]
  rw [commandWord, e, ← BitVec.ofNat_or, ← Nat.shiftLeft_add_eq_or_of_lt (by simpa using h)]
  simp [Nat.shiftLeft_eq, Nat.mul_comm]

theorem opcOf_commandWord {opc arg : Nat} (ho : opc < 256) : opcOf (commandWord opc arg) = opc := by
  rw [commandWord_eq ho, opcOf_eq]; simp; omega

theorem argOf_commandWord {opc arg : Nat} (ho : opc < 256) (ha : arg < 2 ^ 24) : argOf (commandWord opc arg) = arg := by
  rw [commandWord_eq ho, argOf_eq]; simp; omega

end Sys2Proof
end

