-- ==== Sys2Proof/Laws/Effect.lean ====
section
/-! SUPPORT. The effect of one sample in one lemma: a quiet change of the RX record, or such a change and an event. -/

namespace Sys2Proof.Machine

/-- A change of the RX record that leaves the instance, the command's counters and the result record, and any parsed length
within PAYLOAD_MAX. -/
def Quiet (bd : Build) (r q : RxUnit) : Prop :=
  SameInstance r q ∧ (r.evt = q.evt ∧ r.execN = q.execN ∧ r.pos = q.pos) ∧
    (r.plLen = q.plLen ∨ r.plLen ≤ bd.payloadMax) ∧
    (r.resFlags = q.resFlags ∧ r.resPaylen = q.resPaylen ∧ r.resBytes = q.resBytes ∧ r.resSnr = q.resSnr ∧
      r.resRssi = q.resRssi ∧ r.resCtx = q.resCtx ∧ r.resHdr = q.resHdr)

theorem sameInstance_refl (r : RxUnit) : SameInstance r r :=
  ⟨rfl, rfl, rfl, rfl, rfl, rfl, rfl, rfl, rfl, rfl, rfl, rfl, rfl, rfl⟩

theorem sameInstance_trans {a b c : RxUnit} (h : SameInstance a b) (k : SameInstance b c) : SameInstance a c := by
  unfold SameInstance at *; simp_all

theorem Quiet.refl (bd : Build) (r : RxUnit) : Quiet bd r r :=
  ⟨sameInstance_refl r, ⟨rfl, rfl, rfl⟩, .inl rfl, rfl, rfl, rfl, rfl, rfl, rfl, rfl⟩

theorem Quiet.trans {bd : Build} {a b c : RxUnit} (h : Quiet bd a b) (k : Quiet bd b c) : Quiet bd a c := by
  refine ⟨sameInstance_trans h.1 k.1, by simp [h.2.1, k.2.1], ?_, by simp [h.2.2.2, k.2.2.2]⟩
  rcases h.2.2.1 with h1 | h1
  · rw [h1]; exact k.2.2.1
  · exact .inr h1

variable (N : Num) {ms : List (Nat × Nat)} (X : Ext N ms)

theorem quiet_seekStep (bd : Build) (x : Cplx) (r : RxUnit) : Quiet bd (seekStep bd N x r) r := by
  unfold seekStep; simp only; repeat' split
  all_goals exact Quiet.refl bd r

theorem quiet_shortStep (bd : Build) (x : Cplx) (r : RxUnit) : Quiet bd (shortStep N x r) r := by
  obtain ⟨q, a, b, c, d, rfl, ⟨-, h⟩ | ⟨-, h⟩⟩ := shortStep_cases N x r <;> rw [h] <;> exact Quiet.refl bd r

theorem quiet_collect (bd : Build) (x : Cplx) (r : RxUnit) : Quiet bd (collect N x r) r := Quiet.refl bd r

/-- A header that decodes valid announces at most PAYLOAD_MAX bytes (R380). -/
theorem headerDecode_length {bd : Build} {cb : Bits} (h : (headerDecode bd X cb).1 = true) :
    hdrLen (headerDecode bd X cb).2 ≤ bd.payloadMax := by
  simp only [headerDecode, fieldsLegal, Bool.and_eq_true, decide_eq_true_eq] at h
  exact h.2.2

theorem quiet_headerAccepted {bd : Build} {hb : List Byte} (h : hdrLen hb ≤ bd.payloadMax) (r : RxUnit) :
    Quiet bd (headerAccepted hb r) r :=
  ⟨sameInstance_refl r, ⟨rfl, rfl, rfl⟩, .inr h, rfl, rfl, rfl, rfl, rfl, rfl, rfl⟩

/-- The decoded payload is at most as long as the parsed length (R382). -/
theorem payloadDecode_length (len crc fi fo : Nat) (cb : Bits) : (payloadDecode X len crc fi fo cb).2.length ≤ len := by
  simp only [payloadDecode, bytes, List.length_map, List.length_range, List.length_take]
  omega

/-- A quiet change, or a quiet change and the event of a header or a payload state. -/
def SampleEffect (s t : State) : Prop :=
  ∃ r, Quiet s.build r s.rx ∧ (t = s.setRx r ∨ (t = postEvent false false [] (s.setRx r) ∧ r.state = .header) ∨
    (∃ ok b, t = postEvent true ok b (s.setRx r) ∧ r.state = .payload ∧ b.length ≤ r.plLen))

theorem symbolStep_effect (x : Cplx) (s : State) : SampleEffect s (symbolStep N X x s) := by
  rcases symbolStep_cases N X x s with ⟨-, h⟩ | ⟨r1, Y, h1, -, -, ⟨-, h⟩ | ⟨hs, h⟩ | ⟨hs, h⟩ | ⟨-, -, -, h⟩⟩
  · exact ⟨collect N x s.rx, Quiet.refl s.build s.rx, .inl h⟩
  · exact ⟨longSymbol s.build N Y r1, by subst h1; exact Quiet.refl s.build s.rx, .inl h⟩
  · have hq : Quiet s.build r1 s.rx := by subst h1; exact Quiet.refl s.build s.rx
    obtain ⟨r2, h2, ⟨-, h3⟩ | ⟨-, hv, h3⟩ | ⟨-, -, h3⟩⟩ := headerSymbol_cases N X Y (s.setRx r1)
    · exact ⟨r2, by subst h2; exact hq, .inl (by rw [h, h3]; rfl)⟩
    · exact ⟨headerAccepted _ r2, (quiet_headerAccepted (headerDecode_length N X hv) r2).trans (by subst h2; exact hq),
        .inl (by rw [h, h3]; rfl)⟩
    · exact ⟨{ r2 with hb := (headerDecode s.build X r2.cbits).2 }, by subst h2; exact hq,
        .inr (.inl ⟨by rw [h, h3]; rfl, by subst h2; exact hs⟩)⟩
  · have hq : Quiet s.build r1 s.rx := by subst h1; exact Quiet.refl s.build s.rx
    obtain ⟨r2, h2, ⟨-, h3⟩ | ⟨-, h3⟩⟩ := payloadSymbol_cases N X Y (s.setRx r1)
    · exact ⟨r2, by subst h2; exact hq, .inl (by rw [h, h3]; rfl)⟩
    · exact ⟨r2, by subst h2; exact hq,
        .inr (.inr ⟨_, _, by rw [h, h3]; rfl, by subst h2; exact hs, payloadDecode_length N X _ _ _ _ _⟩)⟩
  · exact ⟨r1, by subst h1; exact Quiet.refl s.build s.rx, .inl h⟩

/-- Everything one sample can do: in RESET, which no run reaches, the record is reset first. -/
theorem sampleStep_effect (x : Cplx) (s : State) :
    (s.rx.state ≠ .reset ∧ SampleEffect s (sampleStep N X x s)) ∨
    (s.rx.state = .reset ∧ SampleEffect (resetFsm s) (sampleStep N X x s)) := by
  unfold sampleStep
  cases hs : s.rx.state <;> simp only
  · exact .inl ⟨by simp, _, quiet_seekStep N s.build x s.rx, .inl rfl⟩
  · exact .inl ⟨by simp, _, quiet_shortStep N s.build x s.rx, .inl rfl⟩
  · exact .inl ⟨by simp, symbolStep_effect N X x s⟩
  · exact .inl ⟨by simp, symbolStep_effect N X x s⟩
  · exact .inl ⟨by simp, symbolStep_effect N X x s⟩
  · exact .inr ⟨trivial, _, quiet_seekStep N s.build x (resetFsm s).rx, .inl rfl⟩

end Sys2Proof.Machine
end

