-- ==== Sys2Proof/Laws/Rounding.lean ====
section
/-! SUPPORT. Laws of the rounding to binary32 (R16): it keeps the order of values. -/

namespace Sys2Proof.Machine

theorem roundEven_mono {n d n' d' : Nat} (hd : 0 < d) (hd' : 0 < d') (h : n * d' ≤ n' * d) :
    roundEven n d ≤ roundEven n' d' := by
  have hq : n / d ≤ n' / d' := by
    rw [Nat.le_div_iff_mul_le hd', ← Nat.mul_le_mul_right_iff hd]
    calc n / d * d' * d = n / d * d * d' := by ring
      _ ≤ n * d' := Nat.mul_le_mul_right _ (Nat.div_mul_le_self n d)
      _ ≤ n' * d := h
  have hle : ∀ a b : Nat, roundEven a b ≤ a / b + 1 := by
    intro a b; unfold roundEven; dsimp only; split <;> omega
  have hge : ∀ a b : Nat, a / b ≤ roundEven a b := by
    intro a b; unfold roundEven; dsimp only; split <;> omega
  rcases Nat.lt_or_eq_of_le hq with hlt | heq
  · exact (hle n d).trans ((Nat.succ_le_of_lt hlt).trans (hge n' d'))
  · have e1 := Nat.div_add_mod n d
    have e2 := Nat.div_add_mod n' d'
    have hr : n % d * d' ≤ n' % d' * d := by
      rw [← heq] at e2
      have a1 : n * d' = d * d' * (n / d) + n % d * d' := by
        conv_lhs => rw [← e1]
        rw [Nat.add_mul, Nat.mul_right_comm]
      have a2 : n' * d = d * d' * (n / d) + n' % d' * d := by
        conv_lhs => rw [← e2]
        rw [Nat.add_mul, Nat.mul_right_comm, Nat.mul_comm d' d]
      omega
    unfold roundEven
    dsimp only
    rw [← heq]
    by_cases c : d < 2 * (n % d) ∨ 2 * (n % d) = d ∧ n / d % 2 = 1
    · have c' : d' < 2 * (n' % d') ∨ 2 * (n' % d') = d' ∧ n / d % 2 = 1 := by
        rcases c with c | ⟨c, o⟩
        · left
          have : d' * d < 2 * (n' % d') * d := by nlinarith
          exact lt_of_mul_lt_mul_right this (Nat.zero_le d)
        · have : d' * d ≤ 2 * (n' % d') * d := by nlinarith
          have := le_of_mul_le_mul_right this hd
          omega
      rw [if_pos c, if_pos c']
    · rw [if_neg c]; split <;> omega

theorem roundEven_one (k : Nat) : roundEven k 1 = k := by
  unfold roundEven; simp [Nat.mod_one]

/-- `ratLog2` is the floor of the binary logarithm. -/
theorem ratLog2_spec {n d : Nat} (hn : 0 < n) (hd : 0 < d) :
    (2 : ℚ) ^ ratLog2 n d ≤ (n : ℚ) / d ∧ (n : ℚ) / d < (2 : ℚ) ^ (ratLog2 n d + 1) := by
  have n1 : (2 : ℚ) ^ (Nat.log2 n : Int) ≤ n := by rw [zpow_natCast]; exact_mod_cast Nat.log2_self_le (by omega)
  have n2 : (n : ℚ) < 2 ^ ((Nat.log2 n : Int) + 1) := by
    rw [← Nat.cast_succ, zpow_natCast]; exact_mod_cast Nat.lt_log2_self
  have d1 : (2 : ℚ) ^ (Nat.log2 d : Int) ≤ d := by rw [zpow_natCast]; exact_mod_cast Nat.log2_self_le (by omega)
  have d2 : (d : ℚ) < 2 ^ ((Nat.log2 d : Int) + 1) := by
    rw [← Nat.cast_succ, zpow_natCast]; exact_mod_cast Nat.lt_log2_self
  have dp : (0 : ℚ) < d := by exact_mod_cast hd
  generalize hl : (Nat.log2 n : Int) - (Nat.log2 d : Int) = l
  have up : (n : ℚ) / d < 2 ^ (l + 1) := by
    rw [div_lt_iff₀ dp]
    calc (n : ℚ) < 2 ^ ((Nat.log2 n : Int) + 1) := n2
      _ = 2 ^ (l + 1) * 2 ^ (Nat.log2 d : Int) := by rw [← zpow_add₀ (by norm_num)]; congr 1; omega
      _ ≤ 2 ^ (l + 1) * d := by gcongr
  have lo : (2 : ℚ) ^ (l - 1) ≤ n / d := by
    rw [le_div_iff₀ dp]
    calc (2 : ℚ) ^ (l - 1) * d ≤ 2 ^ (l - 1) * 2 ^ ((Nat.log2 d : Int) + 1) := by gcongr
      _ = 2 ^ (Nat.log2 n : Int) := by rw [← zpow_add₀ (by norm_num)]; congr 1; omega
      _ ≤ n := n1
  have key : n * 2 ^ (-l).toNat < d * 2 ^ l.toNat ↔ (n : ℚ) / d < 2 ^ l := by
    have e : (2 : ℚ) ^ l = 2 ^ l.toNat / 2 ^ (-l).toNat := by
      rw [eq_div_iff (by positivity), ← zpow_natCast, ← zpow_natCast, ← zpow_add₀ (by norm_num)]
      congr 1; omega
    rw [e, div_lt_div_iff₀ dp (by positivity)]
    constructor
    · intro h; have : ((n * 2 ^ (-l).toNat : Nat) : ℚ) < ((d * 2 ^ l.toNat : Nat) : ℚ) := by exact_mod_cast h
      push_cast at this; linarith
    · intro h
      have : ((n * 2 ^ (-l).toNat : Nat) : ℚ) < ((d * 2 ^ l.toNat : Nat) : ℚ) := by push_cast; linarith
      exact_mod_cast this
  unfold ratLog2
  simp only [hl]
  split
  · rename_i h; rw [key] at h
    exact ⟨lo, by simpa using h⟩
  · rename_i h; rw [key, not_lt] at h
    exact ⟨h, up⟩

/-- The scaled magnitude that is rounded, as a quotient of naturals. -/
theorem scaled_div {n d : Nat} (hd : 0 < d) (sh : Int) :
    ((n * 2 ^ (-sh).toNat : Nat) : ℚ) / (d * 2 ^ sh.toNat : Nat) = (n : ℚ) / d / 2 ^ sh := by
  have e : (2 : ℚ) ^ sh = 2 ^ sh.toNat / 2 ^ (-sh).toNat := by
    rw [eq_div_iff (by positivity), ← zpow_natCast, ← zpow_natCast, ← zpow_add₀ (by norm_num)]
    congr 1; omega
  have : (d : ℚ) ≠ 0 := by positivity
  rw [e]; push_cast; field_simp

theorem f32Magnitude_mono {n d n' d' : Nat} (hd : 0 < d) (hd' : 0 < d') (h : n * d' ≤ n' * d) :
    f32Magnitude n d ≤ f32Magnitude n' d' := by
  unfold f32Magnitude
  by_cases hn : n = 0
  · rw [if_pos hn]; exact Nat.zero_le _
  have hn' : n' ≠ 0 := by rintro rfl; simp at h; omega
  rw [if_neg hn, if_neg hn']
  have hx : (n : ℚ) / d ≤ (n' : ℚ) / d' := by
    rw [div_le_div_iff₀ (by exact_mod_cast hd) (by exact_mod_cast hd')]; exact_mod_cast h
  obtain ⟨a1, a2⟩ := ratLog2_spec (Nat.pos_of_ne_zero hn) hd
  obtain ⟨b1, b2⟩ := ratLog2_spec (Nat.pos_of_ne_zero hn') hd'
  have hlog : ratLog2 n d ≤ ratLog2 n' d' := by
    have := (zpow_lt_zpow_iff_right₀ (by norm_num : (1 : ℚ) < 2)).1 (a1.trans_lt (hx.trans_lt b2))
    omega
  refine min_le_min_right _ ?_
  generalize he : max (ratLog2 n d) (-126) = e
  generalize he' : max (ratLog2 n' d') (-126) = e'
  have hee : e ≤ e' := by omega
  have pos : ∀ (k : Nat) (i : Int), 0 < k → 0 < k * 2 ^ i.toNat := fun k i hk => Nat.mul_pos hk (Nat.pow_pos (by decide))
  rcases hee.lt_or_eq with hlt | rfl
  · have hl' : ratLog2 n' d' = e' := by omega
    have r1 : roundEven (n * 2 ^ (-(e - 23)).toNat) (d * 2 ^ (e - 23).toNat) ≤ 2 ^ 24 := by
      rw [← roundEven_one (2 ^ 24)]
      refine roundEven_mono (pos _ _ hd) one_pos ?_
      have q := scaled_div (n := n) hd (e - 23)
      have : (n : ℚ) / d / 2 ^ (e - 23) ≤ 2 ^ 24 := by
        rw [div_le_iff₀ (by positivity), ← zpow_natCast, ← zpow_add₀ (by norm_num)]
        exact a2.le.trans (zpow_le_zpow_right₀ (by norm_num) (by push_cast; omega))
      rw [← q, div_le_iff₀ (by exact_mod_cast pos _ _ hd)] at this
      rw [Nat.mul_one]; exact_mod_cast this
    have r2 : 2 ^ 23 ≤ roundEven (n' * 2 ^ (-(e' - 23)).toNat) (d' * 2 ^ (e' - 23).toNat) := by
      rw [← roundEven_one (2 ^ 23)]
      refine roundEven_mono one_pos (pos _ _ hd') ?_
      have q := scaled_div (n := n') hd' (e' - 23)
      have : (2 : ℚ) ^ 23 ≤ (n' : ℚ) / d' / 2 ^ (e' - 23) := by
        rw [le_div_iff₀ (by positivity), ← zpow_natCast, ← zpow_add₀ (by norm_num)]
        refine le_trans (zpow_le_zpow_right₀ (by norm_num) ?_) b1
        push_cast; omega
      rw [← q, le_div_iff₀ (by exact_mod_cast pos _ _ hd')] at this
      rw [Nat.mul_one]; exact_mod_cast this
    obtain ⟨k, hk⟩ : ∃ k, (e' + 126).toNat = (e + 126).toNat + 1 + k := ⟨(e' - e - 1).toNat, by omega⟩
    rw [hk]
    have : ((e + 126).toNat + 1 + k) * 2 ^ 23 = (e + 126).toNat * 2 ^ 23 + 2 ^ 23 + k * 2 ^ 23 := by ring
    omega
  · refine Nat.add_le_add_left (roundEven_mono (pos _ _ hd) (pos _ _ hd') ?_) _
    calc n * 2 ^ (-(e - 23)).toNat * (d' * 2 ^ (e - 23).toNat)
        = (n * d') * (2 ^ (-(e - 23)).toNat * 2 ^ (e - 23).toNat) := by ring
      _ ≤ (n' * d) * (2 ^ (-(e - 23)).toNat * 2 ^ (e - 23).toNat) := Nat.mul_le_mul_right _ h
      _ = _ := by ring

theorem f32Magnitude_lt (n d : Nat) : f32Magnitude n d < 2 ^ 31 := by
  unfold f32Magnitude
  split
  · decide
  · exact (Nat.min_le_right _ _).trans_lt (by decide)

theorem f32Magnitude_abs {p q : ℚ} (h : |p| ≤ |q|) :
    f32Magnitude p.num.natAbs p.den ≤ f32Magnitude q.num.natAbs q.den := by
  refine f32Magnitude_mono p.den_pos q.den_pos ?_
  have e : ∀ r : ℚ, |r| = (r.num.natAbs : ℚ) / r.den := by
    intro r
    conv_lhs => rw [← Rat.num_div_den r, abs_div, Nat.abs_cast]
    rw [Nat.cast_natAbs, Int.cast_abs]
  rw [e, e, div_le_div_iff₀ (by exact_mod_cast p.den_pos) (by exact_mod_cast q.den_pos)] at h
  exact_mod_cast h

/-- A value between two that round to the same word rounds to that word. -/
theorem f32Round_between {p r q : ℚ} (h1 : p ≤ r) (h2 : r ≤ q) (h : f32Round p = f32Round q) :
    f32Round r = f32Round p := by
  have lp := f32Magnitude_lt p.num.natAbs p.den
  have lq := f32Magnitude_lt q.num.natAbs q.den
  have hs : (if p < 0 then 2 ^ 31 else 0) + f32Magnitude p.num.natAbs p.den =
      (if q < 0 then 2 ^ 31 else 0) + f32Magnitude q.num.natAbs q.den := by
    have := congrArg BitVec.toNat h
    simp only [f32Round, BitVec.toNat_ofNat] at this
    rwa [Nat.mod_eq_of_lt (by split <;> omega), Nat.mod_eq_of_lt (by split <;> omega)] at this
  unfold f32Round
  congr 1
  by_cases hp : p < 0 <;> by_cases hq : q < 0
  · simp only [hp, hq, if_true, show r < 0 from h2.trans_lt hq] at hs ⊢
    have m1 := f32Magnitude_abs (p := r) (q := p) (by rw [abs_of_neg hp, abs_of_neg (h2.trans_lt hq)]; linarith)
    have m2 := f32Magnitude_abs (p := q) (q := r) (by rw [abs_of_neg hq, abs_of_neg (h2.trans_lt hq)]; linarith)
    omega
  · simp only [hp, hq, if_true, if_false] at hs; omega
  · exact absurd (h1.trans (h2.trans hq.le)) (by intro h; exact hp (lt_of_le_of_lt (h1.trans h2) hq))
  · have hr : ¬ r < 0 := by intro hr; exact hp (h1.trans_lt hr)
    simp only [hp, hq, hr, if_false] at hs ⊢
    rw [not_lt] at hp hq hr
    have m1 := f32Magnitude_abs (p := p) (q := r) (by rw [abs_of_nonneg hp, abs_of_nonneg hr]; exact h1)
    have m2 := f32Magnitude_abs (p := r) (q := q) (by rw [abs_of_nonneg hq, abs_of_nonneg hr]; exact h2)
    omega

end Sys2Proof.Machine
end

