-- ==== Sys2Proof/Laws/Exact.lean ====
section
/-! SUPPORT. The reference reading of R15 is a NUM: `Num.exists_exact`. Its values are the real numbers that the operations
of R13 and R15 make from the rational numbers and pi. They are countably many, so a `Scalar` names each of them. -/

namespace Sys2Proof

open Machine (f32Round f32Round_between)

/-- What the operations of exact arithmetic can be applied to, written out. -/
inductive RealTerm where
  | rat (q : ℚ)
  | pi
  | op1 (f : Fin 6) (t : RealTerm)
  | op2 (f : Fin 3) (t u : RealTerm)
deriving Countable

namespace RealTerm

/-- Negation, inverse, cosine, sine, `wrap` and `log10`. -/
noncomputable def fun1 : Fin 6 → ℝ → ℝ
  | 0 => fun x => -x
  | 1 => fun x => x⁻¹
  | 2 => Real.cos
  | 3 => Real.sin
  | 4 => toIocMod Real.two_pi_pos (-Real.pi)
  | 5 => Real.logb 10

/-- Sum, product, and the angle of a complex number. -/
noncomputable def fun2 : Fin 3 → ℝ → ℝ → ℝ
  | 0 => fun x y => x + y
  | 1 => fun x y => x * y
  | 2 => fun x y => Complex.arg ⟨x, y⟩

/-- The real number a term stands for. -/
noncomputable def eval : RealTerm → ℝ
  | .rat q => q
  | .pi => Real.pi
  | .op1 f t => fun1 f (eval t)
  | .op2 f t u => fun2 f (eval t) (eval u)

end RealTerm

/-- A real number that exact arithmetic reaches. -/
def Reached (x : ℝ) : Prop := ∃ t, RealTerm.eval t = x

namespace Reached

theorem rat (q : ℚ) : Reached q := ⟨.rat q, rfl⟩
theorem pi : Reached Real.pi := ⟨.pi, rfl⟩
theorem fun1 (f : Fin 6) {x : ℝ} : Reached x → Reached (RealTerm.fun1 f x) := fun ⟨t, h⟩ => ⟨.op1 f t, h ▸ rfl⟩
theorem fun2 (f : Fin 3) {x y : ℝ} : Reached x → Reached y → Reached (RealTerm.fun2 f x y) :=
  fun ⟨t, h⟩ ⟨u, h'⟩ => ⟨.op2 f t u, h ▸ h' ▸ rfl⟩
theorem neg {x : ℝ} (h : Reached x) : Reached (-x) := fun1 0 h
theorem inv {x : ℝ} (h : Reached x) : Reached (x⁻¹) := fun1 1 h
theorem cos {x : ℝ} (h : Reached x) : Reached (Real.cos x) := fun1 2 h
theorem sin {x : ℝ} (h : Reached x) : Reached (Real.sin x) := fun1 3 h
theorem wrap {x : ℝ} (h : Reached x) : Reached (toIocMod Real.two_pi_pos (-Real.pi) x) := fun1 4 h
theorem log {x : ℝ} (h : Reached x) : Reached (Real.logb 10 x) := fun1 5 h
theorem add {x y : ℝ} (h : Reached x) (k : Reached y) : Reached (x + y) := fun2 0 h k
theorem mul {x y : ℝ} (h : Reached x) (k : Reached y) : Reached (x * y) := fun2 1 h k
theorem arg {x y : ℝ} (h : Reached x) (k : Reached y) : Reached (Complex.arg ⟨x, y⟩) := fun2 2 h k
theorem sub {x y : ℝ} (h : Reached x) (k : Reached y) : Reached (x - y) := sub_eq_add_neg x y ▸ add h (neg k)
theorem div {x y : ℝ} (h : Reached x) (k : Reached y) : Reached (x / y) := div_eq_mul_inv x y ▸ mul h (inv k)
theorem sum {l : List ℝ} (h : ∀ x ∈ l, Reached x) : Reached l.sum := by
  induction l with
  | nil => simpa using rat 0
  | cons a l ih =>
    rw [List.sum_cons]
    exact add (h a (by simp)) (ih fun x hx => h x (by simp [hx]))

end Reached

/-- The reached reals that are not rational. -/
def ReachedIrrational : Set ℝ := { x | Reached x ∧ Irrational x }

/-- They can be numbered. -/
theorem exists_numbering : Nonempty (ℕ ≃ ReachedIrrational) := by
  have : Countable ReachedIrrational :=
    (Set.Countable.mono (fun _ h => h.1) (Set.countable_range RealTerm.eval)).to_subtype
  have : Infinite ReachedIrrational := by
    refine Infinite.of_injective
      (fun n : ℕ => (⟨Real.pi + n, by simpa using Reached.add Reached.pi (Reached.rat n), irrational_pi.add_natCast n⟩ :
        ReachedIrrational)) ?_
    intro a b h
    simpa using congrArg Subtype.val h
  exact nonempty_equiv_of_countable

/-- The number that stands for an irrational one. -/
noncomputable def numbering : ℕ ≃ ReachedIrrational := Classical.choice exists_numbering

/-- The real number a value stands for, in exact arithmetic. -/
noncomputable def exactValue : Scalar → ℝ
  | .rat q => q
  | .other n => (numbering n : ℝ)

theorem exactValue_injective : Function.Injective exactValue := by
  intro a b h
  cases a with
  | rat p =>
    cases b with
    | rat q => simpa [exactValue] using h
    | other n => exact absurd ⟨p, h⟩ (numbering n).2.2
  | other m =>
    cases b with
    | rat q => exact absurd ⟨q, h.symm⟩ (numbering m).2.2
    | other n => rw [show m = n from numbering.injective (Subtype.ext h)]

theorem exactValue_mem (a : Scalar) : Reached (exactValue a) := by
  cases a with
  | rat q => exact Reached.rat q
  | other n => exact (numbering n).2.1

theorem exactValue_surj {x : ℝ} (h : Reached x) : ∃ a, exactValue a = x := by
  by_cases hx : Irrational x
  · exact ⟨.other (numbering.symm ⟨x, h, hx⟩), by simp [exactValue]⟩
  · obtain ⟨q, hq⟩ := not_not.1 hx
    exact ⟨.rat q, hq⟩

open Classical in
/-- The value that stands for a real number. -/
noncomputable def scalarOf (x : ℝ) : Scalar := if h : ∃ a, exactValue a = x then h.choose else .rat 0

theorem exactValue_scalarOf {x : ℝ} (h : Reached x) : exactValue (scalarOf x) = x := by
  have := exactValue_surj h
  rw [scalarOf, dif_pos this]; exact this.choose_spec

theorem scalarOf_rat (q : ℚ) : scalarOf q = .rat q := exactValue_injective (exactValue_scalarOf (Reached.rat q))

theorem scalarOf_zero : scalarOf 0 = .rat 0 := by simpa using scalarOf_rat 0

/-- The complex number a pair of values stands for. -/
noncomputable abbrev exactC (z : Cplx) : ℂ := z.toC exactValue

/-- The pair of values that stands for a complex number. -/
noncomputable def cplxOf (z : ℂ) : Cplx := ⟨scalarOf z.re, scalarOf z.im⟩

theorem exactC_cplxOf {z : ℂ} (h : Reached z.re ∧ Reached z.im) : exactC (cplxOf z) = z := by
  apply Complex.ext
  · exact exactValue_scalarOf h.1
  · exact exactValue_scalarOf h.2

/-- Both parts of a complex number are reached. -/
def Both (z : ℂ) : Prop := Reached z.re ∧ Reached z.im

theorem both (z : Cplx) : Both (exactC z) := ⟨exactValue_mem z.re, exactValue_mem z.im⟩
theorem Both.add {z w : ℂ} (h : Both z) (k : Both w) : Both (z + w) := ⟨h.1.add k.1, h.2.add k.2⟩
theorem Both.sub {z w : ℂ} (h : Both z) (k : Both w) : Both (z - w) := ⟨h.1.sub k.1, h.2.sub k.2⟩
theorem Both.mul {z w : ℂ} (h : Both z) (k : Both w) : Both (z * w) :=
  ⟨(h.1.mul k.1).sub (h.2.mul k.2), (h.1.mul k.2).add (h.2.mul k.1)⟩
theorem Both.normSq {z : ℂ} (h : Both z) : Reached (Complex.normSq z) := (h.1.mul h.1).add (h.2.mul h.2)
theorem Both.div {z w : ℂ} (h : Both z) (k : Both w) : Both (z / w) := by
  rw [Both, Complex.div_re, Complex.div_im]
  have n := k.normSq
  exact ⟨((h.1.mul k.1).div n).add ((h.2.mul k.2).div n), ((h.2.mul k.1).div n).sub ((h.1.mul k.2).div n)⟩
theorem Both.real {x : ℝ} (h : Reached x) : Both (x : ℂ) := ⟨h, by simpa using Reached.rat 0⟩
theorem Both.sum {l : List ℂ} (h : ∀ z ∈ l, Both z) : Both l.sum := by
  induction l with
  | nil => simpa using Both.real (Reached.rat 0)
  | cons a l ih =>
    rw [List.sum_cons]
    exact (h a (by simp)).add (ih fun x hx => h x (by simp [hx]))
theorem Both.exp {x : ℝ} (h : Reached x) : Both (Complex.exp (x * Complex.I)) := by
  rw [Both, Complex.exp_ofReal_mul_I_re, Complex.exp_ofReal_mul_I_im]
  exact ⟨h.cos, h.sin⟩

theorem exactC_zero : exactC Cplx.zero = 0 := by
  apply Complex.ext <;> simp [Cplx.zero, Cplx.toC, exactValue]

/-- Some word for a number that is not rational: the one that the rational numbers around it round to, if there is one. -/
theorem exists_word (n : Nat) : ∃ w, ∀ p q : ℚ, (p : ℝ) < exactValue (.other n) → exactValue (.other n) < q →
    f32Round p = f32Round q → w = f32Round p := by
  by_cases h : ∃ p q : ℚ, (p : ℝ) < exactValue (.other n) ∧ exactValue (.other n) < q ∧ f32Round p = f32Round q
  · obtain ⟨p, q, h1, h2, h3⟩ := h
    refine ⟨f32Round p, fun p' q' k1 k2 k3 => ?_⟩
    rcases le_total p p' with c | c
    · exact (f32Round_between c (by exact_mod_cast (k1.trans h2).le) h3).symm
    · exact f32Round_between c (by exact_mod_cast (h1.trans k2).le) k3
  · exact ⟨0, fun p q h1 h2 h3 => absurd ⟨p, q, h1, h2, h3⟩ h⟩

/-- A range of R13 as the comparisons of exact arithmetic say it. -/
theorem exact_range {x : ℝ} (h : Reached x) (h1 : -Real.pi < x) (h2 : x ≤ Real.pi) :
    ¬ exactValue (scalarOf Real.pi) < exactValue (scalarOf x) ∧
    ¬ exactValue (scalarOf x) < exactValue (scalarOf (-exactValue (scalarOf Real.pi))) ∧
    exactValue (scalarOf x) ≠ exactValue (scalarOf (-exactValue (scalarOf Real.pi))) := by
  rw [exactValue_scalarOf h, exactValue_scalarOf Reached.pi, exactValue_scalarOf Reached.pi.neg]
  exact ⟨not_lt.2 h2, not_lt.2 h1.le, h1.ne'⟩

open Classical in
/-- Exact real and complex arithmetic. -/
noncomputable def Num.exact : Num where
  holds := fun _ => true
  approx := .rat
  lt := fun a b => decide (exactValue a < exactValue b)
  eq := fun a b => decide (exactValue a = exactValue b)
  otherWord := fun n => (exists_word n).choose
  pi := scalarOf Real.pi
  neg := fun a => scalarOf (-exactValue a)
  add := fun a b => scalarOf (exactValue a + exactValue b)
  sub := fun a b => scalarOf (exactValue a - exactValue b)
  mul := fun a b => scalarOf (exactValue a * exactValue b)
  div := fun a b => scalarOf (exactValue a / exactValue b)
  sum := fun l => scalarOf (l.map exactValue).sum
  cadd := fun z w => cplxOf (exactC z + exactC w)
  csub := fun z w => cplxOf (exactC z - exactC w)
  cmul := fun z w => cplxOf (exactC z * exactC w)
  cdiv := fun z w => cplxOf (exactC z / exactC w)
  cscale := fun a z => cplxOf (exactValue a * exactC z)
  csum := fun l => cplxOf (l.map exactC).sum
  normSq := fun z => scalarOf (Complex.normSq (exactC z))
  cexp := fun a => cplxOf (Complex.exp (exactValue a * Complex.I))
  arg := fun z => scalarOf (Complex.arg (exactC z))
  wrap := fun a => scalarOf (toIocMod Real.two_pi_pos (-Real.pi) (exactValue a))
  log10 := fun a => scalarOf (Real.logb 10 (exactValue a))
  lt_rat := by intro p q; simp [exactValue]
  eq_rat := by intro p q; simp [exactValue]
  lt_asymm := by intro a b h; simpa using (by simpa using h : exactValue a < exactValue b).le
  conv_mono := by intro p q h; simpa [exactValue] using h
  holds_zero := rfl
  normSq_zero := by rw [exactC_zero, map_zero, scalarOf_zero]
  sum_zeros := by intro n; simp [exactValue, scalarOf_zero]
  mul_zero := by intro a; simp [exactValue, scalarOf_zero]
  arg_zero := by rw [exactC_zero, Complex.arg_zero, scalarOf_zero]
  arg_range := by
    intro z
    simpa only [decide_eq_false_iff_not] using
      exact_range (Reached.arg (both z).1 (both z).2) (Complex.neg_pi_lt_arg _) (Complex.arg_le_pi _)
  wrap_range := by
    intro a
    have h := toIocMod_mem_Ioc Real.two_pi_pos (-Real.pi) (exactValue a)
    simpa only [decide_eq_false_iff_not] using exact_range (exactValue_mem a).wrap h.1 (h.2.trans (by linarith))
  zero_range := by
    have h := exact_range (by simpa using Reached.rat 0) (neg_lt_zero.2 Real.pi_pos) Real.pi_pos.le
    rw [scalarOf_zero] at h
    simpa only [decide_eq_false_iff_not] using h
  word_between := by
    intro n p q h1 h2 h
    exact (exists_word n).choose_spec p q (of_decide_eq_true h1) (of_decide_eq_true h2) h
  word_top := by
    intro n h
    obtain ⟨q, hq⟩ := exists_rat_gt (exactValue (.other n))
    exact absurd (of_decide_eq_true (h q)) hq.le.not_gt
  word_bottom := by
    intro n h
    obtain ⟨q, hq⟩ := exists_rat_lt (exactValue (.other n))
    exact absurd (of_decide_eq_true (h q)) hq.le.not_gt

/-- The exact NUM is the reference reading of R15. -/
theorem Num.exact_isExact : Num.exact.IsExact exactValue where
  injective := exactValue_injective
  rat := fun _ => rfl
  holds := fun _ => rfl
  lt := by intro a b; exact decide_eq_true_iff
  eq := by intro a b; exact decide_eq_true_iff
  pi := exactValue_scalarOf Reached.pi
  neg := fun a => exactValue_scalarOf (exactValue_mem a).neg
  add := fun a b => exactValue_scalarOf ((exactValue_mem a).add (exactValue_mem b))
  sub := fun a b => exactValue_scalarOf ((exactValue_mem a).sub (exactValue_mem b))
  mul := fun a b => exactValue_scalarOf ((exactValue_mem a).mul (exactValue_mem b))
  div := fun a b _ => exactValue_scalarOf ((exactValue_mem a).div (exactValue_mem b))
  sum := fun l => exactValue_scalarOf (Reached.sum (by
    intro x hx; obtain ⟨a, _, rfl⟩ := List.mem_map.1 hx; exact exactValue_mem a))
  cadd := fun z w => exactC_cplxOf ((both z).add (both w))
  csub := fun z w => exactC_cplxOf ((both z).sub (both w))
  cmul := fun z w => exactC_cplxOf ((both z).mul (both w))
  cdiv := fun z w _ => exactC_cplxOf ((both z).div (both w))
  cscale := fun a z => exactC_cplxOf ((Both.real (exactValue_mem a)).mul (both z))
  csum := fun l => exactC_cplxOf (Both.sum (by
    intro x hx; obtain ⟨a, _, rfl⟩ := List.mem_map.1 hx; exact both a))
  normSq := fun z => exactValue_scalarOf (both z).normSq
  cexp := fun a => exactC_cplxOf (Both.exp (exactValue_mem a))
  arg := fun z => exactValue_scalarOf (Reached.arg (both z).1 (both z).2)
  wrap := fun a => exactValue_scalarOf (exactValue_mem a).wrap
  log10 := fun a _ => exactValue_scalarOf (exactValue_mem a).log

/-- The reference reading of R15 is a NUM. -/
theorem Num.exists_exact : ∃ (N : Num) (v : Scalar → ℝ), N.IsExact v := ⟨Num.exact, exactValue, Num.exact_isExact⟩

end Sys2Proof
end

