-- ==== Sys2Proof/Laws/Table.lean ====
section
/-! SUPPORT. The allocation table: reading it from ALLOC, its validity, the default table, and writing it. -/

namespace Sys2Proof.Machine

variable {bd : Build}

/-! ## Roles and codes -/

@[simp] theorem roleOfCode_roleCode (r : Role) : roleOfCode (roleCode r) = r := by cases r <;> rfl

theorem map_roleOfCode_roleCode (c : List Role) : (c.map roleCode).map roleOfCode = c := by
  rw [List.map_map, show roleOfCode ∘ roleCode = id from funext roleOfCode_roleCode, List.map_id]

@[simp] theorem initDefault_length (m : Nat) : (initDefault m).length = m := by simp [initDefault]

theorem legalM_iff (m : Nat) : legalM bd m = true ↔ m % 2 = 0 ∧ 16 ≤ m ∧ m ≤ bd.mMax := by
  unfold legalM
  rw [Bool.and_eq_true, Bool.and_eq_true, decide_eq_true_eq, decide_eq_true_eq, decide_eq_true_eq, and_assoc]
  exact Iff.rfl

theorem legalM_of_legalMG {m g : Nat} (h : legalMG bd m g = true) : legalM bd m = true ∧ g ≤ m := by
  simpa [legalMG] using h

/-- `valid_alloc` as R212 words it. -/
theorem validAlloc_iff (t : List Byte) : validAlloc t = true ↔ ValidTable t := by
  have hb : ∀ b : Byte, b.toNat ≤ 2 ↔ b = 0 ∨ b = 1 ∨ b = 2 := by decide
  simp only [validAlloc, ValidTable, Bool.and_eq_true, List.all_eq_true, decide_eq_true_eq, hb, Nat.one_le_iff_ne_zero,
    ← Nat.pos_iff_ne_zero, List.count_pos_iff, and_assoc]

theorem validTable_map {c : List Role} (hp : Role.pilot ∈ c) (hd : Role.data ∈ c) : ValidTable (c.map roleCode) := by
  refine ⟨?_, List.mem_map.2 ⟨_, hp, rfl⟩, List.mem_map.2 ⟨_, hd, rfl⟩⟩
  intro b hb
  obtain ⟨r, -, rfl⟩ := List.mem_map.1 hb
  cases r <;> simp [roleCode]

theorem mem_of_validTable {t : List Byte} (h : ValidTable t) :
    Role.pilot ∈ t.map roleOfCode ∧ Role.data ∈ t.map roleOfCode :=
  ⟨List.mem_map.2 ⟨1, h.2.1, rfl⟩, List.mem_map.2 ⟨2, h.2.2, rfl⟩⟩

/-- The default table of a legal M has a pilot and a data subcarrier (R203). -/
theorem initDefault_mem {m : Nat} (h : legalM bd m = true) : Role.pilot ∈ initDefault m ∧ Role.data ∈ initDefault m := by
  rw [legalM_iff] at h
  constructor
  · refine List.mem_map.2 ⟨4, by simp; omega, ?_⟩
    simp only [defaultRole]
    rw [if_pos (show 4 < m / 2 by omega), if_pos (by omega), if_pos (by decide)]
  · refine List.mem_map.2 ⟨1, by simp; omega, ?_⟩
    simp only [defaultRole]
    rw [if_pos (show 1 < m / 2 by omega), if_pos (by omega), if_neg (by decide)]

theorem validAlloc_initDefault {m : Nat} (h : legalM bd m = true) : validAlloc ((initDefault m).map roleCode) = true := by
  rw [validAlloc_iff]
  exact validTable_map (initDefault_mem h).1 (initDefault_mem h).2

theorem mem_indicesOf {r : Role} {t : List Role} {k : Nat} : k ∈ indicesOf r t ↔ t[k]? = some r := by
  simp only [indicesOf, List.mem_filter, List.mem_range, decide_eq_true_eq]
  constructor
  · exact fun h => h.2
  · exact fun h => ⟨(List.getElem?_eq_some_iff.1 h).1, h⟩

theorem indicesOf_nodup (r : Role) (c : List Role) : (indicesOf r c).Nodup := List.nodup_range.filter _

theorem indicesOf_length_pos {r : Role} {c : List Role} (h : r ∈ c) : 1 ≤ (indicesOf r c).length := by
  obtain ⟨k, hk, rfl⟩ := List.mem_iff_getElem.1 h
  exact List.length_pos_of_mem (mem_indicesOf.2 (List.getElem?_eq_getElem hk))

/-! ## Reading ALLOC -/

/-- Reading a table that ALLOC holds gives it and takes no draw. -/
theorem allocCodes_of_tableIs {s : State} {t : List Byte} (h : TableIs s t) : allocCodes s t.length = (t, s.draws) := by
  unfold allocCodes
  have hr : ∀ a ∈ (List.range t.length).map allocAddr,
      memPeek s.build s.mem a = some (t.getD ((a - regionBase .alloc) / 4) 0) := by
    intro a ha
    obtain ⟨k, hk, rfl⟩ := List.mem_map.1 ha
    rw [show memPeek s.build s.mem (allocAddr k) = some (t.getD k 0) from h k (List.mem_range.1 hk)]
    simp only [allocAddr]
    rw [Nat.add_sub_cancel_left, Nat.mul_div_cancel_left _ (by decide : 0 < 4)]
  rw [memGets_of_peek hr]
  congr 1
  apply List.ext_getElem
  · simp
  · intro i h1 h2
    simp only [List.getElem_map, List.getElem_range, allocAddr]
    rw [Nat.add_sub_cancel_left, Nat.mul_div_cancel_left _ (by decide : 0 < 4)]
    simp [h2]

theorem allocCodes_length (s : State) (m : Nat) : (allocCodes s m).1.length = m := by
  simp [allocCodes, memGets_length]

theorem tableArg_length (d : Bool) (m : Nat) (s : State) : (tableArg d m s).1.length = m := by
  unfold tableArg
  split
  · simp
  · exact allocCodes_length s m

/-! ## Writing ALLOC -/

theorem memPeek_memPutWord {m : Memory} (h : Rising m) (a x : Nat) (w : Word) :
    memPeek bd (memPutWord bd m a w) x =
      if a ≤ x ∧ x < a + 4 then some ((wordBytes w).getD (x - a) 0 &&& storeMask bd x) else memPeek bd m x := by
  unfold memPutWord
  rw [memPeek_memPutBytes h]
  rfl

theorem memPutWord_rising {m : Memory} (h : Rising m) (a : Nat) (w : Word) : Rising (memPutWord bd m a w) :=
  memPutBytes_rising h a _

theorem putAlloc_wf {m : Memory} (h : m.wf bd = true) (k : Nat) (c : List Role) : (putAlloc bd m k c).wf bd = true := by
  induction c generalizing m k with
  | nil => exact h
  | cons r c ih => exact ih (memPutWord_wf h _ _) (k + 1)

/-- What writing role codes into ALLOC can do: each word holds its code, every other byte reads as before. -/
theorem memPeek_putAlloc {m : Memory} (h : Rising m) (k x : Nat) (c : List Role) :
    memPeek bd (putAlloc bd m k c) x =
      if allocAddr k ≤ x ∧ x < allocAddr (k + c.length) then
        some ((wordBytes ((roleCode (c.getD ((x - allocAddr k) / 4) .null)).setWidth 32)).getD ((x - allocAddr k) % 4) 0
          &&& storeMask bd x)
      else memPeek bd m x := by
  induction c generalizing m k with
  | nil => rw [if_neg (by simp only [List.length_nil, allocAddr]; omega)]; rfl
  | cons r c ih =>
    rw [putAlloc, ih (memPutWord_rising h _ _), memPeek_memPutWord h]
    simp only [List.length_cons]
    have e : allocAddr (k + 1) = allocAddr k + 4 := by simp only [allocAddr]; omega
    have e2 : k + 1 + c.length = k + (c.length + 1) := by omega
    rw [e2]
    by_cases h1 : allocAddr (k + 1) ≤ x ∧ x < allocAddr (k + (c.length + 1))
    · rw [if_pos h1, if_pos (by omega), show (x - allocAddr k) / 4 = (x - allocAddr (k + 1)) / 4 + 1 by omega,
        List.getD_cons_succ, show (x - allocAddr k) % 4 = (x - allocAddr (k + 1)) % 4 by omega]
    · rw [if_neg h1]
      by_cases h2 : allocAddr k ≤ x ∧ x < allocAddr k + 4
      · have : allocAddr k + 4 ≤ allocAddr (k + (c.length + 1)) := by simp only [allocAddr]; omega
        rw [if_pos h2, if_pos (by omega), show (x - allocAddr k) / 4 = 0 by omega, List.getD_cons_zero,
          show (x - allocAddr k) % 4 = x - allocAddr k by omega]
      · rw [if_neg h2, if_neg (by omega)]

end Sys2Proof.Machine
end

