-- ==== Sys2Proof/Laws/Exec.lean ====
section
/-! SUPPORT. The effect of every command in one lemma (exec_effect), and the induction over the samples of a run. -/

namespace Sys2Proof.Machine

/-- The induction over a run for a property kept by one sample's step, `pos` first advanced, and by answering. -/
theorem runSamples_keeps_step {N : Num} {ms : List (Nat × Nat)} {X : Ext N ms} {P : State → Prop}
    (one : ∀ x s d, P s → s.rx.evt = false →
      P (sampleStep N X x ((s.setDraws d).setRx { s.rx with pos := s.rx.pos + 1 })))
    (ans : ∀ st s, P s → P (respond st s)) {k : Nat} {s t : State} (hs : P s) (he : s.rx.evt = false)
    (h : runSamples N X k s = .next t) : P t := by
  refine runSamples_keeps (P := P) (fun s t hs he hc => ?_) ans hs he h
  obtain ⟨-, -, rfl⟩ := consume_cases hc
  exact one _ _ _ hs he

theorem exec_rxExecute_cases {s t : State} {n : Nat} (h : exec (.rxExecute n) s = .next t) :
    (∃ st, t = respond st s) ∨ (s.rx.created = true ∧ s.rx.evt = false ∧ 1 ≤ n ∧ n ≤ s.build.nBuf ∧
      runSamples Config.num (Config.ext s.build.modset) n (s.setRx { s.rx with execN := n, pos := 0 }) = .next t) := by
  have h : execRxExecute n s = .next t := h
  unfold execRxExecute at h
  split at h
  · cases h; exact .inl ⟨_, rfl⟩
  · split at h
    · cases h; exact .inl ⟨_, rfl⟩
    · split at h
      · cases h; exact .inl ⟨_, rfl⟩
      · split at h
        · cases h; exact .inl ⟨_, rfl⟩
        · rename_i h1 h2 h3 h4
          exact .inr ⟨by simpa using h1, by simpa using h2, by omega, Nat.not_lt.1 h3, h⟩

theorem exec_rxAck_cases {s t : State} (h : exec .rxAck s = .next t) :
    (∃ st, t = respond st s) ∨ (s.rx.created = true ∧ s.rx.evt = true ∧
      runSamples Config.num (Config.ext s.build.modset) (s.rx.execN - s.rx.pos) (resetFsm (s.setRx { s.rx with evt := false })) =
        .next t) := by
  have h : execRxAck s = .next t := h
  unfold execRxAck at h
  split at h
  · cases h; exact .inl ⟨_, rfl⟩
  · split at h
    · cases h; exact .inl ⟨_, rfl⟩
    · rename_i h1 h2
      exact .inr ⟨by simpa using h1, by simpa using h2, h⟩

/-- Everything a command that answers a next state can have done: answered with a status (a table that nothing wrote may
have been read first), or had its own effect under its conditions. -/
inductive CommandEffect (s : State) : Instr → State → Prop
  | answered (i : Instr) (st : Status) (d : Nat) : CommandEffect s i (respond st (s.setDraws d))
  | allocDefault (m : Nat) : legalM s.build m = true →
      CommandEffect s (.allocDefault m) (respond .ok (s.setMem (putAlloc s.build s.mem 0 (initDefault m))))
  | txCreate (d : Bool) (t : List Byte) (n : Nat) : legalMG s.build (cfgM s.txCfg) (cfgG s.txCfg) = true →
      t.length = cfgM s.txCfg → ValidTable t → legalProps s.build (propsOf s.txProps) = true →
      CommandEffect s (.txCreate d) (respond .ok ((s.setDraws n).setTx
        (txCreated s.tx (cfgM s.txCfg) (cfgG s.txCfg) (t.map roleOfCode) (propsOf s.txProps))))
  | txAssemble (len : Nat) (uh pb : List Byte) (n : Nat) : s.tx.created = true → len ≤ s.build.payloadMax →
      legalProps s.build (propsOf s.txProps) = true → uh.length = 8 → pb.length = len →
      CommandEffect s (.txAssemble len) (respond .ok ((s.setDraws n).setTx
        (txAssembled (Config.ext s.build.modset) s.tx (propsOf s.txProps) uh pb len)))
  | txWriteSymbol (w : Word) : s.tx.created = true → s.tx.state ≠ .done →
      CommandEffect s .txWriteSymbol
        (((s.setMem (memPutBytes s.build s.mem (regionBase .txSym)
          ((txSymbol Config.num (Config.ext s.build.modset) s.tx).flatMap (sampleBytes Config.num)))).setTx
            { s.tx with symcnt := s.tx.symcnt + 1, state := txStateOf s.tx (s.tx.symcnt + 1) }).setResp w)
  | txDestroy : s.tx.created = true → CommandEffect s .txDestroy (respond .ok (s.setTx TxUnit.reset))
  | rxCreate (d : Bool) (t : List Byte) (n : Nat) : s.rx.evt = false → legalMG s.build (cfgM s.rxCfg) (cfgG s.rxCfg) = true →
      t.length = cfgM s.rxCfg → ValidTable t →
      CommandEffect s (.rxCreate d) (respond .ok (resetFsm ((s.setDraws n).setRx
        (rxCreated Config.num s.rxCtx s.rx (cfgM s.rxCfg) (cfgG s.rxCfg) (t.map roleOfCode)))))
  | rxExecute (n : Nat) (t : State) : s.rx.created = true → s.rx.evt = false → 1 ≤ n → n ≤ s.build.nBuf →
      runSamples Config.num (Config.ext s.build.modset) n (s.setRx { s.rx with execN := n, pos := 0 }) = .next t →
      CommandEffect s (.rxExecute n) t
  | rxAck (t : State) : s.rx.created = true → s.rx.evt = true →
      runSamples Config.num (Config.ext s.build.modset) (s.rx.execN - s.rx.pos) (resetFsm (s.setRx { s.rx with evt := false })) =
        .next t →
      CommandEffect s .rxAck t
  | rxDestroy : s.rx.created = true → s.rx.evt = false →
      CommandEffect s .rxDestroy (respond .ok ((s.setRx RxUnit.reset).setMem (memClear s.build s.mem .resPay)))

/-- What any command can do, in one lemma. -/
theorem exec_effect {i : Instr} {s t : State} (h : exec i s = .next t) : CommandEffect s i t := by
  have er : ∀ i st, CommandEffect s i (respond st s) := fun i st => .answered i st s.draws
  cases i
  case nop => cases h; exact er _ _
  case allocDefault m =>
    have h : Host.Outcome.next (allocDefault m s) = .next t := h
    cases h; unfold allocDefault; split
    · exact .allocDefault m ‹_›
    · exact er _ _
  case allocValidate m =>
    have h : Host.Outcome.next (allocValidate m s) = .next t := h
    cases h; unfold allocValidate; split
    · exact .answered _ _ _
    · exact er _ _
  case txCreate d =>
    have h : Host.Outcome.next (txCreate d s) = .next t := h
    cases h; unfold txCreate; simp only; split
    · split
      · rename_i h1 h2
        rw [Bool.and_eq_true] at h2
        exact .txCreate d _ _ h1 (tableArg_length _ _ _) ((validAlloc_iff _).1 h2.1) h2.2
      · exact .answered _ _ _
    · exact er _ _
  case txAssemble len =>
    have h : Host.Outcome.next (txAssemble len s) = .next t := h
    cases h; unfold txAssemble; repeat' split
    · exact er _ _
    · exact er _ _
    · exact er _ _
    · rename_i h1 h2 h3
      refine .txAssemble len _ _ _ (by simpa using h1) (Nat.not_lt.1 h2) (by simpa using h3) ?_ ?_
      · simp [txBytes, memGets_length]; rfl
      · simp [txBytes, memGets_length]
  case txWriteSymbol =>
    have h : Host.Outcome.next (txWriteSymbol s) = .next t := h
    cases h; unfold txWriteSymbol; repeat' split
    · exact er _ _
    · exact er _ _
    · rename_i h1 h2
      exact .txWriteSymbol _ (by simpa using h1) h2
  case txDestroy =>
    have h : Host.Outcome.next (txDestroy s) = .next t := h
    cases h; unfold txDestroy; split
    · exact er _ _
    · rename_i h1; exact .txDestroy (by simpa using h1)
  case rxCreate d =>
    have h : Host.Outcome.next (rxCreate d s) = .next t := h
    cases h; unfold rxCreate; simp only; repeat' split
    · exact er _ _
    · rename_i h0 h1 h2
      exact .rxCreate d _ _ (by simpa using h0) h1 (tableArg_length _ _ _) ((validAlloc_iff _).1 h2)
    · exact .answered _ _ _
    · exact er _ _
  case rxDestroy =>
    have h : Host.Outcome.next (rxDestroy s) = .next t := h
    cases h; unfold rxDestroy; repeat' split
    · exact er _ _
    · exact er _ _
    · rename_i h1 h2; exact .rxDestroy (by simpa using h1) (by simpa using h2)
  case rxExecute n =>
    rcases exec_rxExecute_cases h with ⟨st, rfl⟩ | ⟨h1, h2, h3, h4, h5⟩
    · exact er _ _
    · exact .rxExecute n t h1 h2 h3 h4 h5
  case rxAck =>
    rcases exec_rxAck_cases h with ⟨st, rfl⟩ | ⟨h1, h2, h3⟩
    · exact er _ _
    · exact .rxAck t h1 h2 h3

end Sys2Proof.Machine
end

