-- ==== Sys2Proof/Laws/Feed.lean ====
section
/-! SUPPORT. A list of samples fed to the synchronizer (`feed`): it composes, fewer than L samples detect nothing, it does
not read the command's counters, and the samples a run consumes are those of `busSample`. -/

namespace Sys2Proof

open Machine

variable {ms : List (Nat × Nat)} (N : Num) (X : Ext N ms)

@[simp] theorem feed_nil (s : State) : feed N X [] s = s := rfl

@[simp] theorem feed_cons (z : Cplx) (zs : List Cplx) (s : State) :
    feed N X (z :: zs) s = feed N X zs (sampleStep N X z s) := rfl

theorem feed_append (ys zs : List Cplx) (s : State) : feed N X (ys ++ zs) s = feed N X zs (feed N X ys s) :=
  List.foldl_append

/-- While the history holds fewer than L samples, nothing is detected (R321). -/
theorem feed_seeking (zs : List Cplx) (s : State) (hs : s.rx.state = .seekPreamble) (h : s.rx.fill + zs.length < s.rx.L) :
    (feed N X zs s).rx.state = .seekPreamble := by
  induction zs generalizing s with
  | nil => exact hs
  | cons z zs ih =>
    rw [List.length_cons] at h
    have hp : sampleStep N X z s = s.setRx (push z s.rx) := by
      unfold sampleStep
      rw [hs]
      simp only [seekStep]
      rw [if_neg]
      simp only [push]; omega
    rw [feed_cons, hp]
    refine ih _ ?_ ?_
    · exact hs
    · show min (s.rx.fill + 1) (2 * s.rx.L) + zs.length < s.rx.L; omega

/-- Feeding samples does not read the counters of the command, and leaves them. -/
theorem feed_recount (zs : List Cplx) (s : State) (p e : Nat) :
    feed N X zs (s.setRx (recount s.rx p e)) = (feed N X zs s).setRx (recount (feed N X zs s).rx p e) := by
  induction zs generalizing s with
  | nil => rfl
  | cons z zs ih =>
    rw [feed_cons, show sampleStep N X z (s.setRx (recount s.rx p e)) = _ from sampleStep_counts N X z s s.rx p e]
    exact ih (sampleStep N X z s)

/-! ## The samples a run consumes -/

/-- Reading takes draws and gives none back. -/
theorem memGets_draws (b : Build) (m : Memory) (as : List Nat) (d : Nat) : d ≤ (memGets b m d as).2 := by
  induction as generalizing d with
  | nil => exact le_refl _
  | cons a as ih =>
    refine le_trans ?_ (ih _)
    unfold memGet; split
    · exact le_refl _
    · exact Nat.le_succ _

theorem memGetWord_draws (b : Build) (m : Memory) (d a : Nat) : d ≤ (memGetWord b m d a).2 := memGets_draws _ _ _ _

theorem sampleWords_eq (s : State) (i : Nat) :
    sampleWords s i =
      ((memGetWord s.build s.mem s.draws (0x100000 + 8 * i)).1,
        memGetWord s.build s.mem (memGetWord s.build s.mem s.draws (0x100000 + 8 * i)).2 (0x100000 + 8 * i + 4)) := by
  rw [← show regionBase .rxSamp = 0x100000 from rfl]; rfl

/-- A sample whose words are written is taken into NUM as `busSample` says. -/
theorem busSample_of_ready (s : State) (i : Nat) (h : (sampleWords s i).2.2 = s.draws) :
    (⟨numOfWord N (sampleWords s i).1, numOfWord N (sampleWords s i).2.1⟩ : Cplx) = busSample N s i := by
  rw [sampleWords_eq] at h ⊢
  have h0 : (memGetWord s.build s.mem s.draws (0x100000 + 8 * i)).2 = s.draws := by
    have h1 := memGetWord_draws s.build s.mem s.draws (0x100000 + 8 * i)
    have h2 := memGetWord_draws s.build s.mem (memGetWord s.build s.mem s.draws (0x100000 + 8 * i)).2 (0x100000 + 8 * i + 4)
    exact le_antisymm (h2.trans_eq h) h1
  rw [h0]; rfl

end Sys2Proof
end

