-- ==== Sys2Proof/Laws/Frame.lean ====
section
/-! SUPPORT. The RESP word as a number, and the lengths of a frame's vectors and symbols. -/

namespace Sys2Proof.Machine

/-- RESP as a number (R57). -/
theorem respWord_eq (st : Status) (l : Bool) (n : Nat) :
    respWord st l n = BitVec.ofNat 32 (65536 * n + (if l then 256 else 0) + statusCode st) := by
  have hs : statusCode st < 256 := by cases st <;> decide
  have e : ∀ a k, BitVec.ofNat 32 a <<< k = BitVec.ofNat 32 (a <<< k) := by
    intro a k; apply BitVec.eq_of_toNat_eq; simp [Nat.shiftLeft_eq]
  have hb : l.toNat < 2 := by cases l <;> decide
  unfold respWord
  rw [e, e, ← BitVec.ofNat_or, ← BitVec.ofNat_or]
  congr 1
  rw [← Nat.shiftLeft_add_eq_or_of_lt (by rw [Nat.shiftLeft_eq]; omega), Nat.shiftLeft_eq, Nat.shiftLeft_eq]
  have : n * 2 ^ 16 + l.toNat * 2 ^ 8 = (n * 2 ^ 8 + l.toNat) <<< 8 := by rw [Nat.shiftLeft_eq]; omega
  rw [this, ← Nat.shiftLeft_add_eq_or_of_lt (by omega), Nat.shiftLeft_eq]
  cases l <;> simp only [Bool.toNat_true, Bool.toNat_false, if_true, Bool.false_eq_true, if_false] <;> ring

@[simp] theorem idft_length (N : Num) (V : List Cplx) : (idft N V).length = V.length := by simp [idft]

theorem ofdm_length (N : Num) {g : Nat} {V : List Cplx} (h : g ≤ V.length) : (ofdm N g V).length = V.length + g := by
  simp only [ofdm, List.length_append, List.length_drop, idft_length]; omega

@[simp] theorem dataVector_length (t : List Role) (D : List Nat) (f : Nat → Cplx) :
    (dataVector t D f).length = t.length := by
  simp [dataVector]

@[simp] theorem placeTraining_length (t : List Role) (b : Bits) : (placeTraining t b).length = t.length := by
  induction t generalizing b with
  | nil => rfl
  | cons r t ih => cases r <;> cases b <;> simp [placeTraining, ih]

@[simp] theorem trainShort_length (t : List Role) : (trainShort t).length = t.length := placeTraining_length _ _

@[simp] theorem trainLong_length (t : List Role) : (trainLong t).length = t.length := placeTraining_length _ _

@[simp] theorem symbolVector_length {N : Num} {ms : List (Nat × Nat)} (X : Ext N ms) (u : TxUnit) (c : Nat) :
    (symbolVector X u c).length = u.alloc.length := by
  unfold symbolVector
  split
  · simp
  split
  · simp
  split <;> exact dataVector_length _ _ _

@[simp] theorem pn_length (s : BitVec 15) (n : Nat) : (pn s n).length = n := by
  induction n generalizing s with
  | zero => rfl
  | succ n ih => simp [pn, ih]

/-- The bytes of a list of samples: eight each. -/
theorem sampleBytes_length (z : List Cplx) : (z.flatMap (sampleBytes Config.num)).length = 8 * z.length := by
  induction z with
  | nil => rfl
  | cons c z ih => rw [List.flatMap_cons, List.length_append, ih, List.length_cons]; show 8 + _ = _; omega

/-- At least one header symbol, at most 210 (R231). -/
theorem headerSymbols_range {nd : Nat} (h : 1 ≤ nd) : 1 ≤ headerSymbols nd ∧ headerSymbols nd ≤ 210 := by
  unfold headerSymbols ceilDiv hdrCodedBits
  constructor
  · rw [Nat.one_le_div_iff (by omega)]; omega
  · refine Nat.le_of_lt_succ ((Nat.div_lt_iff_lt_mul (by omega)).2 ?_)
    have : 211 * nd ≥ 210 + nd := by omega
    have : (210 + 1) * nd = 211 * nd := rfl
    simp only [Nat.succ_eq_add_one]; omega

end Sys2Proof.Machine
end

