-- ==== Sys2Proof/Laws/Numeric.lean ====
section
/-! SUPPORT. Laws of the comparisons of a NUM and of `clamp`, for any NUM, and of the values of an exact one. -/

namespace Sys2Proof

open Machine

variable (N : Num)

theorem Num.lt_irrefl (a : Scalar) : N.lt a a = false :=
  Bool.eq_false_iff.2 fun h => by simpa [h] using N.lt_asymm a a h

@[simp] theorem Num.ofRat_zero : N.ofRat 0 = .rat 0 := by rw [Num.ofRat, if_pos N.holds_zero]

theorem Num.ofRat_mono {p q : ℚ} (h : p ≤ q) : N.lt (N.ofRat q) (N.ofRat p) = false := N.conv_mono p q h

/-- Zero lies within bounds of either sign. -/
theorem within_zero {p q : ℚ} (hp : p ≤ 0) (hq : 0 ≤ q) : Within N .zero (N.ofRat p) (N.ofRat q) := by
  have h : Scalar.zero = N.ofRat 0 := N.ofRat_zero.symm
  rw [h]
  exact ⟨N.ofRat_mono hp, N.ofRat_mono hq⟩

/-- Each of two bounds lies within them. -/
theorem within_bounds {p q : ℚ} (h : p ≤ q) :
    Within N (N.ofRat p) (N.ofRat p) (N.ofRat q) ∧ Within N (N.ofRat q) (N.ofRat p) (N.ofRat q) :=
  ⟨⟨N.lt_irrefl _, N.ofRat_mono h⟩, ⟨N.ofRat_mono h, N.lt_irrefl _⟩⟩

/-- What `clamp` answers lies within its bounds, be NUM exact or not. -/
theorem clamp_within {p q : ℚ} (h : p ≤ q) (x : Scalar) :
    Within N (clamp N x (N.ofRat p) (N.ofRat q)) (N.ofRat p) (N.ofRat q) := by
  unfold clamp minN maxN
  by_cases h1 : N.lt (N.ofRat p) x = true
  · rw [if_pos h1]
    by_cases h2 : N.lt x (N.ofRat q) = true
    · rw [if_pos h2]; exact ⟨N.lt_asymm _ _ h1, N.lt_asymm _ _ h2⟩
    · rw [if_neg h2]; exact (within_bounds N h).2
  · rw [if_neg h1]
    split
    · exact (within_bounds N h).1
    · exact (within_bounds N h).2

/-! ## Exact arithmetic -/

variable {N} {v : Scalar → ℝ}

/-- Every rational value enters an exact NUM as it is. -/
theorem Num.IsExact.ofRat_eq (h : N.IsExact v) (q : ℚ) : N.ofRat q = .rat q := by rw [Num.ofRat, if_pos (h.holds q)]

theorem Num.IsExact.val_ofRat (h : N.IsExact v) (q : ℚ) : v (N.ofRat q) = q := by rw [h.ofRat_eq, h.rat]

/-- Two pairs of values that stand for one complex number are the same. -/
theorem Num.IsExact.toC_injective (h : N.IsExact v) {z w : Cplx} (e : z.toC v = w.toC v) : z = w := by
  have hr := h.injective (congrArg Complex.re e)
  have hi := h.injective (congrArg Complex.im e)
  cases z; cases w; exact congrArg₂ Cplx.mk hr hi

@[simp] theorem Num.IsExact.toC_zero (h : N.IsExact v) : Cplx.zero.toC v = 0 := by
  apply Complex.ext <;> simp [Cplx.toC, Cplx.zero, h.rat]

@[simp] theorem Num.IsExact.toC_one (h : N.IsExact v) : Cplx.one.toC v = 1 := by
  apply Complex.ext <;> simp [Cplx.toC, Cplx.one, h.rat]

@[simp] theorem Num.IsExact.toC_negOne (h : N.IsExact v) : Cplx.negOne.toC v = -1 := by
  apply Complex.ext <;> simp [Cplx.toC, Cplx.negOne, h.rat]

end Sys2Proof
end

