-- ==== Sys2Proof/Laws/PerInstr.lean ====
section
/-! SUPPORT. The family TableMatch: the word of every command has the fixed bits of its row of spec/opcode_table.json. -/

namespace Sys2Proof.Laws.TableMatch

/-- The row's mask. -/
def mask : Instr → Word
  | .nop _ => 0x000000FF
  | .allocDefault _ => 0x000000FF
  | .allocValidate _ => 0x000000FF
  | .txCreate _ => 0xFFFFFEFF
  | .txAssemble _ => 0x000000FF
  | .txWriteSymbol => 0xFFFFFFFF
  | .txDestroy => 0xFFFFFFFF
  | .rxCreate _ => 0xFFFFFEFF
  | .rxExecute _ => 0x000000FF
  | .rxAck => 0xFFFFFFFF
  | .rxDestroy => 0xFFFFFFFF

/-- The row's match. -/
def pattern : Instr → Word
  | .nop _ => 0x00000000
  | .allocDefault _ => 0x00000001
  | .allocValidate _ => 0x00000002
  | .txCreate _ => 0x00000010
  | .txAssemble _ => 0x00000011
  | .txWriteSymbol => 0x00000012
  | .txDestroy => 0x00000013
  | .rxCreate _ => 0x00000020
  | .rxExecute _ => 0x00000021
  | .rxAck => 0x00000022
  | .rxDestroy => 0x00000023

/-- The word of the command has its row's fixed bits. -/
def Statement (i : Instr) : Prop := encode i &&& mask i = pattern i

/-- OPC is the low byte of a command word (R150). -/
theorem commandWord_low (opc arg : Nat) : commandWord opc arg &&& 0xFF = BitVec.ofNat 32 opc &&& 0xFF := by
  apply BitVec.eq_of_getLsbD_eq
  intro k hk
  simp only [commandWord, BitVec.getLsbD_and, BitVec.getLsbD_or, BitVec.getLsbD_shiftLeft]
  by_cases h : k < 8
  · simp [h]
  · have : (0xFF : Word).getLsbD k = false := by interval_cases k <;> first | omega | rfl
    rw [this, Bool.and_false, Bool.and_false]

theorem nop (arg : Nat) : Statement (.nop arg) := commandWord_low 0x00 arg
theorem allocDefault (m : Nat) : Statement (.allocDefault m) := commandWord_low 0x01 m
theorem allocValidate (m : Nat) : Statement (.allocValidate m) := commandWord_low 0x02 m
theorem txCreate (d : Bool) : Statement (.txCreate d) := by cases d <;> rfl
theorem txAssemble (len : Nat) : Statement (.txAssemble len) := commandWord_low 0x11 len
theorem txWriteSymbol : Statement .txWriteSymbol := by rfl
theorem txDestroy : Statement .txDestroy := by rfl
theorem rxCreate (d : Bool) : Statement (.rxCreate d) := by cases d <;> rfl
theorem rxExecute (n : Nat) : Statement (.rxExecute n) := commandWord_low 0x21 n
theorem rxAck : Statement .rxAck := by rfl
theorem rxDestroy : Statement .rxDestroy := by rfl

end Sys2Proof.Laws.TableMatch
end

