-- ==== Sys2Proof/Tests/Slice0.lean ====
section
/-! SUPPORT. Tests on fixed values taken from spec/95_test_vectors.md (V-ENC, V-ALLOC, V-TRAIN, V-TX, V-NP, V-EST,
V-RESET-STATE, P1, P4, P5) or worked out by hand from a rule, and one witness for every statement that has hypotheses. -/

namespace Sys2Proof.Tests

open Sys2Proof.Machine

/-- The build with R5's defaults, that of `State.reset`. -/
abbrev build0 : Build := {}

/-- A build whose parameters are not the defaults. -/
abbrev build1 : Build := { mMax := 18, nBuf := 1, payloadMax := 6, modset := [(1, 1)] }

/-- A NUM that computes rational values exactly. -/
abbrev exampleNum : Sys2Proof.Num := default

/-- Collaborators with the properties of R20 to R25. -/
abbrev exampleExt : Ext exampleNum build0.modset := default

/-! ## WellFormed: one ill-formed term for each check -/

theorem test_wf_nop : (Instr.nop (2 ^ 24)).wellFormed = false := by decide
theorem test_wf_allocDefault : (Instr.allocDefault (2 ^ 24)).wellFormed = false := by decide
theorem test_wf_allocValidate : (Instr.allocValidate (2 ^ 24)).wellFormed = false := by decide
theorem test_wf_txAssemble : (Instr.txAssemble (2 ^ 24)).wellFormed = false := by decide
theorem test_wf_rxExecute : (Instr.rxExecute (2 ^ 24)).wellFormed = false := by decide

/-! ## Decode: the words of V-ENC, written out bit by bit as ARG then OPC (R150) -/

theorem test_decode_nop : decode 0b101010111100110111101111_00000000 = .ok (.nop 0xABCDEF) := by decide
theorem test_decode_allocDefault : decode 0b000000000000000000010000_00000001 = .ok (.allocDefault 16) := by decide
theorem test_decode_allocValidate : decode 0b000000000000000001000000_00000010 = .ok (.allocValidate 64) := by decide
theorem test_decode_txCreate : decode 0b000000000000000000000001_00010000 = .ok (.txCreate true) ∧
    decode 0b000000000000000000000000_00010000 = .ok (.txCreate false) := by decide
theorem test_decode_txAssemble : decode 0b000000000000000000000110_00010001 = .ok (.txAssemble 6) ∧
    decode 0b000000010000000000000000_00010001 = .ok (.txAssemble 65536) := by decide
theorem test_decode_txWriteSymbol : decode 0b000000000000000000000000_00010010 = .ok .txWriteSymbol := by decide
theorem test_decode_txDestroy : decode 0b000000000000000000000000_00010011 = .ok .txDestroy := by decide
theorem test_decode_rxCreate : decode 0b000000000000000000000001_00100000 = .ok (.rxCreate true) := by decide
theorem test_decode_rxExecute : decode 0b000000000000000001100100_00100001 = .ok (.rxExecute 100) ∧
    decode 0b000000010000000000000001_00100001 = .ok (.rxExecute 65537) := by decide
theorem test_decode_rxAck : decode 0b000000000000000000000000_00100010 = .ok .rxAck := by decide
theorem test_decode_rxDestroy : decode 0b000000000000000000000000_00100011 = .ok .rxDestroy := by decide
theorem test_decode_rejected : decode 0x00000005 = .error .reservedOpcode ∧ decode 0x00000030 = .error .reservedOpcode ∧
    decode 0x00000112 = .error .reservedArg ∧ decode 0x00000220 = .error .reservedArg ∧
    decode 0x80000023 = .error .reservedArg := by decide
theorem test_table_word : decodeTableWord 32 0x00FFFF11 = some (.txAssemble 65535) ∧
    decodeTableWord 32 0x00000112 = none := by decide
theorem test_mnemonic_rows : Laws.TableMatch.Statement (.rxExecute 100) := Laws.TableMatch.rxExecute 100

/-! ## Tables, bits and numbers -/

/-- V-ALLOC, the table for M = 16. -/
theorem test_default_16 : (initDefault 16).map roleCode = [0, 2, 2, 2, 1, 2, 0, 0, 0, 0, 0, 2, 1, 2, 2, 2] := by decide
/-- V-ALLOC, the table for M = 18. -/
theorem test_default_18 :
    (initDefault 18).map roleCode = [0, 2, 2, 2, 1, 2, 2, 0, 0, 0, 0, 0, 2, 2, 1, 2, 2, 2] := by decide
/-- V-ALLOC, the dimensions for M = 64. -/
theorem test_default_64 : (initDefault 64).count .data = 48 ∧ (initDefault 64).count .pilot = 6 ∧
    headerSymbols 48 = 5 := by decide +kernel
/-- V-TRAIN, the first bits of both sequences. -/
theorem test_pn : (pn seedS0 16).map Bool.toNat = [0, 1, 0, 0, 1, 1, 1, 1, 0, 1, 1, 1, 1, 0, 1, 1] ∧
    (pn seedS1 16).map Bool.toNat = [0, 1, 1, 0, 0, 1, 0, 0, 1, 1, 0, 1, 1, 1, 1, 1] := by decide
/-- V-TRAIN, S1 for M = 16. -/
theorem test_trainLong : (trainLong (initDefault 16)).map Cplx.re =
    ([0, 1, -1, -1, 1, 1, 0, 0, 0, 0, 0, -1, 1, 1, -1, -1] : List ℚ).map Scalar.rat := by decide +kernel
/-- V-NP, two rows: PBITS and NP. -/
theorem test_np : payloadBits 5 2 3 100 = 2184 ∧ payloadSymbols 48 2 2184 = 23 ∧
    payloadBits 0 0 0 0 = 0 ∧ payloadSymbols 48 1 0 = 1 := by decide +kernel
/-- V-TX, the header block of UH, length 6 and PROPS. -/
theorem test_header : headerBytes [0x48, 0x45, 0x4C, 0x4C, 0x4F, 0x21, 0x00, 0xFF] 6 (propsOf 0x00311003) =
    [0x48, 0x45, 0x4C, 0x4C, 0x4F, 0x21, 0x00, 0xFF, 0x00, 0x06, 0x11, 0x60, 0x00] := by decide
/-- R9 and R10 by hand: 0xA5, and five bits in groups of two. -/
theorem test_bits : bits [0xA5] = [true, false, true, false, false, true, false, true] ∧
    group 2 [true, false, true, true, true] = [2, 3, 2] := by decide
/-- V-TX and P3: exact binary32 words and their values. -/
theorem test_f32 : f32Value 0x3D000000 = 1 / 32 ∧ f32Round (1 / 32) = 0x3D000000 ∧
    f32Round (-3 / 32) = 0xBDC00000 ∧ f32Round 100 = 0x42C80000 := by decide +kernel
/-- R16 by hand: ties to even, the least subnormal, and overflow to the infinity. -/
theorem test_f32_edges : f32Round (1 + 1 / 2 ^ 24) = 0x3F800000 ∧ f32Round (1 + 3 / 2 ^ 24) = 0x3F800002 ∧
    f32Round (1 / 2 ^ 149) = 0x00000001 ∧ f32Round (-(2 ^ 128)) = 0xFF800000 ∧ f32Round 0 = 0 := by decide +kernel

/-! ## V-EST, in exact arithmetic -/

theorem test_interp :
    ([(1 / 5, 1, 1 / 5), (1 / 2, 1, 0), (1, 1, 1), (0, 1 / 10, 1)] : List (ℚ × ℚ × ℚ)).map
      (fun p => interp exampleNum (.rat p.1) (.rat p.2.1) (.rat p.2.2)) =
    ([0, -1 / 6, 0, -1 / 2] : List ℚ).map Scalar.rat := by decide +kernel
/-- V-EST interpolate, indices 1, 5, 11 and 15. -/
theorem test_interpolate :
    [1, 5, 11, 15].map (fun k => (interpolate exampleNum 16 [4, 12]
      (fun p => if p = 4 then Cplx.one else ⟨.rat 3, .rat 0⟩) k).re) = ([7 / 4, 1, 3, 9 / 4] : List ℚ).map Scalar.rat := by decide +kernel
/-- V-EST rssi and snr: the branches that need no logarithm. -/
theorem test_stat_zero : rssi build0 exampleNum 16 0 (List.replicate 16 Cplx.zero) = .rat (-100) := by decide +kernel

/-! ## Reset (V-RESET-STATE) and single steps -/

theorem test_reset_ids : readReg State.reset .id = 0x4F46444D ∧ readReg State.reset .cap2 = 0x00083208 ∧
    readReg State.reset .txStatus = 3 ∧ readReg State.reset .rxStatus = 0 := by decide

/-- The word RESP holds after an outcome that is a next state. -/
def respOf (o : Host.Outcome State Fault Refusal) : Option Word :=
  match o with
  | .next t => some t.resp
  | _ => none

/-- The reset state with the four RW registers written. -/
def configured (txCfg txProps rxCfg : Word) : State := { State.reset with txCfg := txCfg, txProps := txProps, rxCfg := rxCfg }

/-- ALLOC entries 0 on holding codes, after reset. -/
def withTable (c : List Role) : Memory := putAlloc build0 [] 0 c

/-- V-ALLOC: `ALLOC_DEFAULT 14`, and P1's entry 4 after `ALLOC_DEFAULT 16`. -/
theorem test_allocDefault : respOf (exec (.allocDefault 14) State.reset) = some 1 ∧
    memPeek build0 (putAlloc build0 [] 0 (initDefault 16)) 0x010010 = some 1 := by decide +kernel
theorem test_nop : respOf (exec (.nop 5) State.reset) = some 0 := by decide
/-- V-ALLOC: a default table, one with no pilot, one with code 3. -/
theorem test_allocValidate :
    respOf (exec (.allocValidate 16) { State.reset with mem := withTable (initDefault 16) }) = some 0 ∧
    respOf (exec (.allocValidate 16) { State.reset with mem := withTable (List.replicate 16 .data) }) = some 2 ∧
    respOf (exec (.allocValidate 16)
      { State.reset with mem := memPutWord build0 (withTable (initDefault 16)) 0x01001C 3 }) = some 2 := by decide +kernel
/-- P4: TX_PROPS = 0 is illegal; with PROPS it succeeds. -/
theorem test_txCreate : respOf (exec (.txCreate true) (configured 0x00100040 0 0)) = some 1 ∧
    respOf (exec (.txCreate true) (configured 0x00100040 0x00311003 0)) = some 0 := by decide +kernel
/-- P4: NOT_CREATED comes before PAYLOAD_TOO_LARGE. -/
theorem test_txAssemble : respOf (exec (.txAssemble 65536) State.reset) = some 5 ∧
    respOf (exec (.txAssemble 65536) { State.reset with tx := { TxUnit.reset with created := true } }) = some 3 := by
  decide
theorem test_txWriteSymbol : respOf (exec .txWriteSymbol State.reset) = some 5 := by decide
theorem test_txDestroy : respOf (exec .txDestroy State.reset) = some 5 := by decide
/-- P4: G > M. -/
theorem test_rxCreate : respOf (exec (.rxCreate true) (configured 0 0 0x00410040)) = some 1 := by decide
/-- P4: ARGUMENT_RANGE, and n = 0. -/
theorem test_rxExecute :
    respOf (exec (.rxExecute 65537) { State.reset with rx := { RxUnit.reset with created := true } }) = some 8 ∧
    respOf (exec (.rxExecute 0) { State.reset with rx := { RxUnit.reset with created := true } }) = some 0 := by decide
/-- P4: NOT_CREATED, then NO_EVENT. -/
theorem test_rxAck : respOf (exec .rxAck State.reset) = some 5 ∧
    respOf (exec .rxAck { State.reset with rx := { RxUnit.reset with created := true } }) = some 10 := by decide
/-- P3: RX_DESTROY while an event is pending. -/
theorem test_rxDestroy :
    respOf (exec .rxDestroy { State.reset with rx := { RxUnit.reset with created := true, evt := true } }) = some 7 := by
  decide
/-- V-ENC, bus level: reads at 0x0A0 and 0x101 and a write at 0x200 are bus errors. -/
theorem test_busError : step { State.reset with host := [.read 0x0A0 4] } = .fault .busError ∧
    step { State.reset with host := [.read 0x101 4] } = .fault .busError ∧
    step { State.reset with host := [.write 0x200 4 0] } = .fault .busError := ⟨rfl, rfl, rfl⟩
/-- P4: `wr CMD, 0x00000112` answers ILLEGAL_COMMAND. -/
theorem test_illegal : respOf (step { State.reset with host := [.write 0x010 4 0x00000112] }) = some 6 := by decide
/-- The word the host places is the command the next step performs. -/
theorem test_withFetchWord : respOf (step (State.reset.withFetchWord 32 0x00000E01)) = some 1 := by decide

/-! ## Witnesses: for every statement with hypotheses, values that meet them -/

/-- The reset state with the host's next access. -/
def queued (x : Access) : State := { State.reset with host := [x] }

/-- A created TX record for M = 16, G = 4, the default table, NP = 1, with `c` of its 31 symbols written. -/
def txU (c : Nat) : TxUnit :=
  { created := true, M := 16, G := 4, L := 20, alloc := initDefault 16, D := indicesOf .data (initDefault 16),
    PL := indicesOf .pilot (initDefault 16), ND := 8, NPL := 2, NH := 27, crc := 0, fi := 0, fo := 0, mm := 1, md := 1,
    state := if c < 3 then .writePreamble else if c < 30 then .writeHeader else if c < 31 then .writePayload else .done,
    symcnt := c, NP := 1, paylen := 0, hc := List.replicate 210 false, pu := [] }

/-- The state with that record and TX_PROPS. -/
def txS (c : Nat) : State := { State.reset with tx := txU c, txProps := 0x00311000 }

/-- A created RX record for M = 16, G = 4 and the default table, in SEEK_PREAMBLE. -/
def rxU : RxUnit :=
  { RxUnit.reset with
    created := true
    M := 16
    G := 4
    L := 20
    alloc := initDefault 16
    D := indicesOf .data (initDefault 16)
    PL := indicesOf .pilot (initDefault 16)
    ND := 8
    NPL := 2
    NH := 27
    s0t := List.replicate 20 Cplx.zero
    s1 := List.replicate 16 Cplx.zero
    hist := List.replicate 40 Cplx.zero
    sb := List.replicate 20 Cplx.zero
    H := List.replicate 16 Cplx.zero }

/-- The state with that record. -/
def rxS : State := { State.reset with rx := rxU }

/-- The state with that record and an event pending after `p` of `n` samples. -/
def evtS (p n : Nat) : State :=
  { State.reset with rx := { rxU with evt := true, state := .header, resFlags := 1, execN := n, pos := p } }

theorem txS_inv {c : Nat} (h : c = 0 ∨ c = 30 ∨ c = 31) : TxInv (txS c) := by
  have d : DimsOk build0 16 4 20 (initDefault 16) (indicesOf .data (initDefault 16)) (indicesOf .pilot (initDefault 16)) 8 2 27 := by
    unfold DimsOk; decide +kernel
  rcases h with rfl | rfl | rfl
  · exact ⟨fun h => (by cases h), fun _ => ⟨d, by decide, by decide, fun _ => ⟨rfl, by decide, by decide,
      List.length_replicate⟩⟩⟩
  · exact ⟨fun h => (by cases h), fun _ => ⟨d, by decide, by decide, fun _ => ⟨rfl, by decide, by decide,
      List.length_replicate⟩⟩⟩
  · exact ⟨fun h => (by cases h), fun _ => ⟨d, by decide, by decide, fun h => absurd rfl h⟩⟩

theorem reset_txInv {s : State} (h : s.tx = TxUnit.reset) : TxInv s :=
  ⟨fun _ => h, fun hc => by rw [h] at hc; cases hc⟩

theorem rising_nil : Rising ([] : Memory) := List.Pairwise.nil

/-- RX_SAMP with zeros written in its first `n` samples. -/
def zeros (n : Nat) : Memory := memPutBytes build0 [] 0x100000 (List.replicate (8 * n) 0)

theorem zeros_peek {n x : Nat} (h1 : 0x100000 ≤ x) (h2 : x < 0x100000 + 8 * n) :
    memPeek build0 (zeros n) x = some 0 := by
  rw [zeros, memPeek_memPutBytes rising_nil, if_pos (by simp; omega)]
  simp only [List.getD_eq_getElem?_getD, List.getElem?_replicate]
  split <;> simp

theorem zeros_wf (n : Nat) : (zeros n).wf build0 = true := memPutBytes_wf (by decide) _ _

theorem zeros_word {n x : Nat} (h1 : 0x100000 ≤ x) (h2 : x + 4 ≤ 0x100000 + 8 * n) (d : Nat) :
    memGetWord build0 (zeros n) d x = (0, d) :=
  memGetWord_of_peek (zeros_peek h1 (by omega)) (zeros_peek (by omega) (by omega)) (zeros_peek (by omega) (by omega))
    (zeros_peek (by omega) (by omega)) d

theorem zeros_sample {s : State} {n i : Nat} (hb : s.build = build0) (hm : s.mem = zeros n) (hi : i < n) :
    sampleWords s i = (0, 0, s.draws) := by
  unfold sampleWords
  rw [hb, hm, zeros_word (n := n) (by simp only [regionBase]; omega) (by simp only [regionBase]; omega)]
  simp only [zeros_word (n := n) (show 0x100000 ≤ regionBase .rxSamp + 8 * i + 4 by simp only [regionBase]; omega)
    (by simp only [regionBase]; omega)]

theorem zeros_ready {s : State} {n : Nat} (hb : s.build = build0) (hm : s.mem = zeros n) (p : Nat) : SamplesReady s p (n - p) := by
  intro i _ h2
  rw [zeros_sample hb hm (by omega)]
  exact ⟨show f32Finite 0 = true by decide, show f32Finite 0 = true by decide, rfl⟩

theorem test_witness_DecodeOfEncode : (Instr.nop (2 ^ 24 - 1)).wellFormed = true ∧ Instr.rxAck.wellFormed = true := by decide
theorem test_witness_EncodeOfDecode : decode 0xFFFFFF01 = .ok (.allocDefault (2 ^ 24 - 1)) := by decide
theorem test_witness_StepRunsCommand : (queued (.write cmdAddr 4 0xFFFFFF21)).host = [.write cmdAddr 4 0xFFFFFF21] ∧
    decode 0xFFFFFF21 = .ok (.rxExecute (2 ^ 24 - 1)) ∧ (Instr.txCreate true).wellFormed = true ∧
    (queued (.write cmdAddr 4 0x00000220)).host = [.write cmdAddr 4 0x00000220] ∧
    decode 0x00000220 = .error .reservedArg := by decide

theorem test_witness_BusErrorExactly : (queued (.read 0x0A0 4)).host = [.read 0x0A0 4] ∧
    step (queued (.read 0x0A0 4)) = .fault .busError := ⟨rfl, rfl⟩
theorem test_witness_ReadsChangeNothing :
    ((0x17FFFC : BitVec 21).toNat % 4 = 0 ∧ Mapped build0 (0x17FFFC : BitVec 21).toNat ∧
      (queued (.read 0x17FFFC 4)).host = [.read 0x17FFFC 4]) ∧
    ((0x000 : BitVec 21).toNat % 4 = 0 ∧ Mapped build0 (0x000 : BitVec 21).toNat ∧ (0x000 : BitVec 21).toNat < 0x100 ∧
      ({ queued .reset with host := [.read 0 4, .read 0 4] } : State).host = [.read 0 4, .read 0 4]) ∧
    ((0x050000 : BitVec 21).toNat % 4 = 0 ∧ Mapped build0 (0x050000 : BitVec 21).toNat ∧
      ∀ j < 4, memPeek build0 State.reset.mem ((0x050000 : BitVec 21).toNat + j) ≠ none) := by
  unfold Mapped; decide
theorem test_witness_IgnoredWrites :
    (0x09C : BitVec 21).toNat ∈ readOnlyOffsets ∧ (0x000 : BitVec 21).toNat ∈ readOnlyOffsets ∧
    (0x040000 ≤ (0x047FFC : BitVec 21).toNat ∧ (0x047FFC : BitVec 21).toNat < 0x048000) ∧
    (0x050000 ≤ (0x05FFFC : BitVec 21).toNat ∧ (0x05FFFC : BitVec 21).toNat < 0x060000) ∧
    (queued (.write 0x05FFFC 4 7)).host = [.write 0x05FFFC 4 7] := by decide
theorem test_witness_RegisterReads : (queued (.write 0x020 4 7)).host = [.write 0x020 4 7] ∧
    (queued (.write 0x024 4 7)).host = [.write 0x024 4 7] ∧ (queued (.write 0x040 4 7)).host = [.write 0x040 4 7] ∧
    (queued (.write 0x044 4 7)).host = [.write 0x044 4 7] ∧ (evtS 1 2).rx.resHdr.length = 8 ∧
    (busWord (evtS 1 2) 0x048).1 = 0x1B ∧ (busWord (txS 30) 0x028).1 = 6 := by decide
/-- In a build with a PAYLOAD_MAX of 6: the last TX_PAY word holds two bytes. -/
theorem test_payload_tail : ((0x030004 : BitVec 21).toNat < 0x030000 + build1.payloadMax ∧
      0x030000 + build1.payloadMax < (0x030004 : BitVec 21).toNat + 4) ∧
    BitVec.ofNat 32 (2 ^ (8 * (build1.payloadMax % 4)) - 1) = (0x0000FFFF : Word) ∧
    memGetWord build1 (memPutWord build1 [] 0x030004 0xAABBCCDD) 0 0x030004 = (0x0000CCDD, 0) := by decide +kernel
/-- Whether an offset is aligned and in a range. -/
def aligned (a : BitVec 21) (lo hi : Nat) : Bool := decide (a.toNat % 4 = 0 ∧ lo ≤ a.toNat ∧ a.toNat < hi)
theorem test_witness_BufferWritesReadBack : MemInv (queued (.write 0x03FFFC 4 7)) ∧
    (queued (.write 0x03FFFC 4 7)).host = [.write 0x03FFFC 4 7] ∧
    aligned 0x010000 0x010000 0x012000 = true ∧ aligned 0x011FFC 0x010000 0x012000 = true ∧
    aligned 0x020000 0x020000 0x020008 = true ∧ aligned 0x020004 0x020000 0x020008 = true ∧
    aligned 0x030000 0x030000 0x03FFFC = true ∧ aligned 0x03FFF8 0x030000 0x03FFFC = true ∧
    aligned 0x100000 0x100000 0x180000 = true ∧ aligned 0x17FFFC 0x100000 0x180000 = true := by
  unfold MemInv; decide
theorem test_witness_IdleAndHardwareReset : State.reset.host = [] ∧ (queued .reset).host = [.reset] := by decide

/-- A TX_WRITESYMBOL that answers OK with `samples_written`. -/
theorem test_witness_ResponseFields :
    ∃ t, exec .txWriteSymbol (txS 30) = .next t ∧ t.resp.extractLsb' 8 1 ≠ 0 ∧ t.resp.extractLsb' 16 16 ≠ 0 :=
  ⟨_, rfl, by decide +kernel, by decide +kernel⟩
theorem test_witness_ErrorsChangeNothing :
    ∃ t, exec .rxAck rxS = .next t ∧ t.resp.extractLsb' 0 8 ≠ 0x00 ∧ t.resp.extractLsb' 0 8 ≠ 0x09 :=
  ⟨_, rfl, by decide, by decide⟩
theorem test_witness_AllocDefaultWritesTable : MemInv State.reset ∧ (16 % 2 = 0 ∧ 16 ≤ 16 ∧ 16 ≤ 2048) ∧
    (2048 % 2 = 0 ∧ 16 ≤ 2048 ∧ 2048 ≤ 2048) := by unfold MemInv; decide


/-- A table of 16 codes held in ALLOC. -/
def tableS (c : List Byte) : State :=
  { State.reset with mem := memPutBytes build0 [] 0x010000 (c.flatMap fun b => [b, 0, 0, 0]), txCfg := 0x00040010,
                     rxCfg := 0x00040010, txProps := 0x00311000 }

theorem test_witness_AllocValidateAnswers :
    (let c : List Byte := [1, 2] ++ List.replicate 14 0; c.length = 16 ∧ TableIs (tableS c) c ∧ ValidTable c) ∧
    (let c : List Byte := List.replicate 15 2 ++ [3]; c.length = 16 ∧ TableIs (tableS c) c ∧ ¬ ValidTable c) ∧
    ¬ (14 % 2 = 0 ∧ 16 ≤ 14 ∧ 14 ≤ build0.mMax) ∧ ¬ (17 % 2 = 0 ∧ 16 ≤ 17 ∧ 17 ≤ build0.mMax) ∧
    ¬ (2050 % 2 = 0 ∧ 16 ≤ 2050 ∧ 2050 ≤ build0.mMax) ∧ (18 % 2 = 0 ∧ 16 ≤ 18 ∧ 18 ≤ build1.mMax) := by
  unfold TableIs ValidTable; decide +kernel
theorem test_witness_DefaultTable : (16 % 2 = 0 ∧ 16 ≤ 16 ∧ 16 ≤ 4096) ∧ (4096 % 2 = 0 ∧ 16 ≤ 4096 ∧ 4096 ≤ 4096) := by decide
/-- M and G of a configuration word as R58 and R65 place them, and whether R231's and R301's first check takes them. -/
def sizes (w : Word) : Nat × Nat := (w.toNat % 65536, w.toNat / 65536)
def legalSizes (b : Build) (w : Word) : Bool :=
  decide ((sizes w).1 % 2 = 0 ∧ 16 ≤ (sizes w).1 ∧ (sizes w).1 ≤ b.mMax ∧ (sizes w).2 ≤ (sizes w).1)

/-- The boundaries: G = M, M = 16 with G = 0, M = M_MAX; then M odd, 14, above M_MAX, and G = M + 1. -/
theorem test_sizes : sizes 0x00040010 = (16, 4) ∧ legalSizes build0 0x08000800 = true ∧ legalSizes build0 0x00000010 = true ∧
    legalSizes build0 0x00100010 = true ∧ legalSizes build0 0x00000011 = false ∧ legalSizes build0 0x0000000E = false ∧
    legalSizes build0 0x00000802 = false ∧ legalSizes build0 0x00110010 = false ∧ cfgM 0x00040010 = 16 ∧
    cfgG 0x00040010 = 4 := by decide
theorem test_witness_TxCreateCompletes :
    (let s := configured 0x08000800 0x00311003 0
     legalSizes s.build s.txCfg = true ∧ legalProps s.build (propsOf s.txProps) = true) ∧
    (let c : List Role := [.pilot, .data] ++ List.replicate 14 .null
     let s := tableS (c.map roleCode)
     legalSizes s.build s.txCfg = true ∧ legalProps s.build (propsOf s.txProps) = true ∧
       c.length = (sizes s.txCfg).1 ∧ TableIs s (c.map roleCode) ∧ Role.pilot ∈ c ∧ Role.data ∈ c) := by
  unfold TableIs; decide +kernel
theorem test_witness_TxCreateFailures :
    ((sizes 0x00000011).1 % 2 = 1 ∧ (sizes 0x0000000E).1 < 16 ∧ build0.mMax < (sizes 0x00000802).1 ∧
      (sizes 0x00110010).1 < (sizes 0x00110010).2) ∧ legalProps build0 (propsOf 0x00011003) = false ∧
    (let c : List Byte := List.replicate 16 1
     c.length = (sizes (tableS c).txCfg).1 ∧ TableIs (tableS c) c ∧ ¬ ValidTable c) := by
  unfold TableIs ValidTable; decide +kernel

/-- A created TX unit, with a user header and a payload in its buffers. -/
def frameS (uh pb : List Byte) : State :=
  { txS 31 with mem := memPutBytes build0 (memPutBytes build0 [] (regionBase .txHdr) uh) (regionBase .txPay) pb }

/-- Payloads up to PAYLOAD_MAX can stand in TX_PAY. -/
theorem test_witness_TxAssembleCompletes (uh pb : List Byte) (hu : uh.length = 8) (hp : pb.length ≤ 65535) :
    (frameS uh pb).tx.created = true ∧ legalProps build0 (propsOf (frameS uh pb).txProps) = true ∧
    BytesAt build0 (frameS uh pb).mem (regionBase .txHdr) uh ∧ BytesAt build0 (frameS uh pb).mem (regionBase .txPay) pb := by
  refine ⟨rfl, show legalProps build0 (propsOf 0x00311000) = true by decide, fun k hk => ?_, fun k hk => ?_⟩
  · have hm : storeMask build0 (regionBase .txHdr + k) = 0xFF :=
      storeMask_txHdr (by rw [inRegion_iff]; simp only [regionBase, regionSize]; omega)
    show memPeek build0 (memPutBytes build0 _ _ _) _ = _
    rw [memPeek_memPutBytes (memPutBytes_rising rising_nil _ _), if_neg (by simp only [regionBase]; omega),
      memPeek_memPutBytes rising_nil, if_pos (by omega), hm, Nat.add_sub_cancel_left]
    simp only [show (0xFF : Byte) = BitVec.allOnes 8 from rfl, BitVec.and_allOnes]
  · have hm : storeMask build0 (regionBase .txPay + k) = 0xFF := by
      rw [storeMask_txPay (by rw [inRegion_iff]; simp only [regionBase, regionSize, ceilDiv]; omega),
        if_pos (by simp only [regionBase]; omega)]
    show memPeek build0 (memPutBytes build0 _ _ _) _ = _
    rw [memPeek_memPutBytes (memPutBytes_rising rising_nil _ _), if_pos (by omega), hm, Nat.add_sub_cancel_left]
    simp only [show (0xFF : Byte) = BitVec.allOnes 8 from rfl, BitVec.and_allOnes]

theorem test_witness_TxAssembleBoundary : (List.replicate 8 (0x5A : Byte)).length = 8 ∧
    (List.replicate 65535 (1 : Byte)).length = 65535 ∧ ([] : List Byte).length = 0 :=
  ⟨List.length_replicate, List.length_replicate, rfl⟩

theorem test_witness_TxWriteSymbolCompletes :
    (MemInv (txS 0) ∧ TxInv (txS 0) ∧ (txS 0).tx.created = true ∧ (txS 0).tx.state ≠ .done) ∧
    (MemInv (txS 30) ∧ TxInv (txS 30) ∧ (txS 30).tx.created = true ∧ (txS 30).tx.state ≠ .done) := by
  exact ⟨⟨by unfold MemInv; decide, txS_inv (by decide), rfl, by decide⟩,
    ⟨by unfold MemInv; decide, txS_inv (by decide), rfl, by decide⟩⟩

theorem test_witness_TxCommandFailures : State.reset.tx.created = false ∧ (txS 31).tx.created = true ∧ 65535 < 65536 ∧
    (txS 31).tx.state = .done ∧
    legalProps build0 (propsOf (({ txS 31 with txProps := 0x00011003 } : State)).txProps) = false := by decide
theorem leaves_read (a : BitVec 21) (n : Nat) : LeavesFrame (.read a n) := ⟨nofun, nofun⟩
theorem leaves_write {a : BitVec 21} {n : Nat} {v : Word} (h : a = cmdAddr → v = 0x00000012 ∨ v = 0) :
    LeavesFrame (.write a n v) := by
  refine ⟨nofun, ?_⟩
  rintro _ _ i ⟨⟩ hd
  rcases h rfl with rfl | rfl
  · rw [show decode 0x00000012 = .ok .txWriteSymbol by decide] at hd; cases hd; exact ⟨nofun, nofun, nofun⟩
  · rw [show decode 0x00000000 = .ok (.nop 0) by decide] at hd; cases hd; exact ⟨nofun, nofun, nofun⟩
theorem symbolAnswers_next {n : Nat} {s t : State} (h : step s = .next t) (hr : ∃ r, symbolAnswers n t = some r) :
    ∃ r, symbolAnswers (n + 1) s = some r := by
  obtain ⟨r, hr⟩ := hr
  simp only [symbolAnswers, h, hr, Option.map_some]
  exact ⟨_, rfl⟩
/-- A created TX unit, and a host that reads, writes and issues a NOP between two TX_WRITESYMBOLs. -/
def busyS : State := { txS 31 with host := [.read 0 4, .write cmdAddr 4 0x12, .write 0x020 4 7, .write cmdAddr 4 0,
  .write cmdAddr 4 0x12] }
theorem test_witness_SymbolAccounting :
    ∃ s ws t, TxInv busyS ∧ exec (.txAssemble 0) busyS = .next s ∧ s.resp = 0x00000000 ∧
      (∀ x ∈ s.host.take 5, LeavesFrame x) ∧ symbolAnswers 5 s = some (ws, t) := by
  obtain ⟨⟨ws, t⟩, hr⟩ : ∃ r, symbolAnswers 5 (txAssemble 0 busyS) = some r :=
    symbolAnswers_next rfl <| symbolAnswers_next rfl <| symbolAnswers_next rfl <| symbolAnswers_next rfl <|
      symbolAnswers_next rfl ⟨_, rfl⟩
  refine ⟨txAssemble 0 busyS, ws, t, txS_inv (c := 31) (by decide), rfl, by decide +kernel, ?_, hr⟩
  have e : (txAssemble 0 busyS).host.take 5 = busyS.host := rfl
  rw [e]
  simp only [busyS, List.forall_mem_cons]
  exact ⟨leaves_read _ _, leaves_write (by decide), leaves_write (by decide), leaves_write (by decide),
    leaves_write (by decide), fun _ h => nomatch h⟩
theorem test_witness_SymbolVectors : (txU 0).D = indicesOf .data (txU 0).alloc ∧ (txU 0).ND = (txU 0).D.length ∧
    (3 ≤ 3 ∧ 3 < 3 + (txU 0).NH) ∧ (3 + (txU 0).NH ≤ 30) ∧ (txU 0).alloc.getD 0 .null = .null ∧
    (txU 0).alloc.getD 4 .null = .pilot := by decide
theorem test_witness_TrainingVectors : (∃ st : Nat → BitVec 15, st 0 = 0x1D6B ∧
    ∀ i, st (i + 1) = (st i <<< 1) ||| (((st i >>> 14) ^^^ (st i >>> 13)) &&& 1)) ∧ 15 < (initDefault 16).length ∧ (initDefault 16).getD 15 .null ≠ .null ∧
    0 < (initDefault 16).length ∧ (initDefault 16).getD 0 .null = .null :=
  ⟨⟨fun i => Nat.rec 0x1D6B (fun _ u => (u <<< 1) ||| (((u >>> 14) ^^^ (u >>> 13)) &&& 1)) i, rfl, fun _ => rfl⟩, by decide⟩
theorem test_witness_CyclicPrefix : 0 ≤ [Cplx.one].length ∧ 1 ≤ [Cplx.one].length := by decide
theorem test_witness_TransformsInverse : ∃ (N : Sys2Proof.Num) (v : Scalar → ℝ), N.IsExact v ∧
    0 < [Cplx.one, Cplx.negOne].length ∧ 1 < [Cplx.one, Cplx.negOne].length :=
  ⟨Num.exact, exactValue, Num.exact_isExact, by decide, by decide⟩

theorem test_witness_RxCreateCompletes :
    (let s := configured 0 0 0x00100010
     s.rx.evt = false ∧ legalSizes s.build s.rxCfg = true) ∧
    (let c : List Role := [.pilot, .data] ++ List.replicate 14 .null
     let s := tableS (c.map roleCode)
     s.rx.evt = false ∧ legalSizes s.build s.rxCfg = true ∧ c.length = (sizes s.rxCfg).1 ∧
       TableIs s (c.map roleCode) ∧ Role.pilot ∈ c ∧ Role.data ∈ c) := by
  unfold TableIs; decide +kernel

/-- A created RX unit with one sample in RX_SAMP. -/
def oneS (re im : Word) : State := { rxS with mem := memPutWord build0 (memPutWord build0 [] 0x100000 re) 0x100004 im }

theorem test_witness_RxCommandFailures :
    State.reset.rx.evt = false ∧ (sizes State.reset.rxCfg).1 < 16 ∧
    (let s := configured 0 0 0x00110010; s.rx.evt = false ∧ (sizes s.rxCfg).1 < (sizes s.rxCfg).2) ∧
    State.reset.rx.created = false ∧ rxS.rx.created = true ∧ rxS.rx.evt = false ∧ 65536 < 65537 ∧
    (let c : List Byte := List.replicate 16 2
     c.length = (sizes (tableS c).rxCfg).1 ∧ TableIs (tableS c) c ∧ ¬ ValidTable c) ∧
    f32Finite (sampleWords (oneS 0x7F800000 0) 0).1 = false ∧
    f32Finite (sampleWords (oneS 0 0xFFC00000) 0).2.1 = false := by
  unfold TableIs ValidTable; decide +kernel

/-- RX_SAMP with a zero sample before one with an infinity. -/
def lateMem : Memory := memPutWord build0 (zeros 2) 0x10000C 0x7F800000

/-- The refusal's clauses: RX_EXECUTE at sample 1 of 2, and RX_ACK at the first and at the second of two remaining samples. -/
theorem test_witness_RxCommandFailures_late :
    (let s : State := { rxS with mem := lateMem }
     ∃ t, s.rx.created = true ∧ s.rx.evt = false ∧ 2 ≤ s.build.nBuf ∧ 1 < 2 ∧ exec (.rxExecute 1) s = .next t ∧
       t.rx.evt = false ∧ f32Finite (sampleWords t 1).2.1 = false) ∧
    (let s : State := { evtS 0 2 with mem := lateMem }
     ∃ t, s.rx.created = true ∧ s.rx.evt = true ∧ s.rx.pos + 1 < s.rx.execN ∧
       exec .rxAck (s.setRx { s.rx with execN := s.rx.pos + 1 }) = .next t ∧ t.rx.evt = false ∧
       f32Finite (sampleWords t (s.rx.pos + 1)).2.1 = false) ∧
    (let s : State := { evtS 1 2 with mem := lateMem }
     ∃ t, s.rx.created = true ∧ s.rx.evt = true ∧ s.rx.pos + 0 < s.rx.execN ∧
       exec .rxAck (s.setRx { s.rx with execN := s.rx.pos + 0 }) = .next t ∧ t.rx.evt = false ∧
       f32Finite (sampleWords t (s.rx.pos + 0)).2.1 = false) :=
  ⟨⟨_, rfl, rfl, by decide, by decide, rfl, rfl, by decide +kernel⟩,
    ⟨_, rfl, rfl, by decide, rfl, rfl, by decide +kernel⟩, ⟨_, rfl, rfl, by decide, rfl, rfl, by decide +kernel⟩⟩
theorem test_witness_ReentrantCommands : (evtS 1 2).rx.created = true ∧ (evtS 1 2).rx.evt = true := ⟨rfl, rfl⟩
theorem test_witness_ExecuteNothing : rxS.rx.created = true ∧ rxS.rx.evt = false := ⟨rfl, rfl⟩
/-- Over any number of samples that RX_SAMP holds. -/
theorem test_witness_RxExecuteCompletes (n : Nat) :
    let s : State := { rxS with mem := zeros n }
    MemInv s ∧ s.rx.plLen ≤ s.build.payloadMax ∧ s.rx.created = true ∧ s.rx.evt = false ∧ SamplesReady s 0 n :=
  ⟨zeros_wf n, Nat.zero_le _, rfl, rfl, zeros_ready rfl rfl 0⟩
/-- After the last sample, and before it. -/
theorem test_witness_RxAckCompletes (p : Nat) (h : p ≤ 2) :
    let s : State := { evtS p 2 with mem := zeros 2 }
    MemInv s ∧ s.rx.created = true ∧ s.rx.evt = true ∧ s.rx.pos ≤ s.rx.execN ∧ s.rx.execN ≤ 65536 ∧
      SamplesReady s s.rx.pos (s.rx.execN - s.rx.pos) :=
  ⟨zeros_wf 2, rfl, rfl, h, show 2 ≤ 65536 by decide, zeros_ready rfl rfl p⟩
theorem test_witness_DestroyCompletes : (txS 0).tx.created = true ∧ rxS.rx.created = true ∧ rxS.rx.evt = false := ⟨rfl, rfl, rfl⟩

/-- Two samples with different values, and the second one moved to the front. -/
def twoMem : Memory := [(0x100000, 1), (0x100001, 0), (0x100002, 0), (0x100003, 0), (0x100004, 0), (0x100005, 0),
  (0x100006, 0), (0x100007, 0), (0x100008, 2), (0x100009, 0), (0x10000A, 0), (0x10000B, 0), (0x10000C, 0), (0x10000D, 0),
  (0x10000E, 0), (0x10000F, 0)]
def nextMem : Memory := [(0x100000, 2), (0x100001, 0), (0x100002, 0), (0x100003, 0), (0x100004, 0), (0x100005, 0),
  (0x100006, 0), (0x100007, 0)]

theorem test_witness_ChunkingInvariance :
    let s : State := { rxS with mem := twoMem }
    ∃ t, MemInv s ∧ nextMem.wf build0 = true ∧ s.rx.plLen ≤ s.build.payloadMax ∧ s.rx.created = true ∧ s.rx.evt = false ∧
      SamplesReady s 0 (1 + 1) ∧ exec (.rxExecute 1) s = .next t ∧ t.rx.evt = false ∧
      (∀ i < 1, sampleWords (t.setMem nextMem) i = sampleWords s (1 + i)) ∧
      (∀ x, inRegion build0 .resPay x = true → memPeek build0 nextMem x = memPeek build0 t.mem x) := by
  refine ⟨_, ?_, ?_, Nat.zero_le _, rfl, rfl, ?_, rfl, rfl, ?_, ?_⟩
  · unfold MemInv; decide +kernel
  · decide +kernel
  · intro i _ h
    have : i = 0 ∨ i = 1 := by omega
    rcases this with rfl | rfl <;> exact ⟨by decide +kernel, by decide +kernel, by decide +kernel⟩
  · intro i hi
    have : i = 0 := by omega
    subst this; rfl
  · intro x hx
    rw [inRegion_iff] at hx
    have h1 : 0x050000 ≤ x := hx.1
    have h2 : x < 0x060000 := hx.2
    show memPeek build0 nextMem x = memPeek build0 twoMem x
    have e : ∀ k : Nat, 0x100000 ≤ k → ¬ k = x := by intro k hk; omega
    simp [memPeek, memFind, nextMem, twoMem, e]

/-- A record one sample before the end of a symbol in a state. -/
def lastU (st : RxState) (sym : Nat) (cb : Bits) : RxUnit := { rxU with state := st, sbn := 19, sym := sym, cbits := cb, NP := 1 }

/-- Every state, at the end of a symbol and before it, with a header that decodes valid and one that does not. -/
theorem test_witness_StateMachine :
    (rxU.evt = false ∧ rxU.state = .seekPreamble) ∧
    ((lastU .trainingShort 0 []).evt = false ∧ (lastU .trainingShort 0 []).state = .trainingShort) ∧
    ((lastU .trainingLong 0 []).sbn + 1 = (lastU .trainingLong 0 []).L) ∧
    (let good := pad 210 (bits (headerBytes (List.replicate 8 0) 0 (propsOf 0x00311000)))
     let bad : Bits := List.replicate 210 false
     let cbits := fun cb => headerBits exampleExt { collect exampleNum Cplx.zero (lastU .header 26 cb) with sbn := 0 } []
     (lastU .header 26 good).sbn + 1 = (lastU .header 26 good).L ∧
       (lastU .header 26 good).sym + 1 = (lastU .header 26 good).NH ∧
       (headerDecode build0 exampleExt (cbits good)).1 = true ∧ (headerDecode build0 exampleExt (cbits bad)).1 = false) ∧
    ((lastU .payload 0 []).sbn + 1 = (lastU .payload 0 []).L ∧ (lastU .payload 0 []).sym + 1 = (lastU .payload 0 []).NP) := by
  decide +kernel
theorem test_witness_PostedEvent : MemInv rxS ∧ ([] : List Byte).length ≤ 65535 ∧
    (List.replicate 65535 (1 : Byte)).length ≤ 65535 := by
  exact ⟨by unfold MemInv; decide, by decide, by rw [List.length_replicate]⟩
/-- Over any number of zeros that RX_SAMP holds. -/
theorem test_witness_SilenceFindsNothing (n : Nat) :
    let s : State := { rxS with mem := zeros n }
    s.rx.created = true ∧ s.rx.evt = false ∧ s.rx.state = .seekPreamble ∧ (∀ z ∈ s.rx.hist, z = Cplx.zero) ∧
      ∀ i < n, sampleWords s i = (0, 0, s.draws) :=
  ⟨rfl, rfl, rfl, fun _ hz => List.eq_of_mem_replicate hz, fun _ hi => zeros_sample rfl rfl hi⟩

/-- A synchronizer for exact arithmetic, made for M = 16, G = 4 and the default table and never fed. -/
noncomputable def idealS : State :=
  { State.reset with rx := resetRecord (rxCreated Num.exact 7 RxUnit.reset (initDefault 16).length 4 (initDefault 16)) }

/-- A generator linked to it, with a payload of two bytes assembled. -/
noncomputable def idealTx (X : Ext Num.exact build0.modset) : TxUnit :=
  txAssembled X (txCreated TxUnit.reset (initDefault 16).length 4 (initDefault 16) (propsOf 0x00311000)) (propsOf 0x00311000)
    (List.replicate 8 0xA5) [1, 2] 2

/-- The two are linked, and the samples before the last of the first short symbol detect nothing. -/
theorem ideal_linked (X : Ext Num.exact build0.modset) :
    Linked build0 X (initDefault 16) (propsOf 0x00311000) (List.replicate 8 0xA5) [1, 2] (idealTx X) idealS ∧
    (feed Num.exact X ((List.replicate 0 Cplx.zero ++ frameSamples Num.exact X (idealTx X)).take (0 + (idealTx X).L - 1))
      idealS).rx.state = .seekPreamble := by
  refine ⟨⟨rfl, by unfold MemInv; decide, by norm_num,
    show legalMG build0 (initDefault 16).length 4 = true by decide, by decide, by decide, by decide, rfl, by decide,
    ⟨_, _, rfl⟩, ⟨_, _, rfl⟩⟩, feed_seeking _ _ _ _ rfl ?_⟩
  rw [List.length_take]
  show 0 + min 19 _ < 20
  omega

theorem test_witness_NoiselessAlignment : ∃ (N : Sys2Proof.Num) (v : Scalar → ℝ) (X : Ext N build0.modset) (u : TxUnit)
    (s : State), N.IsExact v ∧
    Linked build0 X (initDefault 16) (propsOf 0x00311000) (List.replicate 8 0xA5) [1, 2] u s ∧
    (feed N X ((List.replicate 0 Cplx.zero ++ frameSamples N X u).take (0 + u.L - 1)) s).rx.state = .seekPreamble ∧
    0 < (initDefault 16).length :=
  ⟨Num.exact, exactValue, default, _, _, Num.exact_isExact, (ideal_linked default).1, (ideal_linked default).2, by decide⟩
theorem test_witness_NoiselessRoundTrip : ∃ (N : Sys2Proof.Num) (v : Scalar → ℝ) (X : Ext N build0.modset) (u : TxUnit)
    (s : State), N.IsExact v ∧
    Linked build0 X (initDefault 16) (propsOf 0x00311000) (List.replicate 8 0xA5) [1, 2] u s ∧
    (feed N X ((List.replicate 0 Cplx.zero ++ frameSamples N X u).take (0 + u.L - 1)) s).rx.state = .seekPreamble :=
  ⟨Num.exact, exactValue, default, _, _, Num.exact_isExact, ideal_linked default⟩

/-- Exact arithmetic is a NUM, and in it a training symbol has energy. -/
theorem test_witness_CorrelationBounds : ∃ (N : Sys2Proof.Num) (v : Scalar → ℝ), N.IsExact v ∧
    [Cplx.one].length = [Cplx.negOne].length ∧ (⟨.rat 0, .rat 1⟩ : Cplx) ≠ Cplx.zero ∧
    0 < v (N.sum ([Cplx.one].map N.normSq)) := by
  refine ⟨Num.exact, exactValue, Num.exact_isExact, rfl, by decide, ?_⟩
  rw [Num.exact_isExact.sum, List.map_map, List.map_singleton, List.sum_singleton, Function.comp_apply,
    Num.exact_isExact.normSq, Complex.normSq_pos]
  exact fun h => by simpa [Cplx.toC, Cplx.one, exactValue] using congrArg Complex.re h
/-- Between two pilots, below the first and above the last. -/
theorem test_witness_InterpolatedGain : (∀ p ∈ [4, 12], p < 16) ∧ pilotBelow 16 [4, 12] 1 = some 12 ∧
    pilotAbove 16 [4, 12] 1 = some 4 ∧ pilotBelow 16 [4, 12] 11 = none ∧ pilotAbove 16 [4, 12] 5 = none := by decide
theorem test_witness_BitsAndBytes : (List.replicate 8 true).length % 8 = 0 ∧ 1 < [(1 : Byte), 2].length ∧ 7 < 8 := by decide
theorem test_witness_GroupAndUngroup : 1 ≤ 1 ∧ 1 ≤ 6 := by decide
theorem test_witness_HeaderRoundTrip : (List.replicate 8 (0xFF : Byte)).length = 8 ∧ 65535 ≤ 65535 ∧
    legalProps build0 (propsOf 0x00362335) = true := by decide
theorem test_witness_PayloadRoundTrip : legalProps build0 (propsOf 0x00362335) = true := by decide
theorem test_witness_LengthAgreement : (List.replicate 8 (0 : Byte)).length = 8 ∧ ([] : List Byte).length ≤ 65535 ∧
    legalProps build0 (propsOf 0x00311003) = true ∧ rxU.ND = (txU 0).ND ∧ 1 ≤ (txU 0).ND := by decide
/-- The largest finite value and the value halfway to the next one, which rounds to the infinity. -/
theorem test_witness_RoundToNearest : |((2 : ℚ) ^ 128 - 2 ^ 104)| < 2 ^ 128 - 2 ^ 103 ∧
    (2 : ℚ) ^ 128 - 2 ^ 103 ≤ |(2 : ℚ) ^ 128 - 2 ^ 103| ∧ f32Round (2 ^ 128 - 2 ^ 104) = 0x7F7FFFFF ∧
    f32Round (2 ^ 128 - 2 ^ 103) = 0x7F800000 ∧ f32Finite 0x7F7FFFFF = true ∧ f32Finite 0x80000000 = true := by
  refine ⟨?_, ?_, ?_⟩
  · norm_num
  · norm_num
  · decide +kernel

/-- A step that changes the memory, and one that writes TX_PROPS. -/
theorem test_witness_MemoryStaysCanonical :
    (∃ t, MemInv (queued (.write 0x010004 4 2)) ∧ step (queued (.write 0x010004 4 2)) = .next t) ∧
    (∃ t, PropsInv (queued (.write 0x024 4 0xFFFFFFFF)) ∧ step (queued (.write 0x024 4 0xFFFFFFFF)) = .next t) :=
  ⟨⟨_, by unfold MemInv; decide, rfl⟩, ⟨_, by unfold PropsInv; decide, rfl⟩⟩
/-- The step that writes a frame's last symbol. -/
theorem test_witness_TxRecordStaysConsistent :
    ∃ t, TxInv ((txS 30).withFetchWord 32 0x12) ∧ step ((txS 30).withFetchWord 32 0x12) = .next t := by
  exact ⟨_, txS_inv (c := 30) (by decide), rfl⟩
/-- The steps that return from an event, and one that consumes a sample. -/
theorem test_witness_RxRecordStaysConsistent :
    (∃ t, RxShapeInv ((evtS 2 2).withFetchWord 32 0x22) ∧ step ((evtS 2 2).withFetchWord 32 0x22) = .next t) ∧
    (∃ t, RxShapeInv ((oneS 0 0).withFetchWord 32 0x121) ∧ step ((oneS 0 0).withFetchWord 32 0x121) = .next t) := by
  refine ⟨⟨_, ?_, rfl⟩, ⟨_, ?_, rfl⟩⟩ <;> unfold RxShapeInv DimsOk <;> decide +kernel
theorem test_witness_EventStaysConsistent :
    ∃ t, MemInv ((evtS 2 2).withFetchWord 32 0x22) ∧ TxInv ((evtS 2 2).withFetchWord 32 0x22) ∧
      EventInv ((evtS 2 2).withFetchWord 32 0x22) ∧ step ((evtS 2 2).withFetchWord 32 0x22) = .next t := by
  refine ⟨_, ?_, ?_, ⟨fun _ => ⟨rfl, .inl rfl⟩, by decide, by decide, fun h => by cases h⟩, rfl⟩
  · unfold MemInv; decide
  · exact reset_txInv rfl
theorem test_witness_EstimatesStayInRange :
    ∃ t, RangeInv ((evtS 2 2).withFetchWord 32 0x22) ∧ step ((evtS 2 2).withFetchWord 32 0x22) = .next t :=
  ⟨_, ⟨Config.num.zero_range, Config.num.zero_range, within_zero _ (by norm_num) (by norm_num),
    within_zero _ (by decide +kernel) (by decide +kernel), within_zero _ (by decide +kernel) (by decide +kernel), rfl, rfl⟩, rfl⟩
theorem test_witness_CollectedBitsStayCounted :
    ∃ t, CountInv ((oneS 0 0).withFetchWord 32 0x121) ∧ step ((oneS 0 0).withFetchWord 32 0x121) = .next t := by
  refine ⟨_, ?_, rfl⟩
  unfold CountInv; decide +kernel

theorem test_witness_UnitsShareNoState : (∃ t, exec (.allocDefault 16) State.reset = .next t) ∧
    (∃ t, exec .txWriteSymbol (txS 0) = .next t) ∧ (∃ t, exec (.rxExecute 1) (oneS 0 0) = .next t) :=
  ⟨⟨_, rfl⟩, ⟨_, rfl⟩, ⟨_, rfl⟩⟩
theorem txWrite_mem {s : State} (hc : s.tx.created = true) (hs : s.tx.state ≠ .done) : (txWriteSymbol s).mem =
    memPutBytes s.build s.mem (regionBase .txSym) ((txSymbol Config.num (Config.ext s.build.modset) s.tx).flatMap
      (sampleBytes Config.num)) := by
  unfold txWriteSymbol
  rw [if_neg (by rw [hc]; decide), if_neg hs]
  rfl

/-- One command for each of the three cases, with a byte that changes. -/
theorem test_witness_BuffersWrittenBy :
    (∃ t, MemInv State.reset ∧ TxInv State.reset ∧ State.reset.rx.plLen ≤ State.reset.build.payloadMax ∧
      exec (.allocDefault 16) State.reset = .next t ∧ inRegion build0 .alloc 0x010010 = true ∧
      memPeek build0 t.mem 0x010010 ≠ memPeek build0 State.reset.mem 0x010010) ∧
    (∃ t, MemInv (txS 0) ∧ TxInv (txS 0) ∧ (txS 0).rx.plLen ≤ (txS 0).build.payloadMax ∧
      exec .txWriteSymbol (txS 0) = .next t ∧ inRegion build0 .txSym 0x040000 = true ∧
      memPeek build0 t.mem 0x040000 ≠ memPeek build0 (txS 0).mem 0x040000) ∧
    (let s : State := { rxS with mem := [(0x050000, 1)] }
     ∃ t, MemInv s ∧ TxInv s ∧ s.rx.plLen ≤ s.build.payloadMax ∧
      exec .rxDestroy s = .next t ∧ inRegion build0 .resPay 0x050000 = true ∧
      memPeek build0 t.mem 0x050000 ≠ memPeek build0 s.mem 0x050000) := by
  refine ⟨⟨_, ?_, ?_, ?_, rfl, ?_, ?_⟩, ⟨txWriteSymbol (txS 0), ?_, ?_, Nat.zero_le _, rfl, ?_, ?_⟩,
    ⟨_, ?_, ?_, Nat.zero_le _, rfl, ?_, ?_⟩⟩
  · unfold MemInv; decide
  · exact reset_txInv rfl
  · decide
  · decide
  · decide +kernel
  · unfold MemInv; decide
  · exact txS_inv (by decide)
  · decide
  · have e : memPeek build0 (txS 0).mem 0x040000 = none := by decide
    rw [e]
    have hl : 0 < (txSymbol Config.num (Config.ext build0.modset) (txU 0)).length := by
      have h1 : (symbolVector (Config.ext build0.modset) (txU 0) 0).length = 16 := symbolVector_length _ _ _
      have h2 : (txU 0).G ≤ (symbolVector (Config.ext build0.modset) (txU 0) 0).length := by rw [h1]; decide
      show 0 < ((ofdm Config.num (txU 0).G (symbolVector (Config.ext build0.modset) (txU 0) 0)).take 20).length
      rw [List.length_take, ofdm_length _ h2, h1]
      exact Nat.lt_min.2 ⟨by decide, Nat.lt_add_right _ (by decide)⟩
    rw [txWrite_mem rfl (by decide), show (txS 0).build = build0 from rfl, show (txS 0).mem = [] from rfl,
      show (txS 0).tx = txU 0 from rfl,
      memPeek_memPutBytes rising_nil, if_pos ⟨le_refl _, by
      rw [sampleBytes_length]; exact Nat.lt_add_of_pos_right (Nat.mul_pos (by decide) hl)⟩]
    exact Option.some_ne_none _
  · unfold MemInv; decide
  · exact reset_txInv rfl
  · decide
  · decide
theorem test_witness_InstanceConstants : ∃ t, exec .rxAck (evtS 2 2) = .next t := ⟨_, rfl⟩

end Sys2Proof.Tests
end

section
/-! Bits, bytes and symbol indices (R8 to R11): O45 and O46. -/

namespace Sys2Proof.Machine

/-! ### The least quotient and the zero padding -/

/-- `ceilDiv` is the least `q` of R11. -/
theorem ceilDiv_le_iff {a d q : Nat} (hd : 1 ≤ d) : ceilDiv a d ≤ q ↔ a ≤ q * d := by
  rw [ceilDiv, Nat.div_le_iff_le_mul_add_pred hd, Nat.mul_comm d q]
  omega

theorem le_ceilDiv_mul {a d : Nat} (hd : 1 ≤ d) : a ≤ ceilDiv a d * d := (ceilDiv_le_iff hd).1 le_rfl

theorem pad_length {n : Nat} {b : Bits} (h : b.length ≤ n) : (pad n b).length = n := by
  simp only [pad, List.length_append, List.length_replicate]; omega

theorem pad_getD (n : Nat) (b : Bits) (i : Nat) : (pad n b).getD i false = b.getD i false := by
  rcases Nat.lt_or_ge i b.length with h | h
  · rw [pad, List.getD_append _ _ _ _ h]
  · rw [pad, List.getD_append_right _ _ _ _ h, List.getD_eq_default _ _ h, List.getD_eq_getElem?_getD,
      List.getElem?_getD_replicate_default_eq]

theorem pad_take (n : Nat) (b : Bits) : (pad n b).take b.length = b := List.take_left

/-! ### A bit string as a number -/

/-- The last bit of a string is the least significant (R10). -/
theorem bitsToNat_concat (b : Bits) (x : Bool) : bitsToNat (b ++ [x]) = 2 * bitsToNat b + x.toNat := by
  simp [bitsToNat]

theorem natToBits_succ (d u : Nat) : natToBits (d + 1) u = natToBits d (u / 2) ++ [u.testBit 0] := by
  rw [natToBits, List.range_succ, List.map_append]
  congr 1
  · refine List.map_congr_left fun j hj => ?_
    have : d + 1 - 1 - j = d - 1 - j + 1 := by have := List.mem_range.1 hj; omega
    rw [this, Nat.testBit_succ]
  · simp

@[simp] theorem natToBits_length (d u : Nat) : (natToBits d u).length = d := by simp [natToBits]

theorem bitsToNat_natToBits {d u : Nat} (h : u < 2 ^ d) : bitsToNat (natToBits d u) = u := by
  induction d generalizing u with
  | zero => simp only [pow_zero, Nat.lt_one_iff] at h; subst h; rfl
  | succ d ih =>
    rw [natToBits_succ, bitsToNat_concat, ih (by rw [pow_succ] at h; omega), Nat.testBit_zero]
    rcases Nat.mod_two_eq_zero_or_one u with hu | hu <;> simp [hu] <;> omega

theorem natToBits_bitsToNat {b : Bits} {d : Nat} (h : b.length = d) : natToBits d (bitsToNat b) = b := by
  subst h
  induction b using List.reverseRecOn with
  | nil => rfl
  | append_singleton b x ih =>
    have hdiv : (2 * bitsToNat b + x.toNat) / 2 = bitsToNat b := by have := x.toNat_lt; omega
    have hbit : (2 * bitsToNat b + x.toNat).testBit 0 = x := by
      cases x <;> simp [Nat.testBit_zero]
    rw [bitsToNat_concat, List.length_append, List.length_singleton, natToBits_succ, hdiv, hbit, ih]

theorem bitsToNat_lt {b : Bits} {d : Nat} (h : b.length = d) : bitsToNat b < 2 ^ d := by
  subst h
  induction b using List.reverseRecOn with
  | nil => simp [bitsToNat]
  | append_singleton b x ih =>
    rw [bitsToNat_concat, List.length_append, List.length_singleton, pow_succ]
    have := x.toNat_lt; omega

/-- R10's sum over the bits of a group. -/
theorem bitsToNat_eq_sum (b : Bits) :
    bitsToNat b = ∑ j ∈ Finset.range b.length, (b.getD j false).toNat * 2 ^ (b.length - 1 - j) := by
  induction b using List.reverseRecOn with
  | nil => rfl
  | append_singleton b x ih =>
    rw [bitsToNat_concat, List.length_append, List.length_singleton, Finset.sum_range_succ, ih, Finset.mul_sum]
    congr 1
    · refine Finset.sum_congr rfl fun j hj => ?_
      have hj := Finset.mem_range.1 hj
      have : b.length + 1 - 1 - j = b.length - 1 - j + 1 := by omega
      rw [List.getD_append _ _ _ _ hj, this, pow_succ]; ring
    · simp

/-! ### Consecutive groups of `d` bits -/

theorem getD_take_drop {l : Bits} {d j : Nat} (k : Nat) (h : j < d) :
    ((l.drop k).take d).getD j false = l.getD (k + j) false := by
  simp [List.getD_eq_getElem?_getD, h]

/-- The groups of a string, put together again. -/
theorem flatMap_groups (d n : Nat) (p : Bits) :
    ((List.range n).flatMap fun q => (p.drop (q * d)).take d) = p.take (n * d) := by
  induction n with
  | zero => simp
  | succ n ih => rw [List.range_succ, List.flatMap_append, ih, Nat.succ_mul, List.take_add]; simp

theorem take_drop_length {p : Bits} {d n q : Nat} (h : n * d ≤ p.length) (hq : q < n) :
    ((p.drop (q * d)).take d).length = d := by
  have : (q + 1) * d ≤ n * d := Nat.mul_le_mul_right d hq
  rw [Nat.succ_mul] at this
  rw [List.length_take, List.length_drop]; omega

/-- The `q`-th group of a concatenation of strings of `d` bits is the `q`-th string. -/
theorem group_flatMap {α : Type} {d : Nat} {f : α → Bits} (hf : ∀ x, (f x).length = d) (l : List α) {q : Nat}
    (hq : q < l.length) :
    ((l.flatMap f).drop (q * d)).take d = f l[q] := by
  induction l generalizing q with
  | nil => exact absurd hq (Nat.not_lt_zero q)
  | cons x l ih =>
    rw [List.flatMap_cons]
    cases q with
    | zero => rw [Nat.zero_mul, List.drop_zero, ← hf x, List.take_left]; rfl
    | succ q =>
      have : (q + 1) * d = (f x).length + q * d := by rw [hf, Nat.succ_mul, Nat.add_comm]
      rw [this, List.drop_length_add_append]
      exact ih (Nat.lt_of_succ_lt_succ hq)

/-! ### Bits and bytes (R9) -/

theorem byteBits_eq (x : Byte) : byteBits x = natToBits 8 x.toNat := rfl

@[simp] theorem byteBits_length (x : Byte) : (byteBits x).length = 8 := rfl

@[simp] theorem bits_length (B : List Byte) : (bits B).length = 8 * B.length := by
  simp [bits, List.length_flatMap, Nat.mul_comm]

/-- The bits of byte `i` stand at `8i` (R9). -/
theorem bits_byte {B : List Byte} {i : Nat} (h : i < B.length) : ((bits B).drop (8 * i)).take 8 = byteBits B[i] := by
  rw [Nat.mul_comm]; exact group_flatMap byteBits_length B h

theorem bits_getD {B : List Byte} {i j : Nat} (hi : i < B.length) (hj : j < 8) :
    (bits B).getD (8 * i + j) false = (B.getD i 0).getLsbD (7 - j) := by
  rw [← getD_take_drop _ hj, bits_byte hi, List.getD_eq_getElem _ _ hi]
  simp [byteBits, List.getD_eq_getElem?_getD, hj]

theorem bytes_bits (B : List Byte) : bytes (bits B) = B := by
  apply List.ext_getElem
  · simp [bytes]
  · intro i h1 h2
    simp only [bytes, List.getElem_map, List.getElem_range, bits_byte h2]
    rw [byteBits_eq, bitsToNat_natToBits B[i].isLt, BitVec.ofNat_toNat, BitVec.setWidth_eq]

theorem bits_bytes {b : Bits} (h : b.length % 8 = 0) : bits (bytes b) = b := by
  have hn : b.length / 8 * 8 = b.length := Nat.div_mul_cancel (Nat.dvd_of_mod_eq_zero h)
  calc bits (bytes b) = (List.range (b.length / 8)).flatMap fun q => (b.drop (q * 8)).take 8 := by
        rw [bits, bytes, List.flatMap_map]
        refine List.flatMap_congr fun q hq => ?_
        have hl := take_drop_length hn.le (List.mem_range.1 hq)
        rw [byteBits_eq, Nat.mul_comm 8 q, BitVec.toNat_ofNat, Nat.mod_eq_of_lt (bitsToNat_lt hl), natToBits_bitsToNat hl]
    _ = b := by rw [flatMap_groups, hn, List.take_length]

/-! ### Symbol indices (R10) -/

@[simp] theorem group_length (d : Nat) (b : Bits) : (group d b).length = ceilDiv b.length d := by simp [group]

theorem padded_length {d : Nat} (hd : 1 ≤ d) (b : Bits) :
    (pad (d * ceilDiv b.length d) b).length = ceilDiv b.length d * d := by
  rw [Nat.mul_comm]; exact pad_length (le_ceilDiv_mul hd)

/-- The padded string holds the groups, all of `d` bits. -/
theorem padded_group_length {d : Nat} (hd : 1 ≤ d) (b : Bits) {q : Nat} (hq : q < ceilDiv b.length d) :
    (((pad (d * ceilDiv b.length d) b).drop (q * d)).take d).length = d :=
  take_drop_length (padded_length hd b).ge hq

theorem group_lt {d : Nat} (hd : 1 ≤ d) {b : Bits} {u : Nat} (hu : u ∈ group d b) : u < 2 ^ d := by
  obtain ⟨q, hq, rfl⟩ := List.mem_map.1 hu
  exact bitsToNat_lt (padded_group_length hd b (List.mem_range.1 hq))

theorem group_getD {d : Nat} (hd : 1 ≤ d) (b : Bits) {q : Nat} (hq : q < ceilDiv b.length d) :
    (group d b).getD q 0 = ∑ j ∈ Finset.range d, (b.getD (q * d + j) false).toNat * 2 ^ (d - 1 - j) := by
  rw [List.getD_eq_getElem _ _ (by simpa using hq)]
  simp only [group, List.getElem_map, List.getElem_range]
  rw [bitsToNat_eq_sum, padded_group_length hd b hq]
  refine Finset.sum_congr rfl fun j hj => ?_
  rw [getD_take_drop _ (Finset.mem_range.1 hj), pad_getD]

theorem ungroup_group {d : Nat} (hd : 1 ≤ d) (b : Bits) : ungroup d (group d b) = pad (d * ceilDiv b.length d) b := by
  calc ungroup d (group d b)
      = (List.range (ceilDiv b.length d)).flatMap fun q => ((pad (d * ceilDiv b.length d) b).drop (q * d)).take d := by
        rw [ungroup, group, List.flatMap_map]
        exact List.flatMap_congr fun q hq => natToBits_bitsToNat (padded_group_length hd b (List.mem_range.1 hq))
    _ = pad (d * ceilDiv b.length d) b := by rw [flatMap_groups, ← padded_length hd b, List.take_length]

/-- Settles O45: each byte's eight bits are its binary expansion, and expansion and value are inverse. -/
theorem bitsAndBytes : Obligations.BitsAndBytes :=
  ⟨bytes_bits, fun _ h => bits_bytes h, fun _ _ _ hi hj => bits_getD hi hj⟩

/-- Settles O46: the padded string is the concatenation of the groups, each the expansion of its index. -/
theorem groupAndUngroup : Obligations.GroupAndUngroup := fun d b hd =>
  ⟨⟨le_ceilDiv_mul hd, fun _ => (ceilDiv_le_iff hd).2⟩, group_length d b, fun _ => group_lt hd, fun _ => group_getD hd b,
    ungroup_group hd b⟩

end Sys2Proof.Machine
end

section
/-! The payload's way through the codes and the constellation and back (R27, R178, R382): O48. -/

namespace Sys2Proof.Machine

variable {N : Num} {b : Build} (X : Ext N b.modset)

theorem legalProps_pair {p : Props} (h : legalProps b p = true) : (p.mm, p.md) ∈ b.modset := by
  simp only [legalProps, legalPair, Bool.and_eq_true, List.contains_iff_mem] at h
  exact h.1.2

/-- Each symbol index that is sent comes back from the constellation (R24). -/
theorem map_demod_mod {mm md : Nat} (h : (mm, md) ∈ b.modset) {us : List Nat} (hu : ∀ u ∈ us, u < 2 ^ md) :
    (us.map fun u => X.demod mm md (X.mod mm md u)) = us := by
  conv_rhs => rw [← List.map_id us]
  exact List.map_congr_left fun u m => X.demod_mod mm md u h (hu u m)

theorem payloadChain_length (crc fi fo : Nat) (pb : List Byte) :
    (payloadChain X crc fi fo pb).length = payloadBits crc fi fo pb.length := by
  simp [payloadChain, payloadBits, X.fecEnc_length, X.crc_length]

/-- Each code is undone by its decoder, and what is left splits into the payload and its CRC (R20, R23, R382). -/
theorem payloadDecode_payloadChain (crc fi fo : Nat) (pb : List Byte) :
    payloadDecode X pb.length crc fi fo (payloadChain X crc fi fo pb) = (true, pb) := by
  have hm : 8 * pb.length + crcLen crc = (bits pb ++ X.crc crc pb).length := by simp [X.crc_length]
  have hp : (bits pb ++ X.crc crc pb).take (8 * pb.length) = bits pb := by rw [← bits_length, List.take_left]
  have hc : (bits pb ++ X.crc crc pb).drop (8 * pb.length) = X.crc crc pb := by rw [← bits_length, List.drop_left]
  have outer : X.fecDec fi (encLen fo (8 * pb.length + crcLen crc)) (payloadChain X crc fi fo pb) =
      X.fecEnc fo (bits pb ++ X.crc crc pb) := by
    rw [hm, ← X.fecEnc_length, payloadChain, X.fecDec_fecEnc]
  have inner : X.fecDec fo (8 * pb.length + crcLen crc) (X.fecEnc fo (bits pb ++ X.crc crc pb)) =
      bits pb ++ X.crc crc pb := by
    rw [hm, X.fecDec_fecEnc]
  simp only [payloadDecode, outer, inner, hp, hc, bytes_bits, crcOk, decide_true]

/-- Settles O48: the indices come back from the constellation, their bits cut at the coded length are the coded payload, and
the decoders undo the codes. -/
theorem payloadRoundTrip : Obligations.PayloadRoundTrip := by
  intro N b X p pb hp
  have hpair := legalProps_pair hp
  have hmd : 1 ≤ p.md := (b.modset_range _ hpair).2.1
  have hindices : ((payloadCode X p pb).map fun u => X.demod p.mm p.md (X.mod p.mm p.md u)) = payloadCode X p pb :=
    map_demod_mod X hpair fun _ => group_lt hmd
  have hbits : (ungroup p.md (payloadCode X p pb)).take (payloadBits p.crc p.fi p.fo pb.length) =
      payloadChain X p.crc p.fi p.fo pb := by
    rw [payloadCode, ungroup_group hmd, ← payloadChain_length X, pad_take]
  rw [hindices, hbits, payloadDecode_payloadChain]

end Sys2Proof.Machine
end

section
/-! The OFDM symbol and its transforms (R17 to R19): O28 and O29. -/

namespace Sys2Proof.Machine

/-! ### The guard samples and the body -/

theorem ofdm_guard (N : Num) {g i : Nat} {V : List Cplx} (hg : g ≤ V.length) (hi : i < g) :
    (ofdm N g V).getD i Cplx.zero = (idft N V).getD (V.length - g + i) Cplx.zero := by
  have hd : i < ((idft N V).drop ((idft N V).length - g)).length := by rw [List.length_drop, idft_length]; omega
  rw [ofdm, List.getD_append _ _ _ _ hd, List.getD_eq_getElem?_getD, List.getElem?_drop, idft_length,
    List.getD_eq_getElem?_getD]

theorem ofdm_drop (N : Num) {g : Nat} {V : List Cplx} (hg : g ≤ V.length) : (ofdm N g V).drop g = idft N V :=
  List.drop_left' (by rw [List.length_drop, idft_length]; omega)

theorem ofdm_body (N : Num) {g : Nat} {V : List Cplx} (hg : g ≤ V.length) (i : Nat) :
    (ofdm N g V).getD (g + i) Cplx.zero = (idft N V).getD i Cplx.zero := by
  rw [← ofdm_drop N hg, List.getD_eq_getElem?_getD, List.getD_eq_getElem?_getD, List.getElem?_drop]

theorem strip_ofdm (N : Num) {g : Nat} {V : List Cplx} (hg : g ≤ V.length) : strip g V.length (ofdm N g V) = idft N V := by
  rw [strip, ofdm_drop N hg, ← idft_length N V, List.take_length]

/-- Settles O28: behind the first G samples, the last G of the inverse transform, stands the inverse transform whole. -/
theorem cyclicPrefix : Obligations.CyclicPrefix := fun N _ _ hg =>
  ⟨ofdm_length N hg, fun _ hi => ofdm_guard N hg hi, fun i _ => ofdm_body N hg i, strip_ofdm N hg⟩

/-! ### The transforms as sums -/

section Sums

variable {N : Num} {v : Scalar → ℝ}

theorem val_turns (h : N.IsExact v) (p : Nat) {m : Nat} (hm : m ≠ 0) :
    v (turns N (N.ofRat p) (N.ofRat m)) = 2 * Real.pi * p / m := by
  have hq : v (N.ofRat m) ≠ 0 := by rw [h.val_ofRat]; exact_mod_cast hm
  rw [turns, h.div _ _ hq, h.mul, h.mul, h.val_ofRat, h.val_ofRat, h.val_ofRat, h.pi]
  push_cast; rfl

/-- NUM's sum over the entries of a vector, each with its index, is the sum of the terms. -/
theorem toC_csum_zipIdx (h : N.IsExact v) (V : List Cplx) (f : Cplx × Nat → Cplx) :
    (N.csum (V.zipIdx.map f)).toC v = ∑ k ∈ Finset.range V.length, (f (V.getD k Cplx.zero, k)).toC v := by
  have hl : V.zipIdx.map f = (List.range V.length).map fun k => f (V.getD k Cplx.zero, k) := by
    apply List.ext_getElem
    · simp
    · intro k h1 h2
      have hk : k < V.length := by simpa using h1
      simp [List.getElem?_eq_getElem hk]
  rw [h.csum, hl, List.map_map]
  rfl

theorem toC_idft (h : N.IsExact v) {V : List Cplx} {n : Nat} (hn : n < V.length) :
    ((idft N V).getD n Cplx.zero).toC v =
      (1 / (V.length : ℂ)) * ∑ k ∈ Finset.range V.length, (V.getD k Cplx.zero).toC v *
        Complex.exp (2 * Real.pi * k * n / V.length * Complex.I) := by
  have hm : V.length ≠ 0 := Nat.ne_zero_of_lt hn
  have hq : v (N.ofRat V.length) ≠ 0 := by rw [h.val_ofRat]; exact_mod_cast hm
  rw [List.getD_eq_getElem _ _ (by simpa using hn)]
  simp only [idft, List.getElem_map, List.getElem_range, h.cscale, toC_csum_zipIdx h, h.cmul, h.cexp, val_turns h _ hm,
    h.div _ _ hq, h.val_ofRat]
  push_cast
  simp only [mul_assoc]

theorem toC_dft (h : N.IsExact v) {V : List Cplx} {k : Nat} (hk : k < V.length) :
    ((dft N V).getD k Cplx.zero).toC v =
      ∑ n ∈ Finset.range V.length, (V.getD n Cplx.zero).toC v *
        Complex.exp (-(2 * Real.pi * k * n / V.length * Complex.I)) := by
  have hm : V.length ≠ 0 := Nat.ne_zero_of_lt hk
  rw [List.getD_eq_getElem _ _ (by simpa [dft] using hk)]
  simp only [dft, List.getElem_map, List.getElem_range, toC_csum_zipIdx h, h.cmul, h.cexp, h.neg, val_turns h _ hm]
  push_cast
  simp only [mul_assoc, neg_mul]

end Sums

/-! ### The forward transform undoes the inverse one -/

/-- Two different tones of `m` samples are orthogonal. -/
theorem sum_tone_mul_conj {m j k : Nat} (hj : j < m) (hk : k < m) :
    ∑ n ∈ Finset.range m, Complex.exp (2 * Real.pi * j * n / m * Complex.I) *
      Complex.exp (-(2 * Real.pi * k * n / m * Complex.I)) = if j = k then (m : ℂ) else 0 := by
  have hm : m ≠ 0 := Nat.ne_zero_of_lt hj
  have hmC : (m : ℂ) ≠ 0 := by exact_mod_cast hm
  have hroot := Complex.isPrimitiveRoot_exp m hm
  generalize hζ : Complex.exp (2 * Real.pi * Complex.I / m) = ζ at hroot
  have hζ0 : ζ ≠ 0 := hroot.ne_zero hm
  have htone : ∀ a n : Nat, Complex.exp (2 * Real.pi * a * n / m * Complex.I) = (ζ ^ a) ^ n := by
    intro a n
    rw [← pow_mul, ← hζ, ← Complex.exp_nat_mul]
    congr 1; push_cast; ring
  have hterm : ∀ n ∈ Finset.range m, Complex.exp (2 * Real.pi * j * n / m * Complex.I) *
      Complex.exp (-(2 * Real.pi * k * n / m * Complex.I)) = (ζ ^ j / ζ ^ k) ^ n := by
    intro n _
    rw [Complex.exp_neg, htone, htone, div_pow, div_eq_mul_inv]
  rw [Finset.sum_congr rfl hterm]
  split
  case isTrue e => subst e; simp [div_self (pow_ne_zero j hζ0)]
  case isFalse e =>
    have hne : ζ ^ j / ζ ^ k ≠ 1 := by
      rw [Ne, div_eq_one_iff_eq (pow_ne_zero k hζ0)]
      exact fun hp => e (hroot.pow_inj hj hk hp)
    have hone : (ζ ^ j / ζ ^ k) ^ m = 1 := by
      rw [div_pow, ← pow_mul, ← pow_mul, Nat.mul_comm j, Nat.mul_comm k, pow_mul, pow_mul, hroot.pow_eq_one]; simp
    rw [geom_sum_eq hne, hone, sub_self, zero_div]

theorem dft_idft {N : Num} {v : Scalar → ℝ} (h : N.IsExact v) (V : List Cplx) : dft N (idft N V) = V := by
  have hlen : (dft N (idft N V)).length = V.length := by simp [dft]
  apply List.ext_getElem hlen
  intro k h1 hk
  apply h.toC_injective
  have hmC : (V.length : ℂ) ≠ 0 := by exact_mod_cast Nat.ne_zero_of_lt hk
  rw [← List.getD_eq_getElem _ Cplx.zero h1, ← List.getD_eq_getElem _ Cplx.zero hk,
    toC_dft h (by simpa using hk), idft_length]
  calc ∑ n ∈ Finset.range V.length, ((idft N V).getD n Cplx.zero).toC v *
          Complex.exp (-(2 * Real.pi * k * n / V.length * Complex.I))
      = ∑ n ∈ Finset.range V.length, ∑ j ∈ Finset.range V.length, (1 / (V.length : ℂ) * (V.getD j Cplx.zero).toC v) *
          (Complex.exp (2 * Real.pi * j * n / V.length * Complex.I) *
            Complex.exp (-(2 * Real.pi * k * n / V.length * Complex.I))) := by
        refine Finset.sum_congr rfl fun n hn => ?_
        rw [toC_idft h (Finset.mem_range.1 hn), Finset.mul_sum, Finset.sum_mul]
        refine Finset.sum_congr rfl fun j _ => ?_
        ring
    _ = ∑ j ∈ Finset.range V.length, 1 / (V.length : ℂ) * (V.getD j Cplx.zero).toC v *
          if j = k then (V.length : ℂ) else 0 := by
        rw [Finset.sum_comm]
        refine Finset.sum_congr rfl fun j hj => ?_
        rw [← Finset.mul_sum, sum_tone_mul_conj (Finset.mem_range.1 hj) hk]
    _ = (V.getD k Cplx.zero).toC v := by
        simp only [mul_ite, mul_zero, Finset.sum_ite_eq', Finset.mem_range, hk, if_true]
        field_simp

/-- Settles O29: both transforms are their sums, and the tones of R18 are orthogonal. -/
theorem transformsInverse : Obligations.TransformsInverse := fun _ _ h V =>
  ⟨dft_idft h V, fun _ hn => toC_idft h hn, fun _ hk => toC_dft h hk⟩

end Sys2Proof.Machine
end

section
/-! Rounding to the bus (R16, D49, R110): O50. A finite word is a sign and a magnitude, the magnitudes are the multiples of a
power of two within each binade, and the rounding takes the nearest multiple of the binade its value lies in. -/

namespace Sys2Proof.Machine

/-! ### The nearest integer, ties to even -/

/-- `r` is an integer nearest `x`, the even one of two. -/
def NearestEven (x : ℚ) (r : Nat) : Prop := |x - r| ≤ 1 / 2 ∧ (|x - r| = 1 / 2 → r % 2 = 0)

theorem nearestEven_roundEven (n : Nat) {d : Nat} (hd : 0 < d) : NearestEven ((n : ℚ) / d) (roundEven n d) := by
  have hdQ : (0 : ℚ) < d := by exact_mod_cast hd
  have hx : (n : ℚ) / d = (n / d : Nat) + (n % d : Nat) / d := by
    rw [div_eq_iff hdQ.ne', add_mul, div_mul_cancel₀ _ hdQ.ne']
    exact_mod_cast (Nat.div_add_mod' n d).symm
  have hlt : ((n % d : Nat) : ℚ) / d < 1 := by rw [div_lt_one hdQ]; exact_mod_cast Nat.mod_lt n hd
  have hge : (0 : ℚ) ≤ (n % d : Nat) / d := by positivity
  have hhalf : 1 / 2 < ((n % d : Nat) : ℚ) / d ↔ d < 2 * (n % d) := by
    rw [lt_div_iff₀ hdQ, one_div_mul_eq_div, div_lt_iff₀ two_pos, mul_comm]; exact_mod_cast Iff.rfl
  have htie : ((n % d : Nat) : ℚ) / d = 1 / 2 ↔ 2 * (n % d) = d := by
    rw [div_eq_div_iff hdQ.ne' two_ne_zero, mul_comm, one_mul]; exact_mod_cast Iff.rfl
  unfold roundEven NearestEven
  generalize n / d = q at *
  generalize n % d = s at *
  rw [hx]
  by_cases up : d < 2 * s ∨ 2 * s = d ∧ q % 2 = 1
  · have hs : |(q : ℚ) + s / d - (q + 1 : Nat)| = 1 - s / d := by
      rw [abs_sub_comm, abs_of_nonneg] <;> push_cast <;> linarith
    simp only [up, if_true, hs]
    rcases up with h | ⟨h, odd⟩
    · have := hhalf.2 h
      exact ⟨by linarith, fun e => by linarith⟩
    · have := htie.2 h
      exact ⟨by linarith, fun _ => by omega⟩
  · have hs : |(q : ℚ) + s / d - q| = s / d := by rw [add_sub_cancel_left, abs_of_nonneg hge]
    simp only [up, if_false, hs]
    exact ⟨not_lt.1 fun h => up (.inl (hhalf.1 h)), fun e => by have := htie.1 e; omega⟩

/-- No integer is nearer, and as near only when the one taken is even. -/
theorem NearestEven.nearest {x : ℚ} {r : Nat} (h : NearestEven x r) (m : ℤ) :
    |x - r| ≤ |x - m| ∧ (|x - r| = |x - m| → m ≠ r → r % 2 = 0) := by
  by_cases hm : m = r
  · subst hm; exact ⟨le_rfl, fun _ hne => absurd rfl hne⟩
  have hone : (1 : ℚ) ≤ |(m : ℚ) - r| := by
    exact_mod_cast Int.one_le_abs (sub_ne_zero.2 hm)
  have htri : |(m : ℚ) - r| ≤ |x - r| + |x - m| := by
    calc |(m : ℚ) - r| = |(x - r) - (x - m)| := by ring_nf
      _ ≤ |x - r| + |x - m| := abs_sub _ _
  exact ⟨by linarith [h.1], fun e _ => h.2 (le_antisymm h.1 (by linarith))⟩

theorem NearestEven.le_of_lt {x : ℚ} {r m : Nat} (h : NearestEven x r) (hx : x < m + 1 / 2) : r ≤ m := by
  have hr := abs_le.1 h.1
  have : (r : ℚ) < (m + 1 : Nat) := by push_cast; linarith
  exact Nat.le_of_lt_succ (by exact_mod_cast this)

theorem NearestEven.ge_of_le {x : ℚ} {r m : Nat} (h : NearestEven x r) (hx : (m : ℚ) ≤ x) : m ≤ r := by
  have hr := abs_le.1 h.1
  have : (m : ℚ) < (r + 1 : Nat) := by push_cast; linarith
  exact Nat.le_of_lt_succ (by exact_mod_cast this)

/-! ### The value of a word -/

/-- The magnitude bits of a word: all but the sign. -/
def f32Bits (w : Word) : Nat := w.toNat % 2 ^ 31

/-- The value of magnitude bits: with the exponent field `E + 1` the significand is `2^23` and the fraction, with the exponent
field 0 it is the fraction alone, at the scale of field 1. -/
def f32Abs (k : Nat) : ℚ := (k - (k / 2 ^ 23 - 1) * 2 ^ 23 : Nat) * 2 ^ (((k / 2 ^ 23 - 1 : Nat) : ℤ) - 149)

theorem f32Finite_iff (w : Word) : f32Finite w = true ↔ f32Bits w < 255 * 2 ^ 23 := by
  have : (w.extractLsb' 23 8).toNat = w.toNat / 2 ^ 23 % 2 ^ 8 := by
    rw [BitVec.extractLsb'_toNat, Nat.shiftRight_eq_div_pow]
  rw [f32Finite, decide_eq_true_eq, this, f32Bits]
  omega

theorem f32Value_eq (w : Word) :
    f32Value w = if w.getLsbD 31 then -f32Abs (f32Bits w) else f32Abs (f32Bits w) := by
  have he : (w.extractLsb' 23 8).toNat = f32Bits w / 2 ^ 23 := by
    rw [BitVec.extractLsb'_toNat, Nat.shiftRight_eq_div_pow, f32Bits]; omega
  have hf : (w.extractLsb' 0 23).toNat = f32Bits w % 2 ^ 23 := by
    rw [BitVec.extractLsb'_toNat, Nat.shiftRight_zero, f32Bits]; omega
  unfold f32Value
  dsimp only
  rw [he, hf]
  generalize f32Bits w = k
  have hm : (if k / 2 ^ 23 = 0 then k % 2 ^ 23 else 2 ^ 23 + k % 2 ^ 23) = k - (k / 2 ^ 23 - 1) * 2 ^ 23 := by
    split <;> omega
  have hx : max (k / 2 ^ 23) 1 = k / 2 ^ 23 - 1 + 1 := by omega
  rw [hm, hx, f32Abs]
  generalize k - (k / 2 ^ 23 - 1) * 2 ^ 23 = m
  generalize k / 2 ^ 23 - 1 = E
  have hv : (if 150 ≤ E + 1 then mkRat (m * 2 ^ (E + 1 - 150) : Nat) 1 else mkRat m (2 ^ (150 - (E + 1)))) =
      (m : ℚ) * 2 ^ ((E : ℤ) - 149) := by
    split
    case isTrue h =>
      have : (E : ℤ) - 149 = (E + 1 - 150 : Nat) := by omega
      rw [this, zpow_natCast, Rat.mkRat_eq_div]; push_cast; ring
    case isFalse h =>
      have : (E : ℤ) - 149 = -(150 - (E + 1) : Nat) := by omega
      rw [this, zpow_neg, zpow_natCast, Rat.mkRat_eq_div]; push_cast; ring
  rw [hv]

/-- Magnitude bits written with any significand up to the next binade's first one. -/
theorem f32Abs_of {E r : Nat} (hr : r ≤ 2 ^ 24) (h : 2 ^ 23 ≤ r ∨ E = 0) :
    f32Abs (E * 2 ^ 23 + r) = r * 2 ^ ((E : ℤ) - 149) := by
  rcases hr.lt_or_eq with hlt | rfl
  · have hE : (E * 2 ^ 23 + r) / 2 ^ 23 - 1 = E := by omega
    rw [f32Abs, hE, Nat.add_sub_cancel_left]
  · have hE : (E * 2 ^ 23 + 2 ^ 24) / 2 ^ 23 - 1 = E + 1 := by omega
    have hs : E * 2 ^ 23 + 2 ^ 24 - (E + 1) * 2 ^ 23 = 2 ^ 23 := by omega
    have hp : ((E + 1 : Nat) : ℤ) - 149 = (E : ℤ) - 149 + 1 := by push_cast; ring
    rw [f32Abs, hE, hs, hp, zpow_add_one₀ two_ne_zero]
    push_cast; ring

/-- Every magnitude is so written, with a significand below `2^24`. -/
theorem exists_significand (k : Nat) : ∃ E r : Nat, k = E * 2 ^ 23 + r ∧ r < 2 ^ 24 ∧ (2 ^ 23 ≤ r ∨ E = 0) :=
  ⟨k / 2 ^ 23 - 1, k - (k / 2 ^ 23 - 1) * 2 ^ 23, by omega, by omega, by omega⟩

theorem f32Abs_strictMono : StrictMono f32Abs := by
  refine strictMono_nat_of_lt_succ fun k => ?_
  obtain ⟨E, r, rfl, hr, h⟩ := exists_significand k
  rw [Nat.add_assoc, f32Abs_of hr.le h, f32Abs_of hr (h.imp_left Nat.le_succ_of_le)]
  have : (0 : ℚ) < 2 ^ ((E : ℤ) - 149) := by positivity
  push_cast
  linarith

theorem f32Abs_zero : f32Abs 0 = 0 := by simp [f32Abs]

theorem f32Abs_nonneg (k : Nat) : 0 ≤ f32Abs k := by rw [← f32Abs_zero]; exact f32Abs_strictMono.monotone (Nat.zero_le k)

theorem abs_f32Value (w : Word) : |f32Value w| = f32Abs (f32Bits w) := by
  rw [f32Value_eq]
  split
  · rw [abs_neg, abs_of_nonneg (f32Abs_nonneg _)]
  · rw [abs_of_nonneg (f32Abs_nonneg _)]

/-- The largest finite magnitude lies below what rounds to the infinity. -/
theorem abs_f32Value_lt {w : Word} (h : f32Finite w = true) : |f32Value w| < 2 ^ 128 - 2 ^ 103 := by
  have hk : f32Bits w ≤ 253 * 2 ^ 23 + (2 ^ 24 - 1) := by have := (f32Finite_iff w).1 h; omega
  calc |f32Value w| = f32Abs (f32Bits w) := abs_f32Value w
    _ ≤ f32Abs (253 * 2 ^ 23 + (2 ^ 24 - 1)) := f32Abs_strictMono.monotone hk
    _ = (2 ^ 24 - 1 : Nat) * 2 ^ ((253 : Nat) - 149 : ℤ) := f32Abs_of (by omega) (.inl (by omega))
    _ < 2 ^ 128 - 2 ^ 103 := by norm_num

theorem sign_eq_decide (w : Word) : w.getLsbD 31 = decide (2 ^ 31 ≤ w.toNat) := BitVec.msb_eq_decide w

/-- A word is its sign and its magnitude bits. -/
theorem word_ext {w w' : Word} (hs : w.getLsbD 31 = w'.getLsbD 31) (hb : f32Bits w = f32Bits w') : w = w' := by
  rw [sign_eq_decide, sign_eq_decide, decide_eq_decide] at hs
  unfold f32Bits at hb
  apply BitVec.eq_of_toNat_eq
  omega

/-! ### The multiples of a binade -/

/-- A multiple of the spacing of the binade from `2^e`, or a value below that binade, when there is one below. -/
def OnGrid (e : ℤ) (y : ℚ) : Prop := (∃ m : ℤ, y = m * 2 ^ (e - 23)) ∨ (-126 < e ∧ |y| < 2 ^ e)

theorem OnGrid.neg {e : ℤ} {y : ℚ} : OnGrid e y → OnGrid e (-y)
  | .inl ⟨m, h⟩ => .inl ⟨-m, by rw [h]; push_cast; ring⟩
  | .inr ⟨h, hy⟩ => .inr ⟨h, by rwa [abs_neg]⟩

theorem f32Abs_onGrid {e : ℤ} (k : Nat) : OnGrid e (f32Abs k) := by
  obtain ⟨E, r, rfl, hr, h⟩ := exists_significand k
  rw [f32Abs_of hr.le h]
  rcases le_or_gt (e - 23) ((E : ℤ) - 149) with hle | hlt
  · refine .inl ⟨r * 2 ^ ((E : ℤ) - 149 - (e - 23)).toNat, ?_⟩
    have hexp : (E : ℤ) - 149 = (((E : ℤ) - 149 - (e - 23)).toNat : ℤ) + (e - 23) := by omega
    conv_lhs => rw [hexp, zpow_add₀ two_ne_zero, zpow_natCast]
    push_cast; ring
  · refine .inr ⟨by omega, ?_⟩
    rw [abs_of_nonneg (by positivity)]
    calc (r : ℚ) * 2 ^ ((E : ℤ) - 149) < 2 ^ (24 : ℤ) * 2 ^ ((E : ℤ) - 149) := by
          gcongr; exact_mod_cast hr
      _ = 2 ^ (24 + ((E : ℤ) - 149)) := (zpow_add₀ two_ne_zero _ _).symm
      _ ≤ 2 ^ e := zpow_le_zpow_right₀ one_le_two (by omega)

theorem f32Value_onGrid (e : ℤ) (w : Word) : OnGrid e (f32Value w) := by
  rw [f32Value_eq]
  split
  · exact (f32Abs_onGrid _).neg
  · exact f32Abs_onGrid _

/-! ### The binade a value is rounded in -/

/-- `x` lies in the binade from `2^e`, or below the least one, and `r` is the nearest multiple of its spacing. -/
structure RoundsIn (x : ℚ) (e : ℤ) (r : Nat) : Prop where
  least : -126 ≤ e
  above : -126 < e → 2 ^ e ≤ x
  below : x < 2 ^ (e + 1)
  nearest : NearestEven (x / 2 ^ (e - 23)) r

namespace RoundsIn

variable {x : ℚ} {e : ℤ} {r : Nat}

theorem binade_eq (e : ℤ) : (2 : ℚ) ^ e = (2 ^ 23 : Nat) * 2 ^ (e - 23) := by
  rw [Nat.cast_pow, Nat.cast_ofNat, ← zpow_natCast, ← zpow_add₀ two_ne_zero]; congr 1; push_cast; ring

theorem sig_le (h : RoundsIn x e r) : r ≤ 2 ^ 24 := by
  refine h.nearest.le_of_lt ?_
  have : x / 2 ^ (e - 23) < (2 ^ 24 : Nat) := by
    rw [div_lt_iff₀ (by positivity)]
    calc x < 2 ^ (e + 1) := h.below
      _ = (2 ^ 24 : Nat) * 2 ^ (e - 23) := by rw [zpow_add_one₀ two_ne_zero, binade_eq]; push_cast; ring
  linarith

theorem sig_ge (h : RoundsIn x e r) (he : -126 < e) : 2 ^ 23 ≤ r := by
  refine h.nearest.ge_of_le ?_
  rw [le_div_iff₀ (by positivity), ← binade_eq]
  exact h.above he

/-- What the magnitude bits of the rounding stand for. -/
theorem f32Abs_bits (h : RoundsIn x e r) : f32Abs ((e + 126).toNat * 2 ^ 23 + r) = r * 2 ^ (e - 23) := by
  have hcase : 2 ^ 23 ≤ r ∨ (e + 126).toNat = 0 := by
    rcases h.least.lt_or_eq with he | he
    · exact .inl (h.sig_ge he)
    · exact .inr (by omega)
  have hexp : ((e + 126).toNat : ℤ) - 149 = e - 23 := by have := h.least; omega
  rw [f32Abs_of h.sig_le hcase, hexp]

/-- Below the halfway point to `2^128` the rounding stays below the infinity's bits. -/
theorem bits_lt (h : RoundsIn x e r) (hx : x < 2 ^ 128 - 2 ^ 103) : (e + 126).toNat * 2 ^ 23 + r < 255 * 2 ^ 23 := by
  have hr := h.sig_le
  have he : e ≤ 127 := by
    by_contra hgt
    have hbig : (2 : ℚ) ^ (128 : ℤ) ≤ x := (zpow_le_zpow_right₀ one_le_two (by omega)).trans (h.above (by omega))
    norm_num at hbig hx
    linarith
  rcases he.lt_or_eq with hlt | rfl
  · omega
  · have : r ≤ 2 ^ 24 - 1 := by
      refine h.nearest.le_of_lt ?_
      rw [div_lt_iff₀ (by positivity)]
      norm_num at hx ⊢
      linarith
    omega

/-- No value of the grid is nearer, and as near only when the significand taken is even. -/
theorem nearest_onGrid (h : RoundsIn x e r) {y : ℚ} (hy : OnGrid e y) :
    |x - r * 2 ^ (e - 23)| ≤ |x - y| ∧ (|x - r * 2 ^ (e - 23)| = |x - y| → y ≠ r * 2 ^ (e - 23) → r % 2 = 0) := by
  have hg : (0 : ℚ) < 2 ^ (e - 23) := by positivity
  have hscale : ∀ z : ℚ, |x - z * 2 ^ (e - 23)| = |x / 2 ^ (e - 23) - z| * 2 ^ (e - 23) := by
    intro z
    conv_rhs => rw [← abs_of_pos hg, ← abs_mul, abs_of_pos hg, sub_mul, div_mul_cancel₀ _ hg.ne']
  rcases hy with ⟨m, rfl⟩ | ⟨he, hlt⟩
  · obtain ⟨hle, heven⟩ := h.nearest.nearest m
    rw [hscale, hscale]
    refine ⟨mul_le_mul_of_nonneg_right hle hg.le, fun heq hne => heven (mul_right_cancel₀ hg.ne' heq) ?_⟩
    rintro rfl
    exact hne (by push_cast; rfl)
  · have hfirst : |x - r * 2 ^ (e - 23)| ≤ |x - 2 ^ e| := by
      have := mul_le_mul_of_nonneg_right (h.nearest.nearest (2 ^ 23)).1 hg.le
      rw [binade_eq e, hscale, hscale]
      exact_mod_cast this
    have hbelow : |x - 2 ^ e| < |x - y| := by
      have hy := (abs_lt.1 hlt).2
      have hx := h.above he
      rw [abs_of_nonneg (by linarith), abs_of_pos (by linarith)]
      linarith
    exact ⟨(hfirst.trans_lt hbelow).le, fun heq => absurd heq (hfirst.trans_lt hbelow).ne⟩

end RoundsIn

theorem f32Magnitude_le (n d : Nat) : f32Magnitude n d ≤ 255 * 2 ^ 23 := by
  unfold f32Magnitude
  split
  · exact Nat.zero_le _
  · exact Nat.min_le_right _ _

theorem f32Magnitude_roundsIn {n d : Nat} (hn : n ≠ 0) (hd : 0 < d) :
    ∃ (e : ℤ) (r : Nat), RoundsIn ((n : ℚ) / d) e r ∧
      f32Magnitude n d = min ((e + 126).toNat * 2 ^ 23 + r) (255 * 2 ^ 23) := by
  obtain ⟨hlo, hup⟩ := ratLog2_spec (Nat.pos_of_ne_zero hn) hd
  refine ⟨max (ratLog2 n d) (-126), _, ⟨le_max_right _ _, fun he => ?_, ?_, ?_⟩, if_neg hn⟩
  · rwa [max_eq_left (by omega)]
  · exact hup.trans_le (zpow_le_zpow_right₀ one_le_two (by omega))
  · rw [← scaled_div hd]
    exact nearestEven_roundEven _ (Nat.mul_pos hd (Nat.pow_pos two_pos))

/-! ### The rounded word -/

theorem toNat_f32Round (q : ℚ) :
    (f32Round q).toNat = (if q < 0 then 2 ^ 31 else 0) + f32Magnitude q.num.natAbs q.den := by
  have := f32Magnitude_lt q.num.natAbs q.den
  rw [f32Round, BitVec.toNat_ofNat, Nat.mod_eq_of_lt]
  split <;> omega

theorem f32Bits_f32Round (q : ℚ) : f32Bits (f32Round q) = f32Magnitude q.num.natAbs q.den := by
  have := f32Magnitude_lt q.num.natAbs q.den
  rw [f32Bits, toNat_f32Round]
  split <;> omega

theorem f32Round_sign (q : ℚ) : (f32Round q).getLsbD 31 = decide (q < 0) := by
  have := f32Magnitude_lt q.num.natAbs q.den
  rw [sign_eq_decide, toNat_f32Round, decide_eq_decide]
  split
  case isTrue h => exact iff_of_true (by omega) h
  case isFalse h => exact iff_of_false (by omega) h

theorem abs_eq_natAbs_div (q : ℚ) : |q| = (q.num.natAbs : ℚ) / q.den := by
  conv_lhs => rw [← Rat.num_div_den q, abs_div, Nat.abs_cast]
  rw [Nat.cast_natAbs, Int.cast_abs]

theorem f32Round_zero : f32Round 0 = 0 := by decide

/-- The bits of a rounded nonzero value, with the binade it is rounded in. -/
theorem f32Round_roundsIn {q : ℚ} (h0 : q ≠ 0) (hq : |q| < 2 ^ 128 - 2 ^ 103) :
    ∃ (e : ℤ) (r : Nat), RoundsIn |q| e r ∧ f32Bits (f32Round q) = (e + 126).toNat * 2 ^ 23 + r := by
  obtain ⟨e, r, hin, hmag⟩ := f32Magnitude_roundsIn (Int.natAbs_ne_zero.2 (Rat.num_ne_zero.2 h0)) q.den_pos
  rw [← abs_eq_natAbs_div] at hin
  exact ⟨e, r, hin, by rw [f32Bits_f32Round, hmag, min_eq_left (hin.bits_lt hq).le]⟩

theorem f32Round_finite {q : ℚ} (hq : |q| < 2 ^ 128 - 2 ^ 103) : f32Finite (f32Round q) = true := by
  rw [f32Finite_iff]
  rcases eq_or_ne q 0 with rfl | h0
  · rw [f32Round_zero]; decide
  · obtain ⟨e, r, hin, hbits⟩ := f32Round_roundsIn h0 hq
    rw [hbits]; exact hin.bits_lt hq

/-- Distances from a value and from its negative. -/
theorem abs_sub_of_sign (q y : ℚ) : |q - y| = |(|q|) - if q < 0 then -y else y| := by
  split
  case isTrue h => rw [abs_of_neg h, ← abs_neg]; ring_nf
  case isFalse h => rw [abs_of_nonneg (not_lt.1 h)]

theorem f32Round_nearest {q : ℚ} (hq : |q| < 2 ^ 128 - 2 ^ 103) (w : Word) :
    |q - f32Value (f32Round q)| ≤ |q - f32Value w| ∧
    (|q - f32Value (f32Round q)| = |q - f32Value w| → f32Value w ≠ f32Value (f32Round q) →
      (f32Round q).getLsbD 0 = false) := by
  rcases eq_or_ne q 0 with rfl | h0
  · have hv : f32Value (f32Round 0) = 0 := by rw [f32Round_zero]; decide +kernel
    rw [hv, f32Round_zero]
    exact ⟨by simp, fun _ _ => rfl⟩
  · obtain ⟨e, r, hin, hbits⟩ := f32Round_roundsIn h0 hq
    have hround : (if q < 0 then -f32Value (f32Round q) else f32Value (f32Round q)) = r * 2 ^ (e - 23) := by
      rw [f32Value_eq, f32Round_sign, hbits, hin.f32Abs_bits]
      by_cases h : q < 0 <;> simp [h]
    have hgrid : OnGrid e (if q < 0 then -f32Value w else f32Value w) := by
      split
      · exact (f32Value_onGrid e w).neg
      · exact f32Value_onGrid e w
    obtain ⟨hle, heven⟩ := hin.nearest_onGrid hgrid
    rw [abs_sub_of_sign q (f32Value (f32Round q)), abs_sub_of_sign q (f32Value w), hround]
    refine ⟨hle, fun heq hne => ?_⟩
    have hr : r % 2 = 0 := by
      refine heven heq fun hy => hne ?_
      rw [← hround] at hy
      split at hy
      · exact neg_injective hy
      · exact hy
    have hpar : (f32Round q).toNat % 2 = 0 := by
      have : f32Bits (f32Round q) % 2 = 0 := by omega
      unfold f32Bits at this; omega
    rw [BitVec.getLsbD, Nat.testBit_zero, hpar]; rfl

theorem f32Round_overflow {q : ℚ} (hq : 2 ^ 128 - 2 ^ 103 ≤ |q|) :
    f32Round q = if q < 0 then 0xFF800000 else 0x7F800000 := by
  have hhalf : f32Magnitude (2 ^ 128 - 2 ^ 103) 1 = 255 * 2 ^ 23 := by decide +kernel
  have hmono : f32Magnitude (2 ^ 128 - 2 ^ 103) 1 ≤ f32Magnitude q.num.natAbs q.den := by
    refine f32Magnitude_mono one_pos q.den_pos ?_
    rw [abs_eq_natAbs_div, le_div_iff₀ (by exact_mod_cast q.den_pos)] at hq
    have hcast : (2 : ℚ) ^ 128 - 2 ^ 103 = (2 ^ 128 - 2 ^ 103 : Nat) := by norm_num
    rw [hcast] at hq
    rw [Nat.mul_one]
    exact_mod_cast hq
  have hmag := le_antisymm (f32Magnitude_le q.num.natAbs q.den) (hhalf ▸ hmono)
  rw [f32Round, hmag]
  split <;> rfl

/-- A finite word is what its value rounds to, but for the zero with a sign (log 7). -/
theorem f32Round_f32Value {w : Word} (h : f32Finite w = true) :
    f32Round (f32Value w) = if w = 0x80000000 then 0 else w := by
  split
  case isTrue hw => subst hw; decide +kernel
  case isFalse hw =>
    have hval : f32Value (f32Round (f32Value w)) = f32Value w := by
      have := (f32Round_nearest (abs_f32Value_lt h) w).1
      rw [sub_self, abs_zero] at this
      exact (sub_eq_zero.1 (abs_nonpos_iff.1 this)).symm
    have hbits : f32Bits (f32Round (f32Value w)) = f32Bits w := by
      apply f32Abs_strictMono.injective
      rw [← abs_f32Value, ← abs_f32Value, hval]
    refine word_ext ?_ hbits
    rw [f32Round_sign, f32Value_eq]
    cases hs : w.getLsbD 31 with
    | false => simp [f32Abs_nonneg]
    | true =>
      have hpos : 0 < f32Bits w := by
        refine Nat.pos_of_ne_zero fun h0 => hw (word_ext hs ?_)
        rw [h0]; rfl
      have := f32Abs_strictMono hpos
      rw [f32Abs_zero] at this
      simpa using this

/-- Settles O50: the rounding takes the nearest multiple of its binade's spacing, and every finite word is such a multiple or
lies below the binade. -/
theorem roundToNearest : Obligations.RoundToNearest :=
  ⟨fun q hq => ⟨f32Round_finite hq, by rw [f32Round_sign, decide_eq_true_eq], fun w _ => f32Round_nearest hq w⟩,
    fun _ => f32Round_overflow, fun _ => f32Round_f32Value⟩

end Sys2Proof.Machine
end

section
/-! What a run of samples and a command leave alone (R50, R76, R424): O58 and O60. -/

namespace Sys2Proof.Machine

variable {N : Num} {ms : List (Nat × Nat)} {X : Ext N ms}

/-! ### One sample -/

/-- A sample's effect keeps the constants of the unit and the counters of the command. -/
theorem SampleEffect.sameInstance {s t : State} (h : SampleEffect s t) : SameInstance t.rx s.rx := by
  obtain ⟨r, ⟨hsame, -⟩, rfl | ⟨rfl, -⟩ | ⟨ok, b, rfl, -, -⟩⟩ := h <;> exact hsame

theorem SampleEffect.counters {s t : State} (h : SampleEffect s t) : t.rx.execN = s.rx.execN ∧ t.rx.pos = s.rx.pos := by
  obtain ⟨r, ⟨-, ⟨-, hcount⟩, -⟩, rfl | ⟨rfl, -⟩ | ⟨ok, b, rfl, -, -⟩⟩ := h <;> exact hcount

theorem sampleStep_sameInstance (x : Cplx) (s : State) : SameInstance (sampleStep N X x s).rx s.rx := by
  rcases sampleStep_effect N X x s with ⟨-, h⟩ | ⟨-, h⟩
  · exact h.sameInstance
  · exact sameInstance_trans h.sameInstance (sameInstance_refl s.rx)

theorem sampleStep_counters (x : Cplx) (s : State) :
    (sampleStep N X x s).rx.execN = s.rx.execN ∧ (sampleStep N X x s).rx.pos = s.rx.pos := by
  rcases sampleStep_effect N X x s with ⟨-, h⟩ | ⟨-, h⟩ <;> exact h.counters

/-! ### A run of samples -/

/-- A run from a state that differs from `s` in the RX record, the memory, the count of draws and RESP ends in one that
does. -/
theorem runSamples_touches {k : Nat} {s u t : State} (h : runSamples N X k u = .next t) (he : u.rx.evt = false)
    (hu : ∃ r m d w, u = (((s.setRx r).setMem m).setDraws d).setResp w) :
    ∃ r m d w, t = (((s.setRx r).setMem m).setDraws d).setResp w := by
  refine runSamples_keeps_step (P := fun t => ∃ r m d w, t = (((s.setRx r).setMem m).setDraws d).setResp w) ?_ ?_ hu he h
  · rintro x - d' ⟨r, m, d, w, rfl⟩ -
    obtain ⟨r', m', h⟩ := sampleStep_only_rx_mem N X x
      (((((s.setRx r).setMem m).setDraws d).setResp w).setDraws d' |>.setRx { r with pos := r.pos + 1 })
    exact ⟨r', m', d', w, h⟩
  · rintro st - ⟨r, m, d, w, rfl⟩
    exact ⟨r, m, d, respWord st false 0, rfl⟩

theorem runSamples_sameInstance {k : Nat} {s t : State} (he : s.rx.evt = false) (h : runSamples N X k s = .next t) :
    SameInstance t.rx s.rx :=
  runSamples_keeps_step (P := fun t => SameInstance t.rx s.rx)
    (fun x _ _ hs _ => sameInstance_trans (sampleStep_sameInstance x _) hs) (fun _ _ hs => hs) (sameInstance_refl s.rx) he h

/-! ### One command -/

/-- The commands of the generator (R151). -/
def ofTx : Instr → Bool
  | .txCreate _ | .txAssemble _ | .txWriteSymbol | .txDestroy => true
  | _ => false

/-- The commands of the synchronizer (R151). -/
def ofRx : Instr → Bool
  | .rxCreate _ | .rxExecute _ | .rxAck | .rxDestroy => true
  | _ => false

/-- A command touches at most the two records, the memory, the count of draws and RESP: the TX record only if it is the
generator's, the RX record only if it is the synchronizer's. -/
theorem exec_touches {i : Instr} {s t : State} (h : exec i s = .next t) :
    t = ((((s.setTx t.tx).setRx t.rx).setMem t.mem).setDraws t.draws).setResp t.resp ∧
      (ofTx i = false → t.tx = s.tx) ∧ (ofRx i = false → t.rx = s.rx) := by
  cases exec_effect h with
  | answered | allocDefault => exact ⟨rfl, fun _ => rfl, fun _ => rfl⟩
  | txCreate | txAssemble | txWriteSymbol | txDestroy => exact ⟨rfl, nofun, fun _ => rfl⟩
  | rxCreate | rxDestroy => exact ⟨rfl, fun _ => rfl, nofun⟩
  | rxExecute n _ _ he _ _ hrun =>
    obtain ⟨r, m, d, w, rfl⟩ := runSamples_touches (s := s) hrun he ⟨recount s.rx 0 n, s.mem, s.draws, s.resp, rfl⟩
    exact ⟨rfl, fun _ => rfl, nofun⟩
  | rxAck _ _ _ hrun =>
    obtain ⟨r, m, d, w, rfl⟩ := runSamples_touches (s := s) hrun rfl
      ⟨resetRecord { s.rx with evt := false }, memClear s.build s.mem .resPay, s.draws, s.resp, rfl⟩
    exact ⟨rfl, fun _ => rfl, nofun⟩

theorem exec_keeps_build {i : Instr} {s t : State} (h : exec i s = .next t) : t.build = s.build := by
  rw [(exec_touches h).1]; rfl

theorem exec_keeps_tx {i : Instr} {s t : State} (h : exec i s = .next t) (hi : ofTx i = false) : t.tx = s.tx :=
  (exec_touches h).2.1 hi

theorem exec_keeps_rx {i : Instr} {s t : State} (h : exec i s = .next t) (hi : ofRx i = false) : t.rx = s.rx :=
  (exec_touches h).2.2 hi

/-- Settles O58: what a command touches is one unit's record, the memory, the count of draws and RESP. -/
theorem unitsShareNoState : Obligations.UnitsShareNoState := by
  intro i s t h
  have hbus : t.build = s.build ∧ t.txCfg = s.txCfg ∧ t.txProps = s.txProps ∧ t.rxCfg = s.rxCfg ∧ t.rxCtx = s.rxCtx ∧
      t.host = s.host ∧ t.rdata = s.rdata := by
    rw [(exec_touches h).1]; exact ⟨rfl, rfl, rfl, rfl, rfl, rfl, rfl⟩
  obtain ⟨hbuild, htxCfg, htxProps, hrxCfg, hrxCtx, hhost, hrdata⟩ := hbus
  refine ⟨hbuild, htxCfg, htxProps, hrxCfg, hrxCtx, hhost, hrdata, ?_, ?_, ?_⟩
  · rintro ⟨n, rfl | rfl | rfl⟩ <;> exact ⟨exec_keeps_tx h rfl, exec_keeps_rx h rfl⟩
  · rintro ⟨d, n, rfl | rfl | rfl | rfl⟩ <;> exact exec_keeps_rx h rfl
  · rintro ⟨d, n, rfl | rfl | rfl | rfl⟩ <;> exact exec_keeps_tx h rfl

/-- No command but RX_CREATE and RX_DESTROY changes the constants of the RX unit (R76). -/
theorem exec_sameInstance {i : Instr} {s t : State} (h : exec i s = .next t) (hc : ∀ d, i ≠ .rxCreate d)
    (hd : i ≠ .rxDestroy) : SameInstance t.rx s.rx := by
  cases exec_effect h with
  | rxCreate d => exact absurd rfl (hc d)
  | rxDestroy => exact absurd rfl hd
  | rxExecute n _ _ he _ _ hrun => exact runSamples_sameInstance (s := s.setRx { s.rx with execN := n, pos := 0 }) he hrun
  | rxAck _ _ _ hrun =>
    exact runSamples_sameInstance (s := resetFsm (s.setRx { s.rx with evt := false })) rfl hrun
  | _ => exact sameInstance_refl s.rx

/-- Settles O60: of the commands of the TX unit only TX_ASSEMBLE and TX_WRITESYMBOL are left, and they assign no constant. -/
theorem instanceConstants : Obligations.InstanceConstants := by
  intro i s t h
  refine ⟨exec_sameInstance h, fun hc hd => ?_⟩
  cases exec_effect h with
  | txCreate d => exact absurd rfl (hc d)
  | txDestroy => exact absurd rfl hd
  | rxCreate | rxExecute | rxAck | rxDestroy => simp only [exec_keeps_tx h rfl, and_self]
  | _ => exact ⟨rfl, rfl, rfl, rfl, rfl, rfl, rfl, rfl, rfl, rfl⟩

end Sys2Proof.Machine
end

section
/-! The TX record stays consistent (R74, R76, R231, R238): O52. -/

namespace Sys2Proof.Machine

variable {b : Build}

/-! ### What a CREATE makes of a table, in either unit -/

/-- The dimensions a CREATE takes from a table with a pilot and a data subcarrier agree with it (R230, R231, R300). -/
theorem dimsOk_of_table {m g : Nat} {t : List Byte} (hm : legalMG b m g = true) (hl : t.length = m) (ht : ValidTable t) :
    DimsOk b m g (m + g) (t.map roleOfCode) (indicesOf .data (t.map roleOfCode)) (indicesOf .pilot (t.map roleOfCode))
      (indicesOf .data (t.map roleOfCode)).length (indicesOf .pilot (t.map roleOfCode)).length
      (headerSymbols (indicesOf .data (t.map roleOfCode)).length) := by
  obtain ⟨hp, hd⟩ := mem_of_validTable ht
  have hnd := indicesOf_length_pos hd
  obtain ⟨h1, h2⟩ := headerSymbols_range hnd
  exact ⟨hm, rfl, by rw [List.length_map, hl], rfl, rfl, rfl, rfl, hnd, indicesOf_length_pos hp, rfl, h1, h2⟩

/-! ### The sequencer -/

/-- Before the end of the frame the sequencer has symbols to write (R238). -/
theorem lt_frameSymbols_of_txStateOf {u : TxUnit} {c : Nat} (h : txStateOf u c ≠ .done) : c < frameSymbols u := by
  unfold txStateOf at h
  unfold frameSymbols at h ⊢
  split_ifs at h with h1 h2 h3
  · omega
  · omega
  · exact h3
  · exact absurd rfl h

/-- Only legal properties with `npre = 3` are latched, so the record holds all of them (R231, R232). -/
theorem npre_of_legalProps {p : Props} (h : legalProps b p = true) : p.npre = nPre := by
  simp only [legalProps, Bool.and_eq_true, decide_eq_true_eq] at h
  exact h.2

/-- The header code has 210 bits (R180). -/
theorem headerCode_length {N : Num} {ms : List (Nat × Nat)} (X : Ext N ms) {uh : List Byte} (h : uh.length = 8) (len : Nat)
    (p : Props) : (headerCode X uh len p).length = hdrCodedBits := by
  have hb : (headerBytes uh len p).length = 13 := by simp [headerBytes, h]
  rw [headerCode, headerChain, X.fecEnc_length, List.length_append, bits_length, hb, X.crc_length]
  rfl

/-! ### Each command of the generator -/

theorem txInv_of_eq {s t : State} (hb : t.build = s.build) (htx : t.tx = s.tx) (h : TxInv s) : TxInv t := by
  unfold TxInv at *; rwa [hb, htx]

theorem txInv_reset {s : State} (h : s.tx = TxUnit.reset) : TxInv s := by
  refine ⟨fun _ => h, fun hc => ?_⟩
  rw [h] at hc
  cases hc

theorem txInv_created {s : State} {m g : Nat} {t : List Byte} {u : TxUnit} {p : Props}
    (hs : s.tx = txCreated u m g (t.map roleOfCode) p) (hm : legalMG s.build m g = true) (hl : t.length = m)
    (ht : ValidTable t) (hp : legalProps s.build p = true) : TxInv s := by
  have hprops : txProperties s.tx = p := by
    rw [hs]; cases p; cases npre_of_legalProps hp; rfl
  refine ⟨fun hc => by (rw [hs] at hc; cases hc), fun _ => ⟨?_, by rw [hprops]; exact hp, ?_, ?_⟩⟩
  · rw [hs]; exact dimsOk_of_table hm hl ht
  · rw [hs]; exact Nat.zero_le _
  · rw [hs]; exact fun h => absurd rfl h

/-- TX_ASSEMBLE rewinds the sequencer to the first symbol of a frame of at least one payload symbol (R233, R242). -/
theorem txInv_assembled {s t : State} {p : Props} {uh pb : List Byte} {len : Nat} {X : Ext Config.num s.build.modset}
    (hb : t.build = s.build) (ht : t.tx = txAssembled X s.tx p uh pb len) (h : TxInv s) (hc : s.tx.created = true)
    (hp : legalProps s.build p = true) (hu : uh.length = 8) : TxInv t := by
  obtain ⟨hdims, -⟩ := h.2 hc
  have hprops : txProperties t.tx = p := by
    rw [ht]; cases p; cases npre_of_legalProps hp; rfl
  refine ⟨fun hc' => absurd hc' (by rw [ht]; simp [txAssembled, hc]), fun _ => ⟨?_, ?_, ?_, fun _ => ?_⟩⟩
  · rw [ht, hb]; exact hdims
  · rw [hprops, hb]; exact hp
  · rw [ht]; exact Nat.zero_le _
  · rw [ht]; exact ⟨rfl, le_max_left _ _, by show 0 < nPre + _ + _; simp [nPre], headerCode_length X hu len p⟩

/-- TX_WRITESYMBOL moves the sequencer one symbol on (R236, R238). -/
theorem txInv_written {s t : State} (hb : t.build = s.build)
    (ht : t.tx = { s.tx with symcnt := s.tx.symcnt + 1, state := txStateOf s.tx (s.tx.symcnt + 1) }) (h : TxInv s)
    (hc : s.tx.created = true) (hd : s.tx.state ≠ .done) : TxInv t := by
  obtain ⟨hdims, hprops, -, hseq⟩ := h.2 hc
  obtain ⟨-, hnp, hlt, hhc⟩ := hseq hd
  refine ⟨fun hc' => absurd hc' (by rw [ht]; simp [hc]), fun _ => ⟨?_, ?_, ?_, fun hd' => ?_⟩⟩
  · rw [ht, hb]; exact hdims
  · rw [ht, hb]; exact hprops
  · rw [ht]; exact hlt
  · rw [ht] at hd' ⊢; exact ⟨rfl, hnp, lt_frameSymbols_of_txStateOf hd', hhc⟩

theorem exec_keeps_txInv (i : Instr) (s t : State) (hs : TxInv s) (h : exec i s = .next t) : TxInv t := by
  have hb := exec_keeps_build h
  cases exec_effect h with
  | answered | allocDefault => exact hs
  | txCreate d c n hm hl hv hp => exact txInv_created rfl hm hl hv hp
  | txAssemble len uh pb n hc _ hp hu => exact txInv_assembled hb rfl hs hc hp hu
  | txWriteSymbol w hc hd => exact txInv_written hb rfl hs hc hd
  | txDestroy => exact txInv_reset rfl
  | rxCreate | rxExecute | rxAck | rxDestroy => exact txInv_of_eq hb (exec_keeps_tx h rfl) hs

theorem busWrite_records (s : State) (a : BitVec 21) (v : Word) :
    (busWrite s a v).build = s.build ∧ (busWrite s a v).tx = s.tx ∧ (busWrite s a v).rx = s.rx := by
  unfold busWrite
  split
  · rename_i r _; cases r <;> exact ⟨rfl, rfl, rfl⟩
  · split <;> exact ⟨rfl, rfl, rfl⟩

/-- Settles O52: TX_CREATE, TX_ASSEMBLE, TX_WRITESYMBOL and TX_DESTROY each leave a consistent record, and nothing else
writes it but the reset. -/
theorem txRecordStaysConsistent : Obligations.TxRecordStaysConsistent := fun _ _ hs h =>
  step_keeps (P := TxInv) (fun _ _ hs => hs) (fun _ _ hs => hs)
    (fun s a v hs => txInv_of_eq (busWrite_records s a v).1 (busWrite_records s a v).2.1 hs) (fun _ hs => hs)
    (fun _ _ => txInv_reset rfl) exec_keeps_txInv hs h

end Sys2Proof.Machine
end

section
/-! The RX record stays consistent (R67, R75, R76, R301, R330): O53. -/

namespace Sys2Proof.Machine

variable {N : Num} {ms : List (Nat × Nat)} {X : Ext N ms}

/-! ### The part of the invariant that a sample can touch -/

/-- The synchronizer is out of RESET and its buffers have the sizes R75 gives. -/
def BuffersSized (r : RxUnit) : Prop :=
  r.state ≠ .reset ∧ r.hist.length = 2 * r.L ∧ r.sb.length = r.L ∧ r.H.length = r.M ∧ r.fill ≤ 2 * r.L ∧ r.sbn < r.L

/-- The part that only a CREATE or a DESTROY can touch: the dimensions and the training vectors (R76). -/
def ConstantsSized (b : Build) (r : RxUnit) : Prop :=
  DimsOk b r.M r.G r.L r.alloc r.D r.PL r.ND r.NPL r.NH ∧ r.s0t.length = r.L ∧ r.s1.length = r.M

theorem rxShapeInv_iff_of_created {s : State} (hc : s.rx.created = true) :
    RxShapeInv s ↔ ConstantsSized s.build s.rx ∧ BuffersSized s.rx := by
  simp only [RxShapeInv, ConstantsSized, BuffersSized, hc, Bool.true_eq_false, false_imp_iff, true_imp_iff, true_and]
  tauto

theorem constantsSized_of_sameInstance {b : Build} {r q : RxUnit} (h : SameInstance r q) (hq : ConstantsSized b q) :
    ConstantsSized b r := by
  obtain ⟨-, hM, hG, hL, -, halloc, hD, hPL, hND, hNPL, hNH, hs0t, -, hs1⟩ := h
  unfold ConstantsSized
  rw [hM, hG, hL, halloc, hD, hPL, hND, hNPL, hNH, hs0t, hs1]
  exact hq

/-! ### One sample keeps the sizes of the buffers -/

theorem push_sized (x : Cplx) {r : RxUnit} (h : BuffersSized r) : BuffersSized (push x r) := by
  obtain ⟨hst, hhist, hsb, hH, -, hsbn⟩ := h
  have hpos : 0 < r.hist.length := by omega
  exact ⟨hst, (push_hist_length x r hpos).trans hhist, hsb, hH, Nat.min_le_right _ _, hsbn⟩

/-- A state that is not RESET may be entered; no buffer changes. -/
theorem BuffersSized.enter {r q : RxUnit} (h : BuffersSized r) (hs : q.state ≠ .reset) (hq : q.hist = r.hist ∧ q.sb = r.sb ∧
    q.H = r.H ∧ q.fill = r.fill ∧ q.L = r.L ∧ q.M = r.M ∧ q.sbn ≤ r.sbn) : BuffersSized q := by
  obtain ⟨-, hhist, hsb, hH, hfill, hsbn⟩ := h
  obtain ⟨e1, e2, e3, e4, e5, e6, e7⟩ := hq
  unfold BuffersSized
  rw [e1, e2, e3, e4, e5, e6]
  exact ⟨hs, hhist, hsb, hH, hfill, e7.trans_lt hsbn⟩

theorem seekStep_sized (b : Build) (x : Cplx) {r : RxUnit} (h : BuffersSized r) : BuffersSized (seekStep b N x r) := by
  have hp := push_sized x h
  unfold seekStep
  simp only
  split
  · split
    · exact hp.enter nofun ⟨rfl, rfl, rfl, rfl, rfl, rfl, le_rfl⟩
    · exact hp
  · exact hp

theorem shortStep_sized (x : Cplx) {r : RxUnit} (h : BuffersSized r) : BuffersSized (shortStep N x r) := by
  have hp : BuffersSized (push x { r with jj := r.jj + 1 }) := push_sized x h
  obtain ⟨q, p1, p2, p3, p4, rfl, ⟨-, hq⟩ | ⟨-, hq⟩⟩ := shortStep_cases N x r
  · rw [hq]; exact hp.enter nofun ⟨rfl, rfl, rfl, rfl, rfl, rfl, Nat.zero_le _⟩
  · rw [hq]; exact hp

theorem longSymbol_sized (b : Build) (Y : List Cplx) {r : RxUnit} (h : BuffersSized r) :
    BuffersSized (longSymbol b N Y r) := by
  obtain ⟨-, hhist, hsb, -, hfill, hsbn⟩ := h
  exact ⟨nofun, hhist, hsb, by simp [longSymbol, channelEstimate], hfill, hsbn⟩

theorem headerSymbol_sized (Y : List Cplx) {s : State} (h : BuffersSized s.rx) : BuffersSized (headerSymbol N X Y s).rx := by
  obtain ⟨r, rfl, ⟨-, hr⟩ | ⟨-, -, hr⟩ | ⟨-, -, hr⟩⟩ := headerSymbol_cases N X Y s
  · rw [hr]; exact h
  · rw [hr]; exact h.enter nofun ⟨rfl, rfl, rfl, rfl, rfl, rfl, le_rfl⟩
  · rw [hr]; exact h

theorem payloadSymbol_sized (Y : List Cplx) {s : State} (h : BuffersSized s.rx) : BuffersSized (payloadSymbol N X Y s).rx := by
  obtain ⟨r, rfl, ⟨-, hr⟩ | ⟨-, hr⟩⟩ := payloadSymbol_cases N X Y s <;> rw [hr] <;> exact h

/-- A sample fills one place of the symbol buffer; a full buffer is a symbol and starts again (R323). -/
theorem symbolStep_sized (x : Cplx) {s : State} (h : BuffersSized s.rx) : BuffersSized (symbolStep N X x s).rx := by
  obtain ⟨hst, hhist, hsb, hH, hfill, hsbn⟩ := h
  have hsb' := (collect_sb_length (N := N) x s.rx).trans hsb
  rcases symbolStep_cases N X x s with ⟨hne, hr⟩ | ⟨r, Y, rfl, -, -, hr⟩
  · rw [hr]; exact ⟨hst, hhist, hsb', hH, hfill, Nat.lt_of_le_of_ne hsbn hne⟩
  · have hfull : BuffersSized { collect N x s.rx with sbn := 0 } := ⟨hst, hhist, hsb', hH, hfill, Nat.zero_lt_of_lt hsbn⟩
    rcases hr with ⟨-, hr⟩ | ⟨-, hr⟩ | ⟨-, hr⟩ | ⟨-, -, -, hr⟩ <;> rw [hr]
    · exact longSymbol_sized s.build Y hfull
    · exact headerSymbol_sized Y hfull
    · exact payloadSymbol_sized Y hfull
    · exact hfull

theorem sampleStep_sized (x : Cplx) {s : State} (h : BuffersSized s.rx) : BuffersSized (sampleStep N X x s).rx := by
  unfold sampleStep
  split
  · exact seekStep_sized s.build x h
  · exact shortStep_sized x h
  · exact symbolStep_sized x h
  · exact symbolStep_sized x h
  · exact symbolStep_sized x h
  · rename_i hreset; exact absurd hreset h.1

theorem runSamples_sized {k : Nat} {s t : State} (h : runSamples N X k s = .next t) (he : s.rx.evt = false)
    (hs : BuffersSized s.rx) : BuffersSized t.rx :=
  runSamples_keeps_step (P := fun t => BuffersSized t.rx) (fun x _ _ hs _ => sampleStep_sized x hs) (fun _ _ hs => hs) hs he h

/-! ### Each command of the synchronizer -/

/-- RESET gives every buffer its size (R330). -/
theorem resetRecord_sized {r : RxUnit} (h : 0 < r.L) : BuffersSized (resetRecord r) :=
  ⟨nofun, List.length_replicate, List.length_replicate, List.length_replicate, Nat.zero_le _, h⟩

/-- A newly created unit has its dimensions from its table and training vectors of M samples, the short one with G guard samples
(R300, R301). -/
theorem rxCreated_sized {b : Build} {m g : Nat} {t : List Byte} (ctx : Word) (u : RxUnit) (hm : legalMG b m g = true)
    (hl : t.length = m) (ht : ValidTable t) : ConstantsSized b (rxCreated Config.num ctx u m g (t.map roleOfCode)) := by
  have hlen : (t.map roleOfCode).length = m := by rw [List.length_map, hl]
  have hg : g ≤ (trainShort (t.map roleOfCode)).length := by
    rw [trainShort_length, hlen]; exact (legalM_of_legalMG hm).2
  refine ⟨dimsOk_of_table hm hl ht, ?_, ?_⟩
  · exact (ofdm_length Config.num hg).trans (by rw [trainShort_length, hlen]; rfl)
  · exact (trainLong_length _).trans hlen

theorem rxShapeInv_of_eq {s t : State} (hb : t.build = s.build) (hrx : t.rx = s.rx) (h : RxShapeInv s) : RxShapeInv t := by
  unfold RxShapeInv at *; rwa [hb, hrx]

theorem rxShapeInv_reset {s : State} (h : s.rx = RxUnit.reset) : RxShapeInv s := by
  refine ⟨by rw [h]; decide, fun _ => h, fun hc => ?_⟩
  rw [h] at hc
  cases hc

/-- A run in a created unit keeps its constants, and its buffers their sizes. -/
theorem rxShapeInv_run {s u t : State} {k : Nat} (hb : t.build = s.build)
    (h : runSamples N X k u = .next t) (he : u.rx.evt = false) (hu : SameInstance u.rx s.rx) (hc : s.rx.created = true)
    (hs : ConstantsSized s.build s.rx) (hsz : BuffersSized u.rx) : RxShapeInv t := by
  have hsame := sameInstance_trans (runSamples_sameInstance he h) hu
  rw [rxShapeInv_iff_of_created (hsame.1.trans hc), hb]
  exact ⟨constantsSized_of_sameInstance hsame hs, runSamples_sized h he hsz⟩

theorem exec_keeps_rxShapeInv (i : Instr) (s t : State) (hs : RxShapeInv s) (h : exec i s = .next t) : RxShapeInv t := by
  have hb := exec_keeps_build h
  cases exec_effect h with
  | answered | allocDefault => exact hs
  | txCreate | txAssemble | txWriteSymbol | txDestroy => exact rxShapeInv_of_eq hb (exec_keeps_rx h rfl) hs
  | rxCreate d c n _ hm hl hv =>
    have hconst := rxCreated_sized s.rxCtx s.rx hm hl hv
    have hpos : 0 < cfgM s.rxCfg + cfgG s.rxCfg := by
      have := (legalM_iff _).1 (legalM_of_legalMG hm).1; omega
    exact (rxShapeInv_iff_of_created rfl).2 ⟨hconst, resetRecord_sized hpos⟩
  | rxExecute n _ hc he _ _ hrun =>
    obtain ⟨hconst, hsized⟩ := (rxShapeInv_iff_of_created hc).1 hs
    exact rxShapeInv_run hb hrun he (sameInstance_refl s.rx) hc hconst hsized
  | rxAck _ hc _ hrun =>
    obtain ⟨hconst, -, -, -, -, -, hsbn⟩ := (rxShapeInv_iff_of_created hc).1 hs
    exact rxShapeInv_run hb hrun rfl (sameInstance_refl s.rx) hc hconst (resetRecord_sized (Nat.zero_lt_of_lt hsbn))
  | rxDestroy => exact rxShapeInv_reset rfl

/-- Settles O53: RX_CREATE and RESET set up the sizes, and a run of samples keeps them by `sampleStep_sized`. -/
theorem rxRecordStaysConsistent : Obligations.RxRecordStaysConsistent := fun _ _ hs h =>
  step_keeps (P := RxShapeInv) (fun _ _ hs => hs) (fun _ _ hs => hs)
    (fun s a v hs => rxShapeInv_of_eq (busWrite_records s a v).1 (busWrite_records s a v).2.2 hs) (fun _ hs => hs)
    (fun _ _ => rxShapeInv_reset rfl) exec_keeps_rxShapeInv hs h

end Sys2Proof.Machine
end

section
/-! The command's counters, the pending event and the result record stay consistent (R68, R71, R308, R415): O54. -/

namespace Sys2Proof.Machine

variable {N : Num} {ms : List (Nat × Nat)} {X : Ext N ms}

/-! ### The part of the invariant about the event -/

/-- A pending event is of a created unit in a state that posts one; with none pending the result record is empty. -/
def EventShown (s : State) : Prop :=
  (s.rx.evt = true → s.rx.created = true ∧ (s.rx.state = .header ∨ s.rx.state = .payload)) ∧
    (s.rx.evt = false → ResultEmpty s)

theorem eventInv_iff (s : State) :
    EventInv s ↔ EventShown s ∧ s.rx.pos ≤ s.rx.execN ∧ s.rx.execN ≤ s.build.nBuf := by
  unfold EventInv EventShown; tauto

/-- RESET empties the result record (R330). -/
theorem resultEmpty_resetFsm (s : State) : ResultEmpty (resetFsm s) :=
  ⟨rfl, rfl, rfl, rfl, rfl, rfl, rfl, fun _ => memPeek_memClear_resPay s.mem⟩

theorem eventShown_of_resultEmpty {s : State} (he : s.rx.evt = false) (h : ResultEmpty s) : EventShown s :=
  ⟨fun h' => Bool.noConfusion (he.symm.trans h'), fun _ => h⟩

theorem resultEmpty_quiet {s : State} {r : RxUnit} (hq : Quiet s.build r s.rx) (h : ResultEmpty s) :
    ResultEmpty (s.setRx r) := by
  obtain ⟨-, -, -, q1, q2, q3, q4, q5, q6, q7⟩ := hq
  obtain ⟨h1, h2, h3, h4, h5, h6, h7, hmem⟩ := h
  exact ⟨q1.trans h1, q2.trans h2, q3.trans h3, q4.trans h4, q5.trans h5, q6.trans h6, q7.trans h7, hmem⟩

/-! ### A run of samples -/

/-- What one sample does with no event pending: it leaves the result record empty, or posts an event from a header or a
payload state (R328). -/
theorem SampleEffect.eventShown {s t : State} (h : SampleEffect s t) (hc : s.rx.created = true) (he : s.rx.evt = false)
    (hs : ResultEmpty s) : EventShown t := by
  obtain ⟨r, hq, rfl | ⟨rfl, hst⟩ | ⟨ok, b, rfl, hst, -⟩⟩ := h
  · have ⟨_, ⟨hevt, _⟩, _⟩ := hq
    exact eventShown_of_resultEmpty (hevt.trans he) (resultEmpty_quiet hq hs)
  · obtain ⟨⟨hcreated, -⟩, -⟩ := hq
    exact ⟨fun _ => ⟨hcreated.trans hc, .inl hst⟩, nofun⟩
  · obtain ⟨⟨hcreated, -⟩, -⟩ := hq
    exact ⟨fun _ => ⟨hcreated.trans hc, .inr hst⟩, nofun⟩

theorem sampleStep_eventShown (x : Cplx) {s : State} (hc : s.rx.created = true) (he : s.rx.evt = false)
    (hs : ResultEmpty s) : EventShown (sampleStep N X x s) := by
  rcases sampleStep_effect N X x s with ⟨-, h⟩ | ⟨-, h⟩
  · exact h.eventShown hc he hs
  · exact h.eventShown hc he (resultEmpty_resetFsm s)

theorem runSamples_eventShown {k : Nat} {s t : State} (h : runSamples N X k s = .next t) (hc : s.rx.created = true)
    (he : s.rx.evt = false) (hs : ResultEmpty s) : EventShown t := by
  refine (runSamples_keeps_step (P := fun t => t.rx.created = true ∧ EventShown t) ?_ (fun _ _ hs => hs)
    ⟨hc, eventShown_of_resultEmpty he hs⟩ he h).2
  rintro x u d ⟨hcu, hu⟩ heu
  exact ⟨(sampleStep_sameInstance x _).1.trans hcu, sampleStep_eventShown x hcu heu (hu.2 heu)⟩

/-- A run of `k` samples advances `pos` by at most `k` and leaves `exec_n` (R304). -/
theorem runSamples_counters {k : Nat} {s t : State} (h : runSamples N X k s = .next t) :
    t.rx.execN = s.rx.execN ∧ t.rx.pos ≤ s.rx.pos + k := by
  induction k generalizing s with
  | zero => cases h; exact ⟨rfl, le_rfl⟩
  | succ k ih =>
    rw [runSamples] at h
    cases hc : consume N X s with
    | none => simp only [hc] at h; cases h
    | some u =>
      have hu : u.rx.execN = s.rx.execN ∧ u.rx.pos = s.rx.pos + 1 := by
        obtain ⟨-, -, rfl⟩ := consume_cases hc
        exact sampleStep_counters _ _
      simp only [hc] at h
      split at h
      · cases h; exact ⟨hu.1, by rw [respond_rx]; omega⟩
      · have := ih h; omega

/-- A run of `k` samples from an empty result record keeps the invariant, if `pos + k` stays within `exec_n`. -/
theorem eventInv_run {k : Nat} {s t : State} (h : runSamples N X k s = .next t) (hb : t.build = s.build)
    (hc : s.rx.created = true) (he : s.rx.evt = false) (hs : ResultEmpty s) (hk : s.rx.pos + k ≤ s.rx.execN)
    (hn : s.rx.execN ≤ s.build.nBuf) : EventInv t := by
  obtain ⟨hexec, hpos⟩ := runSamples_counters h
  rw [eventInv_iff, hexec, hb]
  exact ⟨runSamples_eventShown h hc he hs, hpos.trans hk, hn⟩

/-! ### The memory outside RES_PAY -/

/-- Every byte of RES_PAY reads in one state as in the other. -/
def SameResPay (s t : State) : Prop :=
  ∀ a, inRegion s.build .resPay a = true → memPeek s.build t.mem a = memPeek s.build s.mem a

theorem eventInv_of_eq {s t : State} (hb : t.build = s.build) (hrx : t.rx = s.rx) (hm : SameResPay s t) (h : EventInv s) :
    EventInv t := by
  unfold EventInv ResultEmpty at *
  rw [hb, hrx]
  obtain ⟨hevt, hpos, hexec, hempty⟩ := h
  refine ⟨hevt, hpos, hexec, fun he => ?_⟩
  obtain ⟨h1, h2, h3, h4, h5, h6, h7, hmem⟩ := hempty he
  exact ⟨h1, h2, h3, h4, h5, h6, h7, fun a ha => (hm a ha).trans (hmem a ha)⟩

theorem resPay_le {b : Build} {a : Nat} (h : inRegion b .resPay a = true) : 0x050000 ≤ a := ((inRegion_iff _ _).1 h).1

/-- ALLOC_DEFAULT writes M words from the start of ALLOC on (R101, R201). -/
theorem sameResPay_putAlloc {s t : State} {m : Nat} (hs : MemInv s) (hm : legalM s.build m = true)
    (ht : t.mem = putAlloc s.build s.mem 0 (initDefault m)) : SameResPay s t := by
  intro a ha
  have hbase := resPay_le ha
  have hmax := s.build.mMax_range.2
  have hm := ((legalM_iff m).1 hm).2.2
  rw [ht, memPeek_putAlloc ((memory_wf_iff _).1 hs).1, if_neg]
  rw [initDefault_length]
  simp only [allocAddr, regionBase]
  omega

/-- TX_WRITESYMBOL writes at most 2·M_MAX samples from the start of TX_SYM on (R100, R236). -/
theorem sameResPay_txSym {s t : State} {z : List Cplx} (hs : MemInv s) (hz : z.length ≤ 2 * s.build.mMax)
    (ht : t.mem = memPutBytes s.build s.mem (regionBase .txSym) (z.flatMap (sampleBytes Config.num))) : SameResPay s t := by
  intro a ha
  have hbase := resPay_le ha
  have hmax := s.build.mMax_range.2
  rw [ht, memPeek_memPutBytes ((memory_wf_iff _).1 hs).1, if_neg]
  rw [sampleBytes_length]
  simp only [regionBase]
  omega

/-- A symbol of a consistent record has at most 2·M_MAX samples (R231, R236). -/
theorem txSymbol_length_le {s : State} (h : TxInv s) (hc : s.tx.created = true) :
    (txSymbol Config.num (Config.ext s.build.modset) s.tx).length ≤ 2 * s.build.mMax := by
  obtain ⟨⟨hm, hL, -⟩, -⟩ := h.2 hc
  obtain ⟨hM, hG⟩ := legalM_of_legalMG hm
  have hM := ((legalM_iff _).1 hM).2.2
  have : (txSymbol Config.num (Config.ext s.build.modset) s.tx).length ≤ s.tx.L := List.length_take_le _ _
  omega

/-- An accepted write leaves RES_PAY as it reads (R105): a word outside it has no byte inside. -/
theorem sameResPay_busWrite {s : State} {a : BitVec 21} {n : Nat} (v : Word) (hs : MemInv s)
    (hok : accessOk s.build a n = true) : SameResPay s (busWrite s a v) := by
  intro x hx
  unfold busWrite
  split
  · rename_i r _; cases r <;> rfl
  split
  · rfl
  · rfl
  · rename_i hne
    have halign := ((accessOk_iff a n).1 hok).2.1
    have hout : ¬ inRegion s.build .resPay a.toNat = true := fun h => hne (regionOf_of_inRegion h)
    rw [State.setMem_mem, memPeek_memPutWord ((memory_wf_iff _).1 hs).1, if_neg]
    rw [inRegion_iff] at hout hx
    simp only [regionBase, regionSize] at hout hx
    omega

/-! ### Each command -/

theorem eventInv_reset {s : State} (hrx : s.rx = RxUnit.reset)
    (hm : ∀ a, inRegion s.build .resPay a = true → memPeek s.build s.mem a = some 0) : EventInv s := by
  unfold EventInv ResultEmpty
  rw [hrx]
  exact ⟨nofun, le_rfl, Nat.zero_le _, fun _ => ⟨rfl, rfl, rfl, rfl, rfl, rfl, rfl, hm⟩⟩

theorem eventInv_resetFsm {s : State} (he : s.rx.evt = false) (hpos : s.rx.pos ≤ s.rx.execN)
    (hexec : s.rx.execN ≤ s.build.nBuf) : EventInv (resetFsm s) :=
  (eventInv_iff _).2 ⟨eventShown_of_resultEmpty he (resultEmpty_resetFsm s), hpos, hexec⟩

theorem exec_keeps_eventInv {i : Instr} {s t : State} (hmem : MemInv s) (htx : TxInv s) (hs : EventInv s)
    (h : exec i s = .next t) : EventInv t := by
  have hb := exec_keeps_build h
  have ⟨_, hpos, hexec, hempty⟩ := hs
  cases exec_effect h with
  | answered => exact hs
  | allocDefault m hm => exact eventInv_of_eq hb rfl (sameResPay_putAlloc hmem hm rfl) hs
  | txCreate | txAssemble | txDestroy => exact eventInv_of_eq hb rfl (fun _ _ => rfl) hs
  | txWriteSymbol w hc => exact eventInv_of_eq hb rfl (sameResPay_txSym hmem (txSymbol_length_le htx hc) rfl) hs
  | rxCreate => exact eventInv_resetFsm rfl le_rfl (Nat.zero_le _)
  | rxExecute n _ hc he _ hn hrun =>
    exact eventInv_run hrun hb hc he (hempty he) (Nat.zero_add n).le hn
  | rxAck _ hc _ hrun =>
    exact eventInv_run hrun hb hc rfl (resultEmpty_resetFsm _) (Nat.add_sub_cancel' hpos).le hexec
  | rxDestroy => exact eventInv_reset rfl fun _ => memPeek_memClear_resPay s.mem

/-- After the platform's reset RES_PAY reads 0 (R116, R450). -/
theorem eventInv_hardwareReset (s : State) : EventInv (hardwareReset s) :=
  eventInv_reset rfl fun _ ha => unlisted_resPay ha

/-- Settles O54: only a run posts an event, from a header or a payload state, and no access but RESET and an event writes
the result record. -/
theorem eventStaysConsistent : Obligations.EventStaysConsistent := by
  intro s t hmem htx hs h
  rcases step_cases h with ⟨-, rfl⟩ | ⟨x, rest, -, h⟩
  · exact hs
  rcases h with ⟨a, n, -, -, rfl⟩ | ⟨a, n, v, -, hok, -, rfl⟩ | ⟨n, v, i, -, -, -, h⟩ | ⟨n, v, e, -, -, -, rfl⟩ | ⟨-, rfl⟩
  · exact hs
  · obtain ⟨hb, -, hrx⟩ := busWrite_records (s.setHost rest) a v
    exact eventInv_of_eq hb hrx (sameResPay_busWrite (s := s.setHost rest) v hmem hok) hs
  · exact exec_keeps_eventInv (s := s.setHost rest) hmem htx hs h
  · exact hs
  · exact eventInv_hardwareReset _

end Sys2Proof.Machine
end

section
/-! What RESP can hold (R57, R152): O13. -/

namespace Sys2Proof.Machine

theorem statusCode_le (st : Status) : statusCode st ≤ 0x0A := by cases st <;> decide

/-- The answer of a command without samples is its status code (R57). -/
theorem respond_eq (st : Status) (s : State) : respond st s = s.setResp (BitVec.ofNat 32 (statusCode st)) := by
  rw [respond, respWord_eq]; simp

/-! ### The fields of a RESP word -/

theorem respWord_status (st : Status) (l : Bool) (n : Nat) :
    (respWord st l n).extractLsb' 0 8 = BitVec.ofNat 8 (statusCode st) := by
  have hst := statusCode_le st
  rw [respWord_eq]
  apply BitVec.eq_of_toNat_eq
  cases l <;> simp <;> omega

theorem respWord_reserved (st : Status) (l : Bool) (n : Nat) : (respWord st l n).extractLsb' 9 7 = 0 := by
  have hst := statusCode_le st
  rw [respWord_eq]
  apply BitVec.eq_of_toNat_eq
  cases l <;> simp [Nat.shiftRight_eq_div_pow] <;> omega

/-- With `is_last` and `samples_written` 0 the word is the status alone. -/
theorem respWord_noSamples (st : Status) :
    (respWord st false 0).extractLsb' 8 1 = 0 ∧ (respWord st false 0).extractLsb' 16 16 = 0 := by
  cases st <;> decide

/-! ### The answer of a command -/

theorem exec_txWriteSymbol_resp {s t : State} (h : exec .txWriteSymbol s = .next t) :
    (∃ st, t.resp = respWord st false 0) ∨ ∃ l n, t.resp = respWord .ok l n := by
  have h : Host.Outcome.next (txWriteSymbol s) = .next t := h
  cases h
  unfold txWriteSymbol
  split
  · exact .inl ⟨_, rfl⟩
  · split
    · exact .inl ⟨_, rfl⟩
    · exact .inr ⟨_, _, rfl⟩

/-- A command answers with a status alone, but for a TX_WRITESYMBOL that returns OK. -/
theorem exec_resp {i : Instr} {s t : State} (h : exec i s = .next t) :
    (∃ st, t.resp = respWord st false 0) ∨ (i = .txWriteSymbol ∧ ∃ l n, t.resp = respWord .ok l n) := by
  cases exec_effect h with
  | txWriteSymbol w => exact (exec_txWriteSymbol_resp h).imp_right fun hok => ⟨rfl, hok⟩
  | rxExecute _ _ _ _ _ _ hrun | rxAck _ _ _ hrun =>
    obtain ⟨u, rfl | rfl⟩ := runSamples_next hrun <;> exact .inl ⟨_, rfl⟩
  | _ => exact .inl ⟨_, rfl⟩

/-- Settles O13: the two forms of an answer, each with the fields of its RESP word. -/
theorem responseFields : Obligations.ResponseFields := by
  intro i s t h
  have status : ∀ st : Status, (BitVec.ofNat 8 (statusCode st)).toNat ≤ 0x0A := by intro st; cases st <;> decide
  rcases exec_resp h with ⟨st, hr⟩ | ⟨hi, l, n, hr⟩
  · obtain ⟨hlast, hsamples⟩ := respWord_noSamples st
    rw [hr, respWord_status]
    exact ⟨status st, respWord_reserved _ _ _, fun h => (h.elim (· hlast) (· hsamples)).elim⟩
  · rw [hr, respWord_status]
    exact ⟨status .ok, respWord_reserved _ _ _, fun _ => ⟨hi, rfl⟩⟩

end Sys2Proof.Machine
end

section
/-! TX_CREATE (R58, R59, R230, R231): O20 and O21. -/

namespace Sys2Proof.Machine

/-! ### The operands of a CREATE -/

theorem cfgM_eq (w : Word) : cfgM w = w.toNat % 65536 := by simp [cfgM]

theorem cfgG_eq (w : Word) : cfgG w = w.toNat / 65536 := by
  have := w.isLt
  simp [cfgG, Nat.shiftRight_eq_div_pow]; omega

theorem legalMG_iff {b : Build} {m g : Nat} :
    legalMG b m g = true ↔ (m % 2 = 0 ∧ 16 ≤ m ∧ m ≤ b.mMax) ∧ g ≤ m := by
  rw [legalMG, Bool.and_eq_true, legalM_iff, decide_eq_true_eq]

/-- The first creation check fails on each of its four counts (R231, R301). -/
theorem legalMG_eq_false {b : Build} {m g : Nat} (h : m % 2 = 1 ∨ m < 16 ∨ b.mMax < m ∨ m < g) : legalMG b m g = false := by
  rw [Bool.eq_false_iff, ne_eq, legalMG_iff]; omega

/-- The fields of R59 in numbers. -/
theorem propsOf_eq (w : Word) : propsOf w =
    { crc := w.toNat % 16, fi := w.toNat / 2 ^ 4 % 16, fo := w.toNat / 2 ^ 8 % 16, mm := w.toNat / 2 ^ 12 % 16,
      md := w.toNat / 2 ^ 16 % 16, npre := w.toNat / 2 ^ 20 % 16 } := by
  simp [propsOf, Nat.shiftRight_eq_div_pow]

theorem tableArg_default (m : Nat) (s : State) : tableArg true m s = ((initDefault m).map roleCode, s.draws) := rfl

/-- A table that ALLOC holds is the argument, and reading it takes no draw (R153). -/
theorem tableArg_alloc {s : State} {t : List Byte} {m : Nat} (hl : t.length = m) (h : TableIs s t) :
    tableArg false m s = (t, s.draws) := by
  subst hl; exact allocCodes_of_tableIs h

theorem validAlloc_eq_false {t : List Byte} (h : ¬ ValidTable t) : validAlloc t = false := by
  rwa [Bool.eq_false_iff, ne_eq, validAlloc_iff]

/-- The subcarriers of a role, by what the table answers at each (R74). -/
theorem filter_role_eq_indicesOf (r : Role) (c : List Role) :
    (List.range c.length).filter (fun k => decide (c.getD k .null = r)) = indicesOf r c := by
  refine List.filter_congr fun k hk => ?_
  have hk := List.mem_range.1 hk
  simp only [List.getD_eq_getElem _ _ hk, List.getElem?_eq_getElem hk, Option.some.injEq]

/-! ### What TX_CREATE answers -/

theorem exec_txCreate_illegal {s : State} (d : Bool) (h : legalMG s.build (cfgM s.txCfg) (cfgG s.txCfg) = false) :
    exec (.txCreate d) s = .next (respond .configurationError s) := by
  show Host.Outcome.next (txCreate d s) = _
  simp [txCreate, h]

/-- TX_CREATE on a table that takes no draw: all the checks of R231 in one. -/
theorem exec_txCreate_of_table {s : State} {d : Bool} {t : List Byte} (ht : tableArg d (cfgM s.txCfg) s = (t, s.draws)) :
    exec (.txCreate d) s = .next
      (if legalMG s.build (cfgM s.txCfg) (cfgG s.txCfg) = true ∧ validAlloc t = true ∧
          legalProps s.build (propsOf s.txProps) = true
        then respond .ok
          (s.setTx (txCreated s.tx (cfgM s.txCfg) (cfgG s.txCfg) (t.map roleOfCode) (propsOf s.txProps)))
        else respond .configurationError s) := by
  show Host.Outcome.next (txCreate d s) = _
  have hdraws : s.setDraws s.draws = s := rfl
  simp only [txCreate, ht, hdraws, Bool.and_eq_true, ite_and]

/-- Settles O20: with every check passed the record is `txCreated`, its fields written in numbers. -/
theorem txCreateCompletes : Obligations.TxCreateCompletes := by
  intro s d c M G D PL hM hG hD hPL heven hmin hmax hGM hprops hc
  have hcM : cfgM s.txCfg = M := (cfgM_eq _).trans hM.symm
  have hcG : cfgG s.txCfg = G := (cfgG_eq _).trans hG.symm
  have hlegal : legalMG s.build M G = true := legalMG_iff.2 ⟨⟨heven, hmin, hmax⟩, hGM⟩
  have hlen : c.length = M := by
    rcases hc with ⟨-, rfl⟩ | ⟨-, hl, -⟩
    · exact initDefault_length M
    · exact hl
  have htable : tableArg d M s = (c.map roleCode, s.draws) := by
    rcases hc with ⟨rfl, rfl⟩ | ⟨rfl, hl, ht, -⟩
    · exact tableArg_default M s
    · exact tableArg_alloc ((List.length_map _).trans hl) ht
  have hvalid : validAlloc (c.map roleCode) = true := by
    rcases hc with ⟨-, rfl⟩ | ⟨-, -, -, hp, hd⟩
    · exact validAlloc_initDefault (legalM_of_legalMG hlegal).1
    · exact (validAlloc_iff _).2 (validTable_map hp hd)
  rw [← hlen, filter_role_eq_indicesOf] at hD hPL
  rw [exec_txCreate_of_table (t := c.map roleCode) (by rw [hcM]; exact htable), hcM, hcG, if_pos ⟨hlegal, hvalid, hprops⟩,
    map_roleOfCode_roleCode, propsOf_eq, respond_eq, hD, hPL]
  rfl

/-- Settles O21: a check of R231 that fails leaves only the answer. -/
theorem txCreateFailures : Obligations.TxCreateFailures := by
  intro s d c M G hM hG
  have hcM : cfgM s.txCfg = M := (cfgM_eq _).trans hM.symm
  have hcG : cfgG s.txCfg = G := (cfgG_eq _).trans hG.symm
  have hresp : respond .configurationError s = s.setResp 0x00000001 := respond_eq _ _
  rw [← hresp]
  refine ⟨fun h => ?_, fun hl ht hv => ?_, fun hp => ?_, fun hl ht hp => ?_⟩
  · exact exec_txCreate_illegal d (by rw [hcM, hcG]; exact legalMG_eq_false h)
  · rw [exec_txCreate_of_table (tableArg_alloc (hl.trans hcM.symm) ht), if_neg]
    simp [validAlloc_eq_false hv]
  · rw [exec_txCreate_of_table (tableArg_default _ s), if_neg]
    simp [hp]
  · rw [exec_txCreate_of_table (tableArg_alloc (hl.trans hcM.symm) ht), if_neg]
    simp [hp]

end Sys2Proof.Machine
end

section
/-! The failures of the synchronizer's commands, and the refusal of a sample that is no number (R16, R65, R300, R301, R303,
R305, R306, R402): O31. -/

namespace Sys2Proof.Machine

variable {N : Num} {ms : List (Nat × Nat)} {X : Ext N ms}

/-! ### RX_CREATE -/

theorem exec_rxCreate_illegal {s : State} (d : Bool) (he : s.rx.evt = false)
    (h : legalMG s.build (cfgM s.rxCfg) (cfgG s.rxCfg) = false) :
    exec (.rxCreate d) s = .next (respond .configurationError s) := by
  show Host.Outcome.next (rxCreate d s) = _
  simp [rxCreate, he, h]

/-- RX_CREATE on a table that takes no draw and is not valid. -/
theorem exec_rxCreate_invalid {s : State} {d : Bool} {t : List Byte} (he : s.rx.evt = false)
    (ht : tableArg d (cfgM s.rxCfg) s = (t, s.draws)) (hv : validAlloc t = false) :
    exec (.rxCreate d) s = .next (respond .configurationError s) := by
  show Host.Outcome.next (rxCreate d s) = _
  have hdraws : s.setDraws s.draws = s := rfl
  simp [rxCreate, he, ht, hv, hdraws]

/-! ### The checks of the other commands, in their order -/

theorem exec_rx_notCreated {s : State} (hc : s.rx.created = false) (n : Nat) :
    exec (.rxExecute n) s = .next (respond .notCreated s) ∧ exec .rxAck s = .next (respond .notCreated s) ∧
      exec .rxDestroy s = .next (respond .notCreated s) := by
  refine ⟨?_, ?_, ?_⟩
  · show execRxExecute n s = _; simp [execRxExecute, hc]
  · show execRxAck s = _; simp [execRxAck, hc]
  · show Host.Outcome.next (rxDestroy s) = _; simp [rxDestroy, hc]

theorem exec_rxExecute_range {s : State} {n : Nat} (hc : s.rx.created = true) (he : s.rx.evt = false)
    (hn : s.build.nBuf < n) : exec (.rxExecute n) s = .next (respond .argumentRange s) := by
  show execRxExecute n s = _
  simp [execRxExecute, hc, he, hn]

theorem exec_rxAck_noEvent {s : State} (hc : s.rx.created = true) (he : s.rx.evt = false) :
    exec .rxAck s = .next (respond .noEvent s) := by
  show execRxAck s = _
  simp [execRxAck, hc, he]

theorem exec_rxExecute_zero {s : State} (hc : s.rx.created = true) (he : s.rx.evt = false) :
    exec (.rxExecute 0) s = .next (respond .ok s) := by
  show execRxExecute 0 s = _
  simp [execRxExecute, hc, he]

/-! ### A run that comes to a sample that is no number -/

/-- A state with another `exec_n`. -/
def withExecN (s : State) (e : Nat) : State := s.setRx (recount s.rx s.rx.pos e)

/-- Sample `i` has a word that is a NaN or an infinity (R16). -/
def BadSample (s : State) (i : Nat) : Prop :=
  f32Finite (sampleWords s i).1 = false ∨ f32Finite (sampleWords s i).2.1 = false

theorem consume_eq_none {s : State} (h : BadSample s s.rx.pos) : consume N X s = none := by
  rcases h with h | h <;> simp [consume, h]

theorem runSamples_bad {s : State} (h : BadSample s s.rx.pos) (j : Nat) :
    runSamples N X (j + 1) s = .refused .nonFiniteSample := by
  rw [runSamples, consume_eq_none h]

theorem consume_pos {s t : State} (h : consume N X s = some t) : t.rx.pos = s.rx.pos + 1 := by
  obtain ⟨-, -, rfl⟩ := consume_cases h
  exact (sampleStep_counters _ _).2

theorem consume_of_finite {s : State} (hre : f32Finite (sampleWords s s.rx.pos).1 = true)
    (him : f32Finite (sampleWords s s.rx.pos).2.1 = true) : consume N X s =
      some (sampleStep N X ⟨numOfWord N (sampleWords s s.rx.pos).1, numOfWord N (sampleWords s s.rx.pos).2.1⟩
        ((s.setDraws (sampleWords s s.rx.pos).2.2).setRx { s.rx with pos := s.rx.pos + 1 })) := by
  simp [consume, hre, him]

theorem sampleStep_withExecN (x : Cplx) (s : State) (e : Nat) :
    sampleStep N X x (withExecN s e) = withExecN (sampleStep N X x s) e := by
  rw [withExecN, withExecN, (sampleStep_counters x s).2]
  exact sampleStep_counts N X x s s.rx s.rx.pos e

/-- Consuming a sample does not read `exec_n` (R331). -/
theorem consume_withExecN {s t : State} (h : consume N X s = some t) (e : Nat) :
    consume N X (withExecN s e) = some (withExecN t e) := by
  obtain ⟨hre, him, rfl⟩ := consume_cases h
  have hw : sampleWords (withExecN s e) (withExecN s e).rx.pos = sampleWords s s.rx.pos := rfl
  rw [consume_of_finite (by rwa [hw]) (by rwa [hw]), hw, ← sampleStep_withExecN]
  rfl

/-- A run that ends without an event has consumed its samples, and a longer one, whatever its `exec_n`, goes on from there. -/
theorem runSamples_goes_on {k : Nat} {s t : State} (h : runSamples N X k s = .next t) (he : t.rx.evt = false) :
    ∃ u, t = respond .ok u ∧ u.rx.pos = s.rx.pos + k ∧
      ∀ j e, runSamples N X (k + j) (withExecN s e) = runSamples N X j (withExecN u e) := by
  induction k generalizing s with
  | zero =>
    cases h
    exact ⟨s, rfl, rfl, fun j e => by rw [Nat.zero_add]⟩
  | succ k ih =>
    rw [runSamples] at h
    cases hc : consume N X s with
    | none => simp only [hc] at h; cases h
    | some v =>
      simp only [hc] at h
      split at h
      · rename_i hev; cases h; exact absurd (he.symm.trans hev) Bool.false_ne_true
      · rename_i hev
        obtain ⟨u, ht, hpos, hgo⟩ := ih h
        refine ⟨u, ht, by rw [hpos, consume_pos hc]; omega, fun j e => ?_⟩
        rw [Nat.add_right_comm, runSamples, consume_withExecN hc e]
        exact (if_neg hev).trans (hgo j e)

/-- A run over `k` samples without an event, then a sample that is no number: every longer run is refused. -/
theorem runSamples_refused {k n : Nat} {s t : State} (h : runSamples N X k s = .next t) (he : t.rx.evt = false) (hk : k < n)
    (hbad : BadSample t (s.rx.pos + k)) (e : Nat) : runSamples N X n (withExecN s e) = .refused .nonFiniteSample := by
  obtain ⟨u, rfl, hpos, hgo⟩ := runSamples_goes_on h he
  have hn : n = k + (n - k - 1 + 1) := by omega
  rw [hn, hgo]
  refine runSamples_bad ?_ _
  rw [← hpos] at hbad
  exact hbad

/-- RX_EXECUTE is refused where a shorter one comes to a sample that is no number (R16, log 13). -/
theorem exec_rxExecute_refused {s t : State} {k n : Nat} (hc : s.rx.created = true) (he : s.rx.evt = false)
    (hn : n ≤ s.build.nBuf) (hk : k < n) (h : exec (.rxExecute k) s = .next t) (ht : t.rx.evt = false)
    (hbad : BadSample t k) : exec (.rxExecute n) s = .refused .nonFiniteSample := by
  rw [exec_rxExecute_runs hc he (by omega) hn]
  have hbad' : BadSample t (0 + k) := by rwa [Nat.zero_add]
  rcases Nat.eq_zero_or_pos k with rfl | hk0
  · rw [exec_rxExecute_zero hc he] at h
    cases h
    exact runSamples_refused (s := s.setRx { s.rx with execN := 0, pos := 0 })
      (t := respond .ok (s.setRx { s.rx with execN := 0, pos := 0 })) rfl he hk hbad' n
  · rw [exec_rxExecute_runs hc he hk0 (by omega)] at h
    exact runSamples_refused h ht hk hbad' n

theorem exec_rxAck_runs_of {s : State} {k : Nat} (hc : s.rx.created = true) (he : s.rx.evt = true)
    (hk : s.rx.execN = s.rx.pos + k) : exec .rxAck s =
      runSamples Config.num (Config.ext s.build.modset) k (resetFsm (s.setRx { s.rx with evt := false })) := by
  rw [exec_rxAck_runs hc he, hk, Nat.add_sub_cancel_left]

/-- RX_ACK is refused where one with a smaller `exec_n` comes to a sample that is no number (R16, log 13). -/
theorem exec_rxAck_refused {s t : State} {k : Nat} (hc : s.rx.created = true) (he : s.rx.evt = true)
    (hk : s.rx.pos + k < s.rx.execN) (h : exec .rxAck (s.setRx { s.rx with execN := s.rx.pos + k }) = .next t)
    (ht : t.rx.evt = false) (hbad : BadSample t (s.rx.pos + k)) : exec .rxAck s = .refused .nonFiniteSample := by
  rw [exec_rxAck_runs_of (s := s.setRx { s.rx with execN := s.rx.pos + k }) hc he rfl] at h
  rw [exec_rxAck_runs hc he]
  exact runSamples_refused h ht (by omega) hbad s.rx.execN

/-- Settles O31: the checks in their order, then the refusals of a run. -/
theorem rxCommandFailures : Obligations.RxCommandFailures := by
  intro s d n c M G hM hG
  have hcM : cfgM s.rxCfg = M := (cfgM_eq _).trans hM.symm
  have hcG : cfgG s.rxCfg = G := (cfgG_eq _).trans hG.symm
  have hresp : ∀ st, respond st s = s.setResp (BitVec.ofNat 32 (statusCode st)) := fun st => respond_eq st s
  refine ⟨fun he h => ?_, fun he hl ht hv => ?_, fun hc => ?_, fun hc he hn => ?_, fun hc he => ?_, ?_, ?_⟩
  · rw [exec_rxCreate_illegal d he (by rw [hcM, hcG]; exact legalMG_eq_false h), hresp]; rfl
  · rw [exec_rxCreate_invalid he (tableArg_alloc (hl.trans hcM.symm) ht) (validAlloc_eq_false hv), hresp]; rfl
  · have h := exec_rx_notCreated hc n
    rw [hresp] at h; exact h
  · rw [exec_rxExecute_range hc he hn, hresp]; rfl
  · rw [exec_rxAck_noEvent hc he, hresp]; rfl
  · exact fun k t hc he hn hk h ht hbad => exec_rxExecute_refused hc he hn hk h ht hbad
  · exact fun k t hc he hk h ht hbad => exec_rxAck_refused hc he hk h ht hbad

end Sys2Proof.Machine
end

section
/-! What the registers read, and what the four read-write registers store (R52 to R71): O9. -/

namespace Sys2Proof.Machine

/-! ### The words that are put together -/

theorem cap0Word_eq (b : Build) : cap0Word b = BitVec.ofNat 32 (65536 * b.payloadMax + b.mMax) := by
  rw [cap0Word, Nat.mul_comm]; rfl

/-- RX_STATUS as a number: `evt` in bit 4, `rx_created` in bit 3, the state of a created unit below (R67). -/
theorem rxStatusWord_eq (u : RxUnit) : rxStatusWord u =
    BitVec.ofNat 32 ((if u.evt then 16 else 0) + if u.created then 8 + rxStateCode u.state else 0) := by
  unfold rxStatusWord
  congr 1
  cases u.evt <;> cases u.created <;> simp [Nat.add_comm, Nat.add_left_comm]

theorem ofNat_mod_eq_setWidth (n : Nat) : BitVec.ofNat 32 (n % 2 ^ 16) = (BitVec.ofNat 16 n).setWidth 32 := by
  apply BitVec.eq_of_toNat_eq; simp

/-- A register of bytes reads each of them in its place (R106). -/
theorem extractLsb'_wordOfBytes (bs : List Byte) {j : Nat} (hj : j < 4) :
    (wordOfBytes bs).extractLsb' (8 * j) 8 = bs.getD j 0 := by
  induction bs generalizing j with
  | nil => simp [wordOfBytes]
  | cons b bs ih =>
    have hw : wordOfBytes (b :: bs) = (wordOfBytes bs <<< 8) ||| b.setWidth 32 := rfl
    rw [hw]
    apply BitVec.eq_of_getLsbD_eq
    intro i hi
    cases j with
    | zero => simp [hi]; omega
    | succ j =>
      rw [List.getD_cons_succ, ← ih (by omega)]
      have hout : b.getLsbD (8 * (j + 1) + i) = false := BitVec.getLsbD_of_ge _ _ (by omega)
      have hidx : 8 * (j + 1) + i - 8 = 8 * j + i := by omega
      simp [hi, hout, hidx]
      omega

/-! ### The registers by offset -/

theorem busWord_of_regAt {a : BitVec 21} {r : Reg} (h : regAt a.toNat = some r) (s : State) :
    busWord s a = (readReg s r, s.draws) := by
  rw [busWord, h]

/-- The registers of R52 to R71 that read as one value, each at its offset. -/
def valueRegs : List (BitVec 21 × Reg) :=
  [(0x000, .id), (0x004, .cap0), (0x008, .cap1), (0x00C, .cap2), (0x010, .cmd), (0x014, .resp), (0x020, .txCfg),
    (0x024, .txProps), (0x028, .txStatus), (0x02C, .txSymcnt), (0x030, .txNsymHdr), (0x034, .txNsymPay), (0x038, .txPaylen),
    (0x040, .rxCfg), (0x044, .rxCtx), (0x048, .rxStatus), (0x04C, .rxExecN), (0x050, .rxPos), (0x054, .rxCfo),
    (0x058, .rxTfrac), (0x05C, .rxPhase), (0x060, .rxNsymHdr), (0x064, .rxNsymPay), (0x068, .rxSymcnt), (0x080, .resFlags),
    (0x084, .resPaylen), (0x088, .resBytes), (0x08C, .resSnr), (0x090, .resRssi), (0x094, .resCtx)]

theorem regAt_valueRegs : ∀ p ∈ valueRegs, regAt p.1.toNat = some p.2 := by decide

/-- A register of the list reads its value and takes no draw. -/
theorem busWord_of_mem_valueRegs {s : State} {a : BitVec 21} {w : Word}
    (h : (a, w) ∈ valueRegs.map fun p => (p.1, readReg s p.2)) : busWord s a = (w, s.draws) := by
  obtain ⟨⟨a', r⟩, hp, he⟩ := List.mem_map.1 h
  cases he
  exact busWord_of_regAt (regAt_valueRegs _ hp) s

/-! ### The four read-write registers -/

theorem step_writeReg {s : State} {rest : List Access} {a : BitVec 21} {v : Word} {r : Reg}
    (h : s.host = .write a 4 v :: rest) (hr : regAt a.toNat = some r) (hm : a.toNat % 4 = 0 ∧ a.toNat ∈ registerOffsets)
    (ha : a ≠ cmdAddr) : step s = .next (writeReg (s.setHost rest) v r) := by
  rw [step_write h ((accessOk_iff _ _).2 ⟨rfl, hm.1, .inl hm.2⟩) ha, busWrite, hr]

/-- Settles O9: the statement's list is the values of `valueRegs`; the user header's words read byte by byte. -/
theorem registerReads : Obligations.RegisterReads := by
  intro s rest v
  refine ⟨fun h => ?_, fun h => ?_, fun h => ?_, fun h => ?_, fun a w => ⟨fun h => busWord_of_mem_valueRegs ?_, fun _ j hj => ?_⟩⟩
  · exact step_writeReg (r := .txCfg) h rfl (by decide) (by decide)
  · exact step_writeReg (r := .txProps) h rfl (by decide) (by decide)
  · exact step_writeReg (r := .rxCfg) h rfl (by decide) (by decide)
  · exact step_writeReg (r := .rxCtx) h rfl (by decide) (by decide)
  · convert h using 1
    simp only [valueRegs, List.map_cons, List.map_nil, readReg, cap0Word_eq, ofNat_mod_eq_setWidth, List.cons.injEq,
      Prod.mk.injEq, true_and, and_true]
    refine ⟨rfl, rfl, if_congr Iff.rfl ?_ rfl, ?_⟩
    · cases s.tx.state <;> rfl
    · rw [rxStatusWord_eq]; cases s.rx.state <;> rfl
  · rw [busWord_of_regAt (r := .resHdr0) rfl, busWord_of_regAt (r := .resHdr1) rfl]
    exact ⟨(extractLsb'_wordOfBytes _ hj).trans (by simp [List.getD_eq_getElem?_getD, hj]),
      (extractLsb'_wordOfBytes _ hj).trans (by simp [List.getD_eq_getElem?_getD, hj])⟩

end Sys2Proof.Machine
end

section
/-! The memory stays in its canonical form and the reserved bits of TX_PROPS at 0 (R59, R77, R101, R102, R116): O51. -/

namespace Sys2Proof.Machine

variable {N : Num} {ms : List (Nat × Nat)} {X : Ext N ms}

/-! ### The memory -/

theorem memInv_resetFsm {s : State} (h : MemInv s) : MemInv (resetFsm s) := memClear_wf (bd := s.build) h .resPay

/-- A sample stores bytes only with the event of a payload (R328). -/
theorem SampleEffect.memInv {s t : State} (h : SampleEffect s t) (hs : MemInv s) : MemInv t := by
  obtain ⟨r, -, rfl | ⟨rfl, -⟩ | ⟨ok, b, rfl, -, -⟩⟩ := h
  · exact hs
  · exact hs
  · exact memPutBytes_wf (bd := s.build) hs _ b

theorem sampleStep_memInv (x : Cplx) {s : State} (hs : MemInv s) : MemInv (sampleStep N X x s) := by
  rcases sampleStep_effect N X x s with ⟨-, h⟩ | ⟨-, h⟩
  · exact h.memInv hs
  · exact h.memInv (memInv_resetFsm hs)

theorem runSamples_memInv {k : Nat} {s t : State} (h : runSamples N X k s = .next t) (he : s.rx.evt = false)
    (hs : MemInv s) : MemInv t :=
  runSamples_keeps_step (P := MemInv) (fun x _ _ hs _ => sampleStep_memInv x hs) (fun _ _ hs => hs) hs he h

theorem exec_keeps_memInv (i : Instr) (s t : State) (hs : MemInv s) (h : exec i s = .next t) : MemInv t := by
  cases exec_effect h with
  | answered | txCreate | txAssemble | txDestroy => exact hs
  | allocDefault m => exact putAlloc_wf (bd := s.build) hs 0 _
  | txWriteSymbol => exact memPutBytes_wf (bd := s.build) hs _ _
  | rxCreate | rxDestroy => exact memClear_wf (bd := s.build) hs .resPay
  | rxExecute n _ _ he _ _ hrun => exact runSamples_memInv (s := s.setRx { s.rx with execN := n, pos := 0 }) hrun he hs
  | rxAck _ _ _ hrun => exact runSamples_memInv hrun rfl (memInv_resetFsm (s := s.setRx { s.rx with evt := false }) hs)

/-- A host write stores one word or touches a register alone (R105). -/
theorem busWrite_memInv (s : State) (a : BitVec 21) (v : Word) (hs : MemInv s) : MemInv (busWrite s a v) := by
  unfold busWrite
  split
  · rename_i r _; cases r <;> exact hs
  · split
    · exact hs
    · exact hs
    · exact memPutWord_wf (bd := s.build) hs _ v

/-! ### The reserved bits of TX_PROPS -/

theorem exec_keeps_txProps {i : Instr} {s t : State} (h : exec i s = .next t) : t.txProps = s.txProps := by
  rw [(exec_touches h).1]; rfl

/-- A host write stores TX_PROPS without its reserved bits (R59), and no other write reaches it. -/
theorem busWrite_propsInv (s : State) (a : BitVec 21) (v : Word) (hs : PropsInv s) : PropsInv (busWrite s a v) := by
  have hmask : propsMask &&& 0xFF000000 = 0 := by decide
  unfold busWrite
  split
  · rename_i r _
    cases r
    case txProps =>
      show v &&& propsMask &&& 0xFF000000 = 0
      rw [BitVec.and_assoc, hmask]; exact BitVec.and_zero
    all_goals exact hs
  · split <;> exact hs

/-- Settles O51: every access of the host and every command stores bytes by `memPut` or clears RES_PAY, and only a host write
touches TX_PROPS. -/
theorem memoryStaysCanonical : Obligations.MemoryStaysCanonical :=
  ⟨fun _ _ hs h => step_keeps (P := MemInv) (fun _ _ hs => hs) (fun _ _ hs => hs) busWrite_memInv (fun _ hs => hs)
      (fun _ _ => rfl) exec_keeps_memInv hs h,
    fun _ _ hs h => step_keeps (P := PropsInv) (fun _ _ hs => hs) (fun _ _ hs => hs) busWrite_propsInv (fun _ hs => hs)
      (fun _ _ => BitVec.zero_and) (fun _ _ _ hs h => (congrArg (· &&& 0xFF000000) (exec_keeps_txProps h)).trans hs) hs h⟩

end Sys2Proof.Machine
end

section
/-! Which host accesses are bus errors, what a read leaves, which writes are ignored and what a buffer word reads after a
write (R72, R100 to R108, R116): O6, O7, O8 and O10. -/

namespace Sys2Proof.Machine

variable {bd : Build}

/-! ### Bus errors -/

/-- A write of 32 bits that is accepted has a next state, or is the refusal of a command (R105, R108). -/
theorem step_accepted_write_ne_fault {s : State} {rest : List Access} {a : BitVec 21} {v : Word}
    (h : s.host = .write a 4 v :: rest) (ok : accessOk s.build a 4 = true) (f : Fault) : step s ≠ .fault f := by
  by_cases ha : a = cmdAddr
  · subst ha
    rw [step_command h]
    cases decode v with
    | ok i => exact exec_ne_fault i _ f
    | error e => nofun
  · rw [step_write h ok ha]; nofun

/-- Settles O6: `accessOk` is the map written out, a rejected access is the fault and an accepted one cannot be. -/
theorem busErrorExactly : Obligations.BusErrorExactly := by
  intro s rest a n v x hx h
  rw [← accessOk_iff]
  constructor
  · intro hf ok
    obtain rfl : n = 4 := ((accessOk_iff _ _).1 ok).1
    rcases hx with rfl | rfl
    · rw [step_read h ok] at hf; cases hf
    · exact step_accepted_write_ne_fault h ok _ hf
  · exact fun hok => step_rejected h hx (Bool.eq_false_iff.2 hok)

/-! ### Reads -/

/-- A read of a register, or of a word whose bytes are all written, takes no draw (R104, R116). -/
theorem busWord_draws {s : State} {a : BitVec 21} (hm : Mapped s.build a.toNat)
    (h : a.toNat < 0x100 ∨ ∀ j < 4, memPeek s.build s.mem (a.toNat + j) ≠ none) : (busWord s a).2 = s.draws := by
  unfold busWord
  cases hr : regAt a.toNat with
  | some r => rfl
  | none =>
    rcases h with hlt | hw
    · have hreg : a.toNat ∈ registerOffsets := hm.resolve_right (by omega)
      rw [← regAt_isSome_iff hlt, hr] at hreg
      cases hreg
    · obtain ⟨b0, h0⟩ := Option.ne_none_iff_exists'.1 (hw 0 (by omega))
      obtain ⟨b1, h1⟩ := Option.ne_none_iff_exists'.1 (hw 1 (by omega))
      obtain ⟨b2, h2⟩ := Option.ne_none_iff_exists'.1 (hw 2 (by omega))
      obtain ⟨b3, h3⟩ := Option.ne_none_iff_exists'.1 (hw 3 (by omega))
      exact congrArg Prod.snd (memGetWord_of_peek h0 h1 h2 h3 s.draws)

/-- The word read does not depend on the host's queue nor on the word read before. -/
theorem busWord_host_rdata (s : State) (q : List Access) (w : Option Word) (a : BitVec 21) :
    busWord ((s.setHost q).setRdata w) a = busWord s a := by
  unfold busWord
  cases regAt a.toNat with
  | some r => cases r <;> rfl
  | none => rfl

/-- Settles O7: a read that takes no draw leaves the state in which a second one reads the same word. -/
theorem readsChangeNothing : Obligations.ReadsChangeNothing := by
  intro s rest a ha hm
  have ok : accessOk s.build a 4 = true := (accessOk_iff _ _).2 ⟨rfl, ha, hm⟩
  refine ⟨fun h => step_read h ok, fun h hw => ?_⟩
  have hd := busWord_draws hm hw
  have hread : ∀ q w, busRead ((s.setHost q).setRdata w) a = (s.setHost q).setRdata (some (busWord s a).1) := by
    intro q w
    simp only [busRead, busWord_host_rdata, hd]
    rfl
  have hfirst := (step_read h ok).trans (congrArg _ (hread (.read a 4 :: rest) s.rdata))
  refine ⟨_, hfirst, rfl, ?_⟩
  rw [step_read (s := (s.setHost (.read a 4 :: rest)).setRdata _) rfl ok]
  exact congrArg _ (hread rest _)

/-! ### Writes that are ignored -/

/-- A register that stores nothing is none of the four RW ones (R105). -/
theorem writeReg_of_mem_readOnlyOffsets {a : Nat} (h : a ∈ readOnlyOffsets) :
    ∃ r, regAt a = some r ∧ ∀ s v, writeReg s v r = s := by
  have key : ∀ a ∈ readOnlyOffsets, ∃ r, regAt a = some r ∧ r ≠ .txCfg ∧ r ≠ .txProps ∧ r ≠ .rxCfg ∧ r ≠ .rxCtx := by
    decide
  obtain ⟨r, hr, h1, h2, h3, h4⟩ := key a h
  refine ⟨r, hr, fun s v => ?_⟩
  cases r
  case txCfg | txProps | rxCfg | rxCtx => contradiction
  all_goals rfl

theorem readOnlyOffsets_subset {a : Nat} (h : a ∈ readOnlyOffsets) : a ∈ registerOffsets := List.mem_append_left _ h

/-- Every buffer lies beyond the control window (R100). -/
theorem regAt_of_inRegion {r : Region} {a : Nat} (hr : r ≠ .ctrl) (h : inRegion bd r a = true) : regAt a = none := by
  have hlo := ((inRegion_iff _ _).1 h).1
  apply regAt_eq_none
  cases r
  case ctrl => contradiction
  all_goals exact le_trans (by decide) hlo

theorem ne_cmdAddr_of_inRegion {r : Region} {a : BitVec 21} (hr : r ≠ .ctrl) (h : inRegion bd r a.toNat = true) :
    a ≠ cmdAddr := by
  rintro rfl
  have := regAt_of_inRegion hr h
  cases this

/-- An access to a word of a buffer is accepted (R100). -/
theorem accessOk_of_inRegion {r : Region} {a : BitVec 21} (hr : r ≠ .ctrl) (h : inRegion bd r a.toNat = true)
    (ha : a.toNat % 4 = 0) : accessOk bd a 4 = true := by
  cases r
  case ctrl => contradiction
  all_goals simp only [accessOk, regionOf_of_inRegion h, ha, decide_true, Bool.true_and]

/-- A write to TX_SYM or RES_PAY changes nothing (R105). -/
theorem busWrite_readOnly {s : State} {r : Region} {a : BitVec 21} (v : Word) (hr : r = .txSym ∨ r = .resPay)
    (h : inRegion s.build r a.toNat = true) : busWrite s a v = s := by
  have hreg : regAt a.toNat = none := regAt_of_inRegion (by rintro rfl; simp at hr) h
  rcases hr with rfl | rfl <;> simp only [busWrite, hreg, regionOf_of_inRegion h]

theorem step_write_readOnly {s : State} {rest : List Access} {a : BitVec 21} {v : Word} {r : Region}
    (hr : r = .txSym ∨ r = .resPay) (h : s.host = .write a 4 v :: rest) (ha : a.toNat % 4 = 0)
    (hin : inRegion s.build r a.toNat = true) : step s = .next (s.setHost rest) := by
  have hc : r ≠ .ctrl := by rintro rfl; simp at hr
  rw [step_write h (accessOk_of_inRegion hc hin ha) (ne_cmdAddr_of_inRegion hc hin),
    busWrite_readOnly (s := s.setHost rest) v hr hin]

/-- Settles O8: a read-only register by `writeReg`, the two buffers by their region. -/
theorem ignoredWrites : Obligations.IgnoredWrites := by
  intro s rest a v h ha hcase
  rcases hcase with hro | hsym | hpay
  · obtain ⟨r, hr, hw⟩ := writeReg_of_mem_readOnlyOffsets hro
    have hne : a ≠ cmdAddr := by rintro rfl; revert hro; decide
    rw [step_writeReg h hr ⟨ha, readOnlyOffsets_subset hro⟩ hne, hw]
  · exact step_write_readOnly (.inl rfl) h ha ((inRegion_iff _ _).2 (by simp only [regionBase, regionSize]; omega))
  · exact step_write_readOnly (.inr rfl) h ha ((inRegion_iff _ _).2 (by simp only [regionBase, regionSize, ceilDiv]; omega))

/-! ### A word of a buffer, written and read -/

/-- The bits of a word that are held. -/
def wordMask (b : Build) (a : Nat) : Word :=
  wordOfBytes [storeMask b a, storeMask b (a + 1), storeMask b (a + 2), storeMask b (a + 3)]

/-- Masking the bytes of a word masks the word. -/
theorem wordOfBytes_and (b0 b1 b2 b3 m0 m1 m2 m3 : Byte) :
    wordOfBytes [b0 &&& m0, b1 &&& m1, b2 &&& m2, b3 &&& m3] =
      wordOfBytes [b0, b1, b2, b3] &&& wordOfBytes [m0, m1, m2, m3] := by
  have cons : ∀ (b m : Byte) (u w : Word), ((u &&& w) <<< 8) ||| (b &&& m).setWidth 32 =
      ((u <<< 8) ||| b.setWidth 32) &&& ((w <<< 8) ||| m.setWidth 32) := by
    intro b m u w
    apply BitVec.eq_of_getLsbD_eq
    intro i hi
    by_cases h : i < 8
    · simp [hi, h]
    · have hb : b.getLsbD i = false := BitVec.getLsbD_of_ge _ _ (Nat.not_lt.1 h)
      have hm : m.getLsbD i = false := BitVec.getLsbD_of_ge _ _ (Nat.not_lt.1 h)
      simp [hi, h, hb, hm]
  simp only [wordOfBytes, List.foldr_cons, List.foldr_nil, ← cons, BitVec.and_self]

/-- A word written reads back with its held bits and takes no draw (R105, R106). -/
theorem memGetWord_memPutWord {m : Memory} (h : Rising m) (a : Nat) (v : Word) (n : Nat) :
    memGetWord bd (memPutWord bd m a v) n a = (v &&& wordMask bd a, n) := by
  have hp : ∀ j, j < 4 → memPeek bd (memPutWord bd m a v) (a + j) = some ((wordBytes v).getD j 0 &&& storeMask bd (a + j)) := by
    intro j hj
    rw [memPeek_memPutWord h, if_pos (by omega), Nat.add_sub_cancel_left]
  have hp0 : memPeek bd (memPutWord bd m a v) a = some ((wordBytes v).getD 0 0 &&& storeMask bd a) := hp 0 (by omega)
  rw [memGetWord_of_peek hp0 (hp 1 (by omega)) (hp 2 (by omega)) (hp 3 (by omega)), wordOfBytes_and]
  exact congrArg (· &&& wordMask bd a, n) (wordOfBytes_wordBytes v)

/-- The buffers the host can write (R100). -/
def HostWritable (r : Region) : Prop := r = .alloc ∨ r = .txHdr ∨ r = .txPay ∨ r = .rxSamp

/-- A write to a buffer the host can write stores the word (R105). -/
theorem busWrite_buffer {s : State} {r : Region} {a : BitVec 21} (v : Word) (hr : HostWritable r)
    (h : inRegion s.build r a.toNat = true) : busWrite s a v = s.setMem (memPutWord s.build s.mem a.toNat v) := by
  have hreg : regAt a.toNat = none := regAt_of_inRegion (by rintro rfl; simp [HostWritable] at hr) h
  rcases hr with rfl | rfl | rfl | rfl <;> simp only [busWrite, hreg, regionOf_of_inRegion h]

/-- What a write to a buffer leaves: the word with its held bits, and every other byte. -/
theorem step_write_buffer {s : State} {rest : List Access} {a : BitVec 21} {v : Word} {r : Region} (hr : HostWritable r)
    (hs : MemInv s) (h : s.host = .write a 4 v :: rest) (ha : a.toNat % 4 = 0) (hin : inRegion s.build r a.toNat = true) :
    ∃ t, step s = .next t ∧ t = (s.setHost rest).setMem t.mem ∧ busWord t a = (v &&& wordMask s.build a.toNat, s.draws) ∧
      SameOutside s.build s.mem t.mem a.toNat 4 := by
  have hc : r ≠ .ctrl := by rintro rfl; simp [HostWritable] at hr
  have hrise : Rising s.mem := ((memory_wf_iff _).1 hs).1
  refine ⟨(s.setHost rest).setMem (memPutWord s.build s.mem a.toNat v), ?_, rfl, ?_, fun x hx => ?_⟩
  · rw [step_write h (accessOk_of_inRegion hc hin ha) (ne_cmdAddr_of_inRegion hc hin),
      busWrite_buffer (s := s.setHost rest) v hr hin]
    rfl
  · rw [busWord, regAt_of_inRegion hc hin]
    exact memGetWord_memPutWord hrise _ v s.draws
  · rw [State.setMem_mem, memPeek_memPutWord hrise, if_neg (by omega)]

/-- Every region begins at a word and has whole words (R100). -/
theorem inRegion_word {r : Region} {a j : Nat} (h : inRegion bd r a = true) (ha : a % 4 = 0) (hj : j < 4) :
    inRegion bd r (a + j) = true := by
  rw [inRegion_iff] at h ⊢
  cases r <;> simp only [regionBase, regionSize] at h ⊢ <;> omega

theorem wordMask_full {a : Nat} (h : ∀ j < 4, storeMask bd (a + j) = 0xFF) : wordMask bd a = 0xFFFFFFFF := by
  have h0 : storeMask bd a = 0xFF := h 0 (by omega)
  rw [wordMask, h0, h 1 (by omega), h 2 (by omega), h 3 (by omega)]
  decide

/-- An ALLOC word holds two bits (R101). -/
theorem wordMask_alloc {a : Nat} (h : inRegion bd .alloc a = true) (ha : a % 4 = 0) : wordMask bd a = 0x00000003 := by
  have hm : ∀ j < 4, storeMask bd (a + j) = if (a + j) % 4 = 0 then 0x03 else 0x00 :=
    fun j hj => storeMask_alloc (inRegion_word h ha hj)
  have h0 : storeMask bd a = 0x03 := (hm 0 (by omega)).trans (if_pos ha)
  rw [wordMask, h0, hm 1 (by omega), hm 2 (by omega), hm 3 (by omega), if_neg (by omega), if_neg (by omega),
    if_neg (by omega)]
  decide

/-- The last TX_PAY word holds its bytes below PAYLOAD_MAX (R102). -/
theorem wordMask_txPay_last {a : Nat} (h : inRegion bd .txPay a = true) (ha : a % 4 = 0) (hlo : a < 0x030000 + bd.payloadMax)
    (hhi : 0x030000 + bd.payloadMax < a + 4) :
    wordMask bd a = BitVec.ofNat 32 (2 ^ (8 * (bd.payloadMax % 4)) - 1) := by
  have hm : ∀ j < 4, storeMask bd (a + j) = if j < bd.payloadMax % 4 then 0xFF else 0x00 := by
    intro j hj
    rw [storeMask_txPay (inRegion_word h ha hj)]
    exact if_congr (by simp only [regionBase]; omega) rfl rfl
  have hcount : bd.payloadMax % 4 = 1 ∨ bd.payloadMax % 4 = 2 ∨ bd.payloadMax % 4 = 3 := by omega
  have h0 : storeMask bd a = _ := hm 0 (by omega)
  rw [wordMask, h0, hm 1 (by omega), hm 2 (by omega), hm 3 (by omega)]
  rcases hcount with hc | hc | hc <;> rw [hc] <;> decide

/-- Settles O10: each clause names a buffer and the bits its word holds. -/
theorem bufferWritesReadBack : Obligations.BufferWritesReadBack := by
  intro s rest a v k hs h ha hcase
  have main : ∀ r, HostWritable r → inRegion s.build r a.toNat = true → wordMask s.build a.toNat = k →
      ∃ t, step s = .next t ∧ t = (s.setHost rest).setMem t.mem ∧ busWord t a = (v &&& k, s.draws) ∧
        SameOutside s.build s.mem t.mem a.toNat 4 := by
    rintro r hr hin rfl
    exact step_write_buffer hr hs h ha hin
  rcases hcase with ⟨h1, h2, rfl⟩ | ⟨h1, h2, rfl⟩ | ⟨h1, h2, rfl⟩ | ⟨h1, h2, h3, rfl⟩ | ⟨h1, h2, rfl⟩
  · have hin : inRegion s.build .alloc a.toNat = true := (inRegion_iff _ _).2 ⟨h1, h2⟩
    exact main _ (.inl rfl) hin (wordMask_alloc hin ha)
  · have hin : inRegion s.build .txHdr a.toNat = true := (inRegion_iff _ _).2 ⟨h1, h2⟩
    exact main _ (.inr (.inl rfl)) hin (wordMask_full fun j hj => storeMask_txHdr (inRegion_word hin ha hj))
  · have hin : inRegion s.build .txPay a.toNat = true :=
      (inRegion_iff _ _).2 (by simp only [regionBase, regionSize, ceilDiv]; omega)
    refine main _ (.inr (.inr (.inl rfl))) hin (wordMask_full fun j hj => ?_)
    rw [storeMask_txPay (inRegion_word hin ha hj), if_pos (by simp only [regionBase]; omega)]
  · have hin : inRegion s.build .txPay a.toNat = true :=
      (inRegion_iff _ _).2 (by simp only [regionBase, regionSize, ceilDiv]; omega)
    exact main _ (.inr (.inr (.inl rfl))) hin (wordMask_txPay_last hin ha h2 h3)
  · have hin : inRegion s.build .rxSamp a.toNat = true := (inRegion_iff _ _).2 ⟨h1, h2⟩
    exact main _ (.inr (.inr (.inr rfl))) hin (wordMask_full fun j hj => storeMask_rxSamp (inRegion_word hin ha hj))

end Sys2Proof.Machine
end

section
/-! Which command changes which buffer (R77, R101, R111): O59. -/

namespace Sys2Proof.Machine

variable {bd : Build} {N : Num} {ms : List (Nat × Nat)} {X : Ext N ms}

/-! ### Changes inside one region -/

/-- Every byte outside a region reads in one memory as in the other. -/
def ChangedWithin (b : Build) (r : Region) (m m' : Memory) : Prop :=
  ∀ x, inRegion b r x = false → memPeek b m' x = memPeek b m x

theorem ChangedWithin.refl (bd : Build) (r : Region) (m : Memory) : ChangedWithin bd r m m := fun _ _ => rfl

theorem ChangedWithin.trans {r : Region} {m1 m2 m3 : Memory} (h : ChangedWithin bd r m1 m2) (k : ChangedWithin bd r m2 m3) :
    ChangedWithin bd r m1 m3 := fun x hx => (k x hx).trans (h x hx)

/-- A byte that changed lies in the region of the change, and in no other. -/
theorem ChangedWithin.region_eq {r q : Region} {m m' : Memory} {x : Nat} (h : ChangedWithin bd q m m')
    (hx : inRegion bd r x = true) (hne : memPeek bd m' x ≠ memPeek bd m x) : r = q := by
  refine region_unique hx ?_
  by_contra hq
  exact hne (h x (Bool.eq_false_iff.2 hq))

theorem changedWithin_memClear (m : Memory) (r : Region) : ChangedWithin bd r m (memClear bd m r) :=
  fun _ hx => memPeek_memClear_other m r _ hx

/-- Bytes stored from the start of a region on that are no more than it holds. -/
theorem changedWithin_memPutBytes {m : Memory} (h : Rising m) {r : Region} {bs : List Byte}
    (hl : bs.length ≤ regionSize bd r) : ChangedWithin bd r m (memPutBytes bd m (regionBase r) bs) := by
  intro x hx
  rw [memPeek_memPutBytes h, if_neg]
  rw [Bool.eq_false_iff, ne_eq, inRegion_iff] at hx
  omega

/-- A table of at most M_MAX roles stays within ALLOC (R101). -/
theorem changedWithin_putAlloc {m : Memory} (h : Rising m) {c : List Role} (hl : c.length ≤ bd.mMax) :
    ChangedWithin bd .alloc m (putAlloc bd m 0 c) := by
  intro x hx
  rw [memPeek_putAlloc h, if_neg]
  rw [Bool.eq_false_iff, ne_eq, inRegion_iff] at hx
  simp only [allocAddr, regionSize] at hx ⊢
  omega

/-! ### A run of samples writes RES_PAY alone -/

/-- What a run of samples needs to keep to RES_PAY: the memory canonical and the payload announced within PAYLOAD_MAX, from a
memory that it has changed in RES_PAY alone. -/
def WritesResPay (b : Build) (m : Memory) (s : State) : Prop :=
  s.build = b ∧ MemInv s ∧ s.rx.plLen ≤ b.payloadMax ∧ ChangedWithin b .resPay m s.mem

theorem writesResPay_resetFsm {m : Memory} {s : State} (h : WritesResPay bd m s) : WritesResPay bd m (resetFsm s) := by
  obtain ⟨rfl, hmem, -, hch⟩ := h
  exact ⟨rfl, memInv_resetFsm hmem, Nat.zero_le _, hch.trans (changedWithin_memClear _ _)⟩

/-- A payload within PAYLOAD_MAX fits RES_PAY (R100). -/
theorem le_regionSize_resPay {n : Nat} (h : n ≤ bd.payloadMax) : n ≤ regionSize bd .resPay := by
  simp only [regionSize, ceilDiv]; omega

theorem SampleEffect.writesResPay {m : Memory} {s t : State} (h : SampleEffect s t) (hs : WritesResPay bd m s) :
    WritesResPay bd m t := by
  obtain ⟨rfl, hmem, hlen, hch⟩ := hs
  have hmem' := h.memInv hmem
  obtain ⟨r, ⟨-, -, hpl, -⟩, ht⟩ := h
  have hr : r.plLen ≤ s.build.payloadMax := hpl.elim (·.trans_le hlen) id
  rcases ht with rfl | ⟨rfl, -⟩ | ⟨ok, b, rfl, -, hb⟩
  · exact ⟨rfl, hmem', hr, hch⟩
  · exact ⟨rfl, hmem', hr, hch⟩
  · have hfit : b.length ≤ regionSize s.build .resPay := le_regionSize_resPay (hb.trans hr)
    exact ⟨rfl, hmem', hr, hch.trans (changedWithin_memPutBytes ((memory_wf_iff _).1 hmem).1 hfit)⟩

theorem sampleStep_writesResPay {m : Memory} (x : Cplx) {s : State} (hs : WritesResPay bd m s) :
    WritesResPay bd m (sampleStep N X x s) := by
  rcases sampleStep_effect N X x s with ⟨-, h⟩ | ⟨-, h⟩
  · exact h.writesResPay hs
  · exact h.writesResPay (writesResPay_resetFsm hs)

theorem runSamples_changedWithin {k : Nat} {m : Memory} {s t : State} (h : runSamples N X k s = .next t)
    (he : s.rx.evt = false) (hs : WritesResPay bd m s) : ChangedWithin bd .resPay m t.mem := by
  obtain ⟨-, -, -, hch⟩ : WritesResPay bd m t :=
    runSamples_keeps_step (fun x _ _ hs _ => sampleStep_writesResPay x hs) (fun _ _ hs => hs) hs he h
  exact hch

/-! ### Each command -/

/-- The buffers a command may write (R111). -/
def MayWrite (i : Instr) (r : Region) : Prop :=
  (r = .alloc ∧ ∃ m, i = .allocDefault m) ∨ (r = .txSym ∧ i = .txWriteSymbol) ∨
    (r = .resPay ∧ ((∃ d, i = .rxCreate d) ∨ (∃ n, i = .rxExecute n) ∨ i = .rxAck ∨ i = .rxDestroy))

/-- A command leaves the memory as it was, or changes one buffer that it may write. -/
theorem exec_changedWithin {i : Instr} {s t : State} (hmem : MemInv s) (htx : TxInv s)
    (hlen : s.rx.plLen ≤ s.build.payloadMax) (h : exec i s = .next t) :
    t.mem = s.mem ∨ ∃ q, MayWrite i q ∧ ChangedWithin s.build q s.mem t.mem := by
  have hrise : Rising s.mem := ((memory_wf_iff _).1 hmem).1
  have hrun : WritesResPay s.build s.mem s := ⟨rfl, hmem, hlen, .refl _ _ _⟩
  cases exec_effect h with
  | answered | txCreate | txAssemble | txDestroy => exact .inl rfl
  | allocDefault m hm =>
    refine .inr ⟨.alloc, .inl ⟨rfl, m, rfl⟩, changedWithin_putAlloc hrise ?_⟩
    rw [initDefault_length]; exact ((legalM_iff _).1 hm).2.2
  | txWriteSymbol w hc =>
    refine .inr ⟨.txSym, .inr (.inl ⟨rfl, rfl⟩), changedWithin_memPutBytes hrise ?_⟩
    have := txSymbol_length_le htx hc
    rw [sampleBytes_length]; simp only [regionSize]; omega
  | rxCreate d => exact .inr ⟨.resPay, .inr (.inr ⟨rfl, .inl ⟨d, rfl⟩⟩), changedWithin_memClear _ _⟩
  | rxExecute n _ _ he _ _ h =>
    exact .inr ⟨.resPay, .inr (.inr ⟨rfl, .inr (.inl ⟨n, rfl⟩)⟩), runSamples_changedWithin h he hrun⟩
  | rxAck _ _ _ h =>
    refine .inr ⟨.resPay, .inr (.inr ⟨rfl, .inr (.inr (.inl rfl))⟩), runSamples_changedWithin h rfl ?_⟩
    exact writesResPay_resetFsm (s := s.setRx { s.rx with evt := false }) hrun
  | rxDestroy => exact .inr ⟨.resPay, .inr (.inr ⟨rfl, .inr (.inr (.inr rfl))⟩), changedWithin_memClear _ _⟩

/-- Settles O59: a changed byte lies in the one buffer its command may write. -/
theorem buffersWrittenBy : Obligations.BuffersWrittenBy := by
  intro i s t r x hmem htx hlen h hx hne
  rcases exec_changedWithin hmem htx hlen h with heq | ⟨q, hq, hch⟩
  · exact absurd (by rw [heq]) hne
  · obtain rfl := hch.region_eq hx hne
    exact hq

end Sys2Proof.Machine
end

section
/-! A step that writes CMD runs the decoded command (R105, R112, R154): O5. -/

namespace Sys2Proof.Machine

theorem noArg_commandWord {opc : Nat} (ho : opc < 256) (i : Instr) : noArg (commandWord opc 0) i = .ok i := by
  rw [noArg, argOf_commandWord ho (by decide)]; rfl

theorem flagArg_commandWord {opc : Nat} (ho : opc < 256) (i : Bool → Instr) (d : Bool) :
    flagArg (commandWord opc d.toNat) i = .ok (i d) := by
  rw [flagArg, argOf_commandWord ho (by cases d <;> decide)]
  cases d <;> rfl

/-- The word of a command with operands that fit decodes to it (R150, R151, R153). -/
theorem decode_encode {i : Instr} (h : i.wellFormed = true) : decode (encode i) = .ok i := by
  cases i
  case nop n | allocDefault n | allocValidate n | txAssemble n | rxExecute n =>
    have hn : n < 2 ^ 24 := of_decide_eq_true h
    simp only [encode, decode, opcOf_commandWord, argOf_commandWord, hn, Nat.reduceLT]
  case txCreate d | rxCreate d => simp only [encode, decode, opcOf_commandWord, flagArg_commandWord, Nat.reduceLT]
  case txWriteSymbol | txDestroy | rxAck | rxDestroy =>
    simp only [encode, decode, opcOf_commandWord, noArg_commandWord, Nat.reduceLT]

theorem step_decoded {s : State} {rest : List Access} {w : Word} {i : Instr} (h : s.host = .write cmdAddr 4 w :: rest)
    (hd : decode w = .ok i) : step s = exec i (s.setHost rest) := by
  rw [step_command h, hd]

theorem step_illegal {s : State} {rest : List Access} {w : Word} {e : DecodeError} (h : s.host = .write cmdAddr 4 w :: rest)
    (hd : decode w = .error e) : step s = .next ((s.setHost rest).setResp 0x00000006) := by
  rw [step_command h, hd]
  exact congrArg _ (respond_eq .illegalCommand _)

/-- The word the host issues next is the one queued, whole (R150). -/
theorem withFetchWord_host (s : State) (w : Word) :
    (s.withFetchWord 32 w.toNat).host = .write cmdAddr 4 w :: s.host := by
  have hw : BitVec.ofNat 32 (w.toNat % 2 ^ 32) = w := by rw [Nat.mod_eq_of_lt w.isLt, BitVec.ofNat_toNat, BitVec.setWidth_eq]
  rw [State.withFetchWord, hw]; rfl

/-- Settles O5: a word that decodes and a word that does not, and the queued word of a command is its encoding. -/
theorem stepRunsCommand : Obligations.StepRunsCommand :=
  ⟨fun _ _ _ _ => step_decoded, fun s i hi => step_decoded (withFetchWord_host s (encode i)) (decode_encode hi),
    fun _ _ _ _ => step_illegal⟩

end Sys2Proof.Machine
end

section
/-! Command words and commands (R150 to R155, R402): O1 to O4. -/

namespace Sys2Proof.Machine

/-- Settles O1: each command's word holds its OPC and its operand in the two fields the decoder reads. -/
theorem decodeOfEncode : Obligations.DecodeOfEncode := fun _ => decode_encode

/-! ### A word is its two fields -/

theorem opcOf_lt (w : Word) : opcOf w < 256 := (w.extractLsb' 0 8).isLt

theorem fitsArg_argOf (w : Word) : fitsArg (argOf w) = true := decide_eq_true (w.extractLsb' 8 24).isLt

/-- OPC and ARG are all of a word, so its fields put together give it back (R150). -/
theorem commandWord_of_fields {w : Word} {opc arg : Nat} (ho : opcOf w = opc) (ha : argOf w = arg) :
    commandWord opc arg = w := by
  subst ho ha
  apply BitVec.eq_of_toNat_eq
  rw [commandWord_eq (opcOf_lt w), argOf_eq, opcOf_eq, Nat.div_add_mod, BitVec.toNat_ofNat, Nat.mod_eq_of_lt w.isLt]

/-! ### What an ARG that must be 0, or a flag, decodes to (R153) -/

theorem noArg_eq_ok {w : Word} {i j : Instr} : noArg w i = .ok j ↔ argOf w = 0 ∧ i = j := by
  unfold noArg; split <;> simp [*]

theorem noArg_eq_error {w : Word} {i : Instr} {e : DecodeError} :
    noArg w i = .error e ↔ argOf w ≠ 0 ∧ .reservedArg = e := by
  unfold noArg; split <;> simp [*]

theorem flagArg_eq_ok {w : Word} {f : Bool → Instr} {j : Instr} :
    flagArg w f = .ok j ↔ ∃ d : Bool, argOf w = d.toNat ∧ f d = j := by
  unfold flagArg
  split
  case isTrue h =>
    obtain h | h : argOf w = 0 ∨ argOf w = 1 := by omega
    all_goals simp [h]
  case isFalse h => simp; omega

theorem flagArg_eq_error {w : Word} {f : Bool → Instr} {e : DecodeError} :
    flagArg w f = .error e ↔ 2 ≤ argOf w ∧ .reservedArg = e := by
  unfold flagArg; split <;> simp <;> omega

/-- A word that decodes is the word of its command, and the operands, read from ARG, fit it (R150, R151, R153). -/
theorem encode_of_decode {w : Word} {i : Instr} (h : decode w = .ok i) : encode i = w ∧ i.wellFormed = true := by
  unfold decode at h
  split at h
  case h_1 ho | h_2 ho | h_3 ho | h_5 ho | h_9 ho =>
    cases h
    exact ⟨commandWord_of_fields ho rfl, fitsArg_argOf w⟩
  case h_4 ho | h_8 ho =>
    obtain ⟨d, ha, rfl⟩ := flagArg_eq_ok.1 h
    exact ⟨commandWord_of_fields ho ha, rfl⟩
  case h_6 ho | h_7 ho | h_10 ho | h_11 ho =>
    obtain ⟨ha, rfl⟩ := noArg_eq_ok.1 h
    exact ⟨commandWord_of_fields ho ha, rfl⟩
  case h_12 => cases h

/-- Settles O2. -/
theorem encodeOfDecode : Obligations.EncodeOfDecode := fun _ _ => encode_of_decode

/-! ### The words that are no command (R154) -/

theorem decode_eq_reservedOpcode {w : Word} : decode w = .error .reservedOpcode ↔
    opcOf w ∉ [0x00, 0x01, 0x02, 0x10, 0x11, 0x12, 0x13, 0x20, 0x21, 0x22, 0x23] := by
  unfold decode
  split
  case h_1 ho | h_2 ho | h_3 ho | h_5 ho | h_9 ho => simp [ho]
  case h_4 ho | h_8 ho => simp [ho, flagArg_eq_error]
  case h_6 ho | h_7 ho | h_10 ho | h_11 ho => simp [ho, noArg_eq_error]
  case h_12 => simp_all

theorem decode_eq_reservedArg {w : Word} : decode w = .error .reservedArg ↔
    (opcOf w ∈ [0x12, 0x13, 0x22, 0x23] ∧ argOf w ≠ 0) ∨ (opcOf w ∈ [0x10, 0x20] ∧ 2 ≤ argOf w) := by
  unfold decode
  split
  case h_1 ho | h_2 ho | h_3 ho | h_5 ho | h_9 ho => simp [ho]
  case h_4 ho | h_8 ho => simp [ho, flagArg_eq_error]
  case h_6 ho | h_7 ho | h_10 ho | h_11 ho => simp [ho, noArg_eq_error]
  case h_12 => simp_all

/-- Settles O3: OPC is looked up first, and only two groups of commands have ARG bits that must be 0. -/
theorem rejectedWords : Obligations.RejectedWords := fun w => by
  have hflag : w.toNat / 512 ≠ 0 ↔ 2 ≤ argOf w := by rw [argOf_eq]; omega
  rw [hflag, ← argOf_eq, ← opcOf_eq]
  exact ⟨decode_eq_reservedOpcode, decode_eq_reservedArg⟩

/-- Settles O4: each word is the encoding of its command. -/
theorem decodedWords : Obligations.DecodedWords :=
  ⟨decode_encode (i := .nop 0xABCDEF) rfl, decode_encode (i := .allocDefault 16) rfl,
    decode_encode (i := .allocValidate 64) rfl, decode_encode (i := .txCreate true) rfl,
    decode_encode (i := .txCreate false) rfl, decode_encode (i := .txAssemble 6) rfl,
    decode_encode (i := .txWriteSymbol) rfl, decode_encode (i := .txDestroy) rfl,
    decode_encode (i := .rxCreate true) rfl, decode_encode (i := .rxExecute 100) rfl,
    decode_encode (i := .rxAck) rfl, decode_encode (i := .rxDestroy) rfl⟩

end Sys2Proof.Machine
end

section
/-! The pseudo-noise sequence and the training vectors (R182, R184, R185): O27. -/

namespace Sys2Proof.Machine

/-! ### The pseudo-noise sequence -/

/-- The bit put in is the exclusive or of bits 14 and 13, as R182 computes it on the state. -/
theorem pnStep_feedback (s : BitVec 15) :
    ((s >>> 14) ^^^ (s >>> 13)) &&& 1 = if (pnStep s).1 then 1 else 0 := by
  apply BitVec.eq_of_getLsbD_eq
  intro i _
  cases i with
  | zero => cases h : (pnStep s).1 <;> simpa [pnStep] using h
  | succ i => cases (pnStep s).1 <;> simp

theorem pnStep_bit (s : BitVec 15) : (pnStep s).1 = decide (((s >>> 14) ^^^ (s >>> 13)) &&& 1 = 1) := by
  rw [pnStep_feedback]; cases (pnStep s).1 <;> rfl

theorem pnStep_state (s : BitVec 15) : (pnStep s).2 = (s <<< 1) ||| (((s >>> 14) ^^^ (s >>> 13)) &&& 1) := by
  rw [pnStep_feedback]; rfl

/-- Bit `i` of the sequence is the output of the `i`-th state. -/
theorem pn_getD {st : Nat → BitVec 15} (h : ∀ i, st (i + 1) = (pnStep (st i)).2) {i n : Nat} (hi : i < n) :
    (pn (st 0) n).getD i false = (pnStep (st i)).1 := by
  induction n generalizing st i with
  | zero => exact absurd hi (Nat.not_lt_zero i)
  | succ n ih =>
    cases i with
    | zero => rfl
    | succ i =>
      rw [pn, List.getD_cons_succ, ← h 0]
      exact ih (st := fun j => st (j + 1)) (fun j => h (j + 1)) (Nat.lt_of_succ_lt_succ hi)

/-! ### Its bits on the active subcarriers -/

theorem placeTraining_null {t : List Role} {k : Nat} (b : Bits) (hk : k < t.length) (h : t.getD k .null = .null) :
    (placeTraining t b).getD k Cplx.one = Cplx.zero := by
  induction t generalizing b k with
  | nil => exact absurd hk (Nat.not_lt_zero k)
  | cons r t ih =>
    cases k with
    | zero =>
      have hr : r = .null := h
      subst hr
      rfl
    | succ k =>
      have ih' := fun b => ih b (Nat.lt_of_succ_lt_succ hk) h
      cases r <;> cases b <;> exact ih' _

theorem placeTraining_cons_active {r : Role} (hr : r ≠ .null) (t : List Role) (x : Bool) (b : Bits) :
    placeTraining (r :: t) (x :: b) = (if x then Cplx.negOne else Cplx.one) :: placeTraining t b := by
  cases r
  case null => exact absurd rfl hr
  all_goals rfl

theorem activeCount_cons_null (t : List Role) : activeCount (.null :: t) = activeCount t :=
  List.countP_cons_of_neg (by simp)

theorem activeCount_cons_active {r : Role} (hr : r ≠ .null) (t : List Role) :
    activeCount (r :: t) = activeCount t + 1 :=
  List.countP_cons_of_pos (by simpa using hr)

/-- An active subcarrier takes the bit whose index is the number of active ones before it. -/
theorem placeTraining_active {t : List Role} {b : Bits} {k : Nat} (hb : activeCount t ≤ b.length)
    (h : t.getD k .null ≠ .null) :
    (placeTraining t b).getD k Cplx.zero =
      if b.getD (activeCount (t.take k)) false then Cplx.negOne else Cplx.one := by
  induction t generalizing b k with
  | nil => exact absurd List.getD_nil h
  | cons r t ih =>
    by_cases hr : r = .null
    · subst hr
      rw [activeCount_cons_null] at hb
      cases k with
      | zero => exact absurd rfl h
      | succ k =>
        rw [List.take_succ_cons, activeCount_cons_null]
        exact ih hb h
    · rw [activeCount_cons_active hr] at hb
      cases b with
      | nil => exact absurd hb (Nat.not_succ_le_zero _)
      | cons x b =>
        rw [placeTraining_cons_active hr]
        cases k with
        | zero => rfl
        | succ k =>
          rw [List.take_succ_cons, activeCount_cons_active hr]
          exact ih (Nat.le_of_succ_le_succ hb) h

/-- Settles O27: the recurrence is the generator's step, and its bits stand on the active subcarriers in order. -/
theorem trainingVectors : Obligations.TrainingVectors := by
  refine ⟨fun st n hst => ⟨pn_length _ n, fun i hi => ?_⟩, fun alloc k hk =>
    ⟨trainShort_length alloc, trainLong_length alloc,
      fun h => ⟨placeTraining_null _ hk h, placeTraining_null _ hk h⟩,
      fun h => ⟨placeTraining_active (pn_length _ _).ge h, placeTraining_active (pn_length _ _).ge h⟩⟩⟩
  rw [pn_getD (fun j => (hst j).trans (pnStep_state (st j)).symm) hi, pnStep_bit]

end Sys2Proof.Machine
end

section
/-! The vectors of a frame's symbols (R186, R187, R237): O26. -/

namespace Sys2Proof.Machine

/-! ### One header or payload symbol -/

section DataVector

variable {t : List Role} {D : List Nat} {f : Nat → Cplx}

theorem dataVector_null {k : Nat} (d : Cplx) (hk : k < t.length) (h : t.getD k .null = .null) :
    (dataVector t D f).getD k d = Cplx.zero := by
  rw [List.getD_eq_getElem _ _ (by simpa using hk)]
  simp only [dataVector, List.getElem_map, List.getElem_range, h]

theorem dataVector_pilot {k : Nat} (d : Cplx) (hk : k < t.length) (h : t.getD k .null = .pilot) :
    (dataVector t D f).getD k d = Cplx.one := by
  rw [List.getD_eq_getElem _ _ (by simpa using hk)]
  simp only [dataVector, List.getElem_map, List.getElem_range, h]

/-- The `i`-th data subcarrier carries the `i`-th point: no subcarrier stands in the list twice. -/
theorem dataVector_data {i : Nat} (d : Cplx) (hi : i < (indicesOf .data t).length) :
    (dataVector t (indicesOf .data t) f).getD ((indicesOf .data t).getD i 0) d = f i := by
  obtain ⟨hk, hrole⟩ := List.getElem?_eq_some_iff.1 (mem_indicesOf.1 (List.getElem_mem hi))
  rw [List.getD_eq_getElem _ _ hi, List.getD_eq_getElem _ _ (by simpa using hk)]
  simp only [dataVector, List.getElem_map, List.getElem_range, List.getD_eq_getElem _ _ hk, hrole,
    (indicesOf_nodup .data t).idxOf_getElem i hi]

end DataVector

/-! ### Which vector a symbol has -/

section Kinds

variable {N : Num} {ms : List (Nat × Nat)} (X : Ext N ms) (u : TxUnit)

theorem symbolVector_short {c : Nat} (h : c = 0 ∨ c = 1) : symbolVector X u c = trainShort u.alloc :=
  if_pos (show c < 2 by omega)

theorem symbolVector_long : symbolVector X u 2 = trainLong u.alloc := rfl

theorem symbolVector_header {c : Nat} (h3 : 3 ≤ c) (h : c < 3 + u.NH) :
    symbolVector X u c = headerVector X u (c - 3) := by
  have h2 : ¬c < nShort := by rw [nShort]; omega
  exact (if_neg h2).trans ((if_neg (Nat.not_lt.2 h3)).trans (if_pos h))

theorem symbolVector_payload {c : Nat} (h : 3 + u.NH ≤ c) :
    symbolVector X u c = payloadVector X u (c - 3 - u.NH) := by
  have h2 : ¬c < nShort := by rw [nShort]; omega
  have h3 : ¬c < nPre := by rw [nPre]; omega
  exact (if_neg h2).trans ((if_neg h3).trans (if_neg (Nat.not_lt.2 h)))

/-- Every symbol from 3 on puts points on the data subcarriers (R186, R187). -/
theorem symbolVector_eq_dataVector {c : Nat} (h3 : 3 ≤ c) : ∃ f, symbolVector X u c = dataVector u.alloc u.D f := by
  rcases Nat.lt_or_ge c (3 + u.NH) with h | h
  · exact ⟨_, symbolVector_header X u h3 h⟩
  · exact ⟨_, symbolVector_payload X u h⟩

end Kinds

/-- Settles O26: by the kind of the symbol, then by the role of the subcarrier. -/
theorem symbolVectors : Obligations.SymbolVectors := by
  intro N ms X u c hD hND
  refine ⟨symbolVector_short X u, fun h => h ▸ symbolVector_long X u, fun h3 => ⟨symbolVector_length X u c, ?_, ?_⟩⟩
  · obtain ⟨f, hf⟩ := symbolVector_eq_dataVector X u h3
    rw [hf]
    exact fun k hk => ⟨dataVector_null _ hk, dataVector_pilot _ hk⟩
  · intro i hi
    rw [hND, hD] at hi
    constructor
    · intro h
      rw [symbolVector_header X u h3 h, headerVector, hD, dataVector_data _ hi]
      rfl
    · intro h
      rw [symbolVector_payload X u h, payloadVector, hD, dataVector_data _ hi]

end Sys2Proof.Machine
end

section
/-! The header block and its way through the codes, and the lengths both units compute (R175, R176, R179, R180, R234, R242,
R325, R380, R381, R383): O47 and O49. -/

namespace Sys2Proof.Machine

/-! ### The fields a header carries -/

/-- Legal properties fit the fields of the header block (R179, R232). -/
theorem legalProps_bounds {b : Build} {p : Props} (h : legalProps b p = true) :
    p.crc ≤ 5 ∧ p.fi ≤ 3 ∧ p.fo ≤ 3 ∧ p.mm ≤ 2 ∧ 1 ≤ p.md ∧ p.md ≤ 15 := by
  obtain ⟨hmm, hmd, hmd'⟩ := b.modset_range _ (legalProps_pair h)
  simp only [legalProps, Bool.and_eq_true, decide_eq_true_eq] at h
  obtain ⟨⟨⟨⟨hcrc, hfi⟩, hfo⟩, -⟩, -⟩ := h
  exact ⟨hcrc, hfi, hfo, by simp only at hmm; omega, hmd, hmd'⟩

section Fields

variable {b : Build} {uh : List Byte} {len : Nat} {p : Props}

theorem headerBytes_user (h : uh.length = 8) : (headerBytes uh len p).take 8 = uh := List.take_left' h

/-- The bytes behind the user header, in numbers (R179). -/
theorem headerBytes_fields (h : uh.length = 8) (hlen : len ≤ b.payloadMax) (hp : legalProps b p = true) :
    ((headerBytes uh len p).drop 8).map BitVec.toNat =
      [len / 256, len % 256, 16 * p.mm + p.md, 32 * p.crc + p.fi, p.fo] := by
  have hmax := b.payloadMax_range
  obtain ⟨hcrc, hfi, hfo, hmm, -, hmd⟩ := legalProps_bounds hp
  rw [headerBytes, List.drop_left' h]
  simp only [List.map_cons, List.map_nil, BitVec.toNat_ofNat, List.cons.injEq, and_true]
  omega

theorem hdrByte_add_eight (hb : List Byte) (j : Nat) : hdrByte hb (8 + j) = ((hb.drop 8).map BitVec.toNat).getD j 0 := by
  simp only [hdrByte, List.getD_eq_getElem?_getD, List.getElem?_map, List.getElem?_drop]
  cases hb[8 + j]? <;> rfl

theorem hdrLen_headerBytes (h : uh.length = 8) (hlen : len ≤ b.payloadMax) (hp : legalProps b p = true) :
    hdrLen (headerBytes uh len p) = len := by
  have byte := fun j => (hdrByte_add_eight _ j).trans (congrArg (List.getD · j 0) (headerBytes_fields h hlen hp))
  rw [hdrLen, byte 0, byte 1]
  exact Nat.div_add_mod' len 256

theorem hdrProps_headerBytes (h : uh.length = 8) (hlen : len ≤ b.payloadMax) (hp : legalProps b p = true) :
    hdrProps (headerBytes uh len p) = p := by
  have byte := fun j => (hdrByte_add_eight _ j).trans (congrArg (List.getD · j 0) (headerBytes_fields h hlen hp))
  obtain ⟨-, hfi, hfo, -, -, hmd⟩ := legalProps_bounds hp
  have hnpre := npre_of_legalProps hp
  rw [hdrProps, byte 2, byte 3, byte 4]
  obtain ⟨crc, fi, fo, mm, md, npre⟩ := p
  simp only [List.getD_cons_succ, List.getD_cons_zero, Props.mk.injEq] at *
  omega

/-- What the generator announces the synchronizer finds legal (R380). -/
theorem fieldsLegal_headerBytes (h : uh.length = 8) (hlen : len ≤ b.payloadMax) (hp : legalProps b p = true) :
    fieldsLegal b (headerBytes uh len p) = true := by
  have hfo : hdrByte (headerBytes uh len p) 12 = p.fo := by
    rw [hdrByte_add_eight _ 4, headerBytes_fields h hlen hp]; rfl
  have hzero : p.fo / 32 = 0 := by have := legalProps_bounds hp; omega
  simp only [fieldsLegal, hdrProps_headerBytes h hlen hp, hdrLen_headerBytes h hlen hp, hp, hfo, hzero, hlen, decide_true,
    Bool.and_self]

end Fields

/-! ### The header's way through its codes -/

/-- The codes of a 13-byte block are undone, its CRC agrees, and what is left to check are its fields (R180, R380). -/
theorem headerDecode_headerChain {N : Num} {ms : List (Nat × Nat)} (X : Ext N ms) (b : Build)
    {hd : List Byte} (h : hd.length = 13) :
    headerDecode b X (headerChain X hd) = (fieldsLegal b hd, hd) := by
  have hbits : (bits hd).length = 104 := by rw [bits_length, h]
  have hblock : (bits hd ++ X.crc hdrCrc hd).length = hdrBlockBits := by
    rw [List.length_append, hbits, X.crc_length]; rfl
  have hfec : X.fecDec hdrFec hdrBlockBits (headerChain X hd) = bits hd ++ X.crc hdrCrc hd := by
    rw [headerChain, ← hblock, X.fecDec_fecEnc]
  simp only [headerDecode, hfec, List.take_left' hbits, List.drop_left' hbits, bytes_bits, crcOk, decide_true,
    Bool.true_and]

/-- Settles O47: the fields fit their bits, and each code is undone by its decoder. -/
theorem headerRoundTrip : Obligations.HeaderRoundTrip := by
  intro N ms X b uh len p huh hlen hp
  have h13 : (headerBytes uh len p).length = 13 := by rw [headerBytes, List.length_append, huh]; rfl
  refine ⟨headerBytes_fields huh hlen hp, headerCode_length X huh len p, ?_, headerBytes_user huh,
    hdrLen_headerBytes huh hlen hp, hdrProps_headerBytes huh hlen hp⟩
  rw [headerCode, headerDecode_headerChain X b h13, fieldsLegal_headerBytes huh hlen hp]

/-! ### The lengths -/

/-- The payload symbols have room for the coded payload (R242). -/
theorem le_payloadSymbols_mul {nd md : Nat} (hnd : 1 ≤ nd) (hmd : 1 ≤ md) (n : Nat) :
    n ≤ payloadSymbols nd md n * nd * md :=
  calc n ≤ ceilDiv n md * md := le_ceilDiv_mul hmd
    _ ≤ ceilDiv (ceilDiv n md) nd * nd * md := Nat.mul_le_mul_right md (le_ceilDiv_mul hnd)
    _ ≤ payloadSymbols nd md n * nd * md :=
      Nat.mul_le_mul_right md (Nat.mul_le_mul_right nd (Nat.le_max_right 1 _))

/-- Settles O49: both units count from the same length and properties, which the header carries. -/
theorem lengthAgreement : Obligations.LengthAgreement := by
  refine ⟨rfl, fun n => ⟨rfl, rfl, rfl, rfl⟩, ?_⟩
  intro N ms X b u r p uh pb huh hlen hp hnd hpos
  have hmd : 1 ≤ p.md := (b.modset_range _ (legalProps_pair hp)).2.1
  have hcoded : (payloadChain X p.crc p.fi p.fo pb).length = payloadBits p.crc p.fi p.fo pb.length := by
    simp only [payloadChain, payloadBits, X.fecEnc_length, X.crc_length, List.length_append, bits_length]
  simp only [headerAccepted, txAssembled, hdrLen_headerBytes huh hlen hp, hdrProps_headerBytes huh hlen hp, hcoded, hnd,
    true_and]
  exact le_payloadSymbols_mul hpos hmd _

end Sys2Proof.Machine
end

section
/-! The allocator commands and the default table (R170, R200 to R203, R205, R212): O15 to O18. -/

namespace Sys2Proof.Machine

variable {bd : Build}

/-! ### The default table -/

/-- The role of R203 at distance `i` from DC, where the last used distance is `u`. -/
def bandRole (u i : Nat) : Role :=
  if 1 ≤ i ∧ i ≤ u then (if i % 8 = 4 then .pilot else .data) else .null

theorem bandRole_of_used {u i : Nat} (h1 : 1 ≤ i) (hi : i ≤ u) : bandRole u i = if i % 8 = 4 then .pilot else .data :=
  if_pos ⟨h1, hi⟩

theorem bandRole_of_unused {u i : Nat} (h : i = 0 ∨ u < i) : bandRole u i = .null := if_neg (by omega)

/-- The last distance from DC that the default table uses (R203). -/
def lastUsed (m : Nat) : Nat := m / 2 - max 2 (m / 16) - 1

/-- R203's bound, which gives every default table a pilot and a data subcarrier. -/
theorem five_le_lastUsed {m : Nat} (h : 16 ≤ m) : 5 ≤ lastUsed m := by unfold lastUsed; omega

/-- The used subcarriers on the two sides of DC leave the band edge between them. -/
theorem two_mul_lastUsed_lt {m : Nat} (h : 16 ≤ m) : 2 * lastUsed m + 1 < m := by unfold lastUsed; omega

theorem natAbs_freq {m k : Nat} (h : k ≤ m) : (freq m k).natAbs = if k < m / 2 then k else m - k := by
  unfold freq; split <;> omega

/-- R202's role depends on the distance from DC alone; `i + P_PILOT/2` is a multiple of P_PILOT where `i` leaves 4. -/
theorem defaultRole_eq {m k : Nat} (h : k ≤ m) : defaultRole m k = bandRole (lastUsed m) (freq m k).natAbs := by
  rw [natAbs_freq h]
  simp only [defaultRole, bandRole]
  generalize (if k < m / 2 then k else m - k) = i
  refine if_congr ?_ (if_congr ?_ rfl rfl) rfl
  · unfold lastUsed; omega
  · simp only [pPilot]; omega

theorem initDefault_getD {m k : Nat} (h : k < m) :
    (initDefault m).getD k .null = bandRole (lastUsed m) (freq m k).natAbs := by
  rw [← defaultRole_eq h.le]
  simp [initDefault, h]

/-! ### How many subcarriers of each role -/

/-- The roles at the distances 1 to `u` from DC. -/
def sideRoles (u : Nat) : List Role := (List.range u).map fun j => if (j + 1) % 8 = 4 then .pilot else .data

theorem sideRoles_succ (u : Nat) : sideRoles (u + 1) = sideRoles u ++ [if (u + 1) % 8 = 4 then .pilot else .data] := by
  simp only [sideRoles, List.range_succ, List.map_append, List.map_cons, List.map_nil]

/-- The same roles from the far end inwards. -/
theorem sideRoles_reverse (u : Nat) :
    (sideRoles u).reverse = (List.range u).map fun j => if (u - j) % 8 = 4 then .pilot else .data := by
  induction u with
  | zero => rfl
  | succ u ih =>
    rw [sideRoles_succ, List.reverse_concat, ih, List.range_succ_eq_map, List.map_cons, List.map_map]
    simp only [Function.comp_def, Nat.succ_eq_add_one, Nat.add_sub_add_right, Nat.sub_zero]

/-- One pilot in eight, the first at distance 4; the rest are data. -/
theorem sideRoles_count (u : Nat) :
    (sideRoles u).count .pilot = (u + 4) / 8 ∧ (sideRoles u).count .data = u - (u + 4) / 8 := by
  induction u with
  | zero => decide
  | succ u ih =>
    obtain ⟨hp, hd⟩ := ih
    have hdiv : (u + 1 + 4) / 8 = (u + 4) / 8 + if (u + 1) % 8 = 4 then 1 else 0 := by
      rw [Nat.add_right_comm, Nat.succ_div]
      exact congrArg _ (if_congr (by omega) rfl rfl)
    rw [sideRoles_succ, List.count_append, List.count_append, hp, hd, hdiv]
    by_cases h : (u + 1) % 8 = 4
    · simp [h]
    · simp [h, Nat.sub_add_comm (show (u + 4) / 8 ≤ u by omega)]

theorem map_range_add {α : Type} (f : Nat → α) (a b : Nat) :
    (List.range (a + b)).map f = (List.range a).map f ++ (List.range b).map (fun j => f (a + j)) := by
  rw [List.range_add, List.map_append, List.map_map]; rfl

/-- The default table is symmetric about DC (R202): DC, the positive frequencies, the unused band edge, the negative ones. -/
theorem initDefault_eq {m : Nat} (h : 16 ≤ m) : initDefault m =
    .null :: (sideRoles (lastUsed m) ++
      (List.replicate (m - 2 * lastUsed m - 1) .null ++ (sideRoles (lastUsed m)).reverse)) := by
  have hu := two_mul_lastUsed_lt h
  obtain ⟨n, hn⟩ : ∃ n, m - 2 * lastUsed m - 1 = n := ⟨_, rfl⟩
  have hrange : List.range m = List.range (1 + (lastUsed m + (n + lastUsed m))) := congrArg _ (by omega)
  have hdc : defaultRole m 0 = .null := by
    rw [defaultRole_eq (Nat.zero_le m), natAbs_freq (Nat.zero_le m), if_pos (by omega), bandRole_of_unused (.inl rfl)]
  have hpositive : ∀ j < lastUsed m, defaultRole m (1 + j) = if (j + 1) % 8 = 4 then .pilot else .data := by
    intro j hj
    rw [defaultRole_eq (by omega), natAbs_freq (by omega), if_pos (by omega), Nat.add_comm 1 j,
      bandRole_of_used (by omega) hj]
  have hedge : ∀ j < n, defaultRole m (1 + (lastUsed m + j)) = .null := by
    intro j hj
    rw [defaultRole_eq (by omega), natAbs_freq (by omega), bandRole_of_unused]
    split <;> omega
  have hnegative : ∀ j < lastUsed m, defaultRole m (1 + (lastUsed m + (n + j))) =
      if (lastUsed m - j) % 8 = 4 then .pilot else .data := by
    intro j hj
    rw [defaultRole_eq (by omega), natAbs_freq (by omega), if_neg (by omega),
      show m - (1 + (lastUsed m + (n + j))) = lastUsed m - j by omega, bandRole_of_used (by omega) (by omega)]
  calc initDefault m
      = defaultRole m 0 :: ((List.range (lastUsed m)).map (fun j => defaultRole m (1 + j)) ++
          ((List.range n).map (fun j => defaultRole m (1 + (lastUsed m + j))) ++
            (List.range (lastUsed m)).map (fun j => defaultRole m (1 + (lastUsed m + (n + j)))))) := by
        rw [initDefault, hrange, map_range_add, map_range_add, map_range_add]; rfl
    _ = .null :: (sideRoles (lastUsed m) ++ (List.replicate n .null ++ (sideRoles (lastUsed m)).reverse)) := by
        rw [hdc, sideRoles_reverse, sideRoles, List.map_congr_left fun j hj => hpositive j (List.mem_range.1 hj),
          List.map_congr_left fun j hj => hedge j (List.mem_range.1 hj),
          List.map_congr_left fun j hj => hnegative j (List.mem_range.1 hj), List.map_const', List.length_range]
    _ = _ := by rw [hn]

/-- DC and the band edge hold neither pilots nor data, so each role occurs as often as on the two sides of DC. -/
theorem initDefault_count {m : Nat} (h : 16 ≤ m) {r : Role} (hr : r ≠ .null) :
    (initDefault m).count r = 2 * (sideRoles (lastUsed m)).count r := by
  rw [initDefault_eq h, List.count_cons_of_ne hr.symm, List.count_append, List.count_append, List.count_reverse,
    List.count_replicate, if_neg (by simpa using hr.symm)]
  omega

/-- Settles O18: each subcarrier by its distance from DC, and the counts by the symmetry of the table. -/
theorem defaultTable : Obligations.DefaultTable := by
  intro m _ hmin _ u
  have hu : 5 ≤ u := five_le_lastUsed hmin
  obtain ⟨hpilot, hdata⟩ := sideRoles_count u
  have hp : (initDefault m).count .pilot = 2 * ((u + 4) / 8) :=
    (initDefault_count hmin (by decide)).trans (congrArg (2 * ·) hpilot)
  have hd : (initDefault m).count .data = 2 * u - 2 * ((u + 4) / 8) :=
    ((initDefault_count hmin (by decide)).trans (congrArg (2 * ·) hdata)).trans (Nat.mul_sub 2 _ _)
  refine ⟨initDefault_length m, fun k hk => initDefault_getD hk, hp, hd, ?_, ?_⟩
  · omega
  · omega

/-! ### The commands -/

theorem exec_nop (arg : Nat) (s : State) : exec (.nop arg) s = .next (respond .ok s) := rfl

theorem exec_allocDefault (m : Nat) (s : State) : exec (.allocDefault m) s = .next
    (if legalM s.build m then respond .ok (s.setMem (putAlloc s.build s.mem 0 (initDefault m)))
      else respond .configurationError s) := rfl

theorem exec_allocValidate_illegal {s : State} {m : Nat} (h : legalM s.build m = false) :
    exec (.allocValidate m) s = .next (respond .configurationError s) := by
  show Host.Outcome.next (allocValidate m s) = _
  simp [allocValidate, h]

/-- ALLOC_VALIDATE on a table that ALLOC holds takes no draw. -/
theorem exec_allocValidate_table {s : State} {m : Nat} {c : List Byte} (h : legalM s.build m = true) (hl : c.length = m)
    (ht : TableIs s c) :
    exec (.allocValidate m) s = .next (respond (if validAlloc c then .ok else .invalidAllocation) s) := by
  subst hl
  show Host.Outcome.next (allocValidate c.length s) = _
  rw [allocValidate, if_pos h, allocCodes_of_tableIs ht]
  rfl

/-- Settles O15: NOP is its answer. -/
theorem nopCompletes : Obligations.NopCompletes := fun arg s =>
  (exec_nop arg s).trans (congrArg _ (respond_eq .ok s))

/-- Settles O17: the answer is that of the one check of R205, then that of R212's predicate. -/
theorem allocValidateAnswers : Obligations.AllocValidateAnswers := by
  intro s m
  have hresp : ∀ st, respond st s = s.setResp (BitVec.ofNat 32 (statusCode st)) := fun st => respond_eq st s
  refine ⟨fun c heven hmin hmax hl ht => ?_, fun h => ?_⟩
  · rw [exec_allocValidate_table ((legalM_iff m).2 ⟨heven, hmin, hmax⟩) hl ht]
    refine ⟨fun hv => ?_, fun hv => ?_⟩
    · rw [if_pos ((validAlloc_iff c).2 hv), hresp]; rfl
    · rw [validAlloc_eq_false hv, hresp]; rfl
  · have hm : legalM s.build m = false := by rwa [Bool.eq_false_iff, ne_eq, legalM_iff]
    rw [exec_allocDefault, hm, exec_allocValidate_illegal hm, hresp]
    exact ⟨rfl, rfl⟩

/-! ### The table written into ALLOC -/

/-- After a table is written, a word of it reads as its role code and takes no draw (R101, R170). -/
theorem memGetWord_putAlloc {mem : Memory} (h : Rising mem) {c : List Role} (hl : c.length ≤ bd.mMax) {k : Nat}
    (hk : k < c.length) (n : Nat) :
    memGetWord bd (putAlloc bd mem 0 c) n (allocAddr k) = ((roleCode (c.getD k .null)).setWidth 32, n) := by
  have hin : inRegion bd .alloc (allocAddr k) = true :=
    (inRegion_iff _ _).2 (by simp only [allocAddr, regionSize]; omega)
  have hbytes : ∀ j < 4, memPeek bd (putAlloc bd mem 0 c) (allocAddr k + j) =
      memPeek bd (memPutWord bd mem (allocAddr k) ((roleCode (c.getD k .null)).setWidth 32)) (allocAddr k + j) := by
    intro j hj
    rw [memPeek_putAlloc h, memPeek_memPutWord h, if_pos (by simp only [allocAddr]; omega), if_pos (by omega),
      show (allocAddr k + j - allocAddr 0) / 4 = k by simp only [allocAddr]; omega,
      show (allocAddr k + j - allocAddr 0) % 4 = allocAddr k + j - allocAddr k by simp only [allocAddr]; omega]
  have hheld : ∀ r : Role, (roleCode r).setWidth 32 &&& (0x00000003 : Word) = (roleCode r).setWidth 32 := by
    intro r; cases r <;> decide
  rw [memGetWord_congr hbytes, memGetWord_memPutWord h, wordMask_alloc hin (by simp only [allocAddr, regionBase]; omega),
    hheld]

/-- Settles O16: with a legal M the words written are the codes of the default table, and the rest of the memory stays. -/
theorem allocDefaultWritesTable : Obligations.AllocDefaultWritesTable := by
  intro s m hs heven hmin hmax
  have hrise : Rising s.mem := ((memory_wf_iff _).1 hs).1
  refine ⟨(s.setMem (putAlloc s.build s.mem 0 (initDefault m))).setResp 0x00000000, ?_, rfl, fun k hk => ?_, fun x hx => ?_⟩
  · rw [exec_allocDefault, if_pos ((legalM_iff m).2 ⟨heven, hmin, hmax⟩), respond_eq]; rfl
  · refine (memGetWord_putAlloc hrise (c := initDefault m) (by rwa [initDefault_length]) (by rwa [initDefault_length])
      s.draws).trans ?_
    cases (initDefault m).getD k .null <;> rfl
  · refine (memPeek_putAlloc hrise 0 x _).trans (if_neg ?_)
    rw [initDefault_length]
    simp only [allocAddr, regionBase]
    omega

end Sys2Proof.Machine
end

section
/-! `legal_props` and the commands that only check or only reset (R232, R233, R236, R239, R306, R402): O19, O24 and O36. -/

namespace Sys2Proof.Machine

/-- Settles O19: each check of R232 on its field of the word. -/
theorem legalProperties : Obligations.LegalProperties := by
  intro b w
  rw [propsOf_eq]
  simp only [legalProps, legalPair, Bool.and_eq_true, decide_eq_true_eq, List.contains_iff_mem, and_assoc]
  exact Iff.rfl

/-! ### The failures of the generator's commands, in their order -/

theorem exec_tx_notCreated {s : State} (hc : s.tx.created = false) (len : Nat) :
    exec (.txAssemble len) s = .next (respond .notCreated s) ∧ exec .txWriteSymbol s = .next (respond .notCreated s) ∧
      exec .txDestroy s = .next (respond .notCreated s) := by
  refine ⟨?_, ?_, ?_⟩
  · show Host.Outcome.next (txAssemble len s) = _; simp [txAssemble, hc]
  · show Host.Outcome.next (txWriteSymbol s) = _; simp [txWriteSymbol, hc]
  · show Host.Outcome.next (txDestroy s) = _; simp [txDestroy, hc]

theorem exec_txAssemble_tooLarge {s : State} {len : Nat} (hc : s.tx.created = true) (hl : s.build.payloadMax < len) :
    exec (.txAssemble len) s = .next (respond .payloadTooLarge s) := by
  show Host.Outcome.next (txAssemble len s) = _
  simp [txAssemble, hc, hl]

theorem exec_txAssemble_illegal {s : State} {len : Nat} (hc : s.tx.created = true) (hl : len ≤ s.build.payloadMax)
    (hp : legalProps s.build (propsOf s.txProps) = false) :
    exec (.txAssemble len) s = .next (respond .configurationError s) := by
  show Host.Outcome.next (txAssemble len s) = _
  simp [txAssemble, hc, Nat.not_lt.2 hl, hp]

theorem exec_txWriteSymbol_notAssembled {s : State} (hc : s.tx.created = true) (hd : s.tx.state = .done) :
    exec .txWriteSymbol s = .next (respond .notAssembled s) := by
  show Host.Outcome.next (txWriteSymbol s) = _
  simp [txWriteSymbol, hc, hd]

/-- Settles O24: the answer of a failure is its status code alone. -/
theorem txCommandFailures : Obligations.TxCommandFailures := by
  intro s len
  have hresp : ∀ st, respond st s = s.setResp (BitVec.ofNat 32 (statusCode st)) := fun st => respond_eq st s
  refine ⟨fun hc => ?_, fun hc hl => ?_, fun hc hl hp => ?_, fun hc hd => ?_⟩
  · rw [← show respond .notCreated s = s.setResp 0x00000005 from hresp _]
    exact exec_tx_notCreated hc len
  · exact (exec_txAssemble_tooLarge hc hl).trans (congrArg _ (hresp _))
  · exact (exec_txAssemble_illegal hc hl hp).trans (congrArg _ (hresp _))
  · exact (exec_txWriteSymbol_notAssembled hc hd).trans (congrArg _ (hresp _))

/-! ### TX_DESTROY and RX_DESTROY -/

theorem exec_txDestroy_created {s : State} (hc : s.tx.created = true) :
    exec .txDestroy s = .next (respond .ok (s.setTx TxUnit.reset)) := by
  show Host.Outcome.next (txDestroy s) = _
  simp [txDestroy, hc]

theorem exec_rxDestroy_created {s : State} (hc : s.rx.created = true) (he : s.rx.evt = false) :
    exec .rxDestroy s = .next (respond .ok ((s.setRx RxUnit.reset).setMem (memClear s.build s.mem .resPay))) := by
  show Host.Outcome.next (rxDestroy s) = _
  simp [rxDestroy, hc, he]

/-- Clearing RES_PAY leaves every other byte as it reads. -/
theorem sameOutside_memClear_resPay (b : Build) (m : Memory) :
    SameOutside b m (memClear b m .resPay) 0x050000 (regionSize b .resPay) := by
  intro x hx
  refine memPeek_memClear_other m .resPay x (Bool.eq_false_iff.2 fun h => ?_)
  obtain ⟨hlo, hhi⟩ := (inRegion_iff _ _).1 h
  simp only [regionBase] at hlo hhi
  omega

/-- Settles O36: past the checks, the record is the one of the reset, and RX_DESTROY clears RES_PAY beside it. -/
theorem destroyCompletes : Obligations.DestroyCompletes := by
  intro s
  refine ⟨fun hc => ?_, fun hc he => ?_⟩
  · exact (exec_txDestroy_created hc).trans (congrArg _ (respond_eq .ok _))
  · exact ⟨_, exec_rxDestroy_created hc he, respond_eq .ok _, fun _ => memPeek_memClear_resPay s.mem,
      sameOutside_memClear_resPay s.build s.mem⟩

end Sys2Proof.Machine
end

section
/-! TX_ASSEMBLE past its checks (R233 to R235, R242): O22. -/

namespace Sys2Proof.Machine

theorem exec_txAssemble_legal {s : State} {len : Nat} (hc : s.tx.created = true) (hl : len ≤ s.build.payloadMax)
    (hp : legalProps s.build (propsOf s.txProps) = true) :
    exec (.txAssemble len) s = .next (respond .ok ((s.setDraws (txBytes s len).2.2).setTx
      (txAssembled (Config.ext s.build.modset) s.tx (propsOf s.txProps) (txBytes s len).1 (txBytes s len).2.1 len))) := by
  show Host.Outcome.next (txAssemble len s) = _
  simp [txAssemble, hc, Nat.not_lt.2 hl, hp]

/-- Bytes of TX_HDR and TX_PAY that are written are what TX_ASSEMBLE reads, and reading them takes no draw (R111). -/
theorem txBytes_of_bytesAt {s : State} {uh pb : List Byte} (hl : uh.length = 8) (huh : BytesAt s.build s.mem 0x020000 uh)
    (hpb : BytesAt s.build s.mem 0x030000 pb) : txBytes s pb.length = (uh, pb, s.draws) := by
  have h1 : memGets s.build s.mem s.draws ((List.range hUser).map (regionBase .txHdr + ·)) = (uh, s.draws) := by
    rw [show hUser = uh.length from hl.symm]; exact memGets_of_bytesAt huh _
  have h2 : memGets s.build s.mem s.draws ((List.range pb.length).map (regionBase .txPay + ·)) = (pb, s.draws) :=
    memGets_of_bytesAt hpb _
  simp only [txBytes, h1, h2]

/-- Settles O22: the bytes read are those of the two windows, and the record is `txAssembled` of them. -/
theorem txAssembleCompletes : Obligations.TxAssembleCompletes := by
  rintro s len p uh pb hc hlen rfl hp hl huh rfl hpb
  rw [exec_txAssemble_legal hc hlen hp, txBytes_of_bytesAt hl huh hpb, respond_eq]
  rfl

end Sys2Proof.Machine
end

section
/-! TX_WRITESYMBOL with a frame in progress (R16, R236, R238): O23. -/

namespace Sys2Proof.Machine

variable {bd : Build}

/-! ### Words inside the bytes stored -/

/-- Four of the bytes stored that are those of a word read back as that word, with its held bits (R106). -/
theorem memGetWord_memPutBytes {m : Memory} (h : Rising m) (a : Nat) {o : Nat} {bs : List Byte} {w : Word}
    (hl : o + 4 ≤ bs.length) (hw : ∀ j < 4, bs.getD (o + j) 0 = (wordBytes w).getD j 0) (n : Nat) :
    memGetWord bd (memPutBytes bd m a bs) n (a + o) = (w &&& wordMask bd (a + o), n) := by
  rw [← memGetWord_memPutWord h]
  refine memGetWord_congr (fun j hj => ?_) n
  rw [memPeek_memPutBytes h, memPeek_memPutWord h, if_pos (by omega), if_pos (by omega), Nat.add_sub_cancel_left,
    show a + o + j - a = o + j by omega, hw j hj]

/-- Byte `j` of sample `i` in the bytes of a list of samples (R103). -/
theorem getD_flatMap_sampleBytes (N : Num) {z : List Cplx} {i j : Nat} (hi : i < z.length) (hj : j < 8) :
    (z.flatMap (sampleBytes N)).getD (8 * i + j) 0 = (sampleBytes N (z.getD i Cplx.zero)).getD j 0 := by
  have hlen : ∀ c, (sampleBytes N c).length = 8 := fun _ => rfl
  induction z generalizing i with
  | nil => exact absurd hi (Nat.not_lt_zero i)
  | cons c z ih =>
    rw [List.flatMap_cons]
    cases i with
    | zero => rw [Nat.mul_zero, Nat.zero_add, List.getD_append _ _ _ _ (by rw [hlen]; exact hj), List.getD_cons_zero]
    | succ i =>
      rw [List.getD_append_right _ _ _ _ (by rw [hlen]; omega), hlen, show 8 * (i + 1) + j - 8 = 8 * i + j by omega,
        List.getD_cons_succ]
      exact ih (Nat.lt_of_succ_lt_succ hi)

/-- The two words of a sample in TX_SYM after a list of samples that fits it is stored (R103, R236). -/
theorem memGetWord_txSym {m : Memory} (h : Rising m) {z : List Cplx} (hz : z.length ≤ 2 * bd.mMax) {i : Nat}
    (hi : i < z.length) (n : Nat) :
    memGetWord bd (memPutBytes bd m (regionBase .txSym) (z.flatMap (sampleBytes Config.num))) n (0x040000 + 8 * i) =
        (Config.num.toWord (z.getD i Cplx.zero).re, n) ∧
      memGetWord bd (memPutBytes bd m (regionBase .txSym) (z.flatMap (sampleBytes Config.num))) n (0x040000 + 8 * i + 4) =
        (Config.num.toWord (z.getD i Cplx.zero).im, n) := by
  have hlen := sampleBytes_length z
  have hmask : ∀ o ≤ 8 * i + 4, wordMask bd (regionBase .txSym + o) = BitVec.allOnes 32 := fun o ho =>
    wordMask_full fun j hj => storeMask_txSym ((inRegion_iff _ _).2 (by simp only [regionSize]; omega))
  have hword : ∀ (o : Nat) (w : Word), o ≤ 8 * i + 4 → (∀ j < 4,
      (z.flatMap (sampleBytes Config.num)).getD (o + j) 0 = (wordBytes w).getD j 0) →
      memGetWord bd (memPutBytes bd m (regionBase .txSym) (z.flatMap (sampleBytes Config.num))) n (0x040000 + o) = (w, n) := by
    intro o w ho hw
    refine (memGetWord_memPutBytes h (regionBase .txSym) (by omega) hw n).trans ?_
    rw [hmask o ho, BitVec.and_allOnes]
  refine ⟨hword (8 * i) _ (by omega) fun j hj => ?_, hword (8 * i + 4) _ le_rfl fun j hj => ?_⟩
  · rw [getD_flatMap_sampleBytes _ hi (by omega), sampleBytes, List.getD_append _ _ _ _ hj]
  · rw [Nat.add_assoc, getD_flatMap_sampleBytes _ hi (by omega), sampleBytes,
      List.getD_append_right _ _ _ _ (Nat.le_add_right 4 j)]
    exact congrArg (fun k => List.getD _ k 0) (Nat.add_sub_cancel_left (n := 4) (m := j))

/-! ### The command -/

/-- The record once `c` symbols of its frame are written (R238). -/
def atSymbol (u : TxUnit) (c : Nat) : TxUnit := { u with symcnt := c, state := txStateOf u c }

theorem exec_txWriteSymbol_inProgress {s : State} (hc : s.tx.created = true) (hd : s.tx.state ≠ .done) :
    exec .txWriteSymbol s = .next (((s.setMem (memPutBytes s.build s.mem (regionBase .txSym)
      ((txSymbol Config.num (Config.ext s.build.modset) s.tx).flatMap (sampleBytes Config.num)))).setTx
        (atSymbol s.tx (s.tx.symcnt + 1))).setResp
          (respWord .ok (decide (s.tx.symcnt + 1 = frameSymbols s.tx)) s.tx.L)) := by
  show Host.Outcome.next (txWriteSymbol s) = _
  simp [txWriteSymbol, hc, hd, atSymbol]

/-- The symbol of a consistent record is all of its OFDM symbol, L samples (R17, R236). -/
theorem txSymbol_eq_ofdm {s : State} (N : Num) {ms : List (Nat × Nat)} (X : Ext N ms) (h : TxInv s) (hc : s.tx.created = true) :
    txSymbol N X s.tx = ofdm N s.tx.G (symbolVector X s.tx s.tx.symcnt) ∧ (txSymbol N X s.tx).length = s.tx.L := by
  obtain ⟨⟨hm, hL, hM, -⟩, -⟩ := h.2 hc
  have hlen : (ofdm N s.tx.G (symbolVector X s.tx s.tx.symcnt)).length = s.tx.L := by
    rw [ofdm_length N (by rw [symbolVector_length, hM]; exact (legalM_of_legalMG hm).2), symbolVector_length, hM, hL]
  have hall : txSymbol N X s.tx = ofdm N s.tx.G (symbolVector X s.tx s.tx.symcnt) := List.take_of_length_le hlen.le
  exact ⟨hall, by rw [hall, hlen]⟩

/-- Settles O23: the samples stored are those of the whole OFDM symbol, and each reads back as its two words. -/
theorem txWriteSymbolCompletes : Obligations.TxWriteSymbolCompletes := by
  intro s hs htx hc hd
  have hrise : Rising s.mem := ((memory_wf_iff _).1 hs).1
  obtain ⟨hall, hlen⟩ := txSymbol_eq_ofdm Config.num (Config.ext s.build.modset) htx hc
  refine ⟨_, exec_txWriteSymbol_inProgress hc hd, ?_, fun i hi => ?_, fun x hx => ?_⟩
  · rw [respWord_eq]
    simp only [decide_eq_true_eq]
    rfl
  · rw [← hall]
    exact memGetWord_txSym hrise (txSymbol_length_le htx hc) (hlen.symm ▸ hi) s.draws
  · refine (memPeek_memPutBytes hrise _ x _).trans (if_neg ?_)
    rw [sampleBytes_length, hlen]
    simp only [regionBase]
    omega

end Sys2Proof.Machine
end

section
/-! Symbol accounting over the accesses of one frame (R238, R240): O25. -/

namespace Sys2Proof.Machine

/-! ### The fields of an answer with samples -/

theorem respWord_isLast (st : Status) (l : Bool) (n : Nat) : (respWord st l n).extractLsb' 8 1 = BitVec.ofBool l := by
  have hst := statusCode_le st
  rw [respWord_eq]
  apply BitVec.eq_of_toNat_eq
  cases l <;> simp [Nat.shiftRight_eq_div_pow] <;> omega

theorem respWord_samples (st : Status) (l : Bool) {n : Nat} (h : n < 65536) :
    ((respWord st l n).extractLsb' 16 16).toNat = n := by
  have hst := statusCode_le st
  rw [respWord_eq]
  cases l <;> simp [Nat.shiftRight_eq_div_pow] <;> omega

theorem respWord_ne_zero {st : Status} (h : st ≠ .ok) : respWord st false 0 ≠ 0 := by
  cases st
  case ok => exact absurd rfl h
  all_goals decide

/-! ### The sequencer and its answers -/

/-- The sequencer is done exactly when every symbol of the frame is written (R238). -/
theorem txStateOf_eq_done {u : TxUnit} {c : Nat} : txStateOf u c = .done ↔ frameSymbols u ≤ c := by
  constructor
  · intro h
    by_contra hlt
    have hlt := Nat.not_le.1 hlt
    unfold txStateOf at h
    split_ifs at h
  · intro h
    by_contra hne
    exact absurd (lt_frameSymbols_of_txStateOf hne) (Nat.not_lt.2 h)

/-- The answer to the TX_WRITESYMBOL that `k` others precede in its frame (R236, R240). -/
def symbolAnswer (u : TxUnit) (k : Nat) : Word :=
  if k < frameSymbols u then respWord .ok (decide (k + 1 = frameSymbols u)) u.L else respWord .notAssembled false 0

/-- Where `c` TX_WRITESYMBOLs leave the record: past the end of the frame they change nothing (R236, R238). -/
def afterWrites (u : TxUnit) (c : Nat) : TxUnit := atSymbol u (min c (frameSymbols u))

theorem exec_txWriteSymbol_afterWrites {s t : State} {u : TxUnit} {c : Nat} (hc : u.created = true)
    (hs : s.tx = afterWrites u c) (h : exec .txWriteSymbol s = .next t) :
    t.tx = afterWrites u (c + 1) ∧ t.resp = symbolAnswer u c := by
  have hcr : s.tx.created = true := by rw [hs]; exact hc
  have hstate : s.tx.state = txStateOf u (min c (frameSymbols u)) := by rw [hs]; rfl
  rcases Nat.lt_or_ge c (frameSymbols u) with hlt | hge
  · have hmin : s.tx = atSymbol u c := by rw [hs, afterWrites, Nat.min_eq_left hlt.le]
    have hd : s.tx.state ≠ .done := by
      rw [hstate, ne_eq, txStateOf_eq_done]; omega
    rw [exec_txWriteSymbol_inProgress hcr hd] at h
    cases h
    rw [afterWrites, Nat.min_eq_left hlt, symbolAnswer, if_pos hlt, State.setResp_tx, State.setTx_tx, State.setResp_resp, hmin]
    exact ⟨rfl, rfl⟩
  · have hd : s.tx.state = .done := by rw [hstate, txStateOf_eq_done]; omega
    rw [exec_txWriteSymbol_notAssembled hcr hd] at h
    cases h
    rw [symbolAnswer, if_neg (Nat.not_lt.2 hge)]
    refine ⟨hs.trans ?_, rfl⟩
    rw [afterWrites, afterWrites, Nat.min_eq_right hge, Nat.min_eq_right (Nat.le_succ_of_le hge)]

/-! ### One access -/

/-- The access that performs a TX_WRITESYMBOL (R151). -/
abbrev symbolWrite : Access := .write cmdAddr 4 0x00000012

theorem step_idle {s : State} (h : s.host = []) : step s = .next s := by simp only [step, h]

theorem step_symbolWrite {s : State} {rest : List Access} (h : s.host = symbolWrite :: rest) :
    step s = exec .txWriteSymbol (s.setHost rest) :=
  step_decoded h (decode_encode (i := .txWriteSymbol) rfl)

theorem exec_keeps_host {i : Instr} {s t : State} (h : exec i s = .next t) : t.host = s.host := by
  rw [(exec_touches h).1]; rfl

theorem busWrite_host (s : State) (a : BitVec 21) (v : Word) : (busWrite s a v).host = s.host := by
  unfold busWrite
  split
  · rename_i r _; cases r <;> rfl
  · split <;> rfl

/-- A step takes the access it performs off the queue. -/
theorem step_host {s t : State} (h : step s = .next t) : t.host = s.host.tail := by
  rcases step_cases h with ⟨hh, rfl⟩ | ⟨x, rest, hh, h⟩
  · rw [hh]; rfl
  rw [hh]
  rcases h with ⟨a, n, -, -, rfl⟩ | ⟨a, n, v, -, -, -, rfl⟩ | ⟨n, v, i, -, -, -, h⟩ | ⟨n, v, e, -, -, -, rfl⟩ | ⟨-, rfl⟩
  · rfl
  · exact busWrite_host _ a v
  · exact exec_keeps_host h
  · rfl
  · rfl

/-- The generator's commands are the three that R240 excludes and TX_WRITESYMBOL. -/
theorem ofTx_eq_false {i : Instr} (hc : ∀ d, i ≠ .txCreate d) (ha : ∀ len, i ≠ .txAssemble len) (hw : i ≠ .txWriteSymbol)
    (hd : i ≠ .txDestroy) : ofTx i = false := by
  cases i
  case txCreate d => exact absurd rfl (hc d)
  case txAssemble len => exact absurd rfl (ha len)
  case txWriteSymbol => exact absurd rfl hw
  case txDestroy => exact absurd rfl hd
  all_goals rfl

/-- An access that R240 does not exclude and that is no TX_WRITESYMBOL leaves the TX record. -/
theorem step_leavesFrame {s t : State} {x : Access} {rest : List Access} (hh : s.host = x :: rest) (hx : LeavesFrame x)
    (hne : x ≠ symbolWrite) (h : step s = .next t) : t.tx = s.tx := by
  obtain ⟨hreset, hcmd⟩ := hx
  rcases step_cases h with ⟨-, rfl⟩ | ⟨y, rest', hy, h⟩
  · rfl
  obtain ⟨rfl, rfl⟩ := List.cons.inj (hh.symm.trans hy)
  rcases h with ⟨a, n, -, -, rfl⟩ | ⟨a, n, v, -, -, -, rfl⟩ | ⟨n, v, i, rfl, hok, hdec, h⟩ | ⟨n, v, e, -, -, -, rfl⟩ | ⟨rfl, -⟩
  · rfl
  · exact (busWrite_records (s.setHost rest) a v).2.1
  · obtain ⟨hcreate, hassemble, hdestroy⟩ := hcmd n v i rfl hdec
    refine exec_keeps_tx (s := s.setHost rest) h (ofTx_eq_false hcreate hassemble ?_ hdestroy)
    rintro rfl
    obtain ⟨rfl, -⟩ := (accessOk_iff _ _).1 hok
    obtain ⟨rfl, -⟩ := encode_of_decode hdec
    exact hne rfl
  · rfl
  · exact absurd rfl hreset

/-! ### A run of accesses -/

theorem symbolAnswers_succ {n : Nat} {s t : State} {ws : List Word} (h : symbolAnswers (n + 1) s = some (ws, t)) :
    ∃ s' ws', step s = .next s' ∧ symbolAnswers n s' = some (ws', t) ∧
      ws = if s.host.head? = some symbolWrite then s'.resp :: ws' else ws' := by
  rw [symbolAnswers] at h
  cases hstep : step s with
  | next s' =>
    simp only [hstep, Option.map_eq_some_iff, Prod.mk.injEq] at h
    obtain ⟨⟨ws', t'⟩, hrun, hws, rfl⟩ := h
    exact ⟨s', ws', rfl, hrun, hws.symm⟩
  | fault | refused => simp only [hstep] at h; cases h

/-- From where `c` TX_WRITESYMBOLs leave a frame, those of the next accesses answer in turn and leave it where so many more
do. -/
theorem symbolAnswers_afterWrites {n : Nat} {s t : State} {u : TxUnit} {c : Nat} {ws : List Word} (hc : u.created = true)
    (hs : s.tx = afterWrites u c) (hx : ∀ x ∈ s.host.take n, LeavesFrame x) (h : symbolAnswers n s = some (ws, t)) :
    ws = (List.range' c ws.length).map (symbolAnswer u) ∧ t.tx = afterWrites u (c + ws.length) ∧
      ws.length = ((s.host.take n).filter fun x => decide (x = symbolWrite)).length := by
  induction n generalizing s c ws with
  | zero =>
    cases h
    exact ⟨rfl, hs, rfl⟩
  | succ n ih =>
    obtain ⟨s', ws', hstep, hrun, hws⟩ := symbolAnswers_succ h
    have hhost := step_host hstep
    cases hh : s.host with
    | nil =>
      rw [step_idle hh] at hstep
      cases hstep
      rw [hh] at hws
      obtain rfl : ws = ws' := hws
      simpa [hh] using ih hs (by simp [hh]) hrun
    | cons x rest =>
      rw [hh] at hws hhost hx
      have hx' : ∀ y ∈ s'.host.take n, LeavesFrame y := fun y hy => hx y (by
        rw [hhost] at hy; exact List.mem_cons_of_mem _ hy)
      by_cases heq : x = symbolWrite
      · subst heq
        rw [step_symbolWrite hh] at hstep
        obtain ⟨htx, hresp⟩ := exec_txWriteSymbol_afterWrites (s := s.setHost rest) hc hs hstep
        obtain ⟨hlist, ht, hcount⟩ := ih htx hx' hrun
        rw [List.head?_cons, if_pos rfl, hresp] at hws
        subst hws
        refine ⟨?_, ?_, ?_⟩
        · rw [List.length_cons, List.range'_succ, List.map_cons, ← hlist]
        · rw [ht, List.length_cons, Nat.add_right_comm, Nat.add_assoc]
        · rw [List.take_succ_cons, List.filter_cons_of_pos (by simp), List.length_cons, List.length_cons, hcount, hhost]
          rfl
      · have htx := step_leavesFrame hh (hx x List.mem_cons_self) heq hstep
        rw [List.head?_cons, if_neg (by simpa using heq)] at hws
        subst hws
        obtain ⟨hlist, ht, hcount⟩ := ih (htx.trans hs) hx' hrun
        refine ⟨hlist, ht, ?_⟩
        rw [List.take_succ_cons, List.filter_cons_of_neg (by simpa using heq), hcount, hhost]
        rfl

/-! ### The answers of a whole frame -/

/-- A frame written to its end answers OK to every symbol, with `is_last` to the last alone, and NOT_ASSEMBLED from then on
(R240). -/
theorem map_symbolAnswer {u : TxUnit} {n : Nat} (h : frameSymbols u ≤ n) :
    (List.range n).map (symbolAnswer u) = List.replicate (frameSymbols u - 1) (respWord .ok false u.L) ++
      (respWord .ok true u.L :: List.replicate (n - frameSymbols u) (respWord .notAssembled false 0)) := by
  have hpos : 1 ≤ frameSymbols u := by unfold frameSymbols nPre; omega
  have hfirst : ∀ k ∈ List.range (frameSymbols u - 1), symbolAnswer u k = respWord .ok false u.L := by
    intro k hk
    have hk := List.mem_range.1 hk
    rw [symbolAnswer, if_pos (by omega), decide_eq_false (by omega)]
  have hlast : symbolAnswer u (frameSymbols u - 1) = respWord .ok true u.L := by
    rw [symbolAnswer, if_pos (by omega), decide_eq_true (by omega)]
  have hafter : ∀ k ∈ List.range (n - frameSymbols u),
      symbolAnswer u (frameSymbols u - 1 + (1 + k)) = respWord .notAssembled false 0 := by
    intro k _
    rw [symbolAnswer, if_neg (by omega)]
  have hsplit : List.range n = List.range (frameSymbols u - 1 + (1 + (n - frameSymbols u))) := congrArg _ (by omega)
  rw [hsplit, map_range_add, map_range_add, List.map_congr_left hfirst, List.map_congr_left hafter]
  simp only [List.map_const', List.length_range, List.range_one, List.map_cons, List.map_nil, Nat.add_zero, hlast,
    List.singleton_append]

/-- TX_ASSEMBLE answers OK only when it puts the sequencer before the first symbol (R233). -/
theorem exec_txAssemble_ok {s t : State} {len : Nat} (h : exec (.txAssemble len) s = .next t) (hr : t.resp = 0) :
    t.tx.created = true ∧ t.tx = afterWrites t.tx 0 := by
  have failed : ∀ st, st ≠ .ok → exec (.txAssemble len) s ≠ .next (respond st s) := by
    intro st hst heq
    rw [heq] at h
    cases h
    exact respWord_ne_zero hst hr
  cases hc : s.tx.created with
  | false => exact absurd (exec_tx_notCreated hc len).1 (failed _ nofun)
  | true =>
    rcases Nat.lt_or_ge s.build.payloadMax len with hl | hl
    · exact absurd (exec_txAssemble_tooLarge hc hl) (failed _ nofun)
    cases hp : legalProps s.build (propsOf s.txProps) with
    | false => exact absurd (exec_txAssemble_illegal hc hl hp) (failed _ nofun)
    | true =>
      rw [exec_txAssemble_legal hc hl hp] at h
      cases h
      refine ⟨hc, ?_⟩
      rw [afterWrites, Nat.zero_min]
      rfl

/-- Settles O25: the answers are those of the symbols in turn, and a whole frame of them is `map_symbolAnswer`. -/
theorem symbolAccounting : Obligations.SymbolAccounting := by
  intro s0 s t len n ws hinv hexec hresp hx hrun T
  obtain ⟨hc, hstart⟩ := exec_txAssemble_ok hexec hresp
  obtain ⟨hlist, ht, hcount⟩ := symbolAnswers_afterWrites hc hstart hx hrun
  rw [← List.range_eq_range'] at hlist
  rw [Nat.zero_add] at ht
  have hT : frameSymbols s.tx = T := rfl
  obtain ⟨⟨hm, hL, -⟩, -⟩ := (exec_keeps_txInv _ _ _ hinv hexec).2 hc
  have hsamples : s.tx.L < 65536 := by
    have := legalMG_iff.1 hm
    have := s.build.mMax_range
    omega
  refine ⟨fun k hk => ?_, fun hall => ?_, ?_, ?_, hcount⟩
  · rw [hlist, List.getD_eq_getElem _ _ (by simpa using hk), List.getElem_map, List.getElem_range, symbolAnswer, hT,
      respWord_eq, respWord_eq, hL]
    simp only [decide_eq_true_eq]
    rfl
  · have hpos : 1 ≤ T := by omega
    rw [hlist, map_symbolAnswer hall, hT]
    refine ⟨?_, ?_, ?_⟩
    · simp [List.filter_append, respWord_status, statusCode, Nat.sub_add_cancel hpos]
    · simp [List.filter_append, respWord_isLast]
    · have hnone := respWord_samples .notAssembled false (n := 0) (by decide)
      simp only [List.map_append, List.map_cons, List.map_replicate, List.sum_append, List.sum_cons, List.sum_replicate,
        respWord_samples _ _ hsamples, hnone, smul_eq_mul, Nat.mul_zero, Nat.add_zero]
      rw [← Nat.succ_mul, ← hL, Nat.succ_eq_add_one, Nat.sub_add_cancel hpos]
  · rw [ht]; rfl
  · rw [ht, show (afterWrites s.tx ws.length).state = txStateOf s.tx (min ws.length T) from rfl, txStateOf_eq_done, hT]
    omega

end Sys2Proof.Machine
end

section
/-! The accumulated bits stay counted (R325, R326, R380, R383): O56. -/

namespace Sys2Proof.Machine

variable {N : Num} {ms : List (Nat × Nat)} {X : Ext N ms}

/-! ### The bits one symbol carries -/

theorem ungroup_length (d : Nat) (u : List Nat) : (ungroup d u).length = u.length * d := by
  simp [ungroup, List.length_flatMap]

/-- Bits appended and cut at `n` in all. -/
theorem length_append_take_sub {n : Nat} {a : Bits} (b : Bits) (h : a.length ≤ n) :
    (a ++ b.take (n - a.length)).length = min n (a.length + b.length) := by
  rw [List.length_append, List.length_take]; omega

theorem headerBits_length {r : RxUnit} {n : Nat} (Z : List Cplx) (hD : r.D.length = r.ND)
    (h : r.cbits.length = min hdrCodedBits (n * r.ND)) :
    (headerBits X r Z).length = min hdrCodedBits ((n + 1) * r.ND) := by
  have hle : r.cbits.length ≤ hdrCodedBits := h.trans_le (Nat.min_le_left _ _)
  rw [headerBits, length_append_take_sub _ hle, List.length_map, hD, h, Nat.succ_mul]; omega

theorem payloadSymbolBits_length {r : RxUnit} {n : Nat} (Z : List Cplx) (hD : r.D.length = r.ND)
    (h : r.cbits.length = min r.plBits (n * r.ND * r.plMd)) :
    (payloadSymbolBits X r Z).length = min r.plBits ((n + 1) * r.ND * r.plMd) := by
  have hle : r.cbits.length ≤ r.plBits := h.trans_le (Nat.min_le_left _ _)
  rw [payloadSymbolBits, length_append_take_sub _ hle, ungroup_length, List.length_map, hD, h, Nat.succ_mul, Nat.add_mul]
  omega

/-! ### The part of the invariant that a sample can touch -/

/-- The accumulated bits are those of the symbols so far, and with no event pending the frame has more of them (R325, R326). -/
def BitsCounted (r : RxUnit) : Prop :=
  (r.state = .header → r.cbits.length = min hdrCodedBits (r.sym * r.ND) ∧ (r.evt = false → r.sym < r.NH)) ∧
  (r.state = .payload → r.cbits.length = min r.plBits (r.sym * r.ND * r.plMd) ∧
    r.NP = payloadSymbols r.ND r.plMd r.plBits ∧ (r.evt = false → r.sym < r.NP))

/-- The counts of a created unit (R6, R75). -/
def CountsOfTable (r : RxUnit) : Prop := 1 ≤ r.ND ∧ r.D.length = r.ND ∧ r.NH = headerSymbols r.ND

theorem countInv_iff_of_created {s : State} (hc : s.rx.created = true) :
    CountInv s ↔ CountsOfTable s.rx ∧ s.rx.plLen ≤ s.build.payloadMax ∧ BitsCounted s.rx := by
  simp only [CountInv, CountsOfTable, BitsCounted, hc, Bool.true_eq_false, false_imp_iff, true_imp_iff, true_and]

theorem countsOfTable_of_sameInstance {r q : RxUnit} (h : SameInstance r q) (hq : CountsOfTable q) : CountsOfTable r := by
  obtain ⟨-, -, -, -, -, -, hD, -, hND, -, hNH, -⟩ := h
  unfold CountsOfTable
  rwa [hD, hND, hNH]

/-- Outside the header and payload states there is nothing to count. -/
theorem bitsCounted_of_state {r : RxUnit} (h : r.state ≠ .header ∧ r.state ≠ .payload) : BitsCounted r :=
  ⟨fun h' => absurd h' h.1, fun h' => absurd h' h.2⟩

/-! ### One sample keeps the count -/

theorem seekStep_bitsCounted (b : Build) (x : Cplx) {r : RxUnit} (hs : r.state = .seekPreamble) :
    BitsCounted (seekStep b N x r) := by
  refine bitsCounted_of_state ?_
  rcases seekStep_state b N x r with h | h <;> rw [h]
  · rw [hs]; decide
  · decide

theorem shortStep_bitsCounted (x : Cplx) {r : RxUnit} (hs : r.state = .trainingShort) : BitsCounted (shortStep N x r) := by
  refine bitsCounted_of_state ?_
  rcases shortStep_state N x r with h | h <;> rw [h]
  · rw [hs]; decide
  · decide

/-- The long symbol starts the count of header symbols (R324). -/
theorem longSymbol_bitsCounted (b : Build) (Y : List Cplx) {r : RxUnit} (ht : CountsOfTable r) :
    BitsCounted (longSymbol b N Y r) := by
  obtain ⟨hND, -, hNH⟩ := ht
  refine ⟨fun _ => ⟨?_, fun _ => ?_⟩, nofun⟩
  · show 0 = min hdrCodedBits (0 * r.ND); omega
  · show 0 < r.NH; rw [hNH]; exact (headerSymbols_range hND).1

/-- An accepted header starts the count of payload symbols (R325, R381). -/
theorem headerAccepted_bitsCounted (hb : List Byte) (r : RxUnit) : BitsCounted (headerAccepted hb r) := by
  refine ⟨nofun, fun _ => ⟨?_, rfl, fun _ => ?_⟩⟩
  · show 0 = min _ (0 * r.ND * _); simp
  · exact Nat.lt_of_lt_of_le Nat.one_pos (Nat.le_max_left 1 _)

theorem headerSymbol_bitsCounted (Y : List Cplx) {s : State} (hs : s.rx.state = .header) (he : s.rx.evt = false)
    (ht : CountsOfTable s.rx) (h : BitsCounted s.rx) : BitsCounted (headerSymbol N X Y s).rx := by
  obtain ⟨hlen, hsym⟩ := h.1 hs
  have hbits := headerBits_length (X := X) (equalize N s.rx Y) ht.2.1 hlen
  have hnot : s.rx.state ≠ .payload := by rw [hs]; decide
  obtain ⟨r, rfl, ⟨hne, hr⟩ | ⟨-, -, hr⟩ | ⟨-, -, hr⟩⟩ := headerSymbol_cases N X Y s <;> rw [hr]
  · exact ⟨fun _ => ⟨hbits, fun _ => lt_of_le_of_ne (hsym he) hne⟩, fun h' => absurd h' hnot⟩
  · exact headerAccepted_bitsCounted _ _
  · exact ⟨fun _ => ⟨hbits, nofun⟩, fun h' => absurd h' hnot⟩

theorem payloadSymbol_bitsCounted (Y : List Cplx) {s : State} (hs : s.rx.state = .payload) (he : s.rx.evt = false)
    (ht : CountsOfTable s.rx) (h : BitsCounted s.rx) : BitsCounted (payloadSymbol N X Y s).rx := by
  obtain ⟨hlen, hNP, hsym⟩ := h.2 hs
  have hbits := payloadSymbolBits_length (X := X) (equalize N s.rx Y) ht.2.1 hlen
  have hnot : s.rx.state ≠ .header := by rw [hs]; decide
  obtain ⟨r, rfl, ⟨hne, hr⟩ | ⟨-, hr⟩⟩ := payloadSymbol_cases N X Y s <;> rw [hr]
  · exact ⟨fun h' => absurd h' hnot, fun _ => ⟨hbits, hNP, fun _ => lt_of_le_of_ne (hsym he) hne⟩⟩
  · exact ⟨fun h' => absurd h' hnot, fun _ => ⟨hbits, hNP, nofun⟩⟩

theorem symbolStep_bitsCounted (x : Cplx) {s : State} (he : s.rx.evt = false) (ht : CountsOfTable s.rx)
    (h : BitsCounted s.rx) : BitsCounted (symbolStep N X x s).rx := by
  rcases symbolStep_cases N X x s with ⟨-, hr⟩ | ⟨r, Y, rfl, -, -, ⟨-, hr⟩ | ⟨hs, hr⟩ | ⟨hs, hr⟩ | ⟨-, -, -, hr⟩⟩ <;> rw [hr]
  · exact h
  · exact longSymbol_bitsCounted s.build Y (r := { collect N x s.rx with sbn := 0 }) ht
  · exact headerSymbol_bitsCounted Y (s := s.setRx { collect N x s.rx with sbn := 0 }) hs he ht h
  · exact payloadSymbol_bitsCounted Y (s := s.setRx { collect N x s.rx with sbn := 0 }) hs he ht h
  · exact h

theorem sampleStep_bitsCounted (x : Cplx) {s : State} (he : s.rx.evt = false) (ht : CountsOfTable s.rx)
    (h : BitsCounted s.rx) : BitsCounted (sampleStep N X x s).rx := by
  unfold sampleStep
  split
  · exact seekStep_bitsCounted s.build x ‹_›
  · exact shortStep_bitsCounted x ‹_›
  · exact symbolStep_bitsCounted x he ht h
  · exact symbolStep_bitsCounted x he ht h
  · exact symbolStep_bitsCounted x he ht h
  · exact seekStep_bitsCounted s.build x rfl

/-- A sample leaves any parsed length within PAYLOAD_MAX (R380). -/
theorem SampleEffect.plLen_le {s t : State} (h : SampleEffect s t) (hs : s.rx.plLen ≤ s.build.payloadMax) :
    t.rx.plLen ≤ s.build.payloadMax := by
  obtain ⟨r, ⟨-, -, hpl, -⟩, rfl | ⟨rfl, -⟩ | ⟨ok, b, rfl, -, -⟩⟩ := h <;> exact hpl.elim (·.trans_le hs) id

theorem sampleStep_plLen_le (x : Cplx) {s : State} (hs : s.rx.plLen ≤ s.build.payloadMax) :
    (sampleStep N X x s).rx.plLen ≤ s.build.payloadMax := by
  rcases sampleStep_effect N X x s with ⟨-, h⟩ | ⟨-, h⟩
  · exact h.plLen_le hs
  · exact h.plLen_le (Nat.zero_le _)

/-! ### Each command of the synchronizer -/

theorem sampleStep_build (x : Cplx) (s : State) : (sampleStep N X x s).build = s.build := by
  obtain ⟨r, m, h⟩ := sampleStep_only_rx_mem N X x s
  rw [h]; rfl

/-- A run in a created unit keeps the count. -/
theorem runSamples_countInv {k : Nat} {s t : State} (h : runSamples N X k s = .next t) (hc : s.rx.created = true)
    (he : s.rx.evt = false) (hs : CountInv s) : CountInv t := by
  refine (runSamples_keeps_step (P := fun t => t.rx.created = true ∧ CountInv t) ?_ (fun _ _ hs => hs) ⟨hc, hs⟩ he h).2
  rintro x u d ⟨hcu, hu⟩ heu
  obtain ⟨ht, hlen, hbits⟩ := (countInv_iff_of_created hcu).1 hu
  have hsame := sampleStep_sameInstance (N := N) (X := X) x ((u.setDraws d).setRx { u.rx with pos := u.rx.pos + 1 })
  have hcreated := hsame.1.trans hcu
  refine ⟨hcreated, (countInv_iff_of_created hcreated).2 ⟨countsOfTable_of_sameInstance hsame ht, ?_, ?_⟩⟩
  · rw [sampleStep_build]; exact sampleStep_plLen_le x hlen
  · exact sampleStep_bitsCounted x heu ht hbits

theorem countInv_of_eq {s t : State} (hb : t.build = s.build) (hrx : t.rx = s.rx) (h : CountInv s) : CountInv t := by
  unfold CountInv at *; rwa [hb, hrx]

theorem countInv_reset {s : State} (h : s.rx = RxUnit.reset) : CountInv s := by
  unfold CountInv
  rw [h]
  exact ⟨nofun, fun _ => rfl, Nat.zero_le _, nofun, nofun⟩

/-- RESET leaves nothing to count (R330). -/
theorem countInv_resetRecord {s : State} {r : RxUnit} (h : s.rx = resetRecord r) (hc : r.created = true)
    (ht : CountsOfTable r) : CountInv s := by
  have hcreated : s.rx.created = true := by rw [h]; exact hc
  rw [countInv_iff_of_created hcreated, h]
  exact ⟨ht, Nat.zero_le _, bitsCounted_of_state ⟨nofun, nofun⟩⟩

theorem exec_keeps_countInv (i : Instr) (s t : State) (hs : CountInv s) (h : exec i s = .next t) : CountInv t := by
  have hb := exec_keeps_build h
  cases exec_effect h with
  | answered | allocDefault => exact hs
  | txCreate | txAssemble | txWriteSymbol | txDestroy => exact countInv_of_eq hb (exec_keeps_rx h rfl) hs
  | rxCreate d c n _ hm hl hv =>
    have hdata := indicesOf_length_pos (mem_of_validTable hv).2
    exact countInv_resetRecord rfl rfl ⟨hdata, rfl, rfl⟩
  | rxExecute n _ hc he _ _ hrun => exact runSamples_countInv hrun hc he hs
  | rxAck _ hc _ hrun =>
    have ht := ((countInv_iff_of_created hc).1 hs).1
    exact runSamples_countInv hrun hc rfl (countInv_resetRecord rfl hc ht)
  | rxDestroy => exact countInv_reset rfl

/-- Settles O56: each symbol appends the bits of its data subcarriers, cut at the coded length, and a run of samples stops
with the event of the last symbol. -/
theorem collectedBitsStayCounted : Obligations.CollectedBitsStayCounted := fun _ _ hs h =>
  step_keeps (P := CountInv) (fun _ _ hs => hs) (fun _ _ hs => hs)
    (fun s a v hs => countInv_of_eq (busWrite_records s a v).1 (busWrite_records s a v).2.2 hs) (fun _ hs => hs)
    (fun _ _ => countInv_reset rfl) exec_keeps_countInv hs h

end Sys2Proof.Machine
end

section
/-! RX_CREATE past its checks, RX_EXECUTE of nothing and the event pause (R300, R307, R328, R410): O30, O33 and O39. -/

namespace Sys2Proof.Machine

/-! ### RX_CREATE -/

/-- RX_CREATE on a valid table that takes no draw. -/
theorem exec_rxCreate_of_table {s : State} {d : Bool} {t : List Byte} (he : s.rx.evt = false)
    (hm : legalMG s.build (cfgM s.rxCfg) (cfgG s.rxCfg) = true) (ht : tableArg d (cfgM s.rxCfg) s = (t, s.draws))
    (hv : validAlloc t = true) :
    exec (.rxCreate d) s = .next (respond .ok (resetFsm (s.setRx
      (rxCreated Config.num s.rxCtx s.rx (cfgM s.rxCfg) (cfgG s.rxCfg) (t.map roleOfCode))))) := by
  show Host.Outcome.next (rxCreate d s) = _
  have hdraws : s.setDraws s.draws = s := rfl
  simp [rxCreate, he, hm, ht, hv, hdraws]

/-- Settles O30: with every check passed the record is the RESET of `rxCreated`. -/
theorem rxCreateCompletes : Obligations.RxCreateCompletes := by
  intro s d c M G D PL hM hG hD hPL he heven hmin hmax hGM hc
  have hcM : cfgM s.rxCfg = M := (cfgM_eq _).trans hM.symm
  have hcG : cfgG s.rxCfg = G := (cfgG_eq _).trans hG.symm
  have hlegal : legalMG s.build M G = true := legalMG_iff.2 ⟨⟨heven, hmin, hmax⟩, hGM⟩
  have hlen : c.length = M := by
    rcases hc with ⟨-, rfl⟩ | ⟨-, hl, -⟩
    · exact initDefault_length M
    · exact hl
  have htable : tableArg d M s = (c.map roleCode, s.draws) := by
    rcases hc with ⟨rfl, rfl⟩ | ⟨rfl, hl, ht, -⟩
    · exact tableArg_default M s
    · exact tableArg_alloc ((List.length_map _).trans hl) ht
  have hvalid : validAlloc (c.map roleCode) = true := by
    rcases hc with ⟨-, rfl⟩ | ⟨-, -, -, hp, hd⟩
    · exact validAlloc_initDefault (legalM_of_legalMG hlegal).1
    · exact (validAlloc_iff _).2 (validTable_map hp hd)
  rw [← hlen, filter_role_eq_indicesOf] at hD hPL
  have hexec := exec_rxCreate_of_table he (by rw [hcM, hcG]; exact hlegal) (by rw [hcM]; exact htable) hvalid
  rw [hcM, hcG, map_roleOfCode_roleCode] at hexec
  refine ⟨_, hexec, ?_, fun _ => memPeek_memClear_resPay s.mem, sameOutside_memClear_resPay s.build s.mem⟩
  rw [respond_eq, hD, hPL]
  rfl

/-! ### RX_EXECUTE of nothing -/

/-- Settles O33: with no sample to consume the command answers before it sets a counter. -/
theorem executeNothing : Obligations.ExecuteNothing := fun s hc he =>
  (exec_rxExecute_zero hc he).trans (congrArg _ (respond_eq .ok s))

/-! ### The event pause -/

/-- Bytes stored in RES_PAY read back (R102). -/
theorem bytesAt_memPutBytes_resPay {b : Build} {m : Memory} (h : Rising m) {bs : List Byte}
    (hl : bs.length ≤ b.payloadMax) : BytesAt b (memPutBytes b m (regionBase .resPay) bs) 0x050000 bs := by
  intro k hk
  have hin : inRegion b .resPay (regionBase .resPay + k) = true := by
    have := le_regionSize_resPay hl
    rw [inRegion_iff]; omega
  show memPeek b _ (regionBase .resPay + k) = _
  rw [memPeek_memPutBytes h, if_pos (by omega), Nat.add_sub_cancel_left, storeMask_resPay hin, if_pos (by omega)]
  exact congrArg some (BitVec.and_allOnes (w := 8))

theorem sameOutside_memPutBytes {b : Build} {m : Memory} (h : Rising m) (a : Nat) (bs : List Byte) :
    SameOutside b m (memPutBytes b m a bs) a bs.length := by
  intro x hx
  rw [memPeek_memPutBytes h, if_neg (by omega)]

/-- Settles O39: the record is written out, and a payload reads back from RES_PAY because it fits there. -/
theorem postedEvent : Obligations.PostedEvent := by
  rintro s t h p b hmem hlen rfl
  have hrise : Rising s.mem := ((memory_wf_iff _).1 hmem).1
  refine ⟨rfl, ?_, ?_⟩
  · rintro rfl; rfl
  · rintro rfl; exact ⟨bytesAt_memPutBytes_resPay hrise hlen, sameOutside_memPutBytes hrise _ b⟩

end Sys2Proof.Machine
end

section
/-! The state machine for one consumed sample (R308, R320 to R326): O38. -/

namespace Sys2Proof.Machine

variable {N : Num} {ms : List (Nat × Nat)} {X : Ext N ms}

/-! ### The step in each state -/

theorem sampleStep_seek {s : State} (hs : s.rx.state = .seekPreamble) (x : Cplx) :
    sampleStep N X x s = s.setRx (seekStep s.build N x s.rx) := by
  unfold sampleStep; rw [hs]

theorem sampleStep_short {s : State} (hs : s.rx.state = .trainingShort) (x : Cplx) :
    sampleStep N X x s = s.setRx (shortStep N x s.rx) := by
  unfold sampleStep; rw [hs]

theorem sampleStep_symbol {s : State} (hs : s.rx.state = .trainingLong ∨ s.rx.state = .header ∨ s.rx.state = .payload)
    (x : Cplx) : sampleStep N X x s = symbolStep N X x s := by
  unfold sampleStep
  rcases hs with hs | hs | hs <;> rw [hs]

/-- A symbol buffer that is not full yet takes a sample (R323). -/
theorem symbolStep_filling {s : State} (h : s.rx.sbn + 1 ≠ s.rx.L) (x : Cplx) :
    symbolStep N X x s = s.setRx (collect N x s.rx) := by
  unfold symbolStep
  exact if_neg h

/-- A full symbol buffer is a symbol of the state it is in (R323 to R326). -/
def completeSymbol (N : Num) (X : Ext N ms) (Y : List Cplx) (s : State) : State :=
  match s.rx.state with
  | .trainingLong => s.setRx (longSymbol s.build N Y s.rx)
  | .header => headerSymbol N X Y s
  | .payload => payloadSymbol N X Y s
  | _ => s

/-- The record when a sample has filled the symbol buffer (R323). -/
def collectLast (N : Num) (x : Cplx) (r : RxUnit) : RxUnit := { collect N x r with sbn := 0 }

theorem symbolStep_full {s : State} (h : s.rx.sbn + 1 = s.rx.L) (x : Cplx) :
    symbolStep N X x s = completeSymbol N X
      (dft N (strip s.rx.G s.rx.M (collectLast N x s.rx).sb)) (s.setRx (collectLast N x s.rx)) := by
  unfold symbolStep completeSymbol
  exact if_pos h

theorem completeSymbol_long {s : State} {r : RxUnit} {Y : List Cplx} (hs : r.state = .trainingLong) :
    completeSymbol N X Y (s.setRx r) = s.setRx (longSymbol s.build N Y r) := by
  simp only [completeSymbol, State.setRx_rx, hs]; rfl

theorem completeSymbol_header {s : State} {r : RxUnit} {Y : List Cplx} (hs : r.state = .header) :
    completeSymbol N X Y (s.setRx r) = headerSymbol N X Y (s.setRx r) := by
  simp only [completeSymbol, State.setRx_rx, hs]

theorem completeSymbol_payload {s : State} {r : RxUnit} {Y : List Cplx} (hs : r.state = .payload) :
    completeSymbol N X Y (s.setRx r) = payloadSymbol N X Y (s.setRx r) := by
  simp only [completeSymbol, State.setRx_rx, hs]

/-! ### What a header and a payload symbol do -/

/-- The record with the bits of one more header symbol (R325). -/
def headerCollected (N : Num) (X : Ext N ms) (Y : List Cplx) (r : RxUnit) : RxUnit :=
  { r with cbits := headerBits X r (equalize N r Y), sym := r.sym + 1 }

/-- The record with the bits of one more payload symbol, and `theta` tracked (R326). -/
def payloadCollected (b : Build) (N : Num) (X : Ext N ms) (Y : List Cplx) (r : RxUnit) : RxUnit :=
  { r with
    cbits := payloadSymbolBits X r (equalize N r Y)
    theta := trackTheta b N r.PL r.theta (equalize N r Y)
    sym := r.sym + 1 }

section Symbols

variable {s : State} {Y : List Cplx}

theorem headerSymbol_more (h : s.rx.sym + 1 ≠ s.rx.NH) : headerSymbol N X Y s = s.setRx (headerCollected N X Y s.rx) := by
  obtain ⟨r, rfl, ⟨-, hr⟩ | ⟨heq, -⟩ | ⟨heq, -⟩⟩ := headerSymbol_cases N X Y s
  · exact hr
  · exact absurd heq h
  · exact absurd heq h

theorem headerSymbol_valid (h : s.rx.sym + 1 = s.rx.NH)
    (hd : (headerDecode s.build X (headerCollected N X Y s.rx).cbits).1 = true) :
    headerSymbol N X Y s = s.setRx (headerAccepted (headerDecode s.build X (headerCollected N X Y s.rx).cbits).2
      (headerCollected N X Y s.rx)) := by
  obtain ⟨r, rfl, ⟨hne, -⟩ | ⟨-, -, hr⟩ | ⟨-, hd', -⟩⟩ := headerSymbol_cases N X Y s
  · exact absurd h hne
  · exact hr
  · exact absurd (hd'.symm.trans hd) Bool.false_ne_true

theorem headerSymbol_invalid (h : s.rx.sym + 1 = s.rx.NH)
    (hd : (headerDecode s.build X (headerCollected N X Y s.rx).cbits).1 = false) :
    headerSymbol N X Y s = postEvent false false [] (s.setRx { headerCollected N X Y s.rx with
      hb := (headerDecode s.build X (headerCollected N X Y s.rx).cbits).2 }) := by
  obtain ⟨r, rfl, ⟨hne, -⟩ | ⟨-, hd', -⟩ | ⟨-, -, hr⟩⟩ := headerSymbol_cases N X Y s
  · exact absurd h hne
  · exact absurd (hd.symm.trans hd') Bool.false_ne_true
  · exact hr

/-- The last header symbol goes on to the payload, or posts an event with header_valid = 0 (R325). -/
theorem headerSymbol_last (hs : s.rx.state = .header) (he : s.rx.evt = false) (h : s.rx.sym + 1 = s.rx.NH) :
    ((headerDecode s.build X (headerCollected N X Y s.rx).cbits).1 = true →
      (headerSymbol N X Y s).rx.state = .payload ∧ (headerSymbol N X Y s).rx.evt = false ∧
        (headerSymbol N X Y s).rx.sym = 0) ∧
    ((headerDecode s.build X (headerCollected N X Y s.rx).cbits).1 = false →
      (headerSymbol N X Y s).rx.state = .header ∧ (headerSymbol N X Y s).rx.evt = true ∧
        (headerSymbol N X Y s).rx.resFlags = 1) := by
  refine ⟨fun hd => ?_, fun hd => ?_⟩
  · rw [headerSymbol_valid h hd]; exact ⟨rfl, he, rfl⟩
  · rw [headerSymbol_invalid h hd]; exact ⟨hs, rfl, rfl⟩

theorem payloadSymbol_more (h : s.rx.sym + 1 ≠ s.rx.NP) :
    payloadSymbol N X Y s = s.setRx (payloadCollected s.build N X Y s.rx) := by
  obtain ⟨r, rfl, ⟨-, hr⟩ | ⟨heq, -⟩⟩ := payloadSymbol_cases N X Y s
  · exact hr
  · exact absurd heq h

/-- What the last payload symbol decodes (R326, R382). -/
def payloadDecoded (X : Ext N ms) (r : RxUnit) : Bool × List Byte :=
  payloadDecode X r.plLen r.plCrc r.plFi r.plFo r.cbits

theorem payloadSymbol_last (h : s.rx.sym + 1 = s.rx.NP) :
    payloadSymbol N X Y s = postEvent true (payloadDecoded X (payloadCollected s.build N X Y s.rx)).1
      (payloadDecoded X (payloadCollected s.build N X Y s.rx)).2 (s.setRx (payloadCollected s.build N X Y s.rx)) := by
  obtain ⟨r, rfl, ⟨hne, -⟩ | ⟨-, hr⟩⟩ := payloadSymbol_cases N X Y s
  · exact absurd h hne
  · exact hr

/-- A payload symbol posts an event exactly when it is the last (R326). -/
theorem payloadSymbol_answer (hs : s.rx.state = .payload) (he : s.rx.evt = false) :
    (payloadSymbol N X Y s).rx.state = .payload ∧
      ((payloadSymbol N X Y s).rx.evt = true ↔ s.rx.sym + 1 = s.rx.NP) := by
  by_cases h : s.rx.sym + 1 = s.rx.NP
  · rw [payloadSymbol_last h]; exact ⟨hs, fun _ => h, fun _ => rfl⟩
  · rw [payloadSymbol_more h]; exact ⟨hs, fun he' => absurd (he.symm.trans he') Bool.false_ne_true, fun h' => absurd h' h⟩

end Symbols

/-! ### The five states -/

/-- With fewer than L samples in the history nothing is searched for (R321). -/
theorem seekStep_of_short (b : Build) (x : Cplx) {r : RxUnit} (h : ¬ r.L ≤ (push x r).fill) :
    seekStep b N x r = push x r := by
  unfold seekStep
  exact if_neg h

/-- A window above the threshold starts the search for the peak (R321). -/
theorem seekStep_of_above {b : Build} {x : Cplx} {r : RxUnit} (h : r.L ≤ (push x r).fill)
    (hp : N.lt (N.ofRat b.detectThreshold) (rho N (push x r)) = true) :
    seekStep b N x r = { push x r with
      pkVal := rho N (push x r)
      pkOff := 0
      pkM1 := r.rhoPrev
      pkP1 := .zero
      jj := 0
      state := .trainingShort
      rhoPrev := rho N (push x r) } := by
  unfold seekStep
  simp only [hp, if_true]
  exact if_pos h

/-- A window at most the threshold is only remembered (R321). -/
theorem seekStep_of_below {b : Build} {x : Cplx} {r : RxUnit} (h : r.L ≤ (push x r).fill)
    (hp : ¬ N.lt (N.ofRat b.detectThreshold) (rho N (push x r)) = true) :
    seekStep b N x r = { push x r with rhoPrev := rho N (push x r) } := by
  unfold seekStep
  simp only [hp]
  exact if_pos h

theorem seekStep_transition (b : Build) (x : Cplx) {r : RxUnit} (hs : r.state = .seekPreamble) :
    (seekStep b N x r).state =
      if r.L ≤ min (r.fill + 1) (2 * r.L) ∧ N.lt (N.ofRat b.detectThreshold) (rho N (push x r)) = true
        then .trainingShort else .seekPreamble := by
  by_cases hfill : r.L ≤ min (r.fill + 1) (2 * r.L)
  · by_cases hp : N.lt (N.ofRat b.detectThreshold) (rho N (push x r)) = true
    · rw [if_pos ⟨hfill, hp⟩, seekStep_of_above hfill hp]
    · rw [if_neg fun h => hp h.2, seekStep_of_below hfill hp]; exact hs
  · rw [if_neg fun h => hfill h.1, seekStep_of_short b x hfill]; exact hs

theorem shortStep_transition (x : Cplx) {r : RxUnit} (hs : r.state = .trainingShort) :
    (shortStep N x r).jj = r.jj + 1 ∧ (shortStep N x r).state =
      if (shortStep N x r).jj = (shortStep N x r).pkOff + r.L then .trainingLong else .trainingShort := by
  obtain ⟨q, p1, p2, p3, p4, rfl, ⟨heq, hq⟩ | ⟨hne, hq⟩⟩ := shortStep_cases N x r <;> rw [hq]
  · exact ⟨rfl, (if_pos heq).symm⟩
  · exact ⟨rfl, hs.trans (if_neg hne).symm⟩

/-- Settles O38: each state's step, with a symbol complete when its buffer is full. -/
theorem stateMachine : Obligations.StateMachine := by
  rintro N ms X x s t he rfl
  refine ⟨fun hs => ?_, fun hs => ?_, fun hs => ?_, fun hs => ⟨?_, fun hnot => ?_⟩, fun hs => ?_⟩
  · rw [sampleStep_seek hs]
    exact ⟨(seekStep_evt s.build N x s.rx).trans he, seekStep_transition s.build x hs⟩
  · rw [sampleStep_short hs]
    exact ⟨(shortStep_evt N x s.rx).trans he, shortStep_transition x hs⟩
  · rw [sampleStep_symbol (.inl hs)]
    by_cases hfull : s.rx.sbn + 1 = s.rx.L
    · rw [if_pos hfull, symbolStep_full hfull, completeSymbol_long (r := collectLast N x s.rx) hs]
      exact ⟨he, rfl⟩
    · rw [if_neg hfull, symbolStep_filling hfull]
      exact ⟨he, hs⟩
  · rintro ⟨hfull, hsym⟩ r cb
    rw [sampleStep_symbol (.inr (.inl hs)), symbolStep_full hfull, completeSymbol_header (r := collectLast N x s.rx) hs]
    exact headerSymbol_last (s := s.setRx (collectLast N x s.rx)) hs he hsym
  · rw [sampleStep_symbol (.inr (.inl hs))]
    by_cases hfull : s.rx.sbn + 1 = s.rx.L
    · have hsym : s.rx.sym + 1 ≠ s.rx.NH := fun hsym => hnot ⟨hfull, hsym⟩
      rw [symbolStep_full hfull, completeSymbol_header (r := collectLast N x s.rx) hs,
        headerSymbol_more (s := s.setRx (collectLast N x s.rx)) hsym]
      exact ⟨hs, he⟩
    · rw [symbolStep_filling hfull]
      exact ⟨hs, he⟩
  · rw [sampleStep_symbol (.inr (.inr hs))]
    by_cases hfull : s.rx.sbn + 1 = s.rx.L
    · rw [symbolStep_full hfull, completeSymbol_payload (r := collectLast N x s.rx) hs]
      simp only [hfull, true_and]
      exact payloadSymbol_answer (s := s.setRx (collectLast N x s.rx)) hs he
    · rw [symbolStep_filling hfull]
      exact ⟨hs, fun h => absurd (he.symm.trans h) Bool.false_ne_true, fun h => absurd h.1 hfull⟩

end Sys2Proof.Machine
end

section
/-! Consuming a sample whose words are written, and a stream of zeros (R303, R304, R362): O40. -/

namespace Sys2Proof.Machine

variable {N : Num} {ms : List (Nat × Nat)} {X : Ext N ms}

/-! ### Consuming a written sample -/

/-- The state with `pos` advanced past the sample about to be consumed (R304). -/
def advance (s : State) : State := s.setRx (recount s.rx (s.rx.pos + 1) s.rx.execN)

/-- Consuming a finite sample that takes no draw is one step of the synchronizer. -/
theorem consume_of_written {s : State} {re im : Word} (hw : sampleWords s s.rx.pos = (re, im, s.draws))
    (hre : f32Finite re = true) (him : f32Finite im = true) :
    consume N X s = some (sampleStep N X ⟨numOfWord N re, numOfWord N im⟩ (advance s)) := by
  rw [consume_of_finite (by rw [hw]; exact hre) (by rw [hw]; exact him), hw]
  rfl

/-! ### Silence -/

/-- The zero word is taken into NUM as 0 (R16). -/
theorem numOfWord_zero : numOfWord N 0 = .rat 0 := by
  rw [numOfWord, show f32Value 0 = 0 by decide +kernel, N.ofRat_zero]

/-- A window of zeros has no energy, and its correlation is 0 (R362). -/
theorem correlation_of_zeros (s0t : List Cplx) (e0 : Scalar) {w : List Cplx} (h : ∀ z ∈ w, z = Cplx.zero) :
    correlation N s0t e0 w = .zero := by
  have hw : w.map N.normSq = List.replicate w.length (.rat 0) := by
    rw [List.eq_replicate_of_mem h, List.map_replicate, List.length_replicate, N.normSq_zero]
  have hlt : N.lt .zero (N.mul e0 (N.sum (w.map N.normSq))) = false := by
    rw [hw, N.sum_zeros]; exact N.mul_zero e0
  simp only [correlation, hlt, Bool.false_eq_true, if_false]

theorem push_zero_hist {r : RxUnit} (h : ∀ z ∈ r.hist, z = Cplx.zero) : ∀ z ∈ (push Cplx.zero r).hist, z = Cplx.zero := by
  intro z hz
  rcases List.mem_append.1 hz with hz | hz
  · exact h z (List.mem_of_mem_drop hz)
  · exact List.mem_singleton.1 hz

/-- A zero sample on an empty history is only remembered, when the threshold is not negative (R321). -/
theorem seekStep_zero {b : Build} (hb : 0 ≤ b.detectThreshold) {r : RxUnit} (h : ∀ z ∈ r.hist, z = Cplx.zero) :
    ∃ p, seekStep b N Cplx.zero r = { push Cplx.zero r with rhoPrev := p } := by
  have hrho : rho N (push Cplx.zero r) = .rat 0 :=
    correlation_of_zeros _ _ fun z hz => push_zero_hist h z (List.mem_of_mem_drop hz)
  have hp : ¬ N.lt (N.ofRat b.detectThreshold) (rho N (push Cplx.zero r)) = true := by
    rw [hrho, ← N.ofRat_zero, N.ofRat_mono hb]; exact Bool.false_ne_true
  by_cases hfill : r.L ≤ (push Cplx.zero r).fill
  · exact ⟨_, seekStep_of_below hfill hp⟩
  · exact ⟨_, seekStep_of_short b Cplx.zero hfill⟩

/-- No event, nothing found and nothing in the history (R321). -/
def Silent (s : State) : Prop :=
  s.rx.state = .seekPreamble ∧ s.rx.evt = false ∧ ∀ z ∈ s.rx.hist, z = Cplx.zero

/-- A zero sample keeps the silence, and touches the RX record alone. -/
theorem sampleStep_silent {s : State} (hb : 0 ≤ s.build.detectThreshold) (h : Silent s) :
    ∃ r, sampleStep N X Cplx.zero s = s.setRx r ∧ Silent (s.setRx r) := by
  obtain ⟨hs, he, hh⟩ := h
  obtain ⟨p, hp⟩ := seekStep_zero (N := N) hb hh
  exact ⟨_, sampleStep_seek hs Cplx.zero, by rw [hp]; exact ⟨hs, he, push_zero_hist hh⟩⟩

/-- A run over zero samples finds nothing. -/
theorem runSamples_silent {s : State} (hb : 0 ≤ s.build.detectThreshold) (h : Silent s) {k : Nat}
    (hz : ∀ i, s.rx.pos ≤ i → i < s.rx.pos + k → sampleWords s i = (0, 0, s.draws)) :
    ∃ t, runSamples N X k s = .next t ∧ t.resp = 0 ∧ t.rx.pos = s.rx.pos + k ∧ t.rx.execN = s.rx.execN ∧ Silent t := by
  induction k generalizing s with
  | zero => exact ⟨_, rfl, rfl, rfl, rfl, h⟩
  | succ k ih =>
    obtain ⟨r, hr, hsilent⟩ := sampleStep_silent (N := N) (X := X) (s := advance s) hb h
    have hone : consume N X s = some ((advance s).setRx r) := by
      rw [consume_of_written (hz _ le_rfl (by omega)) (by decide) (by decide), numOfWord_zero]
      exact congrArg some hr
    obtain ⟨hexec, hpos⟩ : r.execN = s.rx.execN ∧ r.pos = s.rx.pos + 1 := by
      have := sampleStep_counters (N := N) (X := X) Cplx.zero (advance s)
      rwa [hr] at this
    have hrest := ih (s := (advance s).setRx r) hb hsilent
      (fun i hlo hhi => hz i (by rw [State.setRx_rx] at hlo; omega) (by rw [State.setRx_rx] at hhi; omega))
    rw [State.setRx_rx, hexec, hpos] at hrest
    obtain ⟨t, hrun, hresp, hpos', hrest⟩ := hrest
    refine ⟨t, ?_, hresp, by omega, hrest⟩
    rw [runSamples, hone]
    exact (if_neg (by rw [hsilent.2.1]; exact Bool.false_ne_true)).trans hrun

/-- Settles O40: each zero sample keeps the history empty, so that every window correlates with 0. -/
theorem silenceFindsNothing : Obligations.SilenceFindsNothing := by
  intro s n hb hc he hs hh h1 hn hz
  rw [exec_rxExecute_runs hc he h1 hn]
  obtain ⟨t, hrun, hresp, hpos, hexec, hstate, hevt, -⟩ :=
    runSamples_silent (N := Config.num) (X := Config.ext s.build.modset) (k := n)
      (s := s.setRx { s.rx with execN := n, pos := 0 }) hb ⟨hs, he, hh⟩
      (fun i _ hi => hz i (hi.trans_eq (Nat.zero_add n)))
  exact ⟨t, hrun, hresp, hpos.trans (Nat.zero_add n), hexec, hstate, hevt⟩

end Sys2Proof.Machine
end

section
/-! A run over written, finite samples is the synchronizer fed with them until the first event (R16, R303 to R305, R320,
R410): O34 and O35. -/

namespace Sys2Proof.Machine

variable {N : Num} {ms : List (Nat × Nat)} {X : Ext N ms}

/-! ### Feeding until the first event -/

/-- The synchronizer fed with samples, `pos` advanced with each, up to the first that posts an event (R304). -/
def feedUntil (N : Num) (X : Ext N ms) : List Cplx → State → State
  | [], s => s
  | z :: zs, s =>
    if (sampleStep N X z (advance s)).rx.evt then sampleStep N X z (advance s)
    else feedUntil N X zs (sampleStep N X z (advance s))

/-- The answer of a run: EVENT_PENDING when an event ended it, else OK (R304). -/
def answerRun (s : State) : State := respond (if s.rx.evt then .eventPending else .ok) s

theorem feedUntil_cons_event {z : Cplx} {s : State} (h : (sampleStep N X z (advance s)).rx.evt = true) (zs : List Cplx) :
    feedUntil N X (z :: zs) s = sampleStep N X z (advance s) := if_pos h

theorem feedUntil_cons_quiet {z : Cplx} {s : State} (h : (sampleStep N X z (advance s)).rx.evt = false) (zs : List Cplx) :
    feedUntil N X (z :: zs) s = feedUntil N X zs (sampleStep N X z (advance s)) :=
  if_neg (by rw [h]; exact Bool.false_ne_true)

/-- The induction over the samples fed: a property that one sample keeps while no event is pending. -/
theorem feedUntil_keeps {P : State → Prop} (one : ∀ z s, P s → s.rx.evt = false → P (sampleStep N X z (advance s)))
    {zs : List Cplx} {s : State} (hs : P s) (he : s.rx.evt = false) : P (feedUntil N X zs s) := by
  induction zs generalizing s with
  | nil => exact hs
  | cons z zs ih =>
    have hz := one z s hs he
    cases hev : (sampleStep N X z (advance s)).rx.evt with
    | true => rw [feedUntil_cons_event hev]; exact hz
    | false => rw [feedUntil_cons_quiet hev]; exact ih hz hev

/-- What is fed after a list that posts no event is fed to the state that list leaves. -/
theorem feedUntil_append {ys zs : List Cplx} {s : State} (h : (feedUntil N X ys s).rx.evt = false) :
    feedUntil N X (ys ++ zs) s = feedUntil N X zs (feedUntil N X ys s) := by
  induction ys generalizing s with
  | nil => rfl
  | cons z ys ih =>
    cases hev : (sampleStep N X z (advance s)).rx.evt with
    | true => rw [feedUntil_cons_event hev] at h; exact absurd (hev.symm.trans h) Bool.true_eq_false.mp
    | false =>
      rw [feedUntil_cons_quiet hev] at h ⊢
      rw [List.cons_append, feedUntil_cons_quiet hev, ih h]

/-- A state with other counters of the command. -/
def withCounters (s : State) (p e : Nat) : State := s.setRx (recount s.rx p e)

theorem feed_withCounters (zs : List Cplx) (s : State) (p e : Nat) :
    feed N X zs (withCounters s p e) = withCounters (feed N X zs s) p e := feed_recount N X zs s p e

/-- Feeding until the first event is feeding some of the samples: all of them and no event, or up to the first event. -/
theorem feedUntil_eq_feed (zs : List Cplx) {s : State} (he : s.rx.evt = false) :
    ∃ j ≤ zs.length, feedUntil N X zs s = withCounters (feed N X (zs.take j) s) (s.rx.pos + j) s.rx.execN ∧
      (∀ k < j, (feed N X (zs.take k) s).rx.evt = false) ∧
      ((j = zs.length ∧ (feedUntil N X zs s).rx.evt = false) ∨ (1 ≤ j ∧ (feedUntil N X zs s).rx.evt = true)) := by
  induction zs generalizing s with
  | nil => exact ⟨0, le_rfl, rfl, nofun, .inl ⟨rfl, he⟩⟩
  | cons z zs ih =>
    have hone : sampleStep N X z (advance s) = withCounters (sampleStep N X z s) (s.rx.pos + 1) s.rx.execN :=
      feed_withCounters [z] s (s.rx.pos + 1) s.rx.execN
    cases hev : (sampleStep N X z (advance s)).rx.evt with
    | true =>
      rw [feedUntil_cons_event hev]
      refine ⟨1, by simp, hone, fun k hk => ?_, .inr ⟨le_rfl, hev⟩⟩
      rw [Nat.lt_one_iff.1 hk]; exact he
    | false =>
      obtain ⟨j, hj, heq, hquiet, hend⟩ := ih hev
      rw [feedUntil_cons_quiet hev]
      refine ⟨j + 1, Nat.succ_le_succ hj, ?_, fun k hk => ?_, ?_⟩
      · rw [heq, hone, feed_withCounters]
        show withCounters _ (s.rx.pos + 1 + j) s.rx.execN = _
        rw [Nat.add_assoc, Nat.add_comm 1 j]; rfl
      · cases k with
        | zero => exact he
        | succ k =>
          have := hquiet k (Nat.lt_of_succ_lt_succ hk)
          rwa [hone, feed_withCounters] at this
      · exact hend.imp (fun h => ⟨congrArg (· + 1) h.1, h.2⟩) (fun h => ⟨Nat.le_add_left 1 j, h.2⟩)

/-! ### The samples stay in place while a run writes RES_PAY -/

/-- A state that a run from `s₀` can be in: it has changed RES_PAY alone of the memory and taken no draw. -/
def Follows (s₀ s : State) : Prop := WritesResPay s₀.build s₀.mem s ∧ s.draws = s₀.draws

theorem follows_refl {s : State} (hm : MemInv s) (hl : s.rx.plLen ≤ s.build.payloadMax) : Follows s s :=
  ⟨⟨rfl, hm, hl, .refl _ _ _⟩, rfl⟩

theorem Follows.sampleStep {s₀ s : State} (h : Follows s₀ s) (z : Cplx) : Follows s₀ (sampleStep N X z (advance s)) := by
  refine ⟨sampleStep_writesResPay z (s := advance s) h.1, ?_⟩
  obtain ⟨r, m, hr⟩ := sampleStep_only_rx_mem N X z (advance s)
  rw [hr]; exact h.2

theorem inRegion_resPay_of_rxSamp {b : Build} {x : Nat} (h : 0x100000 ≤ x) : inRegion b .resPay x = false := by
  have := b.payloadMax_range
  rw [Bool.eq_false_iff, ne_eq, inRegion_iff]
  simp only [regionBase, regionSize, ceilDiv]
  omega

theorem Follows.sampleWords {s₀ s : State} (h : Follows s₀ s) (i : Nat) : sampleWords s i = sampleWords s₀ i := by
  obtain ⟨⟨hb, -, -, hch⟩, hd⟩ := h
  have hword : ∀ a, 0x100000 ≤ a → ∀ n, memGetWord s.build s.mem n a = memGetWord s₀.build s₀.mem n a := by
    intro a ha n
    rw [hb]
    exact memGetWord_congr (fun j _ => hch _ (inRegion_resPay_of_rxSamp (by omega))) n
  simp only [sampleWords_eq, hd, hword _ (by omega : 0x100000 ≤ 0x100000 + 8 * i),
    hword _ (by omega : 0x100000 ≤ 0x100000 + 8 * i + 4)]

/-- Samples `p` to `p + k - 1` of RX_SAMP as NUM takes them in. -/
def busSamples (N : Num) (s : State) (p k : Nat) : List Cplx := (List.range k).map fun i => busSample N s (p + i)

@[simp] theorem busSamples_length (s : State) (p k : Nat) : (busSamples N s p k).length = k := by simp [busSamples]

theorem busSamples_succ (s : State) (p k : Nat) : busSamples N s p (k + 1) = busSample N s p :: busSamples N s (p + 1) k := by
  simp only [busSamples, List.range_succ_eq_map, List.map_cons, List.map_map, Nat.add_zero, List.cons.injEq, true_and]
  exact List.map_congr_left fun i _ => by simp only [Function.comp_apply]; congr 1; omega

theorem busSamples_take (s : State) (p : Nat) {j k : Nat} (h : j ≤ k) : (busSamples N s p k).take j = busSamples N s p j := by
  rw [busSamples, ← List.map_take, List.take_range, Nat.min_eq_left h]; rfl

theorem busSamples_add (s : State) (p j k : Nat) : busSamples N s p (j + k) = busSamples N s p j ++ busSamples N s (p + j) k := by
  simp only [busSamples, List.range_add, List.map_append, List.map_map]
  congr 1
  exact List.map_congr_left fun i _ => by simp only [Function.comp_apply]; congr 1; omega

/-- A run over written, finite samples feeds them until the first event, and answers. -/
theorem runSamples_eq_feedUntil {s₀ s : State} {k : Nat} (h : Follows s₀ s) (he : s.rx.evt = false)
    (hr : SamplesReady s₀ s.rx.pos k) :
    runSamples N X k s = .next (answerRun (feedUntil N X (busSamples N s₀ s.rx.pos k) s)) := by
  induction k generalizing s with
  | zero =>
    show Host.Outcome.next (respond .ok s) = .next (respond (if s.rx.evt then .eventPending else .ok) s)
    rw [he]; rfl
  | succ k ih =>
    obtain ⟨hre, him, hdraws⟩ := hr s.rx.pos le_rfl (by omega)
    have hw : sampleWords s s.rx.pos = ((sampleWords s₀ s.rx.pos).1, (sampleWords s₀ s.rx.pos).2.1, s.draws) := by
      rw [h.sampleWords, h.2, ← hdraws]
    have hone := consume_of_written (N := N) (X := X) hw hre him
    rw [busSample_of_ready N s₀ _ hdraws] at hone
    rw [runSamples, hone, busSamples_succ]
    have hpos : (sampleStep N X (busSample N s₀ s.rx.pos) (advance s)).rx.pos = s.rx.pos + 1 := (sampleStep_counters _ _).2
    cases hev : (sampleStep N X (busSample N s₀ s.rx.pos) (advance s)).rx.evt with
    | true => rw [feedUntil_cons_event hev, answerRun, hev]; simp only [hev, if_true]
    | false =>
      have hrest := ih (h.sampleStep (busSample N s₀ s.rx.pos)) hev (fun i hlo hhi => hr i (by omega) (by omega))
      rw [feedUntil_cons_quiet hev, ← hpos]
      simp only [hev, Bool.false_eq_true, if_false, hrest]

/-! ### How a run ends -/

/-- The result registers of an event, by the state that posts it (R328). -/
def EventRecorded (r : RxUnit) : Prop :=
  (r.state = .header ∧ r.resFlags = 1 ∧ r.resPaylen = 0 ∧ r.resBytes = 0) ∨
  (r.state = .payload ∧ (r.resFlags = 3 ∨ r.resFlags = 7) ∧ r.resPaylen = r.plLen ∧ r.resBytes = r.plLen)

theorem SampleEffect.eventRecorded {s t : State} (h : SampleEffect s t) (he : s.rx.evt = false) (ht : t.rx.evt = true) :
    EventRecorded t.rx := by
  obtain ⟨r, hq, rfl | ⟨rfl, hst⟩ | ⟨ok, b, rfl, hst, -⟩⟩ := h
  · exact absurd ((hq.2.1.1.trans he).symm.trans ht) Bool.false_ne_true
  · exact .inl ⟨hst, rfl, rfl, rfl⟩
  · refine .inr ⟨hst, ?_, rfl, rfl⟩
    cases ok
    · exact .inl rfl
    · exact .inr rfl

theorem sampleStep_eventRecorded {z : Cplx} {s : State} (he : s.rx.evt = false) (ht : (sampleStep N X z s).rx.evt = true) :
    EventRecorded (sampleStep N X z s).rx := by
  rcases sampleStep_effect N X z s with ⟨-, h⟩ | ⟨-, h⟩
  · exact h.eventRecorded he ht
  · exact h.eventRecorded he ht

theorem feedUntil_eventRecorded {zs : List Cplx} {s : State} (he : s.rx.evt = false)
    (ht : (feedUntil N X zs s).rx.evt = true) : EventRecorded (feedUntil N X zs s).rx :=
  feedUntil_keeps (P := fun s => s.rx.evt = true → EventRecorded s.rx)
    (fun _ _ _ he ht => sampleStep_eventRecorded (s := advance _) he ht)
    (fun h => absurd (he.symm.trans h) Bool.false_ne_true) he ht

theorem Follows.feedUntil {s₀ s : State} (h : Follows s₀ s) (he : s.rx.evt = false) (zs : List Cplx) :
    Follows s₀ (feedUntil N X zs s) :=
  feedUntil_keeps (P := Follows s₀) (fun z _ hs _ => hs.sampleStep z) h he

theorem feedUntil_sameInstance (zs : List Cplx) {s : State} (he : s.rx.evt = false) :
    SameInstance (feedUntil N X zs s).rx s.rx :=
  feedUntil_keeps (P := fun t => SameInstance t.rx s.rx)
    (fun z t ht _ => sameInstance_trans (sampleStep_sameInstance z (advance t)) ht) (sameInstance_refl s.rx) he

/-- Feeding touches the RX record and the memory alone. -/
theorem feedUntil_touches (zs : List Cplx) {s : State} (he : s.rx.evt = false) :
    ∃ r m, feedUntil N X zs s = (s.setRx r).setMem m := by
  refine feedUntil_keeps (P := fun t => ∃ r m, t = (s.setRx r).setMem m) ?_ ⟨s.rx, s.mem, rfl⟩ he
  rintro z t ⟨r, m, rfl⟩ -
  exact sampleStep_only_rx_mem N X z (advance ((s.setRx r).setMem m))

theorem sameOutside_of_changedWithin {b : Build} {m m' : Memory} (h : ChangedWithin b .resPay m m') :
    SameOutside b m m' 0x050000 (regionSize b .resPay) := by
  intro x hx
  refine h x ?_
  rw [Bool.eq_false_iff, ne_eq, inRegion_iff]
  simp only [regionBase]
  omega

/-- How a run over `k` written, finite samples ends, the conclusion that RX_EXECUTE and RX_ACK share: a command on `s` begins
it in the state `u`, it ends in `t` and consumes `j` samples (R304, R410). -/
structure RunEnds (N : Num) (X : Ext N ms) (s u t : State) (k j : Nat) : Prop where
  ends : ConsumptionEnds t
  execN : t.rx.execN = u.rx.pos + k
  pos : t.rx.pos = u.rx.pos + j
  consumes : 1 ≤ k → 1 ≤ j
  touches : t = ((s.setRx t.rx).setMem t.mem).setResp t.resp
  sameInstance : SameInstance t.rx u.rx
  outside : SameOutside s.build s.mem t.mem 0x050000 (regionSize s.build .resPay)
  rx : t.rx = recount (feed N X (busSamples N s u.rx.pos j) u).rx (u.rx.pos + j) (u.rx.pos + k)
  mem : t.mem = (feed N X (busSamples N s u.rx.pos j) u).mem
  quiet : ∀ i < j, (feed N X (busSamples N s u.rx.pos i) u).rx.evt = false

theorem runSamples_ends {s u : State} {k : Nat} (h : Follows s u) (hu : ∃ r m, u = (s.setRx r).setMem m)
    (he : u.rx.evt = false) (hk : u.rx.execN = u.rx.pos + k) (hr : SamplesReady s u.rx.pos k) :
    ∃ t j, runSamples N X k u = .next t ∧ RunEnds N X s u t k j := by
  obtain ⟨j, hj, heq, hquiet, hend⟩ := feedUntil_eq_feed (N := N) (X := X) (busSamples N s u.rx.pos k) he
  refine ⟨_, j, runSamples_eq_feedUntil h he hr, ?_⟩
  rw [busSamples_length] at hj hend
  rw [busSamples_take s _ hj, hk] at heq
  have hfollows := h.feedUntil (N := N) (X := X) he (busSamples N s u.rx.pos k)
  have hevt := feedUntil_eventRecorded (N := N) (X := X) (zs := busSamples N s u.rx.pos k) he
  have htouch := feedUntil_touches (N := N) (X := X) (busSamples N s u.rx.pos k) he
  have hinst := feedUntil_sameInstance (N := N) (X := X) (busSamples N s u.rx.pos k) he
  generalize feedUntil N X (busSamples N s u.rx.pos k) u = t at *
  have hpos : t.rx.pos = u.rx.pos + j := by rw [heq]; rfl
  have hexec : t.rx.execN = u.rx.pos + k := by rw [heq]; rfl
  have hconsumes : 1 ≤ k → 1 ≤ j := by rcases hend with ⟨rfl, -⟩ | ⟨h1, -⟩ <;> omega
  have hends : ConsumptionEnds (answerRun t) := by
    rcases hend with ⟨rfl, hev⟩ | ⟨-, hev⟩
    · refine .inl ⟨?_, hev, hpos.trans hexec.symm⟩
      simp only [answerRun, hev]; rfl
    · refine .inr ⟨?_, hev, ?_, hevt hev⟩
      · simp only [answerRun, hev]; rfl
      · show t.rx.pos ≤ t.rx.execN; omega
  have htouches : answerRun t = ((s.setRx t.rx).setMem t.mem).setResp (answerRun t).resp := by
    obtain ⟨r, m, rfl⟩ := hu
    obtain ⟨r', m', rfl⟩ := htouch
    rfl
  have hq : ∀ i < j, (feed N X (busSamples N s u.rx.pos i) u).rx.evt = false := by
    intro i hi
    have := hquiet i hi
    rwa [busSamples_take s _ (by omega)] at this
  exact ⟨hends, hexec, hpos, hconsumes, htouches, hinst, sameOutside_of_changedWithin hfollows.1.2.2.2,
    congrArg State.rx heq, (congrArg State.mem heq : t.mem = _), hq⟩

/-! ### The two commands -/

/-- Settles O34: the run begins from the record with the command's counters set, which `step` does not read. -/
theorem rxExecuteCompletes : Obligations.RxExecuteCompletes := by
  intro s n hm hl hc he h1 hn hr after
  obtain ⟨t, j, hrun, ht⟩ := runSamples_ends (N := Config.num) (X := Config.ext s.build.modset) (k := n)
    (s := s) (u := withCounters s 0 n) (follows_refl hm hl) ⟨recount s.rx 0 n, s.mem, rfl⟩ he (Nat.zero_add n).symm hr
  have hafter : ∀ i, feed Config.num (Config.ext s.build.modset) (busSamples Config.num s 0 i) (withCounters s 0 n) =
      withCounters (after i) 0 n := by
    intro i
    rw [feed_withCounters]
    simp only [busSamples, Nat.zero_add]; rfl
  have hpos : t.rx.pos = j := ht.pos.trans (Nat.zero_add j)
  have hzero : (withCounters s 0 n).rx.pos = 0 := rfl
  have hrx := ht.rx
  have hmem := ht.mem
  have hquiet := ht.quiet
  simp only [hzero, hafter, Nat.zero_add] at hrx hmem hquiet
  refine ⟨t, (exec_rxExecute_runs hc he h1 hn).trans hrun, ht.ends, ht.execN.trans (Nat.zero_add n), ?_,
    ht.touches, ht.sameInstance, ht.outside, ?_, ?_, ?_⟩
  · rw [hpos]; exact ht.consumes h1
  · rw [hpos]; exact hrx
  · rw [hpos]; exact hmem
  · rw [hpos]; exact hquiet

/-- Clearing RES_PAY, byte by byte. -/
theorem memPeek_memClear_resPay_ite (b : Build) (m : Memory) (x : Nat) :
    memPeek b (memClear b m .resPay) x = if inRegion b .resPay x then some 0 else memPeek b m x := by
  cases hx : inRegion b .resPay x with
  | true => rw [if_pos rfl]; exact memPeek_memClear_resPay m hx
  | false => rw [if_neg Bool.false_ne_true]; exact memPeek_memClear_other m .resPay x hx

/-- Settles O35: RESET empties RES_PAY and leaves RX_SAMP, so the run goes on over the samples that are left. -/
theorem rxAckCompletes : Obligations.RxAckCompletes := by
  intro s hc he
  have hexec := exec_rxAck_runs hc he
  refine ⟨hexec, fun hpos => ⟨?_, memPeek_memClear_resPay_ite s.build s.mem⟩, ?_⟩
  · rw [hexec, hpos, Nat.sub_self]
    exact congrArg Host.Outcome.next (respond_eq .ok _)
  · intro hm hle _ hr after
    have hfollows : Follows s (resetFsm (s.setRx { s.rx with evt := false })) :=
      ⟨⟨rfl, memInv_resetFsm (s := s.setRx { s.rx with evt := false }) hm, Nat.zero_le _, changedWithin_memClear _ _⟩, rfl⟩
    obtain ⟨t, j, hrun, ht⟩ := runSamples_ends (N := Config.num) (X := Config.ext s.build.modset)
      (k := s.rx.execN - s.rx.pos) hfollows ⟨resetRecord { s.rx with evt := false }, memClear s.build s.mem .resPay, rfl⟩
      rfl (Nat.add_sub_of_le hle).symm hr
    have hpos : t.rx.pos - s.rx.pos = j := Nat.sub_eq_of_eq_add' ht.pos
    have hexecN : s.rx.pos + (s.rx.execN - s.rx.pos) = s.rx.execN := Nat.add_sub_of_le hle
    refine ⟨t, hexec.trans hrun, ht.ends, ht.execN.trans hexecN, (Nat.le_add_right _ j).trans_eq ht.pos.symm, ht.touches,
      ht.sameInstance, ht.outside, ?_, ?_, ?_⟩
    · rw [hpos, ht.pos, ← hexecN]; exact ht.rx
    · rw [hpos]; exact ht.mem
    · rw [hpos]; exact ht.quiet

end Sys2Proof.Machine
end

section
/-! Chunking invariance (R331): O37. `step` reads the build, the RX record and one sample, so two states that agree in these and
in RES_PAY stay so. -/

namespace Sys2Proof.Machine

variable {N : Num} {ms : List (Nat × Nat)} {X : Ext N ms} {b : Build}

/-! ### What a sample does reads the build and the RX record alone -/

/-- The changes a sample makes to the memory: none, RES_PAY cleared, or a payload stored there (R328, R330). -/
def ResPayEdit (b : Build) (e : Memory → Memory) : Prop :=
  e = id ∨ (e = fun m => memClear b m .resPay) ∨ ∃ bs, e = fun m => memPutBytes b m (regionBase .resPay) bs

/-- On the states with a build and an RX record, a function leaves one new record and makes one change to the memory. -/
def Uniform (b : Build) (r : RxUnit) (f : State → State) : Prop :=
  ∃ r' e, ResPayEdit b e ∧ ∀ s, s.build = b → s.rx = r → f s = (s.setRx r').setMem (e s.mem)

theorem uniform_setRx {r r' : RxUnit} {f : State → State} (h : ∀ s, s.build = b → s.rx = r → f s = s.setRx r') :
    Uniform b r f := ⟨r', id, .inl rfl, h⟩

/-- The RX record with the result of an event (R328). -/
def eventRecord (h p : Bool) (r : RxUnit) : RxUnit :=
  { r with
    resFlags := eventFlags h p
    resHdr := r.hb.take hUser
    resPaylen := if h then r.plLen else 0
    resBytes := if h then r.plLen else 0
    resSnr := r.snrDb
    resRssi := r.rssiDb
    resCtx := r.ctx
    evt := true }

theorem postEvent_invalid (p : Bool) (bs : List Byte) (s : State) (r : RxUnit) :
    postEvent false p bs (s.setRx r) = s.setRx (eventRecord false p r) := rfl

theorem postEvent_valid (p : Bool) (bs : List Byte) (s : State) (r : RxUnit) :
    postEvent true p bs (s.setRx r) =
      (s.setRx (eventRecord true p r)).setMem (memPutBytes s.build s.mem (regionBase .resPay) bs) := rfl

theorem headerSymbol_uniform (Y : List Cplx) (r : RxUnit) : Uniform b r (headerSymbol N X Y) := by
  by_cases hsym : r.sym + 1 = r.NH
  · cases hd : (headerDecode b X (headerCollected N X Y r).cbits).1 with
    | true =>
      refine uniform_setRx (r' := headerAccepted (headerDecode b X (headerCollected N X Y r).cbits).2
        (headerCollected N X Y r)) ?_
      rintro s rfl rfl
      exact headerSymbol_valid hsym hd
    | false =>
      refine uniform_setRx (r' := eventRecord false false { headerCollected N X Y r with
        hb := (headerDecode b X (headerCollected N X Y r).cbits).2 }) ?_
      rintro s rfl rfl
      rw [headerSymbol_invalid hsym hd, postEvent_invalid]
  · refine uniform_setRx (r' := headerCollected N X Y r) ?_
    rintro s rfl rfl
    exact headerSymbol_more hsym

theorem payloadSymbol_uniform (Y : List Cplx) (r : RxUnit) : Uniform b r (payloadSymbol N X Y) := by
  by_cases hsym : r.sym + 1 = r.NP
  · refine ⟨eventRecord true (payloadDecoded X (payloadCollected b N X Y r)).1 (payloadCollected b N X Y r), _,
      .inr (.inr ⟨(payloadDecoded X (payloadCollected b N X Y r)).2, rfl⟩), ?_⟩
    rintro s rfl rfl
    rw [payloadSymbol_last hsym, postEvent_valid]
  · refine uniform_setRx (r' := payloadCollected b N X Y r) ?_
    rintro s rfl rfl
    exact payloadSymbol_more hsym

theorem Uniform.congr {r : RxUnit} {f g : State → State} (h : Uniform b r f) (hfg : ∀ s, s.rx = r → g s = f s) :
    Uniform b r g := by
  obtain ⟨r', e, he, hf⟩ := h
  exact ⟨r', e, he, fun s hb hr => (hfg s hr).trans (hf s hb hr)⟩

/-- Changing the record first keeps uniformity. -/
theorem Uniform.comp_setRx {r q : RxUnit} {f : State → State} (h : Uniform b q f) : Uniform b r fun s => f (s.setRx q) := by
  obtain ⟨r', e, he, hf⟩ := h
  exact ⟨r', e, he, fun s hb _ => hf (s.setRx q) hb rfl⟩

theorem completeSymbol_uniform (Y : List Cplx) (r : RxUnit) : Uniform b r (completeSymbol N X Y) := by
  have hstep : ∀ s : State, s.rx = r → completeSymbol N X Y s = match r.state with
      | .trainingLong => s.setRx (longSymbol s.build N Y r)
      | .header => headerSymbol N X Y s
      | .payload => payloadSymbol N X Y s
      | _ => s := by rintro s rfl; rfl
  cases hs : r.state <;> simp only [hs] at hstep
  case trainingLong =>
    refine uniform_setRx (r' := longSymbol b N Y r) ?_
    rintro s rfl hr
    exact hstep s hr
  case header => exact (headerSymbol_uniform Y r).congr hstep
  case payload => exact (payloadSymbol_uniform Y r).congr hstep
  all_goals
    refine uniform_setRx (r' := r) ?_
    rintro s - rfl
    exact hstep s rfl

theorem symbolStep_uniform (x : Cplx) (r : RxUnit) : Uniform b r (symbolStep N X x) := by
  by_cases hfull : r.sbn + 1 = r.L
  · refine ((completeSymbol_uniform (N := N) (X := X) (dft N (strip r.G r.M (collectLast N x r).sb)) (collectLast N x r)).comp_setRx).congr ?_
    rintro s rfl
    exact symbolStep_full hfull x
  · refine uniform_setRx (r' := collect N x r) ?_
    rintro s - rfl
    exact symbolStep_filling hfull x

theorem sampleStep_uniform (x : Cplx) (r : RxUnit) : Uniform b r (sampleStep N X x) := by
  have hstep : ∀ s : State, s.rx = r → sampleStep N X x s = match r.state with
      | .seekPreamble => s.setRx (seekStep s.build N x r)
      | .trainingShort => s.setRx (shortStep N x r)
      | .trainingLong => symbolStep N X x s
      | .header => symbolStep N X x s
      | .payload => symbolStep N X x s
      | .reset => (resetFsm s).setRx (seekStep s.build N x (resetRecord r)) := by rintro s rfl; rfl
  cases hs : r.state <;> simp only [hs] at hstep
  case seekPreamble =>
    refine uniform_setRx (r' := seekStep b N x r) ?_
    rintro s rfl hr
    exact hstep s hr
  case trainingShort => exact uniform_setRx fun s _ hr => hstep s hr
  case reset =>
    refine ⟨seekStep b N x (resetRecord r), _, .inr (.inl rfl), ?_⟩
    rintro s rfl hr
    exact hstep s hr
  all_goals exact (symbolStep_uniform x r).congr hstep

/-! ### Two states that agree in what `step` reads -/

/-- Every byte of RES_PAY reads in one memory as in the other. -/
def ResPayAlike (b : Build) (m m' : Memory) : Prop := ∀ x, inRegion b .resPay x = true → memPeek b m x = memPeek b m' x

theorem ResPayEdit.alike {e : Memory → Memory} (he : ResPayEdit b e) {m m' : Memory} (hm : Rising m) (hm' : Rising m')
    (h : ResPayAlike b m m') : ResPayAlike b (e m) (e m') := by
  intro x hx
  rcases he with rfl | rfl | ⟨bs, rfl⟩
  · exact h x hx
  · exact (memPeek_memClear_resPay m hx).trans (memPeek_memClear_resPay m' hx).symm
  · rw [memPeek_memPutBytes hm, memPeek_memPutBytes hm', h x hx]

/-- Two states of one build whose RX records agree but for the counters, `pos` ahead by `d` and `exec_n` at `n` in the first,
and whose RES_PAY read alike. -/
structure Alike (d n : Nat) (s t : State) : Prop where
  build : s.build = t.build
  rx : s.rx = recount t.rx (t.rx.pos + d) n
  mem : MemInv s ∧ MemInv t
  resPay : ResPayAlike t.build s.mem t.mem

theorem Alike.afterSample {d n : Nat} {s t : State} (h : Alike d n s t) (z : Cplx) :
    Alike d n (sampleStep N X z (advance s)) (sampleStep N X z (advance t)) := by
  obtain ⟨hb, hrx, ⟨hms, hmt⟩, hres⟩ := h
  obtain ⟨r, e, he, hstep⟩ := sampleStep_uniform (N := N) (X := X) (b := t.build) z (advance t).rx
  have ht : sampleStep N X z (advance t) = (t.setRx r).setMem (e t.mem) := hstep (advance t) rfl rfl
  have hpos : r.pos = t.rx.pos + 1 := by
    have := (sampleStep_counters (N := N) (X := X) z (advance t)).2
    rwa [ht] at this
  have hadv : advance s = (s.setRx (advance t).rx).setRx (recount (advance t).rx (t.rx.pos + 1 + d) n) := by
    rw [advance, hrx]
    show s.setRx (recount t.rx (t.rx.pos + d + 1) n) = s.setRx (recount t.rx (t.rx.pos + 1 + d) n)
    rw [Nat.add_right_comm]
  have hs : sampleStep N X z (advance s) = ((s.setRx r).setMem (e s.mem)).setRx (recount r (r.pos + d) n) := by
    rw [hadv, sampleStep_counts N X z (s.setRx (advance t).rx) (advance t).rx,
      show (s.setRx (advance t).rx).setRx (advance t).rx = s.setRx (advance t).rx from rfl,
      hstep (s.setRx (advance t).rx) hb rfl, hpos]
    rfl
  have hms' := sampleStep_memInv (N := N) (X := X) z (s := advance s) hms
  have hmt' := sampleStep_memInv (N := N) (X := X) z (s := advance t) hmt
  refine ⟨?_, ?_, ⟨hms', hmt'⟩, ?_⟩
  · rw [hs, ht]; exact hb
  · rw [hs, ht]; rfl
  · rw [hs, ht]; exact he.alike ((memory_wf_iff _).1 hms).1 ((memory_wf_iff _).1 hmt).1 hres

theorem Alike.evt {d n : Nat} {s t : State} (h : Alike d n s t) : s.rx.evt = t.rx.evt := by rw [h.rx]; rfl

theorem Alike.afterFeeding {d n : Nat} {s t : State} (h : Alike d n s t) (zs : List Cplx) :
    Alike d n (feedUntil N X zs s) (feedUntil N X zs t) := by
  induction zs generalizing s t with
  | nil => exact h
  | cons z zs ih =>
    have hz := h.afterSample (N := N) (X := X) z
    cases hev : (sampleStep N X z (advance t)).rx.evt with
    | true => rw [feedUntil_cons_event hev, feedUntil_cons_event (hz.evt.trans hev)]; exact hz
    | false => rw [feedUntil_cons_quiet hev, feedUntil_cons_quiet (hz.evt.trans hev)]; exact ih hz

theorem Alike.answered {d n : Nat} {s t : State} (h : Alike d n s t) :
    Alike d n (answerRun s) (answerRun t) ∧ (answerRun s).resp = (answerRun t).resp := by
  refine ⟨⟨h.build, h.rx, h.mem, h.resPay⟩, ?_⟩
  simp only [answerRun, h.evt, respond_resp]

/-! ### The two commands -/

/-- RX_EXECUTE over written, finite samples, as what is fed to the synchronizer. -/
theorem exec_rxExecute_eq_feedUntil {s : State} {n : Nat} (hb : s.build = b) (hm : MemInv s)
    (hl : s.rx.plLen ≤ b.payloadMax) (hc : s.rx.created = true) (he : s.rx.evt = false) (h1 : 1 ≤ n) (hn : n ≤ b.nBuf)
    (hr : SamplesReady s 0 n) :
    exec (.rxExecute n) s = .next (answerRun (feedUntil Config.num (Config.ext b.modset)
      (busSamples Config.num s 0 n) (withCounters s 0 n))) := by
  subst hb
  exact (exec_rxExecute_runs hc he h1 hn).trans
    (runSamples_eq_feedUntil (s₀ := s) (s := withCounters s 0 n) (follows_refl hm hl) he hr)

/-- Samples moved to another place are taken into NUM as they were. -/
theorem busSamples_moved {s t : State} {a n : Nat} (hr : SamplesReady s 0 (a + n)) (hd : t.draws = s.draws)
    (h : ∀ i < n, sampleWords t i = sampleWords s (a + i)) :
    SamplesReady t 0 n ∧ busSamples N t 0 n = busSamples N s a n := by
  have hready : ∀ i < n, f32Finite (sampleWords s (a + i)).1 = true ∧ f32Finite (sampleWords s (a + i)).2.1 = true ∧
      (sampleWords s (a + i)).2.2 = s.draws := fun i hi => hr (a + i) (Nat.zero_le _) (by omega)
  refine ⟨fun i _ hi => ?_, List.map_congr_left fun i hi => ?_⟩
  · have hi' : i < n := by omega
    rw [h i hi', hd]
    exact hready i hi'
  · have hi' := List.mem_range.1 hi
    obtain ⟨-, -, hdraws⟩ := hready i hi'
    rw [Nat.zero_add, ← busSample_of_ready N s (a + i) hdraws, ← busSample_of_ready N t i (by rw [h i hi', hdraws, hd]),
      h i hi']

/-- RX_EXECUTE over `a` samples without an event, beside the first `a` of a longer RX_EXECUTE: the two agree in what `step`
reads, and the longer one goes on from there. -/
theorem exec_rxExecute_quiet {s t : State} {a n : Nat} (hm : MemInv s) (hl : s.rx.plLen ≤ s.build.payloadMax)
    (hc : s.rx.created = true) (he : s.rx.evt = false) (ha : 1 ≤ a) (hn : a + n ≤ s.build.nBuf)
    (hr : SamplesReady s 0 (a + n)) (hexec : exec (.rxExecute a) s = .next t) (ht : t.rx.evt = false) :
    Follows s t ∧ t.rx.created = true ∧ t.rx.pos = a ∧ ∃ u, Alike 0 (a + n) u t ∧
      exec (.rxExecute (a + n)) s = .next (answerRun (feedUntil Config.num (Config.ext s.build.modset)
        (busSamples Config.num s a n) u)) := by
  have hwhole := exec_rxExecute_eq_feedUntil rfl hm hl hc he (by omega) hn hr
  rw [exec_rxExecute_eq_feedUntil rfl hm hl hc he ha (by omega) fun i h0 hi => hr i h0 (by omega)] at hexec
  have hfollows := Follows.feedUntil (s := withCounters s 0 a) (N := Config.num) (X := Config.ext s.build.modset)
    (follows_refl hm hl) he (busSamples Config.num s 0 a)
  have hinst := feedUntil_sameInstance (N := Config.num) (X := Config.ext s.build.modset) (busSamples Config.num s 0 a)
    (s := withCounters s 0 a) he
  have hstart : Alike 0 (a + n) (withCounters s 0 (a + n)) (withCounters s 0 a) := ⟨rfl, rfl, ⟨hm, hm⟩, fun _ _ => rfl⟩
  have halike := hstart.afterFeeding (N := Config.num) (X := Config.ext s.build.modset) (busSamples Config.num s 0 a)
  obtain ⟨j, -, hpos, -, hend⟩ := feedUntil_eq_feed (N := Config.num) (X := Config.ext s.build.modset)
    (busSamples Config.num s 0 a) (s := withCounters s 0 a) he
  generalize feedUntil Config.num (Config.ext s.build.modset) (busSamples Config.num s 0 a) (withCounters s 0 a) = T at *
  cases hexec
  have hT : T.rx.evt = false := ht
  refine ⟨hfollows, hinst.1.trans hc, ?_, _, ⟨halike.build, halike.rx, halike.mem, halike.resPay⟩, ?_⟩
  · rcases hend with ⟨rfl, -⟩ | ⟨-, h⟩
    · show T.rx.pos = a; rw [hpos, busSamples_length]; exact Nat.zero_add a
    · exact absurd (hT.symm.trans h) Bool.false_ne_true
  · rw [hwhole, busSamples_add, Nat.zero_add, feedUntil_append (halike.evt.trans hT)]

/-- Settles O37: after the first part the two machines agree in what `step` reads, and are fed the same samples. -/
theorem chunkingInvariance : Obligations.ChunkingInvariance := by
  intro s t m a b hm hmw hl hc he ha hb hn hr hexec hev hwords hres
  obtain ⟨⟨⟨hbuild, -, hlen, -⟩, hdraws⟩, hcreated, hpos, u, hu, hwhole⟩ :=
    exec_rxExecute_quiet hm hl hc he ha hn hr hexec hev
  obtain ⟨hready, hmoved⟩ := busSamples_moved (N := Config.num) (t := t.setMem m) hr hdraws hwords
  have hmem : MemInv (t.setMem m) := by unfold MemInv; rw [State.setMem_build, hbuild]; exact hmw
  have hsecond := exec_rxExecute_eq_feedUntil (s := t.setMem m) hbuild hmem hlen hcreated hev hb (by omega) hready
  rw [hmoved] at hsecond
  have hstart : Alike a (a + b) u (withCounters (t.setMem m) 0 b) := by
    refine ⟨hu.build, ?_, ⟨hu.mem.1, hmem⟩, ?_⟩
    · rw [hu.rx, hpos, Nat.add_comm a 0]; rfl
    · have hut := hu.resPay
      show ResPayAlike t.build u.mem m
      rw [hbuild] at hut ⊢
      exact fun x hx => (hut x hx).trans (hres x hx).symm
  obtain ⟨hend, hresp⟩ := (hstart.afterFeeding (N := Config.num) (X := Config.ext s.build.modset)
    (busSamples Config.num s a b)).answered
  refine ⟨_, _, hwhole, hsecond, hresp, hend.rx, ?_⟩
  have hrun := hend.resPay
  have hb' : (answerRun (feedUntil Config.num (Config.ext s.build.modset) (busSamples Config.num s a b)
      (withCounters (t.setMem m) 0 b))).build = s.build := by
    obtain ⟨r, m', htouch⟩ := feedUntil_touches (N := Config.num) (X := Config.ext s.build.modset)
      (busSamples Config.num s a b) (s := withCounters (t.setMem m) 0 b) hev
    rw [answerRun, respond_build, htouch]; exact hbuild
  rwa [hb'] at hrun

end Sys2Proof.Machine
end

section
/-! The correlation and the estimates of timing and frequency in exact arithmetic (R15, R362, R366, R367). -/

namespace Sys2Proof.Machine

variable {N : Num} {v : Scalar → ℝ}

/-! ### Values -/

theorem val_zero (h : N.IsExact v) : v .zero = 0 := (h.rat 0).trans Rat.cast_zero

theorem eq_rat_of_val (h : N.IsExact v) {a : Scalar} {q : ℚ} (e : v a = q) : a = .rat q :=
  h.injective (e.trans (h.rat q).symm)

theorem eq_zero_of_val (h : N.IsExact v) {a : Scalar} (e : v a = 0) : a = .zero :=
  h.injective (e.trans (val_zero h).symm)

theorem lt_eq_false_iff (h : N.IsExact v) {a b : Scalar} : N.lt a b = false ↔ v b ≤ v a := by
  rw [Bool.eq_false_iff, ne_eq, h.lt, not_lt]

theorem toC_conj (h : N.IsExact v) (z : Cplx) : (conj N z).toC v = starRingEnd ℂ (z.toC v) :=
  Complex.ext rfl (h.neg z.im)

theorem toC_ne_zero (h : N.IsExact v) {z : Cplx} (hz : z ≠ Cplx.zero) : z.toC v ≠ 0 :=
  fun e => hz (h.toC_injective (e.trans h.toC_zero.symm))

/-- `cexp` of an angle 0 turns nothing. -/
theorem toC_cexp_of_zero (h : N.IsExact v) {a : Scalar} (e : v a = 0) : (N.cexp a).toC v = 1 := by
  rw [h.cexp, e, Complex.ofReal_zero, zero_mul, Complex.exp_zero]

/-- `wrap` leaves the angle 0. -/
theorem val_wrap_of_zero (h : N.IsExact v) {a : Scalar} (e : v a = 0) : v (N.wrap a) = 0 := by
  rw [h.wrap, e]
  refine (toIocMod_eq_self Real.two_pi_pos).2 ⟨?_, ?_⟩ <;> linarith [Real.pi_pos]

/-! ### Energy -/

/-- The energy of a vector, as a real number (R362). -/
noncomputable def energy (v : Scalar → ℝ) (w : List Cplx) : ℝ := (w.map fun z => Complex.normSq (z.toC v)).sum

theorem val_energy (h : N.IsExact v) (w : List Cplx) : v (N.sum (w.map N.normSq)) = energy v w := by
  rw [h.sum, List.map_map]
  exact congrArg List.sum (List.map_congr_left fun z _ => h.normSq z)

theorem energy_nonneg (v : Scalar → ℝ) (w : List Cplx) : 0 ≤ energy v w := by
  refine List.sum_nonneg fun x hx => ?_
  obtain ⟨z, -, rfl⟩ := List.mem_map.1 hx
  exact Complex.normSq_nonneg _

theorem energy_pos (h : N.IsExact v) {w : List Cplx} {z : Cplx} (hz : z ∈ w) (hne : z ≠ Cplx.zero) : 0 < energy v w := by
  have hle : Complex.normSq (z.toC v) ≤ energy v w := by
    refine List.single_le_sum (fun x hx => ?_) _ (List.mem_map_of_mem hz)
    obtain ⟨y, -, rfl⟩ := List.mem_map.1 hx
    exact Complex.normSq_nonneg _
  exact (Complex.normSq_pos.2 (toC_ne_zero h hne)).trans_le hle

/-- The transform of a vector that is not 0 is not 0, for the inverse transform brings it back (R18). -/
theorem exists_idft_ne_zero (h : N.IsExact v) {V : List Cplx} {z : Cplx} (hz : z ∈ V) (hne : z ≠ Cplx.zero) :
    ∃ y ∈ idft N V, y ≠ Cplx.zero := by
  by_contra! hall
  obtain ⟨k, hk, rfl⟩ := List.mem_iff_getElem.1 hz
  refine hne (h.toC_injective ?_)
  have hdft := toC_dft h (V := idft N V) (k := k) (by simpa using hk)
  rw [dft_idft h, List.getD_eq_getElem _ _ hk] at hdft
  rw [hdft, h.toC_zero]
  refine Finset.sum_eq_zero fun n hn => ?_
  have hn' := Finset.mem_range.1 hn
  rw [List.getD_eq_getElem _ _ hn', hall _ (List.getElem_mem hn'), h.toC_zero, zero_mul]

/-! ### Correlation -/

/-- The Cauchy-Schwarz inequality for two lists. -/
theorem normSq_sum_zipWith_le {s w : List ℂ} (hl : s.length = w.length) :
    Complex.normSq (List.zipWith (fun a b => starRingEnd ℂ a * b) s w).sum ≤
      (s.map Complex.normSq).sum * (w.map Complex.normSq).sum := by
  obtain ⟨n, f, rfl⟩ : ∃ n, ∃ f : Fin n → ℂ, s = List.ofFn f := ⟨_, _, (List.ofFn_get s).symm⟩
  obtain ⟨g, rfl⟩ : ∃ g : Fin n → ℂ, w = List.ofFn g := by
    rw [List.length_ofFn] at hl
    subst hl
    exact ⟨_, (List.ofFn_get w).symm⟩
  have hzip : List.zipWith (fun a b => starRingEnd ℂ a * b) (List.ofFn f) (List.ofFn g) =
      List.ofFn fun i => starRingEnd ℂ (f i) * g i := by
    apply List.ext_getElem <;> simp
  rw [hzip, List.map_ofFn, List.map_ofFn, List.sum_ofFn, List.sum_ofFn, List.sum_ofFn, Complex.normSq_eq_norm_sq]
  calc ‖∑ i, starRingEnd ℂ (f i) * g i‖ ^ 2
      ≤ (∑ i, ‖f i‖ * ‖g i‖) ^ 2 := by
        refine pow_le_pow_left₀ (norm_nonneg _) ((norm_sum_le _ _).trans_eq ?_) 2
        simp only [norm_mul, RCLike.norm_conj]
    _ ≤ (∑ i, ‖f i‖ ^ 2) * ∑ i, ‖g i‖ ^ 2 := Finset.sum_mul_sq_le_sq_mul_sq _ _ _
    _ = _ := by simp only [Function.comp_apply, Complex.normSq_eq_norm_sq]

/-- The inner product of two vectors (R362). -/
noncomputable def innerC (v : Scalar → ℝ) (s w : List Cplx) : ℂ :=
  (List.zipWith (fun a b => starRingEnd ℂ a * b) (s.map (Cplx.toC v)) (w.map (Cplx.toC v))).sum

/-- ρ as a real number: a quotient by 0 stands for the 0 that R362 gives there. -/
theorem val_correlation (h : N.IsExact v) (s w : List Cplx) :
    v (correlation N s (N.sum (s.map N.normSq)) w) = Complex.normSq (innerC v s w) / (energy v s * energy v w) := by
  have hc : (N.csum (List.zipWith (fun s x => N.cmul (conj N s) x) s w)).toC v = innerC v s w := by
    rw [h.csum, List.map_zipWith, innerC, List.zipWith_map]
    simp only [h.cmul, toC_conj h]
  have hpos : 0 ≤ energy v s * energy v w := mul_nonneg (energy_nonneg v s) (energy_nonneg v w)
  have hden : v (N.mul (N.sum (s.map N.normSq)) (N.sum (w.map N.normSq))) = energy v s * energy v w := by
    rw [h.mul, val_energy h, val_energy h]
  unfold correlation
  simp only
  split
  case isTrue hlt =>
    rw [h.lt, hden, val_zero h] at hlt
    rw [h.div _ _ (by rw [hden]; exact hlt.ne'), hden, h.normSq, hc]
  case isFalse hlt =>
    rw [h.lt, hden, val_zero h, not_lt] at hlt
    rw [val_zero h, le_antisymm hlt hpos, div_zero]

theorem val_correlation_le_one (h : N.IsExact v) {s w : List Cplx} (hl : s.length = w.length) :
    v (correlation N s (N.sum (s.map N.normSq)) w) ≤ 1 := by
  rw [val_correlation h]
  refine div_le_one_of_le₀ ?_ (mul_nonneg (energy_nonneg v s) (energy_nonneg v w))
  have := normSq_sum_zipWith_le (s := s.map (Cplx.toC v)) (w := w.map (Cplx.toC v)) (by simpa using hl)
  rwa [List.map_map, List.map_map] at this

theorem ofReal_energy (v : Scalar → ℝ) (w : List Cplx) :
    (energy v w : ℂ) = (w.map fun z => starRingEnd ℂ (z.toC v) * z.toC v).sum := by
  refine (map_list_sum Complex.ofRealHom _).trans ?_
  rw [List.map_map]
  exact congrArg List.sum (List.map_congr_left fun z _ => Complex.normSq_eq_conj_mul_self)

theorem innerC_self (v : Scalar → ℝ) (s : List Cplx) : innerC v s s = (energy v s : ℂ) := by
  rw [innerC, List.zipWith_self, List.map_map, ofReal_energy]
  rfl

/-- A training symbol with energy correlates with itself by 1 (R363). -/
theorem correlation_self (h : N.IsExact v) {s : List Cplx} (he : 0 < energy v s) :
    correlation N s (N.sum (s.map N.normSq)) s = .rat 1 := by
  refine eq_rat_of_val h ?_
  rw [val_correlation h, innerC_self, Complex.normSq_ofReal, Rat.cast_one, div_self]
  exact (mul_pos he he).ne'

/-- Two equal halves of the history show no frequency offset (R366). -/
theorem cfoEstimate_of_repeated (h : N.IsExact v) {r : RxUnit} {w : List Cplx} (hh : r.hist = w ++ w) (hl : w.length = r.L)
    (hL : r.L ≠ 0) : cfoEstimate N r = .rat 0 := by
  have hz : List.zipWith (fun y x => N.cmul y (conj N x)) (r.hist.drop r.L) r.hist =
      w.map fun z => N.cmul z (conj N z) := by
    rw [hh, ← hl, List.drop_left, List.zipWith_eq_zipWith_take_min, List.length_append, Nat.min_eq_left (Nat.le_add_left _ _),
      List.take_length, List.take_left, List.zipWith_self]
  have hp : (N.csum (w.map fun z => N.cmul z (conj N z))).toC v = (energy v w : ℂ) := by
    rw [h.csum, List.map_map, ofReal_energy]
    refine congrArg List.sum (List.map_congr_left fun z _ => ?_)
    rw [Function.comp_apply, h.cmul, toC_conj h, mul_comm]
  have hLv : v (N.ofRat r.L) ≠ 0 := by rw [h.val_ofRat]; exact_mod_cast hL
  refine eq_rat_of_val h ?_
  rw [cfoEstimate, hz, h.div _ _ hLv, h.arg, hp, Complex.arg_ofReal_of_nonneg (energy_nonneg v w), zero_div, Rat.cast_zero]

/-! ### The derotated sample -/

/-- With the phase at 0 a sample is not turned (R367). -/
theorem ncoSample_zero (h : N.IsExact v) (x : Cplx) : ncoSample N .zero x = x := by
  refine h.toC_injective ?_
  rw [ncoSample, h.cmul, toC_cexp_of_zero h (by rw [h.neg, val_zero h, neg_zero]), mul_one]

/-- With no frequency offset the phase stays 0 (R367). -/
theorem ncoPhase_zero (h : N.IsExact v) : ncoPhase N .zero (.rat 0) = .zero := by
  refine eq_zero_of_val h (val_wrap_of_zero h ?_)
  rw [h.add, val_zero h, h.rat, Rat.cast_zero, add_zero]

end Sys2Proof.Machine
end

section
/-! The channel, the equalizer, the tracking and the statistics of a noiseless frame in exact arithmetic (R370 to R378). -/

namespace Sys2Proof.Machine

variable {N : Num} {v : Scalar → ℝ}

/-! ### The pilots beside a subcarrier -/

theorem freq_injective {m p k : Nat} (hp : p < m) (hk : k < m) (h : freq m p = freq m k) : p = k := by
  unfold freq at h
  split_ifs at h <;> omega

/-- One step of the search for the best entry of a list that has a property. -/
def pickBetter (P : Nat → Prop) [DecidablePred P] (better : Nat → Nat → Prop) [DecidableRel better] (acc : Option Nat)
    (p : Nat) : Option Nat :=
  if P p then
    match acc with
    | none => some p
    | some q => if better q p then some p else some q
  else acc

section Search

variable {P : Nat → Prop} [DecidablePred P] {better : Nat → Nat → Prop} [DecidableRel better]

theorem pickBetter_eq (acc : Option Nat) (p : Nat) :
    pickBetter P better acc p = acc ∨ P p ∧ pickBetter P better acc p = some p := by
  unfold pickBetter
  split
  · rename_i hp
    cases acc with
    | none => exact .inr ⟨hp, rfl⟩
    | some q =>
      by_cases hq : better q p
      · exact .inr ⟨hp, if_pos hq⟩
      · exact .inl (if_neg hq)
  · exact .inl rfl

/-- The search finds an entry of the list. -/
theorem mem_of_search {pl : List Nat} {a : Nat} (h : pl.foldl (pickBetter P better) none = some a) : a ∈ pl := by
  induction pl using List.reverseRecOn with
  | nil => cases h
  | append_singleton pl p ih =>
    rw [List.foldl_append, List.foldl_cons, List.foldl_nil] at h
    rw [List.mem_append, List.mem_singleton]
    rcases pickBetter_eq (P := P) (better := better) (pl.foldl (pickBetter P better) none) p with e | ⟨-, e⟩ <;> rw [e] at h
    · exact .inl (ih h)
    · exact .inr (Option.some.inj h).symm

/-- Where the search finds nothing, no entry has the property. -/
theorem not_of_search_eq_none {pl : List Nat} (h : pl.foldl (pickBetter P better) none = none) : ∀ p ∈ pl, ¬ P p := by
  induction pl using List.reverseRecOn with
  | nil => nofun
  | append_singleton pl p ih =>
    rw [List.foldl_append, List.foldl_cons, List.foldl_nil] at h
    have hnone : pl.foldl (pickBetter P better) none = none := by
      rcases pickBetter_eq (P := P) (better := better) (pl.foldl (pickBetter P better) none) p with e | ⟨-, e⟩ <;> rw [e] at h
      · exact h
      · cases h
    intro q hq
    rcases List.mem_append.1 hq with hq | hq
    · exact ih hnone q hq
    · rw [List.mem_singleton.1 hq]
      intro hp
      rw [hnone, pickBetter, if_pos hp] at h
      cases h

end Search

theorem pilotBelow_eq_search (m : Nat) (pl : List Nat) (k : Nat) :
    pilotBelow m pl k = pl.foldl (pickBetter (fun p => freq m p < freq m k) fun q p => freq m q < freq m p) none := rfl

theorem pilotAbove_eq_search (m : Nat) (pl : List Nat) (k : Nat) :
    pilotAbove m pl k = pl.foldl (pickBetter (fun p => freq m k < freq m p) fun q p => freq m p < freq m q) none := rfl

/-- Pilot gains of 1 interpolate to a gain of 1, wherever the pilots lie (R371). -/
theorem interpolate_one (h : N.IsExact v) {m k p : Nat} {pl : List Nat} {gain : Nat → Cplx} (hp : p ∈ pl) (hpm : p < m)
    (hkm : k < m) (hpk : p ≠ k) (hg : ∀ q ∈ pl, gain q = Cplx.one) : interpolate N m pl gain k = Cplx.one := by
  unfold interpolate
  rw [pilotBelow_eq_search, pilotAbove_eq_search]
  split
  · rename_i a b ha hb
    refine h.toC_injective ?_
    rw [hg a (mem_of_search ha), hg b (mem_of_search hb), h.cadd, h.cscale, h.csub, sub_self, mul_zero, add_zero]
  · rename_i a ha _
    exact hg a (mem_of_search ha)
  · rename_i b _ hb
    exact hg b (mem_of_search hb)
  · rename_i hbelow habove
    exact absurd (freq_injective hpm hkm (le_antisymm (not_lt.1 (not_of_search_eq_none habove p hp))
      (not_lt.1 (not_of_search_eq_none hbelow p hp)))) hpk

/-! ### The channel of a frame that nothing has changed -/

/-- A gain of 1 on every active subcarrier. -/
def flatGain (t : List Role) : List Cplx :=
  (List.range t.length).map fun k => if t.getD k .null = .null then Cplx.zero else Cplx.one

theorem at0_map_range (f : Nat → Cplx) {n k : Nat} (hk : k < n) : at0 ((List.range n).map f) k = f k := by
  rw [at0, List.getD_eq_getElem _ _ (by simpa using hk), List.getElem_map, List.getElem_range]

theorem at0_flatGain {t : List Role} {k : Nat} (hk : k < t.length) :
    at0 (flatGain t) k = if t.getD k .null = .null then Cplx.zero else Cplx.one := at0_map_range _ hk

theorem lt_length_of_role {t : List Role} {k : Nat} (h : t.getD k .null ≠ .null) : k < t.length := by
  by_contra hk
  exact h (List.getD_eq_default _ _ (Nat.not_lt.1 hk))

/-- An active subcarrier of a training symbol carries 1 or -1 (R184, R185). -/
theorem at0_trainLong {t : List Role} {k : Nat} (h : t.getD k .null ≠ .null) :
    at0 (trainLong t) k = Cplx.one ∨ at0 (trainLong t) k = Cplx.negOne := by
  rw [at0, trainLong, placeTraining_active (pn_length _ _).ge h]
  split
  · exact .inr rfl
  · exact .inl rfl

theorem toC_at0_trainLong_ne_zero (h : N.IsExact v) {t : List Role} {k : Nat} (hk : t.getD k .null ≠ .null) :
    (at0 (trainLong t) k).toC v ≠ 0 := by
  rcases at0_trainLong hk with e | e <;> rw [e]
  · rw [h.toC_one]; exact one_ne_zero
  · rw [h.toC_negOne]; exact neg_ne_zero.2 one_ne_zero

theorem cdiv_self (h : N.IsExact v) {z : Cplx} (hz : z.toC v ≠ 0) : N.cdiv z z = Cplx.one := by
  refine h.toC_injective ?_
  rw [h.cdiv _ _ hz, div_self hz, h.toC_one]

theorem getD_of_mem_indicesOf {r : Role} {t : List Role} {k : Nat} (h : k ∈ indicesOf r t) : t.getD k .null = r := by
  rw [List.getD_eq_getElem?_getD, mem_indicesOf.1 h]; rfl

theorem lt_of_mem_indicesOf {r : Role} {t : List Role} {k : Nat} (h : k ∈ indicesOf r t) : k < t.length :=
  (List.getElem?_eq_some_iff.1 (mem_indicesOf.1 h)).1

/-- The constants of an RX unit made for the table `t` and the guard length `g` (R75, R300). -/
structure MadeFor (N : Num) (t : List Role) (g : Nat) (r : RxUnit) : Prop where
  M : r.M = t.length
  G : r.G = g
  L : r.L = t.length + g
  alloc : r.alloc = t
  D : r.D = indicesOf .data t
  PL : r.PL = indicesOf .pilot t
  ND : r.ND = (indicesOf .data t).length
  NH : r.NH = headerSymbols (indicesOf .data t).length
  s0t : r.s0t = ofdm N g (trainShort t)
  e0 : r.e0 = N.sum ((ofdm N g (trainShort t)).map N.normSq)
  s1 : r.s1 = trainLong t

theorem MadeFor.of_sameInstance {t : List Role} {g : Nat} {r q : RxUnit} (h : MadeFor N t g q) (hs : SameInstance r q) :
    MadeFor N t g r := by
  obtain ⟨-, hM, hG, hL, -, halloc, hD, hPL, hND, -, hNH, hs0t, he0, hs1⟩ := hs
  exact ⟨hM.trans h.M, hG.trans h.G, hL.trans h.L, halloc.trans h.alloc, hD.trans h.D, hPL.trans h.PL, hND.trans h.ND,
    hNH.trans h.NH, hs0t.trans h.s0t, he0.trans h.e0, hs1.trans h.s1⟩

section Record

variable {t : List Role} {g : Nat} {r : RxUnit} {b : Build}

/-- The long symbol received as it was sent gives a gain of 1 on every active subcarrier (R333, R370). -/
theorem channelEstimate_trainLong (h : N.IsExact v) (hr : MadeFor N t g r) (hp : Role.pilot ∈ t) :
    channelEstimate N r (trainLong t) = flatGain t := by
  have hgain : ∀ k, t.getD k .null ≠ .null → N.cdiv (at0 (trainLong t) k) (at0 (trainLong t) k) = Cplx.one :=
    fun k hk => cdiv_self h (toC_at0_trainLong_ne_zero h hk)
  obtain ⟨p, hpmem⟩ := List.exists_mem_of_length_pos (indicesOf_length_pos hp)
  unfold channelEstimate flatGain
  simp only [hr.M, hr.alloc, hr.PL, hr.s1]
  refine List.map_congr_left fun k hk => ?_
  have hk := List.mem_range.1 hk
  cases hrole : t.getD k .null with
  | null => simp only [if_true]
  | pilot =>
    simp only [reduceCtorEq, if_false]
    exact hgain k (by rw [hrole]; decide)
  | data =>
    simp only [reduceCtorEq, if_false]
    refine interpolate_one h hpmem (lt_of_mem_indicesOf hpmem) hk ?_ fun q hq => hgain q ?_
    · rintro rfl
      rw [getD_of_mem_indicesOf hpmem] at hrole
      cases hrole
    · rw [getD_of_mem_indicesOf hq]; decide

/-- With a flat channel and no phase the equalizer leaves a symbol as it came (R372). -/
theorem at0_equalize (h : N.IsExact v) (hr : MadeFor N t g r) (hH : r.H = flatGain t) (htau : r.tauHat = .zero)
    (htheta : r.theta = .zero) (Y : List Cplx) {k : Nat} (hk : t.getD k .null ≠ .null) :
    at0 (equalize N r Y) k = at0 Y k := by
  have hlt := lt_length_of_role hk
  have hz : N.isZero Cplx.one = false := by
    rw [Num.isZero, Cplx.one, show Scalar.zero = .rat 0 from rfl, N.eq_rat]; rfl
  have hm : v (N.ofRat t.length) ≠ 0 := by rw [h.val_ofRat]; exact_mod_cast Nat.ne_zero_of_lt hlt
  have hturn : v (N.neg (turns N (N.mul (N.ofRat (freq t.length k : Int)) .zero) (N.ofRat t.length))) = 0 := by
    rw [h.neg, turns, h.div _ _ hm, h.mul, h.mul _ .zero, val_zero h]; simp
  have hone : equalizeAt N t.length .zero .zero (at0 Y k) Cplx.one k = at0 Y k := by
    refine h.toC_injective ?_
    rw [equalizeAt, hz, if_neg Bool.false_ne_true, h.cmul, h.cmul, h.cdiv _ _ (by rw [h.toC_one]; exact one_ne_zero),
      toC_cexp_of_zero h hturn, toC_cexp_of_zero h (by rw [h.neg, val_zero h, neg_zero]), h.toC_one]
    simp
  rw [equalize, hr.M, at0_map_range _ hlt]
  simp only [hr.alloc, htau, htheta, hH, at0_flatGain hlt, if_neg hk, hone]

/-- A sum of equal values. -/
theorem val_sum_of_eq (h : N.IsExact v) {α : Type} {l : List α} {f : α → Scalar} {c : ℝ} (hf : ∀ x ∈ l, v (f x) = c) :
    v (N.sum (l.map f)) = l.length * c := by
  rw [h.sum, List.map_map, List.map_congr_left (f := v ∘ f) (g := fun _ => c) hf]
  simp

/-- No noise gives the SNR its upper clamp (R377). -/
theorem snr_trainLong (h : N.IsExact v) (hr : MadeFor N t g r) (hd : Role.data ∈ t) :
    snr b N r (trainLong t) (flatGain t) = .rat b.statClampDb := by
  have hgain : ∀ k ∈ indicesOf .data t, at0 (flatGain t) k = Cplx.one := by
    intro k hk
    rw [at0_flatGain (lt_of_mem_indicesOf hk), getD_of_mem_indicesOf hk]; rfl
  have hND : ((indicesOf .data t).length : ℝ) ≠ 0 := by
    exact_mod_cast Nat.one_le_iff_ne_zero.1 (indicesOf_length_pos hd)
  have hinv : v (N.div (N.ofRat 1) (N.ofRat r.ND)) = 1 / (indicesOf .data t).length := by
    rw [hr.ND, h.div _ _ (by rw [h.val_ofRat]; exact_mod_cast hND), h.val_ofRat, h.val_ofRat]; push_cast; rfl
  have hsignal : v (N.sum (r.D.map fun k => N.normSq (at0 (flatGain t) k))) = (indicesOf .data t).length := by
    rw [hr.D]
    refine (val_sum_of_eq h (c := 1) fun k hk => ?_).trans (mul_one _)
    rw [hgain k hk, h.normSq, h.toC_one, Complex.normSq_one]
  have hnoise : v (N.sum (r.D.map fun k =>
      N.normSq (N.csub (at0 (trainLong t) k) (N.cmul (at0 (flatGain t) k) (at0 r.s1 k))))) = 0 := by
    rw [hr.D, hr.s1]
    refine (val_sum_of_eq h (c := 0) fun k hk => ?_).trans (mul_zero _)
    rw [hgain k hk, h.normSq, h.csub, h.cmul, h.toC_one, one_mul, sub_self, Complex.normSq_zero]
  have hs : ¬ N.eq (N.mul (N.div (N.ofRat 1) (N.ofRat r.ND)) (N.sum (r.D.map fun k => N.normSq (at0 (flatGain t) k)))) .zero
      = true := by
    rw [h.eq, h.mul, hinv, hsignal, val_zero h, one_div, inv_mul_cancel₀ hND]; exact one_ne_zero
  have hn : N.eq (N.mul (N.div (N.ofRat 1) (N.ofRat r.ND)) (N.sum (r.D.map fun k =>
      N.normSq (N.csub (at0 (trainLong t) k) (N.cmul (at0 (flatGain t) k) (at0 r.s1 k)))))) .zero = true := by
    rw [h.eq, h.mul, hnoise, mul_zero, val_zero h]
  unfold snr
  simp only [if_neg hs, if_pos hn]
  exact h.ofRat_eq _

/-- A value 0 within bounds of either sign is not clamped. -/
theorem val_clamp_of_zero (h : N.IsExact v) {x lo hi : Scalar} (hx : v x = 0) (hlo : v lo ≤ 0) (hhi : 0 ≤ v hi) :
    v (clamp N x lo hi) = 0 := by
  have hmax : v (maxN N lo x) = 0 := by
    unfold maxN
    split
    · exact hx
    · rename_i hlt
      rw [h.lt, hx, not_lt] at hlt
      exact le_antisymm hlo hlt
  unfold clamp minN
  split
  · exact hmax
  · rename_i hlt
    rw [h.lt, hmax, not_lt] at hlt
    exact le_antisymm hlt hhi

/-- Pilots received as they were sent leave the phase at 0 (R374). -/
theorem trackTheta_of_pilots (h : N.IsExact v) {pl : List Nat} {Z : List Cplx} (hZ : ∀ k ∈ pl, at0 Z k = Cplx.one) :
    trackTheta b N pl .zero Z = .zero := by
  have hsum : (N.csum (pl.map fun k => N.cmul (at0 Z k) (conj N Cplx.one))).toC v = (pl.length : ℝ) := by
    rw [h.csum, List.map_map, List.map_congr_left (g := fun _ => (1 : ℂ))]
    · simp
    · intro k hk
      rw [Function.comp_apply, h.cmul, hZ k hk, toC_conj h, h.toC_one, map_one, one_mul]
  have harg : v (N.mul (N.ofRat b.trackGain) (N.arg (N.csum (pl.map fun k => N.cmul (at0 Z k) (conj N Cplx.one))))) = 0 := by
    rw [h.mul, h.arg, hsum, Complex.arg_ofReal_of_nonneg (Nat.cast_nonneg _), mul_zero]
  refine eq_zero_of_val h (val_wrap_of_zero h ?_)
  have hcap : (0 : ℝ) ≤ b.trackCap := by exact_mod_cast b.trackCap_range
  rw [h.add, val_zero h, zero_add]
  refine val_clamp_of_zero h harg ?_ ?_
  · rw [h.val_ofRat]; push_cast; exact neg_nonpos.2 hcap
  · rw [h.val_ofRat]; exact hcap

end Record

end Sys2Proof.Machine
end

section
/-! A frame in the synchronizer, phase by phase (R321 to R326): the search, the peak, and one symbol. -/

namespace Sys2Proof.Machine

variable {N : Num} {v : Scalar → ℝ} {ms : List (Nat × Nat)} {X : Ext N ms}

/-! ### What feeding keeps -/

theorem feed_keeps {P : State → Prop} (one : ∀ z s, P s → P (sampleStep N X z s)) {s : State} (hs : P s) (zs : List Cplx) :
    P (feed N X zs s) := by
  induction zs generalizing s with
  | nil => exact hs
  | cons z zs ih => exact ih (one z s hs)

theorem feed_sameInstance (zs : List Cplx) (s : State) : SameInstance (feed N X zs s).rx s.rx :=
  feed_keeps (P := fun t => SameInstance t.rx s.rx) (fun z t ht => sameInstance_trans (sampleStep_sameInstance z t) ht)
    (sameInstance_refl s.rx) zs

theorem feed_build (zs : List Cplx) (s : State) : (feed N X zs s).build = s.build :=
  feed_keeps (P := fun t => t.build = s.build) (fun z t ht => (sampleStep_build z t).trans ht) rfl zs

theorem feed_sized {s : State} (h : BuffersSized s.rx) (zs : List Cplx) : BuffersSized (feed N X zs s).rx :=
  feed_keeps (P := fun t => BuffersSized t.rx) (fun z _ ht => sampleStep_sized z ht) h zs

theorem feed_memInv {s : State} (h : MemInv s) (zs : List Cplx) : MemInv (feed N X zs s) :=
  feed_keeps (P := MemInv) (fun z _ ht => sampleStep_memInv z ht) h zs

/-- No sample takes an event back (R328). -/
theorem sampleStep_evt_of_evt {s : State} (h : s.rx.evt = true) (z : Cplx) : (sampleStep N X z s).rx.evt = true := by
  have key : ∀ {s t : State}, SampleEffect s t → s.rx.evt = true → t.rx.evt = true := by
    rintro s t ⟨r, ⟨-, ⟨hevt, -⟩, -⟩, rfl | ⟨rfl, -⟩ | ⟨ok, b, rfl, -, -⟩⟩ hs
    · exact hevt.trans hs
    · rfl
    · rfl
  rcases sampleStep_effect N X z s with ⟨-, he⟩ | ⟨-, he⟩ <;> exact key he h

theorem feed_evt_of_evt {s : State} (h : s.rx.evt = true) (zs : List Cplx) : (feed N X zs s).rx.evt = true :=
  feed_keeps (P := fun t => t.rx.evt = true) (fun z _ ht => sampleStep_evt_of_evt ht z) h zs

/-! ### The search goes on until it detects -/

theorem headerSymbol_ne_seek (Y : List Cplx) {s : State} (hs : s.rx.state ≠ .seekPreamble) :
    (headerSymbol N X Y s).rx.state ≠ .seekPreamble := by
  obtain ⟨r, rfl, ⟨-, hr⟩ | ⟨-, -, hr⟩ | ⟨-, -, hr⟩⟩ := headerSymbol_cases N X Y s <;> rw [hr]
  · exact hs
  · rw [State.setRx_rx, headerAccepted_state]; decide
  · exact hs

theorem payloadSymbol_ne_seek (Y : List Cplx) {s : State} (hs : s.rx.state ≠ .seekPreamble) :
    (payloadSymbol N X Y s).rx.state ≠ .seekPreamble := by
  obtain ⟨r, rfl, ⟨-, hr⟩ | ⟨-, hr⟩⟩ := payloadSymbol_cases N X Y s <;> rw [hr] <;> exact hs

theorem symbolStep_ne_seek (z : Cplx) {s : State} (hs : s.rx.state ≠ .seekPreamble) :
    (symbolStep N X z s).rx.state ≠ .seekPreamble := by
  rcases symbolStep_cases N X z s with ⟨-, hr⟩ | ⟨r, Y, rfl, -, -, ⟨-, hr⟩ | ⟨-, hr⟩ | ⟨-, hr⟩ | ⟨-, -, -, hr⟩⟩ <;> rw [hr]
  · exact hs
  · rw [State.setRx_rx, longSymbol_state]; decide
  · exact headerSymbol_ne_seek Y hs
  · exact payloadSymbol_ne_seek Y hs
  · exact hs

/-- Once left, SEEK_PREAMBLE comes back only by a RESET (R308). -/
theorem sampleStep_ne_seek (z : Cplx) {s : State} (hr : s.rx.state ≠ .reset) (hs : s.rx.state ≠ .seekPreamble) :
    (sampleStep N X z s).rx.state ≠ .seekPreamble := by
  unfold sampleStep
  split
  · rename_i h; exact absurd h hs
  · rename_i h
    rcases shortStep_state N z s.rx with e | e <;> rw [State.setRx_rx, e]
    · exact hs
    · decide
  · exact symbolStep_ne_seek z hs
  · exact symbolStep_ne_seek z hs
  · exact symbolStep_ne_seek z hs
  · rename_i h; exact absurd h hr

theorem feed_seek_prefix {s : State} (hb : BuffersSized s.rx) {ys zs : List Cplx}
    (h : (feed N X (ys ++ zs) s).rx.state = .seekPreamble) : (feed N X ys s).rx.state = .seekPreamble := by
  rw [feed_append] at h
  by_contra hne
  exact (feed_keeps (P := fun t => BuffersSized t.rx ∧ t.rx.state ≠ .seekPreamble)
    (fun z _ ht => ⟨sampleStep_sized z ht.1, sampleStep_ne_seek z ht.1.1 ht.2⟩) ⟨feed_sized hb ys, hne⟩ zs).2 h

/-! ### The history -/

theorem seekStep_history (b : Build) (z : Cplx) (r : RxUnit) :
    (seekStep b N z r).hist = (push z r).hist ∧ (seekStep b N z r).fill = (push z r).fill := by
  by_cases hfill : r.L ≤ (push z r).fill
  · by_cases hp : N.lt (N.ofRat b.detectThreshold) (rho N (push z r)) = true
    · rw [seekStep_of_above hfill hp]; exact ⟨rfl, rfl⟩
    · rw [seekStep_of_below hfill hp]; exact ⟨rfl, rfl⟩
  · rw [seekStep_of_short b z hfill]; exact ⟨rfl, rfl⟩

theorem shortStep_history (z : Cplx) (r : RxUnit) :
    (shortStep N z r).hist = (push z r).hist ∧ (shortStep N z r).fill = (push z r).fill := by
  obtain ⟨q, p1, p2, p3, p4, rfl, ⟨-, hq⟩ | ⟨-, hq⟩⟩ := shortStep_cases N z r <;> rw [hq] <;> exact ⟨rfl, rfl⟩

/-- One more sample pushes the oldest one out. -/
theorem drop_one_append_singleton {α : Type} {a : List α} (ha : a ≠ []) (zs : List α) (z : α) :
    ((a ++ zs).drop zs.length).drop 1 ++ [z] = (a ++ (zs ++ [z])).drop (zs ++ [z]).length := by
  have hle : zs.length + 1 ≤ (a ++ zs).length := by
    have := List.length_pos_of_ne_nil ha
    rw [List.length_append]; omega
  rw [List.drop_drop, List.length_append, List.length_singleton, ← List.append_assoc,
    List.drop_append_of_le_length (l₂ := [z]) hle]

/-- The samples a state of the search or of the peak has been fed, the newest last (R361). -/
theorem sampleStep_history {s : State} (hs : s.rx.state = .seekPreamble ∨ s.rx.state = .trainingShort) (z : Cplx) :
    (sampleStep N X z s).rx.hist = s.rx.hist.drop 1 ++ [z] ∧
      (sampleStep N X z s).rx.fill = min (s.rx.fill + 1) (2 * s.rx.L) ∧ (sampleStep N X z s).rx.evt = s.rx.evt := by
  rcases hs with hs | hs
  · obtain ⟨hhist, hfill⟩ := seekStep_history (N := N) s.build z s.rx
    rw [sampleStep_seek hs]; exact ⟨hhist, hfill, seekStep_evt s.build N z s.rx⟩
  · obtain ⟨hhist, hfill⟩ := shortStep_history (N := N) z s.rx
    rw [sampleStep_short hs]; exact ⟨hhist, hfill, shortStep_evt N z s.rx⟩

/-- While the frame's start is searched for, the history is the newest 2L of what was there and what was fed. -/
theorem feed_history {s : State} (hb : BuffersSized s.rx) (zs : List Cplx)
    (h : ∀ ys z, ys ++ [z] <+: zs →
      (feed N X ys s).rx.state = .seekPreamble ∨ (feed N X ys s).rx.state = .trainingShort) :
    (feed N X zs s).rx.hist = (s.rx.hist ++ zs).drop zs.length ∧
      (feed N X zs s).rx.fill = min (s.rx.fill + zs.length) (2 * s.rx.L) ∧ (feed N X zs s).rx.evt = s.rx.evt := by
  obtain ⟨-, hhist, -, -, hfill, hsbn⟩ := hb
  induction zs using List.reverseRecOn with
  | nil => simp [hfill]
  | append_singleton zs z ih =>
    obtain ⟨ih1, ih2, ih3⟩ := ih fun ys y hy => h ys y (hy.trans (List.prefix_append zs [z]))
    obtain ⟨hh, hf, he⟩ := sampleStep_history (N := N) (X := X) (h zs z (List.prefix_refl _)) z
    obtain ⟨-, -, -, hL, -⟩ := feed_sameInstance (N := N) (X := X) zs s
    rw [feed_append, feed_cons, feed_nil, hh, hf, he, ih1, ih2, ih3, hL, List.length_append, List.length_singleton]
    refine ⟨?_, by omega, rfl⟩
    rw [drop_one_append_singleton (List.ne_nil_of_length_pos (by omega)), List.length_append, List.length_singleton]

/-! ### The peak -/

/-- A training symbol has energy, for it has a pilot (R184). -/
theorem energy_trainShort_pos (h : N.IsExact v) {t : List Role} (hp : Role.pilot ∈ t) (g : Nat) :
    0 < energy v (ofdm N g (trainShort t)) := by
  obtain ⟨k, hk⟩ := List.exists_mem_of_length_pos (indicesOf_length_pos hp)
  have hact : t.getD k .null ≠ .null := by rw [getD_of_mem_indicesOf hk]; decide
  have hlt : k < (trainShort t).length := by rw [trainShort_length]; exact lt_of_mem_indicesOf hk
  have hne : (trainShort t)[k] ≠ Cplx.zero := by
    rw [← List.getD_eq_getElem _ Cplx.zero hlt, trainShort, placeTraining_active (pn_length _ _).ge hact]
    split <;> decide
  obtain ⟨y, hy, hy0⟩ := exists_idft_ne_zero h (List.getElem_mem hlt) hne
  exact energy_pos h (List.mem_append_right _ hy) hy0

section Peak

variable {t : List Role} {g : Nat}

/-- The search for the peak with ρ = 1 found at its start, `j` samples on (R322). -/
structure PeakAt (j : Nat) (r : RxUnit) : Prop where
  state : r.state = .trainingShort
  pkVal : r.pkVal = .rat 1
  pkOff : r.pkOff = 0
  jj : r.jj = j

/-- The window of exactly the short training symbol is detected (R321, R333). -/
theorem sampleStep_detects (h : N.IsExact v) {s : State} {z : Cplx} (hr : MadeFor N t g s.rx) (hp : Role.pilot ∈ t)
    (hthr : s.build.detectThreshold < 1) (hs : s.rx.state = .seekPreamble) (hfill : s.rx.L ≤ (push z s.rx).fill)
    (hw : (push z s.rx).hist.drop s.rx.L = ofdm N g (trainShort t)) : PeakAt 0 (sampleStep N X z s).rx := by
  have hrho : rho N (push z s.rx) = .rat 1 := by
    show correlation N s.rx.s0t s.rx.e0 ((push z s.rx).hist.drop s.rx.L) = .rat 1
    rw [hw, hr.s0t, hr.e0]
    exact correlation_self h (energy_trainShort_pos h hp g)
  have hlt : N.lt (N.ofRat s.build.detectThreshold) (rho N (push z s.rx)) = true := by
    rw [hrho, h.lt, h.val_ofRat, h.rat]; exact_mod_cast hthr
  rw [sampleStep_seek hs, seekStep_of_above hfill hlt]
  exact ⟨rfl, hrho, rfl, rfl⟩

/-- A value that is not above the peak leaves it (R364). -/
theorem peakSearch_of_not_above {p : Scalar} {r : RxUnit} (hp : N.lt r.pkVal p = false) :
    ∃ c, peakSearch N p r = { r with pkP1 := c, rhoPrev := p } := by
  have hnot : ¬ (r.jj ≤ r.L - 1 ∧ N.lt r.pkVal p = true) := by rw [hp]; exact fun h => Bool.false_ne_true h.2
  unfold peakSearch
  simp only [if_neg hnot]
  split
  · exact ⟨p, rfl⟩
  · exact ⟨r.pkP1, rfl⟩

/-- ρ is at most 1, so that nothing is above a peak of 1 (R363). -/
theorem rho_not_above_one (h : N.IsExact v) {r : RxUnit} (hr : MadeFor N t g r) (hg : g ≤ t.length)
    (hhist : r.hist.length = 2 * r.L) : N.lt (.rat 1) (rho N r) = false := by
  have hlen : (ofdm N g (trainShort t)).length = (r.hist.drop r.L).length := by
    rw [ofdm_length N (by rw [trainShort_length]; exact hg), trainShort_length, List.length_drop, hhist, hr.L]; omega
  rw [lt_eq_false_iff h, rho, hr.s0t, hr.e0, h.rat, Rat.cast_one]
  exact val_correlation_le_one h hlen

/-- The record one sample on, with nothing above the peak (R322). -/
def afterPeak (z : Cplx) (c p : Scalar) (r : RxUnit) : RxUnit :=
  { push z { r with jj := r.jj + 1 } with pkP1 := c, rhoPrev := p }

/-- The end of the search on the last sample of the symbol after the peak's, and no change before it (R322). -/
def searchEnd (N : Num) (r : RxUnit) : RxUnit :=
  if r.jj = r.pkOff + (nShort - 1) * r.L then
    { r with
      tauFrac := interp N r.pkM1 r.pkVal r.pkP1
      nuHat := cfoEstimate N r
      phi := .zero
      sbn := 0
      state := .trainingLong }
  else r

theorem searchEnd_of_ne {N : Num} {r : RxUnit} (h : r.jj ≠ r.pkOff + (nShort - 1) * r.L) : searchEnd N r = r := if_neg h

/-- What the end of the search leaves. -/
theorem searchEnd_of_eq {N : Num} {r : RxUnit} (h : r.jj = r.pkOff + (nShort - 1) * r.L) :
    (searchEnd N r).state = .trainingLong ∧ (searchEnd N r).pkOff = r.pkOff ∧ (searchEnd N r).phi = .zero ∧
      (searchEnd N r).nuHat = cfoEstimate N r ∧ (searchEnd N r).sbn = 0 := by
  rw [searchEnd, if_pos h]
  exact ⟨rfl, rfl, rfl, rfl, rfl⟩

theorem shortStep_of_not_above {z : Cplx} {r : RxUnit}
    (hp : N.lt r.pkVal (rho N (push z { r with jj := r.jj + 1 })) = false) :
    ∃ c p, shortStep N z r = searchEnd N (afterPeak z c p r) := by
  obtain ⟨c, hc⟩ := peakSearch_of_not_above (r := push z { r with jj := r.jj + 1 }) hp
  exact ⟨c, _, congrArg (searchEnd N) hc⟩

/-- Where the symbols of a frame begin: with no phase and an empty symbol buffer (R322). -/
structure SymbolStart (r : RxUnit) : Prop where
  phi : r.phi = .zero
  nuHat : r.nuHat = .rat 0
  sbn : r.sbn = 0

variable {s : State} {j : Nat}

theorem PeakAt.rho_not_above (h : N.IsExact v) (hr : MadeFor N t g s.rx) (hg : g ≤ t.length) (hb : BuffersSized s.rx)
    (hs : PeakAt j s.rx) (z : Cplx) : N.lt s.rx.pkVal (rho N (push z { s.rx with jj := s.rx.jj + 1 })) = false := by
  obtain ⟨-, hhist, -, -, -, hsbn⟩ := hb
  rw [hs.pkVal]
  refine rho_not_above_one h (t := t) (g := g) ⟨hr.M, hr.G, hr.L, hr.alloc, hr.D, hr.PL, hr.ND, hr.NH, hr.s0t, hr.e0, hr.s1⟩
    hg ?_
  exact (push_hist_length z { s.rx with jj := s.rx.jj + 1 } (by show 0 < s.rx.hist.length; omega)).trans hhist

theorem sampleStep_peak (h : N.IsExact v) (hr : MadeFor N t g s.rx) (hg : g ≤ t.length) (hb : BuffersSized s.rx)
    (hs : PeakAt j s.rx) (hj : j + 1 < s.rx.L) (z : Cplx) : PeakAt (j + 1) (sampleStep N X z s).rx := by
  obtain ⟨c, p, hstep⟩ := shortStep_of_not_above (hs.rho_not_above h hr hg hb z)
  have hgo : s.rx.jj + 1 ≠ s.rx.pkOff + (nShort - 1) * s.rx.L := by rw [hs.jj, hs.pkOff, nShort]; omega
  rw [sampleStep_short hs.state, State.setRx_rx, hstep, searchEnd_of_ne hgo]
  exact ⟨hs.state, hs.pkVal, hs.pkOff, congrArg (· + 1) hs.jj⟩

/-- The last sample of the second short symbol ends the search: the peak is where it was, and two equal symbols show no
frequency offset (R322, R333). -/
theorem sampleStep_peak_last (h : N.IsExact v) (hr : MadeFor N t g s.rx) (hg : g ≤ t.length) (hb : BuffersSized s.rx)
    (hs : PeakAt j s.rx) (hj : j + 1 = s.rx.L) {z : Cplx} {w : List Cplx} (hw : w.length = s.rx.L)
    (hhist : s.rx.hist.drop 1 ++ [z] = w ++ w) :
    (sampleStep N X z s).rx.state = .trainingLong ∧ (sampleStep N X z s).rx.pkOff = 0 ∧
      SymbolStart (sampleStep N X z s).rx := by
  obtain ⟨c, p, hstep⟩ := shortStep_of_not_above (hs.rho_not_above h hr hg hb z)
  have hcfo : cfoEstimate N (afterPeak z c p s.rx) = .rat 0 :=
    cfoEstimate_of_repeated h (r := afterPeak z c p s.rx) hhist hw (by show s.rx.L ≠ 0; omega)
  have hend : s.rx.jj + 1 = s.rx.pkOff + (nShort - 1) * s.rx.L := by rw [hs.jj, hs.pkOff, nShort]; omega
  obtain ⟨hstate, hoff, hphi, hnu, hsbn⟩ := searchEnd_of_eq (N := N) (r := afterPeak z c p s.rx) hend
  rw [sampleStep_short hs.state, State.setRx_rx, hstep]
  exact ⟨hstate, hoff.trans hs.pkOff, hphi, hnu.trans hcfo, hsbn⟩

end Peak

/-! ### One symbol -/

/-- The states that collect a symbol (R323). -/
def Collects (r : RxUnit) : Prop := r.state = .trainingLong ∨ r.state = .header ∨ r.state = .payload

/-- The record with the first samples of the symbol buffer filled (R323). -/
def withSamples (ys : List Cplx) (r : RxUnit) : RxUnit := { r with sb := ys ++ r.sb.drop ys.length, sbn := ys.length }

/-- The record with a full symbol taken out (R323). -/
def withSymbol (ys : List Cplx) (r : RxUnit) : RxUnit := { r with sb := ys, sbn := 0 }

section Symbol

variable {s : State} (hc : Collects s.rx) (h0 : SymbolStart s.rx)

include h0 in
theorem collect_withSamples (h : N.IsExact v) (ys : List Cplx) (z : Cplx) (hl : ys.length < s.rx.sb.length) :
    collect N z (withSamples ys s.rx) = withSamples (ys ++ [z]) s.rx := by
  have hset : (ys ++ s.rx.sb.drop ys.length).set ys.length z = ys ++ [z] ++ s.rx.sb.drop (ys ++ [z]).length := by
    rw [List.drop_eq_getElem_cons hl, List.length_append, List.length_singleton, List.append_assoc, List.singleton_append,
      List.set_append_right _ _ le_rfl, Nat.sub_self, List.set_cons_zero]
  have hphi : ncoPhase N s.rx.phi s.rx.nuHat = s.rx.phi := by rw [h0.phi, h0.nuHat, ncoPhase_zero h]
  have hz : ncoSample N s.rx.phi z = z := by rw [h0.phi, ncoSample_zero h]
  unfold collect withSamples
  simp only [hset, hphi, hz, List.length_append, List.length_singleton]

include hc h0 in
/-- Fewer than L samples only fill the symbol buffer. -/
theorem feed_filling (h : N.IsExact v) (hb : BuffersSized s.rx) {ys : List Cplx} (hl : ys.length < s.rx.L) :
    feed N X ys s = s.setRx (withSamples ys s.rx) := by
  induction ys using List.reverseRecOn with
  | nil =>
    have : withSamples [] s.rx = s.rx := by
      unfold withSamples
      simp only [List.nil_append, List.length_nil, List.drop_zero]
      rw [← h0.sbn]
    rw [this]; rfl
  | append_singleton ys z ih =>
    rw [List.length_append, List.length_singleton] at hl
    obtain ⟨-, -, hsb, -⟩ := hb
    rw [feed_append, ih (by omega), feed_cons, feed_nil, sampleStep_symbol (s := s.setRx (withSamples ys s.rx)) hc,
      symbolStep_filling (s := s.setRx (withSamples ys s.rx)) (by show ys.length + 1 ≠ s.rx.L; omega)]
    exact congrArg s.setRx (collect_withSamples h0 h ys z (by omega))

include hc h0 in
/-- L samples are one symbol. -/
theorem feed_symbol (h : N.IsExact v) (hb : BuffersSized s.rx) {ys : List Cplx} (hl : ys.length = s.rx.L) :
    feed N X ys s = completeSymbol N X (dft N (strip s.rx.G s.rx.M ys)) (s.setRx (withSymbol ys s.rx)) := by
  have hsbn := hb.2.2.2.2.2
  have hsb := hb.2.2.1
  obtain ⟨zs, z, rfl⟩ : ∃ zs z, ys = zs ++ [z] := by
    refine (List.eq_nil_or_concat ys).resolve_left ?_ |>.imp fun zs h => h.imp fun z h => by simpa using h
    rintro rfl
    rw [List.length_nil] at hl; omega
  rw [List.length_append, List.length_singleton] at hl
  have hcollect : collectLast N z (withSamples zs s.rx) = withSymbol (zs ++ [z]) s.rx := by
    rw [collectLast, collect_withSamples h0 h zs z (by omega)]
    unfold withSamples withSymbol
    simp only [List.drop_of_length_le (by rw [List.length_append, List.length_singleton]; omega :
      s.rx.sb.length ≤ (zs ++ [z]).length), List.append_nil]
  rw [feed_append, feed_filling hc h0 h hb (by omega), feed_cons, feed_nil,
    sampleStep_symbol (s := s.setRx (withSamples zs s.rx)) hc,
    symbolStep_full (s := s.setRx (withSamples zs s.rx)) (show zs.length + 1 = s.rx.L from hl)]
  simp only [State.setRx_rx, hcollect]
  rfl

end Symbol

end Sys2Proof.Machine
end

section
/-! A frame of a linked generator, symbol by symbol, and its preamble in the synchronizer (R333): O41. -/

namespace Sys2Proof.Machine

variable {N : Num} {v : Scalar → ℝ} {ms : List (Nat × Nat)} {X : Ext N ms}

/-! ### The symbols of a frame -/

/-- The first symbols of a list made of symbols of one length, and some samples of the next. -/
theorem take_flatMap_range {α : Type} {f : Nat → List α} {l : Nat} (hf : ∀ c, (f c).length = l) {n c j : Nat} (hc : c < n)
    (hj : j ≤ l) : ((List.range n).flatMap f).take (c * l + j) = (List.range c).flatMap f ++ (f c).take j := by
  have hlen : ((List.range c).flatMap f).length = c * l := by simp [List.length_flatMap, hf]
  obtain ⟨m, rfl⟩ := Nat.exists_eq_add_of_lt hc
  rw [show c + m + 1 = c + (1 + m) by omega, List.range_add, List.flatMap_append, ← hlen, List.take_length_add_append,
    List.range_add, List.map_append, List.flatMap_append, List.take_append_of_le_length]
  · simp
  · simpa [hf] using hj

/-- Symbol `c` of a frame (R236). -/
def frameSymbol (N : Num) (X : Ext N ms) (u : TxUnit) (c : Nat) : List Cplx := ofdm N u.G (symbolVector X u c)

/-- What a receiver was fed, after `k` zeros and `c` whole symbols. -/
def afterSymbols (N : Num) (X : Ext N ms) (u : TxUnit) (k : Nat) (s : State) (c : Nat) : State :=
  feed N X ((List.range c).flatMap (frameSymbol N X u)) (feed N X (List.replicate k Cplx.zero) s)

theorem afterSymbols_succ (u : TxUnit) (k : Nat) (s : State) (c : Nat) :
    afterSymbols N X u k s (c + 1) = feed N X (frameSymbol N X u c) (afterSymbols N X u k s c) := by
  rw [afterSymbols, List.range_succ, List.flatMap_append, List.flatMap_singleton, feed_append]; rfl

theorem feed_frameSamples (u : TxUnit) (k : Nat) (s : State) :
    feed N X (List.replicate k Cplx.zero ++ frameSamples N X u) s = afterSymbols N X u k s (frameSymbols u) :=
  feed_append N X _ _ s

section Frame

variable {u : TxUnit} (hg : u.G ≤ u.alloc.length) (hL : u.L = u.alloc.length + u.G)

include hg hL

theorem frameSymbol_length (c : Nat) : (frameSymbol N X u c).length = u.L := by
  rw [frameSymbol, ofdm_length N (by rw [symbolVector_length]; exact hg), symbolVector_length, hL]

/-- The first `k + c·L + j` samples are `k` zeros, `c` symbols and `j` samples of the next. -/
theorem feed_take (k : Nat) (s : State) {c j : Nat} (hc : c < frameSymbols u) (hj : j ≤ u.L) :
    feed N X ((List.replicate k Cplx.zero ++ frameSamples N X u).take (k + (c * u.L + j))) s =
      feed N X ((frameSymbol N X u c).take j) (afterSymbols N X u k s c) := by
  have htake : (frameSamples N X u).take (c * u.L + j) =
      (List.range c).flatMap (frameSymbol N X u) ++ (frameSymbol N X u c).take j :=
    take_flatMap_range (frameSymbol_length hg hL) hc hj
  have hz := List.take_length_add_append (l₁ := List.replicate k Cplx.zero) (l₂ := frameSamples N X u) (c * u.L + j)
  rw [List.length_replicate] at hz
  rw [hz, htake, feed_append, feed_append]; rfl

theorem frameSamples_length : (frameSamples N X u).length = frameSymbols u * u.L := by
  have hlen : ∀ c, (ofdm N u.G (symbolVector X u c)).length = u.L := frameSymbol_length hg hL
  simp [frameSamples, List.length_flatMap, hlen]

end Frame

/-! ### The two short symbols -/

section Preamble

variable {t : List Role} {g : Nat} {s : State}

theorem MadeFor.feed (hr : MadeFor N t g s.rx) (zs : List Cplx) : MadeFor N t g (feed N X zs s).rx :=
  hr.of_sameInstance (feed_sameInstance zs s)

theorem ofdm_trainShort_length (hr : MadeFor N t g s.rx) (hg : g ≤ t.length) :
    (ofdm N g (trainShort t)).length = s.rx.L := by
  rw [ofdm_length N (by rw [trainShort_length]; exact hg), trainShort_length, hr.L]

/-- Detection falls on the last sample of the first short symbol (R321). -/
theorem feed_detects (h : N.IsExact v) (hr : MadeFor N t g s.rx) (hg : g ≤ t.length) (hp : Role.pilot ∈ t)
    (hthr : s.build.detectThreshold < 1) (hb : BuffersSized s.rx) {zs a : List Cplx} {z : Cplx}
    (hzs : zs ++ [z] = a ++ ofdm N g (trainShort t)) (hseek : (feed N X zs s).rx.state = .seekPreamble) :
    PeakAt 0 (feed N X (zs ++ [z]) s).rx ∧
      (feed N X (zs ++ [z]) s).rx.hist.drop s.rx.L = ofdm N g (trainShort t) ∧
      (feed N X (zs ++ [z]) s).rx.evt = s.rx.evt := by
  obtain ⟨hhist, hfill, hevt⟩ := feed_history (N := N) (X := X) hb zs fun ys y hy => by
    obtain ⟨ws, rfl⟩ := hy
    rw [List.append_assoc] at hseek
    exact .inl (feed_seek_prefix hb hseek)
  obtain ⟨-, hhl, -, -, -, hsbn⟩ := id hb
  have hwl := ofdm_trainShort_length hr hg
  have hlen := congrArg List.length hzs
  rw [List.length_append, List.length_append, List.length_singleton, hwl] at hlen
  have hL : (feed N X zs s).rx.L = s.rx.L := (hr.feed zs).L.trans hr.L.symm
  have hw : (push z (feed N X zs s).rx).hist.drop s.rx.L = ofdm N g (trainShort t) := by
    show ((feed N X zs s).rx.hist.drop 1 ++ [z]).drop s.rx.L = _
    rw [hhist, drop_one_append_singleton (List.ne_nil_of_length_pos (by omega)), hzs, List.length_append, hwl,
      List.drop_drop, ← List.append_assoc]
    exact List.drop_left' (by rw [List.length_append, hhl]; omega)
  obtain ⟨hhist', -, hevt'⟩ := sampleStep_history (N := N) (X := X) (.inl hseek) z
  rw [feed_append, feed_cons, feed_nil]
  refine ⟨sampleStep_detects h (hr.feed zs) hp ?_ hseek ?_ (by rw [hL]; exact hw), ?_, hevt'.trans hevt⟩
  · rw [feed_build]; exact hthr
  · show (feed N X zs s).rx.L ≤ min ((feed N X zs s).rx.fill + 1) (2 * (feed N X zs s).rx.L)
    rw [hL, hfill]; omega
  · rw [hhist']; exact hw

/-- The samples of the next symbol move the search on and find nothing above the peak (R322). -/
theorem feed_peak (h : N.IsExact v) (hr : MadeFor N t g s.rx) (hg : g ≤ t.length) (hb : BuffersSized s.rx)
    (hs : PeakAt 0 s.rx) {ys : List Cplx} (hl : ys.length < s.rx.L) : PeakAt ys.length (feed N X ys s).rx := by
  induction ys using List.reverseRecOn with
  | nil => exact hs
  | append_singleton ys z ih =>
    rw [List.length_append, List.length_singleton] at hl ⊢
    have hL : (feed N X ys s).rx.L = s.rx.L := (hr.feed ys).L.trans hr.L.symm
    rw [feed_append]
    exact sampleStep_peak h (hr.feed ys) hg (feed_sized hb ys) (ih (by omega)) (by omega) z

/-- The second short symbol ends the search where the first one ended (R322, R333). -/
theorem feed_second_short (h : N.IsExact v) (hr : MadeFor N t g s.rx) (hg : g ≤ t.length) (hb : BuffersSized s.rx)
    (hs : PeakAt 0 s.rx) (hw : s.rx.hist.drop s.rx.L = ofdm N g (trainShort t)) :
    (feed N X (ofdm N g (trainShort t)) s).rx.state = .trainingLong ∧
      (feed N X (ofdm N g (trainShort t)) s).rx.pkOff = 0 ∧ SymbolStart (feed N X (ofdm N g (trainShort t)) s).rx ∧
      (feed N X (ofdm N g (trainShort t)) s).rx.evt = s.rx.evt := by
  have hwl := ofdm_trainShort_length hr hg
  obtain ⟨-, hhl, -, -, -, hsbn⟩ := id hb
  obtain ⟨ys, z, hyz⟩ : ∃ ys z, ofdm N g (trainShort t) = ys ++ [z] := by
    refine (List.eq_nil_or_concat _).resolve_left ?_ |>.imp fun zs h => h.imp fun z h => by simpa using h
    intro hnil
    rw [hnil, List.length_nil] at hwl; omega
  have hlen := congrArg List.length hyz
  rw [List.length_append, List.length_singleton, hwl] at hlen
  obtain ⟨hhist, -, hevt⟩ := feed_history (N := N) (X := X) hb ys fun xs y hy => .inr
    (feed_peak h hr hg hb hs (by have := hy.length_le; rw [List.length_append, List.length_singleton] at this; omega)).state
  have hpeak := feed_peak (X := X) h hr hg hb hs (ys := ys) (by omega)
  have hL : (feed N X ys s).rx.L = s.rx.L := (hr.feed ys).L.trans hr.L.symm
  have hww : (feed N X ys s).rx.hist.drop 1 ++ [z] = ofdm N g (trainShort t) ++ ofdm N g (trainShort t) := by
    rw [hhist, drop_one_append_singleton (List.ne_nil_of_length_pos (by omega)), ← hyz, hwl,
      List.drop_append_of_le_length (by omega), hw]
  have hlast := sampleStep_peak_last (X := X) h (hr.feed ys) hg (feed_sized hb ys) hpeak (by omega) (by rw [hL, hwl]) hww
  obtain ⟨-, -, hevt'⟩ := sampleStep_history (N := N) (X := X) (.inr hpeak.state) z
  rw [hyz, feed_append]
  exact ⟨hlast.1, hlast.2.1, hlast.2.2, hevt'.trans hevt⟩

/-! ### One symbol received as it was sent -/

theorem feed_ofdm (h : N.IsExact v) (hr : MadeFor N t g s.rx) (hg : g ≤ t.length) (hb : BuffersSized s.rx)
    (hc : Collects s.rx) (h0 : SymbolStart s.rx) {V : List Cplx} (hV : V.length = t.length) :
    feed N X (ofdm N g V) s = completeSymbol N X V (s.setRx (withSymbol (ofdm N g V) s.rx)) := by
  have hlen : (ofdm N g V).length = s.rx.L := by rw [ofdm_length N (by rw [hV]; exact hg), hV, hr.L]
  have hdft : dft N (strip s.rx.G s.rx.M (ofdm N g V)) = V := by
    rw [hr.G, hr.M, ← hV, strip_ofdm N (by rw [hV]; exact hg), dft_idft h]
  rw [feed_symbol hc h0 h hb hlen, hdft]

/-- The record with what the long symbol of an unchanged frame leaves: no phase, no timing, a flat channel. -/
structure Locked (t : List Role) (c : Scalar) (r : RxUnit) : Prop where
  start : SymbolStart r
  gain : r.H = flatGain t
  tauHat : r.tauHat = .zero
  theta : r.theta = .zero
  snrDb : r.snrDb = c
  evt : r.evt = false

/-- The long symbol (R324, R333). -/
theorem feed_long (h : N.IsExact v) (hr : MadeFor N t g s.rx) (hg : g ≤ t.length) (hp : Role.pilot ∈ t)
    (hd : Role.data ∈ t) (hb : BuffersSized s.rx) (hs : s.rx.state = .trainingLong) (h0 : SymbolStart s.rx)
    (he : s.rx.evt = false) :
    Locked t (.rat s.build.statClampDb) (feed N X (ofdm N g (trainLong t)) s).rx ∧
      (feed N X (ofdm N g (trainLong t)) s).rx.state = .header ∧ (feed N X (ofdm N g (trainLong t)) s).rx.sym = 0 ∧
      (feed N X (ofdm N g (trainLong t)) s).rx.cbits = [] := by
  have hmade : MadeFor N t g (withSymbol (ofdm N g (trainLong t)) s.rx) := hr.of_sameInstance (sameInstance_refl s.rx)
  have hgain := channelEstimate_trainLong h hmade hp
  have hsnr := snr_trainLong (b := s.build) h hmade hd
  rw [feed_ofdm h hr hg hb (.inl hs) h0 (trainLong_length t), completeSymbol_long (r := withSymbol _ s.rx) hs]
  exact ⟨⟨⟨h0.phi, h0.nuHat, rfl⟩, hgain, rfl, rfl, (congrArg (snr s.build N _ _) hgain).trans hsnr, he⟩, rfl, rfl, rfl⟩

end Preamble

end Sys2Proof.Machine

namespace Sys2Proof

open Machine

/-! ### A linked generator and synchronizer -/

/-- What the generator of a linked pair holds (R230, R233). -/
structure SentFrame {N : Sys2Proof.Num} {ms : List (Nat × Nat)} (X : Ext N ms) (t : List Role) (p : Props) (uh pb : List Byte)
    (u : TxUnit) : Prop where
  alloc : u.alloc = t
  L : u.L = t.length + u.G
  D : u.D = indicesOf .data t
  ND : u.ND = (indicesOf .data t).length
  NH : u.NH = headerSymbols (indicesOf .data t).length
  NP : u.NP = payloadSymbols (indicesOf .data t).length p.md (payloadBits p.crc p.fi p.fo pb.length)
  hc : u.hc = headerCode X uh pb.length p
  pu : u.pu = payloadCode X p pb
  mm : u.mm = p.mm
  md : u.md = p.md

section Linked

variable {N : Sys2Proof.Num} {v : Scalar → ℝ} {b : Build} {X : Ext N b.modset} {t : List Role} {p : Props}
  {uh pb : List Byte} {u : TxUnit} {s : State} {k : Nat}

theorem Linked.sent (hl : Linked b X t p uh pb u s) : SentFrame X t p uh pb u := by
  obtain ⟨u0, p0, hu⟩ := hl.tx
  exact ⟨congrArg TxUnit.alloc hu, (congrArg TxUnit.L hu).trans rfl, congrArg TxUnit.D hu, congrArg TxUnit.ND hu,
    congrArg TxUnit.NH hu, congrArg TxUnit.NP hu, congrArg TxUnit.hc hu, congrArg TxUnit.pu hu, congrArg TxUnit.mm hu,
    congrArg TxUnit.md hu⟩

theorem Linked.made (hl : Linked b X t p uh pb u s) : MadeFor N t u.G s.rx := by
  obtain ⟨ctx, r0, hs⟩ := hl.rx
  rw [hs]
  exact ⟨rfl, rfl, rfl, rfl, rfl, rfl, rfl, rfl, rfl, rfl, rfl⟩

theorem Linked.guard_le (hl : Linked b X t p uh pb u s) : u.G ≤ t.length := (legalMG_iff.1 hl.dims).2

theorem Linked.L_pos (hl : Linked b X t p uh pb u s) : 0 < u.L := by
  obtain ⟨⟨-, hm, -⟩, -⟩ := legalMG_iff.1 hl.dims
  rw [hl.sent.L]; omega

theorem Linked.sized (hl : Linked b X t p uh pb u s) : BuffersSized s.rx := by
  have hpos := hl.L_pos
  rw [hl.sent.L] at hpos
  obtain ⟨ctx, r0, hs⟩ := hl.rx
  rw [hs]
  exact resetRecord_sized hpos

theorem Linked.evt (hl : Linked b X t p uh pb u s) : s.rx.evt = false := by
  obtain ⟨ctx, r0, hs⟩ := hl.rx
  rw [hs]; rfl

theorem Linked.afterSymbols_made (hl : Linked b X t p uh pb u s) (k c : Nat) :
    MadeFor N t u.G (afterSymbols N X u k s c).rx := (hl.made.feed _).feed _

theorem Linked.afterSymbols_sized (hl : Linked b X t p uh pb u s) (k c : Nat) :
    BuffersSized (afterSymbols N X u k s c).rx := feed_sized (feed_sized hl.sized _) _

theorem afterSymbols_build {ms : List (Nat × Nat)} {X : Ext N ms} (u : TxUnit) (k : Nat) (s : State) (c : Nat) :
    (afterSymbols N X u k s c).build = s.build :=
  (feed_build _ _).trans (feed_build _ s)

theorem Linked.feed_take (hl : Linked b X t p uh pb u s) (k : Nat) {c j : Nat} (hc : c < frameSymbols u) (hj : j ≤ u.L) :
    feed N X ((List.replicate k Cplx.zero ++ frameSamples N X u).take (k + (c * u.L + j))) s =
      feed N X ((frameSymbol N X u c).take j) (afterSymbols N X u k s c) :=
  Machine.feed_take (by rw [hl.sent.alloc]; exact hl.guard_le) (by rw [hl.sent.alloc]; exact hl.sent.L) k s hc hj

theorem Linked.frameSymbol_length (hl : Linked b X t p uh pb u s) (c : Nat) : (frameSymbol N X u c).length = u.L :=
  Machine.frameSymbol_length (by rw [hl.sent.alloc]; exact hl.guard_le) (by rw [hl.sent.alloc]; exact hl.sent.L) c

theorem Linked.feed_take_symbols (hl : Linked b X t p uh pb u s) (k : Nat) {c : Nat} (hc : c < frameSymbols u) :
    feed N X ((List.replicate k Cplx.zero ++ frameSamples N X u).take (k + (c + 1) * u.L)) s =
      afterSymbols N X u k s (c + 1) := by
  rw [Nat.succ_mul, hl.feed_take k hc le_rfl, List.take_of_length_le (hl.frameSymbol_length c).le]
  exact (afterSymbols_succ u k s c).symm

theorem Linked.symbol_short (hl : Linked b X t p uh pb u s) {c : Nat} (hc : c = 0 ∨ c = 1) :
    frameSymbol N X u c = ofdm N u.G (trainShort t) := by
  rw [frameSymbol, symbolVector_short X u hc, hl.sent.alloc]

/-- No window before the end of the first short symbol is detected. -/
def NotDetectedEarly (N : Sys2Proof.Num) {ms : List (Nat × Nat)} (X : Ext N ms) (u : TxUnit) (k : Nat) (s : State) : Prop :=
  (feed N X ((List.replicate k Cplx.zero ++ frameSamples N X u).take (k + u.L - 1)) s).rx.state = .seekPreamble

theorem three_le_frameSymbols (u : TxUnit) : 3 ≤ frameSymbols u := by
  rw [frameSymbols, nPre]; omega

theorem Linked.after_first (hl : Linked b X t p uh pb u s) (h : N.IsExact v) (hseek : NotDetectedEarly N X u k s) :
    PeakAt 0 (afterSymbols N X u k s 1).rx ∧
      (afterSymbols N X u k s 1).rx.hist.drop (afterSymbols N X u k s 1).rx.L = ofdm N u.G (trainShort t) ∧
      (afterSymbols N X u k s 1).rx.evt = false := by
  have hpos := hl.L_pos
  have h3 := three_le_frameSymbols u
  have hw := hl.symbol_short (c := 0) (.inl rfl)
  have hwl := hl.frameSymbol_length 0
  rw [hw] at hwl
  have hlast : (ofdm N u.G (trainShort t)).take (u.L - 1) ++ [(ofdm N u.G (trainShort t))[u.L - 1]] =
      ofdm N u.G (trainShort t) := by
    rw [List.take_append_getElem, List.take_of_length_le (by omega)]
  have hfed := hl.feed_take k (c := 0) (j := u.L - 1) (by omega) (Nat.sub_le _ _)
  rw [show k + (0 * u.L + (u.L - 1)) = k + u.L - 1 by omega, hw] at hfed
  rw [NotDetectedEarly, hfed] at hseek
  have hdet := feed_detects (X := X) h hl.made hl.guard_le hl.pilot (by rw [hl.build]; exact hl.threshold) hl.sized
    (zs := List.replicate k Cplx.zero ++ (ofdm N u.G (trainShort t)).take (u.L - 1)) (a := List.replicate k Cplx.zero)
    (z := (ofdm N u.G (trainShort t))[u.L - 1]) (by rw [List.append_assoc, hlast]) (by rw [feed_append]; exact hseek)
  rw [List.append_assoc, hlast, feed_append] at hdet
  have hA : feed N X (ofdm N u.G (trainShort t)) (feed N X (List.replicate k Cplx.zero) s) = afterSymbols N X u k s 1 := by
    rw [afterSymbols_succ, hw]; rfl
  rw [hA] at hdet
  obtain ⟨hpeak, hwin, hevt⟩ := hdet
  exact ⟨hpeak, by rw [(hl.afterSymbols_made k 1).L, ← hl.made.L]; exact hwin, hevt.trans hl.evt⟩

theorem Linked.after_second (hl : Linked b X t p uh pb u s) (h : N.IsExact v) (hseek : NotDetectedEarly N X u k s) :
    (afterSymbols N X u k s 2).rx.state = .trainingLong ∧ (afterSymbols N X u k s 2).rx.pkOff = 0 ∧
      SymbolStart (afterSymbols N X u k s 2).rx ∧ (afterSymbols N X u k s 2).rx.evt = false := by
  obtain ⟨hpeak, hwin, hevt⟩ := hl.after_first h hseek
  obtain ⟨hstate, hoff, hstart, hevt'⟩ := feed_second_short (X := X) h (hl.afterSymbols_made k 1) hl.guard_le
    (hl.afterSymbols_sized k 1) hpeak hwin
  rw [afterSymbols_succ, hl.symbol_short (.inr rfl)]
  exact ⟨hstate, hoff, hstart, hevt'.trans hevt⟩

theorem Linked.after_long (hl : Linked b X t p uh pb u s) (h : N.IsExact v) (hseek : NotDetectedEarly N X u k s) :
    Locked t (.rat b.statClampDb) (afterSymbols N X u k s 3).rx ∧ (afterSymbols N X u k s 3).rx.state = .header ∧
      (afterSymbols N X u k s 3).rx.sym = 0 ∧ (afterSymbols N X u k s 3).rx.cbits = [] := by
  obtain ⟨hstate, -, hstart, hevt⟩ := hl.after_second h hseek
  have hlong := feed_long (X := X) h (hl.afterSymbols_made k 2) hl.guard_le hl.pilot hl.data (hl.afterSymbols_sized k 2)
    hstate hstart hevt
  rwa [← hl.sent.alloc, ← symbolVector_long X, ← frameSymbol, ← afterSymbols_succ, hl.sent.alloc, afterSymbols_build,
    hl.build] at hlong

end Linked

/-- Settles O41: the window of the first short symbol is the symbol itself, nothing in the second is above it, and the long
symbol comes back from the transform as it was sent. -/
theorem noiselessAlignment : Obligations.NoiselessAlignment := by
  intro N v b X t p uh pb u s k h hl z hseek
  have hpos := hl.L_pos
  have h3 := three_le_frameSymbols u
  have fed := fun c (hc : c < 3) => hl.feed_take_symbols k (c := c) (by omega)
  have fed1 := fed 0 (by omega)
  have fed2 := fed 1 (by omega)
  have fed3 := fed 2 (by omega)
  rw [show k + (0 + 1) * u.L = k + u.L by omega] at fed1
  have fedPeak := hl.feed_take k (c := 1) (j := u.L - 1) (by omega) (Nat.sub_le _ _)
  rw [show k + (1 * u.L + (u.L - 1)) = k + 2 * u.L - 1 by omega] at fedPeak
  obtain ⟨hpeak, -, -⟩ := hl.after_first h hseek
  obtain ⟨hstate, hoff, hstart, -⟩ := hl.after_second h hseek
  obtain ⟨hlocked, hheader, -, -⟩ := hl.after_long h hseek
  have hlen : ((frameSymbol N X u 1).take (u.L - 1)).length < (afterSymbols N X u k s 1).rx.L := by
    rw [List.length_take, (hl.afterSymbols_made k 1).L, ← hl.sent.L]; omega
  have hlate := feed_peak (X := X) h (hl.afterSymbols_made k 1) hl.guard_le (hl.afterSymbols_sized k 1) hpeak hlen
  refine ⟨?_, ?_, ?_, ?_, ?_, ?_, ?_, fun j hj => ?_⟩
  · rw [fed1]; exact hpeak.state
  · rw [fed1]; exact hpeak.pkVal
  · rw [fedPeak]; exact hlate.state
  · rw [fed2]; exact hstate
  · rw [fed2]; exact hoff
  · rw [fed2]; exact hstart.nuHat
  · rw [fed3]; exact hheader
  · rw [fed3, hlocked.gain]; exact at0_flatGain hj

end Sys2Proof
end

section
/-! The bits of a frame that nothing has changed, symbol by symbol (R325, R326, R333). -/

namespace Sys2Proof.Machine

/-! ### Bits collected symbol by symbol -/

/-- A window of a list, padded beyond its end. -/
theorem map_range_getD {α : Type} (l : List α) (z : α) (a n : Nat) :
    (List.range n).map (fun i => l.getD (a + i) z) = ((l ++ List.replicate (a + n) z).drop a).take n := by
  refine List.ext_getElem (by simp; omega) fun i h _ => ?_
  have hi : i < n := by simpa using h
  simp only [List.getElem_map, List.getElem_range, List.getElem_take, List.getElem_drop, List.getElem_append,
    List.getElem_replicate]
  split
  · rename_i hl; exact List.getD_eq_getElem _ _ hl
  · rename_i hl; exact List.getD_eq_default _ _ (Nat.not_lt.1 hl)

/-- Windows of a coded string, padded as the generator pads it and cut at its length, put together again. -/
theorem take_append_window (c e : Bits) (a n : Nat) :
    c.take a ++ (((c ++ e).drop a).take n).take (c.length - (c.take a).length) = c.take (a + n) := by
  rcases Nat.le_total a c.length with ha | ha
  · rw [List.take_add, List.length_take_of_le ha, List.drop_append_of_le_length ha, List.take_take, Nat.min_comm,
      ← List.take_take, ← List.length_drop, List.take_left]
  · rw [List.take_of_length_le ha, Nat.sub_self, List.take_zero, List.append_nil, List.take_of_length_le (by omega)]

theorem ungroup_append (d : Nat) (l m : List Nat) : ungroup d (l ++ m) = ungroup d l ++ ungroup d m := List.flatMap_append

theorem ungroup_window {d a n : Nat} {l : List Nat} (h : a + n ≤ l.length) :
    ungroup d ((l.drop a).take n) = ((ungroup d l).drop (a * d)).take (n * d) := by
  have hsplit : l = l.take a ++ ((l.drop a).take n ++ (l.drop a).drop n) := by simp only [List.take_append_drop]
  have ha : (ungroup d (l.take a)).length = a * d := by rw [ungroup_length, List.length_take_of_le (by omega)]
  have hn : (ungroup d ((l.drop a).take n)).length = n * d := by
    rw [ungroup_length, List.length_take_of_le (by rw [List.length_drop]; omega)]
  conv_rhs => rw [hsplit, ungroup_append, ungroup_append, List.drop_left' ha, List.take_left' hn]

/-! ### A data symbol received as it was sent -/

section Received

variable {N : Num} {v : Scalar → ℝ} {ms : List (Nat × Nat)} {X : Ext N ms} {t : List Role} {g : Nat} {c : Scalar} {r : RxUnit}

theorem Locked.at0_equalize (hk : Locked t c r) (h : N.IsExact v) (hr : MadeFor N t g r) (Y : List Cplx) {k : Nat}
    (hrole : t.getD k .null ≠ .null) : at0 (equalize N r Y) k = at0 Y k :=
  Machine.at0_equalize h hr hk.gain hk.tauHat hk.theta Y hrole

/-- What the equalizer gives on the data subcarriers are the points that were put there (R186, R187, R372). -/
theorem Locked.map_equalize (hk : Locked t c r) (h : N.IsExact v) (hr : MadeFor N t g r) {α : Type} (F : Cplx → α)
    (f : Nat → Cplx) :
    (r.D.map fun k => F (at0 (equalize N r (dataVector t (indicesOf .data t) f)) k)) =
      (List.range (indicesOf .data t).length).map fun i => F (f i) := by
  rw [hr.D]
  refine List.ext_getElem (by simp) fun i hi _ => ?_
  have hi : i < (indicesOf .data t).length := by simpa using hi
  have hrole : t.getD (indicesOf .data t)[i] .null ≠ .null := by
    rw [getD_of_mem_indicesOf (List.getElem_mem hi)]; decide
  simp only [List.getElem_map, List.getElem_range]
  rw [hk.at0_equalize h hr _ hrole, ← List.getD_eq_getElem _ 0 hi]
  exact congrArg F (dataVector_data Cplx.zero hi)

/-- The pilots of a data symbol leave the phase at 0 (R374). -/
theorem Locked.trackTheta (hk : Locked t c r) (h : N.IsExact v) (hr : MadeFor N t g r) (b : Build) (f : Nat → Cplx) :
    trackTheta b N r.PL r.theta (equalize N r (dataVector t (indicesOf .data t) f)) = .zero := by
  rw [hk.theta]
  refine trackTheta_of_pilots h fun k hkm => ?_
  rw [hr.PL] at hkm
  have hrole := getD_of_mem_indicesOf hkm
  rw [hk.at0_equalize h hr _ (by rw [hrole]; decide)]
  exact dataVector_pilot Cplx.zero (lt_of_mem_indicesOf hkm) hrole

/-- BPSK undone (R25). -/
theorem demod_mod_bpsk (h : N.IsExact v) (x : Bool) : X.demod 1 1 (X.mod 1 1 x.toNat) = x.toNat := by
  obtain ⟨hzero, hone⟩ := X.mod_bpsk
  cases x with
  | false =>
    have hle : N.le .zero Cplx.one.re = true := by
      rw [Num.le, Bool.or_eq_true, h.lt]
      exact .inl (by rw [val_zero h, Cplx.one, h.rat]; norm_num)
    rw [Bool.toNat_false, hzero, X.demod_bpsk, if_pos hle]
  | true =>
    have hnle : ¬ N.le .zero Cplx.negOne.re = true := by
      rw [Num.le, Bool.or_eq_true, h.lt, h.eq, val_zero h, Cplx.negOne, h.rat]
      norm_num
    rw [Bool.toNat_true, hone, X.demod_bpsk, if_neg hnle]

variable {u : TxUnit}

/-- The bits of header symbol `i` of the frame (R186, R325). -/
theorem Locked.headerBits (hk : Locked t c r) (h : N.IsExact v) (hr : MadeFor N t g r) (halloc : u.alloc = t)
    (hD : u.D = indicesOf .data t) (hND : u.ND = (indicesOf .data t).length) (hhc : u.hc.length = hdrCodedBits) {i : Nat}
    (hcb : r.cbits = u.hc.take (i * (indicesOf .data t).length)) :
    headerBits X r (equalize N r (headerVector X u i)) = u.hc.take ((i + 1) * (indicesOf .data t).length) := by
  have hbit : ∀ q, decide (X.demod 1 1 (if q < hdrCodedBits then X.mod 1 1 (u.hc.getD q false).toNat else X.mod 1 1 0) ≠ 0) =
      u.hc.getD q false := by
    intro q
    have hif : (if q < hdrCodedBits then X.mod 1 1 (u.hc.getD q false).toNat else X.mod 1 1 0) =
        X.mod 1 1 (u.hc.getD q false).toNat := by
      split
      · rfl
      · rename_i hq
        rw [List.getD_eq_default _ _ (by omega)]; rfl
    rw [hif, demod_mod_bpsk h]
    cases u.hc.getD q false <;> rfl
  rw [Machine.headerBits, headerVector, halloc, hD, hND, hk.map_equalize h hr fun z => decide (X.demod 1 1 z ≠ 0)]
  simp only [hbit]
  rw [map_range_getD, hcb, ← hhc, take_append_window, Nat.succ_mul]

/-- The bits of payload symbol `i` of the frame (R187, R326). -/
theorem Locked.payloadSymbolBits {b : Build} {X : Ext N b.modset} {p : Props} {pb : List Byte} (hk : Locked t c r)
    (h : N.IsExact v) (hr : MadeFor N t g r) (hu : SentFrame X t p uh pb u) (hp : legalProps b p = true) {i : Nat}
    (hmm : r.plMm = p.mm) (hmd : r.plMd = p.md) (hbits : r.plBits = payloadBits p.crc p.fi p.fo pb.length)
    (hcb : r.cbits = (payloadChain X p.crc p.fi p.fo pb).take (i * (indicesOf .data t).length * p.md)) :
    payloadSymbolBits X r (equalize N r (payloadVector X u i)) =
      (payloadChain X p.crc p.fi p.fo pb).take ((i + 1) * (indicesOf .data t).length * p.md) := by
  have hpair := legalProps_pair hp
  have hd : 1 ≤ p.md := (b.modset_range _ hpair).2.1
  have hindex : ∀ q, X.demod p.mm p.md (if q < u.pu.length then X.mod p.mm p.md (u.pu.getD q 0) else X.mod p.mm p.md 0) =
      (payloadCode X p pb).getD q 0 := by
    intro q
    rw [hu.pu]
    split
    · rename_i hq
      rw [List.getD_eq_getElem _ _ hq]
      exact X.demod_mod _ _ _ hpair (group_lt hd (List.getElem_mem hq))
    · rename_i hq
      rw [List.getD_eq_default _ _ (Nat.not_lt.1 hq)]
      exact X.demod_mod _ _ _ hpair (Nat.two_pow_pos _)
  rw [Machine.payloadSymbolBits, payloadVector, hu.alloc, hu.D, hu.ND, hu.mm, hu.md, hmm, hmd, hbits,
    hk.map_equalize h hr (X.demod p.mm p.md)]
  simp only [hindex]
  rw [map_range_getD, ungroup_window (by simp), ungroup_append, payloadCode, ungroup_group hd, pad, List.append_assoc,
    hcb, ← payloadChain_length X, take_append_window, Nat.succ_mul, Nat.add_mul]

end Received

end Sys2Proof.Machine
end

section
/-! The header, the payload and the event of a frame that nothing has changed (R325 to R328, R333): O42. -/

namespace Sys2Proof

open Machine

/-- The synchronizer after `i` header symbols of the frame. -/
structure HeaderAt {N : Sys2Proof.Num} {ms : List (Nat × Nat)} (X : Ext N ms) (t : List Role) (p : Props) (uh pb : List Byte)
    (c : Scalar) (i : Nat) (r : RxUnit) : Prop where
  locked : Locked t c r
  state : r.state = .header
  sym : r.sym = i
  cbits : r.cbits = (headerCode X uh pb.length p).take (i * (indicesOf .data t).length)

/-- The synchronizer after the header and `i` payload symbols of the frame. -/
structure PayloadAt {N : Sys2Proof.Num} {ms : List (Nat × Nat)} (X : Ext N ms) (t : List Role) (p : Props) (uh pb : List Byte)
    (c : Scalar) (i : Nat) (r : RxUnit) : Prop where
  locked : Locked t c r
  state : r.state = .payload
  sym : r.sym = i
  cbits : r.cbits = (payloadChain X p.crc p.fi p.fo pb).take (i * (indicesOf .data t).length * p.md)
  hb : r.hb = headerBytes uh pb.length p
  plLen : r.plLen = pb.length
  plCrc : r.plCrc = p.crc
  plFi : r.plFi = p.fi
  plFo : r.plFo = p.fo
  plMm : r.plMm = p.mm
  plMd : r.plMd = p.md
  plBits : r.plBits = payloadBits p.crc p.fi p.fo pb.length
  NP : r.NP = payloadSymbols (indicesOf .data t).length p.md (payloadBits p.crc p.fi p.fo pb.length)

section Linked

variable {N : Sys2Proof.Num} {v : Scalar → ℝ} {b : Build} {X : Ext N b.modset} {t : List Role} {p : Props}
  {uh pb : List Byte} {u : TxUnit} {s : State} {k : Nat} {c : Scalar} {i : Nat}

/-! ### One header symbol -/

section HeaderSymbol

variable {r : RxUnit}

theorem HeaderAt.withSymbol (hr : HeaderAt X t p uh pb c i r) (ys : List Cplx) :
    HeaderAt X t p uh pb c i (withSymbol ys r) := by
  obtain ⟨⟨⟨hphi, hnu, -⟩, hgain, htau, htheta, hsnr, hevt⟩, hstate, hsym, hcb⟩ := hr
  exact ⟨⟨⟨hphi, hnu, rfl⟩, hgain, htau, htheta, hsnr, hevt⟩, hstate, hsym, hcb⟩

/-- Its bits come next in the header code (R325). -/
theorem HeaderAt.collected (hr : HeaderAt X t p uh pb c i r) (hl : Linked b X t p uh pb u s) (h : N.IsExact v)
    (hm : MadeFor N t u.G r) : HeaderAt X t p uh pb c (i + 1) (headerCollected N X (headerVector X u i) r) := by
  obtain ⟨hk, hstate, hsym, hcb⟩ := hr
  have hcode := hl.sent.hc
  have hcb' := hk.headerBits (X := X) h hm hl.sent.alloc hl.sent.D hl.sent.ND
    (by rw [hcode]; exact headerCode_length X hl.header _ _) (by rw [hcode]; exact hcb)
  rw [hcode] at hcb'
  obtain ⟨⟨hphi, hnu, hsbn⟩, hgain, htau, htheta, hsnr, hevt⟩ := hk
  exact ⟨⟨⟨hphi, hnu, hsbn⟩, hgain, htau, htheta, hsnr, hevt⟩, hstate, congrArg (· + 1) hsym, hcb'⟩

/-- The whole header code decodes to the header that was sent (R179, R180, R380). -/
theorem HeaderAt.decode (hr : HeaderAt X t p uh pb c (headerSymbols (indicesOf .data t).length) r)
    (hl : Linked b X t p uh pb u s) : headerDecode b X r.cbits = (true, headerBytes uh pb.length p) := by
  have hfit : (headerCode X uh pb.length p).length ≤
      headerSymbols (indicesOf .data t).length * (indicesOf .data t).length := by
    rw [headerCode_length X hl.header]
    exact le_ceilDiv_mul (indicesOf_length_pos hl.data)
  obtain ⟨-, -, hdecode, -, -, -⟩ := headerRoundTrip N b.modset X b uh pb.length p hl.header hl.length hl.props
  rw [hr.cbits, List.take_of_length_le hfit]
  exact hdecode

/-- The accepted header announces the payload that was sent (R325, R381, R383). -/
theorem HeaderAt.accepted (hr : HeaderAt X t p uh pb c i r) (hl : Linked b X t p uh pb u s) (hm : MadeFor N t u.G r) :
    PayloadAt X t p uh pb c 0 (headerAccepted (headerBytes uh pb.length p) r) := by
  obtain ⟨⟨⟨hphi, hnu, hsbn⟩, hgain, htau, htheta, hsnr, hevt⟩, -⟩ := hr
  have hlen := hdrLen_headerBytes hl.header hl.length hl.props
  have hprops := hdrProps_headerBytes hl.header hl.length hl.props
  refine ⟨⟨⟨hphi, hnu, hsbn⟩, hgain, htau, htheta, hsnr, hevt⟩, rfl, rfl, ?_, rfl, hlen, congrArg Props.crc hprops,
    congrArg Props.fi hprops, congrArg Props.fo hprops, congrArg Props.mm hprops, congrArg Props.md hprops, ?_, ?_⟩
  · rw [Nat.zero_mul, Nat.zero_mul, List.take_zero]; rfl
  · show payloadBits _ _ _ (hdrLen _) = _
    rw [hprops, hlen]
  · show payloadSymbols r.ND _ (payloadBits _ _ _ (hdrLen _)) = _
    rw [hprops, hlen, hm.ND]

end HeaderSymbol

/-! ### One payload symbol -/

section PayloadSymbol

variable {r : RxUnit}

theorem PayloadAt.withSymbol (hr : PayloadAt X t p uh pb c i r) (ys : List Cplx) :
    PayloadAt X t p uh pb c i (withSymbol ys r) := by
  obtain ⟨⟨⟨hphi, hnu, -⟩, hgain, htau, htheta, hsnr, hevt⟩, hstate, hsym, hcb, hhb, hlen, hcrc, hfi, hfo, hmm,
    hmd, hbits, hNP⟩ := hr
  exact ⟨⟨⟨hphi, hnu, rfl⟩, hgain, htau, htheta, hsnr, hevt⟩, hstate, hsym, hcb, hhb, hlen, hcrc, hfi, hfo, hmm,
    hmd, hbits, hNP⟩

/-- Its bits come next in the payload code, and its pilots leave the phase (R326). -/
theorem PayloadAt.collected (hr : PayloadAt X t p uh pb c i r) (hl : Linked b X t p uh pb u s) (h : N.IsExact v)
    (hm : MadeFor N t u.G r) : PayloadAt X t p uh pb c (i + 1) (payloadCollected b N X (payloadVector X u i) r) := by
  obtain ⟨hk, hstate, hsym, hcb, hhb, hlen, hcrc, hfi, hfo, hmm, hmd, hbits, hNP⟩ := hr
  have hcb' := hk.payloadSymbolBits h hm hl.sent hl.props hmm hmd hbits hcb
  have htheta : (payloadCollected b N X (payloadVector X u i) r).theta = .zero := by
    show Machine.trackTheta b N r.PL r.theta (equalize N r (payloadVector X u i)) = .zero
    rw [payloadVector, hl.sent.alloc, hl.sent.D]
    exact hk.trackTheta h hm b _
  obtain ⟨⟨hphi, hnu, hsbn⟩, hgain, htau, -, hsnr, hevt⟩ := hk
  exact ⟨⟨⟨hphi, hnu, hsbn⟩, hgain, htau, htheta, hsnr, hevt⟩, hstate, congrArg (· + 1) hsym, hcb', hhb, hlen, hcrc,
    hfi, hfo, hmm, hmd, hbits, hNP⟩

/-- The whole payload code decodes to the payload that was sent (R178, R382). -/
theorem PayloadAt.decode (hl : Linked b X t p uh pb u s) (hr : PayloadAt X t p uh pb c
    (payloadSymbols (indicesOf .data t).length p.md (payloadBits p.crc p.fi p.fo pb.length)) r) :
    payloadDecoded X r = (true, pb) := by
  have hd : 1 ≤ p.md := (b.modset_range _ (legalProps_pair hl.props)).2.1
  have hfit : (payloadChain X p.crc p.fi p.fo pb).length ≤
      payloadSymbols (indicesOf .data t).length p.md (payloadBits p.crc p.fi p.fo pb.length) *
        (indicesOf .data t).length * p.md := by
    rw [payloadChain_length X]
    exact le_payloadSymbols_mul (indicesOf_length_pos hl.data) hd _
  rw [payloadDecoded, hr.cbits, List.take_of_length_le hfit, hr.plLen, hr.plCrc, hr.plFi, hr.plFo,
    payloadDecode_payloadChain]

end PayloadSymbol

/-! ### The frame after its preamble -/

/-- One symbol of the frame, fed to a synchronizer that collects symbols. -/
theorem Linked.afterSymbols_collects (hl : Linked b X t p uh pb u s) (h : N.IsExact v) {j : Nat}
    (hc : Collects (afterSymbols N X u k s j).rx) (h0 : SymbolStart (afterSymbols N X u k s j).rx) :
    afterSymbols N X u k s (j + 1) = completeSymbol N X (symbolVector X u j)
      ((afterSymbols N X u k s j).setRx (withSymbol (frameSymbol N X u j) (afterSymbols N X u k s j).rx)) := by
  rw [afterSymbols_succ]
  exact feed_ofdm h (hl.afterSymbols_made k j) hl.guard_le (hl.afterSymbols_sized k j) hc h0
    (by rw [symbolVector_length, hl.sent.alloc])

theorem Linked.made_withSymbol (hl : Linked b X t p uh pb u s) (k j : Nat) (ys : List Cplx) :
    MadeFor N t u.G (Machine.withSymbol ys (afterSymbols N X u k s j).rx) :=
  (hl.afterSymbols_made k j).of_sameInstance (sameInstance_refl _)

/-- A header symbol that is not the last. -/
theorem Linked.headerAt_succ (hl : Linked b X t p uh pb u s) (h : N.IsExact v)
    (hi : i + 1 < headerSymbols (indicesOf .data t).length)
    (hr : HeaderAt X t p uh pb c i (afterSymbols N X u k s (3 + i)).rx) :
    HeaderAt X t p uh pb c (i + 1) (afterSymbols N X u k s (3 + (i + 1))).rx := by
  have hm := hl.made_withSymbol k (3 + i) (frameSymbol N X u (3 + i))
  have hw := hr.withSymbol (frameSymbol N X u (3 + i))
  have hV : symbolVector X u (3 + i) = headerVector X u i := by
    rw [symbolVector_header X u (by omega) (by rw [hl.sent.NH]; omega), Nat.add_sub_cancel_left]
  rw [← Nat.add_assoc, hl.afterSymbols_collects h (.inr (.inl hr.state)) hr.locked.start, completeSymbol_header hw.state,
    headerSymbol_more (by rw [State.setRx_rx, hw.sym, hm.NH]; omega), hV]
  exact hw.collected hl h hm

/-- The last header symbol is accepted (R325). -/
theorem Linked.payloadAt_zero (hl : Linked b X t p uh pb u s) (h : N.IsExact v)
    (hi : i + 1 = headerSymbols (indicesOf .data t).length)
    (hr : HeaderAt X t p uh pb c i (afterSymbols N X u k s (3 + i)).rx) :
    PayloadAt X t p uh pb c 0 (afterSymbols N X u k s (3 + (i + 1))).rx := by
  have hm := hl.made_withSymbol k (3 + i) (frameSymbol N X u (3 + i))
  have hw := hr.withSymbol (frameSymbol N X u (3 + i))
  have hcol := hw.collected hl h hm
  have hV : symbolVector X u (3 + i) = headerVector X u i := by
    rw [symbolVector_header X u (by omega) (by rw [hl.sent.NH]; omega), Nat.add_sub_cancel_left]
  have hd := (hi ▸ hcol).decode hl
  have hbuild : (afterSymbols N X u k s (3 + i)).build = b := (afterSymbols_build u k s _).trans hl.build
  rw [← Nat.add_assoc, hl.afterSymbols_collects h (.inr (.inl hr.state)) hr.locked.start, completeSymbol_header hw.state, hV,
    headerSymbol_valid (by rw [State.setRx_rx, hw.sym, hm.NH]; exact hi)
      (by rw [State.setRx_rx, State.setRx_build, hbuild, hd])]
  simp only [State.setRx_rx, State.setRx_build, hbuild, hd]
  exact hcol.accepted hl (hm.of_sameInstance (sameInstance_refl _))

/-- A payload symbol that is not the last. -/
theorem Linked.payloadAt_succ (hl : Linked b X t p uh pb u s) (h : N.IsExact v) (hi : i + 1 < u.NP)
    (hr : PayloadAt X t p uh pb c i (afterSymbols N X u k s (3 + u.NH + i)).rx) :
    PayloadAt X t p uh pb c (i + 1) (afterSymbols N X u k s (3 + u.NH + (i + 1))).rx := by
  have hm := hl.made_withSymbol k (3 + u.NH + i) (frameSymbol N X u (3 + u.NH + i))
  have hw := hr.withSymbol (frameSymbol N X u (3 + u.NH + i))
  have hV : symbolVector X u (3 + u.NH + i) = payloadVector X u i := by
    rw [symbolVector_payload X u (by omega)]; congr 1; omega
  have hbuild : (afterSymbols N X u k s (3 + u.NH + i)).build = b := (afterSymbols_build u k s _).trans hl.build
  rw [← Nat.add_assoc, hl.afterSymbols_collects h (.inr (.inr hr.state)) hr.locked.start, completeSymbol_payload hw.state,
    payloadSymbol_more (by rw [State.setRx_rx, hw.sym, hw.NP, ← hl.sent.NP]; omega), hV, State.setRx_build, hbuild]
  exact hw.collected hl h hm

/-- The last payload symbol posts the event (R326, R328). -/
theorem Linked.event_of_last (hl : Linked b X t p uh pb u s) (h : N.IsExact v) (hi : i + 1 = u.NP)
    (hr : PayloadAt X t p uh pb c i (afterSymbols N X u k s (3 + u.NH + i)).rx) :
    ∃ r, PayloadAt X t p uh pb c (i + 1) r ∧ r.ctx = s.rx.ctx ∧ afterSymbols N X u k s (3 + u.NH + (i + 1)) =
      postEvent true true pb ((afterSymbols N X u k s (3 + u.NH + i)).setRx r) := by
  have hm := hl.made_withSymbol k (3 + u.NH + i) (frameSymbol N X u (3 + u.NH + i))
  have hw := hr.withSymbol (frameSymbol N X u (3 + u.NH + i))
  have hcol := hw.collected hl h hm
  have hV : symbolVector X u (3 + u.NH + i) = payloadVector X u i := by
    rw [symbolVector_payload X u (by omega)]; congr 1; omega
  have hbuild : (afterSymbols N X u k s (3 + u.NH + i)).build = b := (afterSymbols_build u k s _).trans hl.build
  have hd := (hi.trans hl.sent.NP ▸ hcol).decode hl
  obtain ⟨-, -, -, -, hctx, -⟩ := sameInstance_trans (feed_sameInstance (N := N) (X := X)
    ((List.range (3 + u.NH + i)).flatMap (frameSymbol N X u)) _) (feed_sameInstance (List.replicate k Cplx.zero) s)
  refine ⟨_, hcol, hctx, ?_⟩
  rw [← Nat.add_assoc, hl.afterSymbols_collects h (.inr (.inr hr.state)) hr.locked.start, completeSymbol_payload hw.state,
    payloadSymbol_last (by rw [State.setRx_rx, hw.sym, hw.NP, ← hl.sent.NP]; exact hi), hV]
  simp only [State.setRx_rx, State.setRx_build, hbuild, hd]
  rfl

/-- After the header (R325, R333). -/
theorem Linked.after_header (hl : Linked b X t p uh pb u s) (h : N.IsExact v) (hseek : NotDetectedEarly N X u k s) :
    PayloadAt X t p uh pb (.rat b.statClampDb) 0 (afterSymbols N X u k s (3 + u.NH)).rx := by
  obtain ⟨hlocked, hstate, hsym, hcb⟩ := hl.after_long h hseek
  have h0 : HeaderAt X t p uh pb (.rat b.statClampDb) 0 (afterSymbols N X u k s 3).rx :=
    ⟨hlocked, hstate, hsym, by rw [hcb, Nat.zero_mul, List.take_zero]⟩
  have hall : ∀ i < headerSymbols (indicesOf .data t).length,
      HeaderAt X t p uh pb (.rat b.statClampDb) i (afterSymbols N X u k s (3 + i)).rx := by
    intro i hi
    induction i with
    | zero => exact h0
    | succ i ih => exact hl.headerAt_succ h hi (ih (by omega))
  obtain ⟨i, hi⟩ := Nat.exists_eq_add_of_le' (headerSymbols_range (indicesOf_length_pos hl.data)).1
  rw [hl.sent.NH, hi]
  exact hl.payloadAt_zero h hi.symm (hall i (by omega))

theorem Linked.NP_pos (hl : Linked b X t p uh pb u s) : 1 ≤ u.NP := by
  rw [hl.sent.NP]; exact Nat.le_max_left 1 _

/-- Before the last payload symbol. -/
theorem Linked.before_last (hl : Linked b X t p uh pb u s) (h : N.IsExact v) (hseek : NotDetectedEarly N X u k s)
    (hi : i < u.NP) : PayloadAt X t p uh pb (.rat b.statClampDb) i (afterSymbols N X u k s (3 + u.NH + i)).rx := by
  induction i with
  | zero => exact hl.after_header h hseek
  | succ i ih => exact hl.payloadAt_succ h hi (ih (by omega))

/-- Up to the last sample of the frame there is no event (R326). -/
theorem Linked.no_event (hl : Linked b X t p uh pb u s) (h : N.IsExact v) (hseek : NotDetectedEarly N X u k s) {n : Nat}
    (hn : n < (List.replicate k Cplx.zero ++ frameSamples N X u).length) :
    (feed N X ((List.replicate k Cplx.zero ++ frameSamples N X u).take n) s).rx.evt = false := by
  have hL := hl.L_pos
  obtain ⟨i, hi⟩ := Nat.exists_eq_add_of_le' hl.NP_pos
  have hT : frameSymbols u = 3 + u.NH + i + 1 := by rw [frameSymbols, nPre]; omega
  have hbefore := hl.before_last (k := k) h hseek (i := i) (by omega)
  have hlast := hl.feed_take k (c := 3 + u.NH + i) (j := u.L - 1) (by omega) (Nat.sub_le _ _)
  have hshort : ((frameSymbol N X u (3 + u.NH + i)).take (u.L - 1)).length <
      (afterSymbols N X u k s (3 + u.NH + i)).rx.L := by
    rw [List.length_take, (hl.afterSymbols_made k _).L, ← hl.sent.L]; omega
  rw [feed_filling (.inr (.inr hbefore.state)) hbefore.locked.start h (hl.afterSymbols_sized k _) hshort] at hlast
  have hle : n ≤ k + ((3 + u.NH + i) * u.L + (u.L - 1)) := by
    rw [List.length_append, List.length_replicate, frameSamples_length (by rw [hl.sent.alloc]; exact hl.guard_le)
      (by rw [hl.sent.alloc]; exact hl.sent.L), hT, Nat.succ_mul] at hn
    omega
  obtain ⟨m, hm⟩ := Nat.exists_eq_add_of_le hle
  rw [hm, List.take_add, feed_append] at hlast
  cases hevt : (feed N X ((List.replicate k Cplx.zero ++ frameSamples N X u).take n) s).rx.evt with
  | false => rfl
  | true =>
    have hlate := feed_evt_of_evt (N := N) (X := X) hevt
      (((List.replicate k Cplx.zero ++ frameSamples N X u).drop n).take m)
    rw [hlast] at hlate
    exact hlate.symm.trans hbefore.locked.evt

end Linked

/-- Settles O42: each symbol comes back from the transform as it was sent, so that the codes of header and payload are
collected whole and decode to what was coded; the last symbol posts the event. -/
theorem noiselessRoundTrip : Obligations.NoiselessRoundTrip := by
  intro N v b X t p uh pb u s k h hl z hseek
  obtain ⟨i, hi⟩ := Nat.exists_eq_add_of_le' hl.NP_pos
  have hT : frameSymbols u = 3 + u.NH + (i + 1) := by rw [frameSymbols, nPre]; omega
  have hbefore := hl.before_last (k := k) h hseek (i := i) (by omega)
  obtain ⟨r, hr, hctx, hevent⟩ := hl.event_of_last h hi.symm hbefore
  have hmem : MemInv (afterSymbols N X u k s (3 + u.NH + i)) := feed_memInv (feed_memInv hl.mem _) _
  have hbuild : (afterSymbols N X u k s (3 + u.NH + i)).build = b := (afterSymbols_build u k s _).trans hl.build
  have hz : feed N X z s = postEvent true true pb ((afterSymbols N X u k s (3 + u.NH + i)).setRx r) := by
    rw [← hevent, ← hT]; exact feed_frameSamples u k s
  refine ⟨fun n hn => hl.no_event h hseek hn, ?_⟩
  rw [hz, postEvent_valid, hbuild]
  refine ⟨rfl, hr.state, rfl, ?_, hr.plLen, hr.plLen, hctx, hr.locked.snrDb,
    bytesAt_memPutBytes_resPay ((memory_wf_iff _).1 hmem).1 hl.length⟩
  show r.hb.take 8 = uh
  rw [hr.hb, headerBytes_user hl.header]

end Sys2Proof
end

section
/-! The estimates stay in their ranges (R365, R367, R374, R376 to R378): O55. -/

namespace Sys2Proof.Machine

variable {N : Num} {ms : List (Nat × Nat)} {X : Ext N ms} {b : Build}

/-! ### The range of each estimate -/

theorem interp_within (x y z : Scalar) : Within N (interp N x y z) (N.ofRat (-1 / 2)) (N.ofRat (1 / 2)) :=
  clamp_within N (by norm_num) _

/-- A value lies within ±STAT_CLAMP_DB (R376, R377). -/
def WithinDb (b : Build) (N : Num) (x : Scalar) : Prop := Within N x (N.ofRat (-b.statClampDb)) (N.ofRat b.statClampDb)

theorem neg_statClampDb_le (b : Build) : -b.statClampDb ≤ b.statClampDb := neg_le_self b.statClampDb_range

theorem withinDb_zero (b : Build) : WithinDb b N .zero := within_zero N (neg_nonpos.2 b.statClampDb_range) b.statClampDb_range

theorem clampDb_withinDb (x : Scalar) : WithinDb b N (clampDb b N x) := clamp_within N (neg_statClampDb_le b) x

theorem rssi_withinDb (m g : Nat) (sb : List Cplx) : WithinDb b N (rssi b N m g sb) := by
  unfold rssi
  simp only
  split
  · exact (within_bounds N (neg_statClampDb_le b)).1
  · exact clampDb_withinDb _

theorem snr_withinDb (r : RxUnit) (Y H : List Cplx) : WithinDb b N (snr b N r Y H) := by
  unfold snr
  simp only
  split
  · exact (within_bounds N (neg_statClampDb_le b)).1
  · split
    · exact (within_bounds N (neg_statClampDb_le b)).2
    · exact clampDb_withinDb _

/-! ### The invariant as one of the RX record, over any NUM -/

/-- The ranges of a record's reals (R365, R367, R374, R376 to R378). -/
def EstimatesInRange (b : Build) (N : Num) (r : RxUnit) : Prop :=
  N.InTurn r.phi ∧ N.InTurn r.theta ∧ Within N r.tauFrac (N.ofRat (-1 / 2)) (N.ofRat (1 / 2)) ∧
    WithinDb b N r.snrDb ∧ WithinDb b N r.rssiDb ∧ r.tauHat = .zero ∧ r.nuRes = .zero

theorem rangeInv_iff (s : State) : RangeInv s ↔ EstimatesInRange s.build Config.num s.rx := Iff.rfl

/-- The estimates of the record at reset are 0, and 0 lies in every range (R75). -/
theorem reset_inRange : EstimatesInRange b N RxUnit.reset :=
  ⟨N.zero_range, N.zero_range, within_zero N (by norm_num) (by norm_num), withinDb_zero b, withinDb_zero b, rfl, rfl⟩

/-- RESET puts every estimate to its value at reset (R330). -/
theorem resetRecord_inRange (r : RxUnit) : EstimatesInRange b N (resetRecord r) := reset_inRange (b := b) (N := N)

/-! ### One sample keeps the ranges -/

theorem seekStep_inRange (x : Cplx) {r : RxUnit} (h : EstimatesInRange b N r) : EstimatesInRange b N (seekStep b N x r) := by
  unfold seekStep
  simp only
  split
  · split <;> exact h
  · exact h

/-- The end of the search estimates the peak fraction and starts the phase at 0 (R322, R365). -/
theorem shortStep_inRange (x : Cplx) {r : RxUnit} (h : EstimatesInRange b N r) : EstimatesInRange b N (shortStep N x r) := by
  obtain ⟨q, p1, p2, p3, p4, rfl, ⟨-, hq⟩ | ⟨-, hq⟩⟩ := shortStep_cases N x r <;> rw [hq]
  · obtain ⟨-, htheta, -, hstats⟩ := h
    exact ⟨N.zero_range, htheta, interp_within _ _ _, hstats⟩
  · exact h

/-- A derotated sample moves the phase on, wrapped (R367). -/
theorem collect_inRange (x : Cplx) {r : RxUnit} (h : EstimatesInRange b N r) : EstimatesInRange b N (collect N x r) :=
  ⟨N.wrap_range _, h.2⟩

/-- The long symbol takes the statistics and puts the tracked phase and the residuals to 0 (R324, R376 to R378). -/
theorem longSymbol_inRange (Y : List Cplx) {r : RxUnit} (h : EstimatesInRange b N r) :
    EstimatesInRange b N (longSymbol b N Y r) := by
  obtain ⟨hphi, -, htau, -⟩ := h
  exact ⟨hphi, N.zero_range, htau, snr_withinDb _ _ _, rssi_withinDb _ _ _, rfl, rfl⟩

theorem headerSymbol_inRange (Y : List Cplx) {s : State} (h : EstimatesInRange b N s.rx) :
    EstimatesInRange b N (headerSymbol N X Y s).rx := by
  obtain ⟨r, rfl, ⟨-, hr⟩ | ⟨-, -, hr⟩ | ⟨-, -, hr⟩⟩ := headerSymbol_cases N X Y s <;> rw [hr] <;> exact h

/-- A payload symbol moves the tracked phase, wrapped (R326, R374). -/
theorem payloadSymbol_inRange (Y : List Cplx) {s : State} (h : EstimatesInRange b N s.rx) :
    EstimatesInRange b N (payloadSymbol N X Y s).rx := by
  obtain ⟨hphi, -, hrest⟩ := h
  obtain ⟨r, rfl, ⟨-, hr⟩ | ⟨-, hr⟩⟩ := payloadSymbol_cases N X Y s <;> rw [hr] <;>
    exact ⟨hphi, N.wrap_range _, hrest⟩

theorem symbolStep_inRange (x : Cplx) {s : State} (h : EstimatesInRange s.build N s.rx) :
    EstimatesInRange s.build N (symbolStep N X x s).rx := by
  have hc := collect_inRange x h
  rcases symbolStep_cases N X x s with ⟨-, hr⟩ | ⟨r, Y, rfl, -, -, ⟨-, hr⟩ | ⟨-, hr⟩ | ⟨-, hr⟩ | ⟨-, -, -, hr⟩⟩ <;> rw [hr]
  · exact hc
  · exact longSymbol_inRange (r := { collect N x s.rx with sbn := 0 }) Y hc
  · exact headerSymbol_inRange (s := s.setRx { collect N x s.rx with sbn := 0 }) Y hc
  · exact payloadSymbol_inRange (s := s.setRx { collect N x s.rx with sbn := 0 }) Y hc
  · exact hc

theorem sampleStep_inRange (x : Cplx) {s : State} (h : EstimatesInRange s.build N s.rx) :
    EstimatesInRange s.build N (sampleStep N X x s).rx := by
  unfold sampleStep
  split
  · exact seekStep_inRange x h
  · exact shortStep_inRange x h
  · exact symbolStep_inRange x h
  · exact symbolStep_inRange x h
  · exact symbolStep_inRange x h
  · exact seekStep_inRange x (resetRecord_inRange s.rx)

/-! ### Each access of the host -/

theorem runSamples_rangeInv {ms : List (Nat × Nat)} {X : Ext Config.num ms} {k : Nat} {s t : State}
    (h : runSamples Config.num X k s = .next t) (he : s.rx.evt = false) (hs : RangeInv s) : RangeInv t := by
  refine runSamples_keeps_step (P := RangeInv) (fun x u d hu _ => ?_) (fun _ _ hs => hs) hs he h
  rw [rangeInv_iff, sampleStep_build]
  exact sampleStep_inRange x hu

theorem rangeInv_of_eq {s t : State} (hb : t.build = s.build) (hrx : t.rx = s.rx) (h : RangeInv s) : RangeInv t := by
  unfold RangeInv at *; rwa [hb, hrx]

theorem exec_keeps_rangeInv (i : Instr) (s t : State) (hs : RangeInv s) (h : exec i s = .next t) : RangeInv t := by
  have hb := exec_keeps_build h
  cases exec_effect h with
  | answered | allocDefault => exact hs
  | txCreate | txAssemble | txWriteSymbol | txDestroy => exact rangeInv_of_eq hb (exec_keeps_rx h rfl) hs
  | rxCreate => exact resetRecord_inRange _
  | rxExecute n _ _ he _ _ hrun => exact runSamples_rangeInv hrun he hs
  | rxAck _ _ _ hrun => exact runSamples_rangeInv hrun rfl (resetRecord_inRange _)
  | rxDestroy => exact reset_inRange

/-- Settles O55: an estimate is 0, what `clamp` or `wrap` answers, or the bound of the statistics, in each place that writes
one. -/
theorem estimatesStayInRange : Obligations.EstimatesStayInRange := fun _ _ hs h =>
  step_keeps (P := RangeInv) (fun _ _ hs => hs) (fun _ _ hs => hs)
    (fun s a v hs => rangeInv_of_eq (busWrite_records s a v).1 (busWrite_records s a v).2.2 hs) (fun _ hs => hs)
    (fun _ _ => reset_inRange) exec_keeps_rangeInv hs h

end Sys2Proof.Machine
end

section
/-! The correlation in exact arithmetic (R362, R363): O43. -/

namespace Sys2Proof.Machine

variable {N : Num} {v : Scalar → ℝ}

/-! ### Windows as vectors of a complex inner product space -/

section Vectors

variable {n : Nat}

theorem exists_ofFn_of_length_eq {s w : List Cplx} (hl : s.length = w.length) :
    ∃ (n : Nat) (f g : Fin n → Cplx), s = List.ofFn f ∧ w = List.ofFn g := by
  obtain ⟨n, g, rfl⟩ : ∃ n, ∃ g : Fin n → Cplx, w = List.ofFn g := ⟨_, _, (List.ofFn_get w).symm⟩
  rw [List.length_ofFn] at hl
  subst hl
  exact ⟨_, s.get, g, (List.ofFn_get s).symm, rfl⟩

/-- The complex numbers that `n` values of NUM stand for, as a vector. -/
noncomputable def vecC (v : Scalar → ℝ) (f : Fin n → Cplx) : EuclideanSpace ℂ (Fin n) :=
  WithLp.toLp 2 fun i => (f i).toC v

theorem innerC_ofFn (v : Scalar → ℝ) (f g : Fin n → Cplx) :
    innerC v (List.ofFn f) (List.ofFn g) = inner ℂ (vecC v f) (vecC v g) := by
  have hzip : List.zipWith (fun a b => starRingEnd ℂ a * b) ((List.ofFn f).map (Cplx.toC v))
      ((List.ofFn g).map (Cplx.toC v)) = List.ofFn fun i => starRingEnd ℂ ((f i).toC v) * (g i).toC v := by
    apply List.ext_getElem <;> simp
  rw [innerC, hzip, List.sum_ofFn, PiLp.inner_apply]
  exact Finset.sum_congr rfl fun i _ => mul_comm _ _

theorem energy_ofFn (v : Scalar → ℝ) (f : Fin n → Cplx) : energy v (List.ofFn f) = ‖vecC v f‖ ^ 2 := by
  rw [energy, List.map_ofFn, List.sum_ofFn, EuclideanSpace.norm_sq_eq]
  exact Finset.sum_congr rfl fun i _ => Complex.normSq_eq_norm_sq _

theorem vecC_eq_smul_iff (c : ℂ) (f g : Fin n → Cplx) :
    vecC v g = c • vecC v f ↔ (List.ofFn g).map (Cplx.toC v) = (List.ofFn f).map fun x => c * x.toC v := by
  rw [List.map_ofFn, List.map_ofFn, List.ofFn_injective.eq_iff]
  exact (WithLp.toLp_injective 2).eq_iff

/-- ρ is the squared cosine between the training symbol and the window (R362). -/
theorem val_correlation_ofFn (h : N.IsExact v) (f g : Fin n → Cplx) :
    v (correlation N (List.ofFn f) (N.sum ((List.ofFn f).map N.normSq)) (List.ofFn g)) =
      ‖inner ℂ (vecC v f) (vecC v g) / (‖vecC v f‖ * ‖vecC v g‖ : ℂ)‖ ^ 2 := by
  rw [val_correlation h, innerC_ofFn, energy_ofFn, energy_ofFn, Complex.normSq_eq_norm_sq]
  simp [div_pow, mul_pow]

end Vectors

/-! ### The bounds -/

theorem val_correlation_nonneg (h : N.IsExact v) (s w : List Cplx) : 0 ≤ v (correlation N s (N.sum (s.map N.normSq)) w) := by
  rw [val_correlation h]
  exact div_nonneg (Complex.normSq_nonneg _) (mul_nonneg (energy_nonneg v s) (energy_nonneg v w))

/-- Equality in the Cauchy-Schwarz inequality: ρ is 1 exactly on the multiples of the training symbol (R363). -/
theorem val_correlation_eq_one_iff (h : N.IsExact v) {s w : List Cplx} (hl : s.length = w.length) (he : 0 < energy v s) :
    v (correlation N s (N.sum (s.map N.normSq)) w) = 1 ↔
      ∃ c : ℂ, c ≠ 0 ∧ w.map (Cplx.toC v) = s.map fun x => c * x.toC v := by
  obtain ⟨n, f, g, rfl, rfl⟩ := exists_ofFn_of_length_eq hl
  have hne : vecC v f ≠ 0 := by
    rw [energy_ofFn] at he
    exact fun h0 => by simp [h0] at he
  rw [val_correlation_ofFn h, pow_eq_one_iff_of_nonneg (norm_nonneg _) two_ne_zero]
  refine (norm_inner_div_norm_mul_norm_eq_one_iff _ _).trans ?_
  simp only [and_iff_right hne, vecC_eq_smul_iff]

/-! ### A complex gain -/

theorem map_toC_cmul (h : N.IsExact v) (z : Cplx) (w : List Cplx) :
    (w.map (N.cmul z)).map (Cplx.toC v) = (w.map (Cplx.toC v)).map (z.toC v * ·) := by
  rw [List.map_map, List.map_map]
  exact List.map_congr_left fun x _ => h.cmul z x

theorem innerC_cmul (h : N.IsExact v) (s : List Cplx) (z : Cplx) (w : List Cplx) :
    innerC v s (w.map (N.cmul z)) = z.toC v * innerC v s w := by
  rw [innerC, innerC, map_toC_cmul h, List.zipWith_map_right, ← AddMonoidHom.coe_mulLeft, map_list_sum, List.map_zipWith]
  simp only [AddMonoidHom.coe_mulLeft, mul_left_comm]

theorem energy_cmul (h : N.IsExact v) (z : Cplx) (w : List Cplx) :
    energy v (w.map (N.cmul z)) = Complex.normSq (z.toC v) * energy v w := by
  rw [energy, energy, List.map_map, ← List.sum_map_mul_left]
  refine congrArg List.sum (List.map_congr_left fun x _ => ?_)
  rw [Function.comp_apply, h.cmul, Complex.normSq_mul]

/-- The gain's squared magnitude scales the squared inner product and the window's energy alike (R363). -/
theorem correlation_cmul (h : N.IsExact v) (s w : List Cplx) {z : Cplx} (hz : z ≠ Cplx.zero) :
    correlation N s (N.sum (s.map N.normSq)) (w.map (N.cmul z)) = correlation N s (N.sum (s.map N.normSq)) w := by
  have hne : Complex.normSq (z.toC v) ≠ 0 := (Complex.normSq_pos.2 (toC_ne_zero h hz)).ne'
  refine h.injective ?_
  rw [val_correlation h, val_correlation h, innerC_cmul h, energy_cmul h, Complex.normSq_mul, mul_left_comm,
    mul_div_mul_left _ _ hne]

/-- Settles O43: in exact arithmetic ρ is the squared cosine between the training symbol and the window. -/
theorem correlationBounds : Obligations.CorrelationBounds := by
  intro N v h s w z hl e0
  refine ⟨val_correlation_nonneg h s w, val_correlation_le_one h hl, fun he => ?_, correlation_cmul h s w,
    correlation_of_zeros s e0 fun z hz => List.eq_of_mem_replicate hz⟩
  exact val_correlation_eq_one_iff h hl (by rwa [← val_energy h])

end Sys2Proof.Machine
end

section
/-! The pilots beside a subcarrier and the gain between them (R14, R371): O44. -/

namespace Sys2Proof.Machine

/-! ### What the search finds -/

section Search

variable {P : Nat → Prop} [DecidablePred P] {better : Nat → Nat → Prop} [DecidableRel better]

/-- The search finds an entry that has the property, and none that has it is better. -/
theorem best_of_search {pl : List Nat} {a : Nat} (h : pl.foldl (pickBetter P better) none = some a)
    (htrans : ∀ x y z, better x y → better y z → better x z) (hirrefl : ∀ x, ¬ better x x) :
    P a ∧ ∀ p ∈ pl, P p → ¬ better a p := by
  induction pl using List.reverseRecOn generalizing a with
  | nil => cases h
  | append_singleton pl p ih =>
    rw [List.foldl_append, List.foldl_cons, List.foldl_nil] at h
    simp only [List.forall_mem_append, List.forall_mem_singleton]
    unfold pickBetter at h
    split at h
    case isFalse hp =>
      obtain ⟨ha, hbest⟩ := ih h
      exact ⟨ha, hbest, fun h => absurd h hp⟩
    case isTrue hp =>
      split at h
      case h_1 hnone =>
        cases h
        exact ⟨hp, fun q hq hPq => absurd hPq (not_of_search_eq_none hnone q hq), fun _ => hirrefl p⟩
      case h_2 q hsome =>
        obtain ⟨hq, hbest⟩ := ih hsome
        split at h
        case isTrue hb =>
          cases h
          exact ⟨hp, fun x hx hPx hx' => hbest x hx hPx (htrans _ _ _ hb hx'), fun _ => hirrefl p⟩
        case isFalse hb =>
          cases h
          exact ⟨hq, hbest, fun _ => hb⟩

end Search

/-! ### The nearest pilots on either side -/

/-- `a` is a pilot below subcarrier `k`, and no other lies nearer (R371). -/
def NearestBelow (m : Nat) (pl : List Nat) (k a : Nat) : Prop :=
  a ∈ pl ∧ freq m a < freq m k ∧ ∀ p ∈ pl, freq m p < freq m k → freq m p ≤ freq m a

/-- `b` is a pilot above subcarrier `k`, and no other lies nearer (R371). -/
def NearestAbove (m : Nat) (pl : List Nat) (k b : Nat) : Prop :=
  b ∈ pl ∧ freq m k < freq m b ∧ ∀ p ∈ pl, freq m k < freq m p → freq m b ≤ freq m p

variable {m k a b : Nat} {pl : List Nat}

theorem nearestBelow_of_pilotBelow (h : pilotBelow m pl k = some a) : NearestBelow m pl k a := by
  rw [pilotBelow_eq_search] at h
  obtain ⟨ha, hbest⟩ := best_of_search h (fun _ _ _ => lt_trans) fun _ => lt_irrefl _
  exact ⟨mem_of_search h, ha, fun p hp hlt => not_lt.1 (hbest p hp hlt)⟩

theorem nearestAbove_of_pilotAbove (h : pilotAbove m pl k = some b) : NearestAbove m pl k b := by
  rw [pilotAbove_eq_search] at h
  obtain ⟨hb, hbest⟩ := best_of_search h (fun _ _ _ h1 h2 => lt_trans h2 h1) fun _ => lt_irrefl _
  exact ⟨mem_of_search h, hb, fun p hp hlt => not_lt.1 (hbest p hp hlt)⟩

theorem pilotBelow_eq_none_iff : pilotBelow m pl k = none ↔ ∀ p ∈ pl, freq m k ≤ freq m p := by
  refine ⟨fun h p hp => not_lt.1 (not_of_search_eq_none h p hp), fun h => ?_⟩
  rw [Option.eq_none_iff_forall_ne_some]
  intro a ha
  obtain ⟨hmem, hlt, -⟩ := nearestBelow_of_pilotBelow ha
  exact absurd hlt (not_lt.2 (h a hmem))

theorem pilotAbove_eq_none_iff : pilotAbove m pl k = none ↔ ∀ p ∈ pl, freq m p ≤ freq m k := by
  refine ⟨fun h p hp => not_lt.1 (not_of_search_eq_none h p hp), fun h => ?_⟩
  rw [Option.eq_none_iff_forall_ne_some]
  intro b hb
  obtain ⟨hmem, hlt, -⟩ := nearestAbove_of_pilotAbove hb
  exact absurd hlt (not_lt.2 (h b hmem))

/-- Among subcarriers of the table the frequency names the pilot, so the nearest one is what the search finds. -/
theorem pilotBelow_of_nearest (hm : ∀ p ∈ pl, p < m) (h : NearestBelow m pl k a) : pilotBelow m pl k = some a := by
  obtain ⟨ha, hlt, hbest⟩ := h
  cases hs : pilotBelow m pl k with
  | none => exact absurd hlt (not_lt.2 (pilotBelow_eq_none_iff.1 hs a ha))
  | some c =>
    obtain ⟨hc, hclt, hcbest⟩ := nearestBelow_of_pilotBelow hs
    rw [freq_injective (hm c hc) (hm a ha) (le_antisymm (hbest c hc hclt) (hcbest a ha hlt))]

theorem pilotAbove_of_nearest (hm : ∀ p ∈ pl, p < m) (h : NearestAbove m pl k b) : pilotAbove m pl k = some b := by
  obtain ⟨hb, hlt, hbest⟩ := h
  cases hs : pilotAbove m pl k with
  | none => exact absurd hlt (not_lt.2 (pilotAbove_eq_none_iff.1 hs b hb))
  | some c =>
    obtain ⟨hc, hclt, hcbest⟩ := nearestAbove_of_pilotAbove hs
    rw [freq_injective (hm c hc) (hm b hb) (le_antisymm (hcbest b hb hlt) (hbest c hc hclt))]

/-! ### The gain in each case -/

section Gain

variable {N : Num} {gain : Nat → Cplx}

theorem interpolate_between (ha : pilotBelow m pl k = some a) (hb : pilotAbove m pl k = some b) :
    interpolate N m pl gain k = N.cadd (gain a) (N.cscale
      (N.div (N.ofRat (freq m k - freq m a : Int)) (N.ofRat (freq m b - freq m a : Int))) (N.csub (gain b) (gain a))) := by
  simp only [interpolate, ha, hb]

theorem interpolate_beyond_last (ha : pilotBelow m pl k = some a) (hb : pilotAbove m pl k = none) :
    interpolate N m pl gain k = gain a := by
  simp only [interpolate, ha, hb]

theorem interpolate_below_first (ha : pilotBelow m pl k = none) (hb : pilotAbove m pl k = some b) :
    interpolate N m pl gain k = gain b := by
  simp only [interpolate, ha, hb]

end Gain

/-- Settles O44: the two searches find the nearest pilots, and `interpolate` has one case for each outcome of them. -/
theorem interpolatedGain : Obligations.InterpolatedGain := by
  intro m pl k
  refine ⟨rfl, fun _ => nearestBelow_of_pilotBelow, pilotBelow_eq_none_iff.1, fun _ => nearestAbove_of_pilotAbove,
    pilotAbove_eq_none_iff.1, fun hm N gain a b => ⟨fun ha => ⟨fun hb => ?_, fun hlast => ?_⟩, fun hb hfirst => ?_⟩⟩
  · exact interpolate_between (pilotBelow_of_nearest hm ha) (pilotAbove_of_nearest hm hb)
  · exact interpolate_beyond_last (pilotBelow_of_nearest hm ha) (pilotAbove_eq_none_iff.2 hlast)
  · exact interpolate_below_first (pilotBelow_eq_none_iff.2 hfirst) (pilotAbove_of_nearest hm hb)

end Sys2Proof.Machine
end

section
/-! The refusals while an event is pending, the idle step and the reset pulse, and an error that leaves only its status (R401,
R411, R426, R450, R452): O11, O14 and O32. -/

namespace Sys2Proof.Machine

/-! ### The event pause refuses -/

theorem exec_rxCreate_reentrant {s : State} (d : Bool) (he : s.rx.evt = true) :
    exec (.rxCreate d) s = .next (respond .reentrant s) := by
  show Host.Outcome.next (rxCreate d s) = _
  simp [rxCreate, he]

theorem exec_rxExecute_reentrant {s : State} (n : Nat) (hc : s.rx.created = true) (he : s.rx.evt = true) :
    exec (.rxExecute n) s = .next (respond .reentrant s) := by
  show execRxExecute n s = _
  simp [execRxExecute, hc, he]

theorem exec_rxDestroy_reentrant {s : State} (hc : s.rx.created = true) (he : s.rx.evt = true) :
    exec .rxDestroy s = .next (respond .reentrant s) := by
  show Host.Outcome.next (rxDestroy s) = _
  simp [rxDestroy, hc, he]

/-- Settles O32: the pending event is the check that fails, in each of the three commands. -/
theorem reentrantCommands : Obligations.ReentrantCommands := by
  intro s d n hc he
  rw [← show respond .reentrant s = s.setResp 0x00000007 from respond_eq _ _]
  exact ⟨exec_rxCreate_reentrant d he, exec_rxExecute_reentrant n hc he, exec_rxDestroy_reentrant hc he⟩

/-! ### Idle and reset -/

theorem step_reset {s : State} {rest : List Access} (h : s.host = .reset :: rest) :
    step s = .next (hardwareReset (s.setHost rest)) := by
  simp only [step, h, perform]

/-- Settles O11: an empty queue leaves the state, and the reset pulse keeps of it the build and the model's own fields. -/
theorem idleAndHardwareReset : Obligations.IdleAndHardwareReset :=
  fun _ _ => ⟨step_idle, step_reset⟩

/-! ### An error leaves only its status -/

/-- A RESP word with `is_last` and `samples_written` 0 is its status byte (R57). -/
theorem respWord_and_statusMask (st : Status) : respWord st false 0 &&& 0x000000FF = respWord st false 0 := by
  cases st <;> decide

/-- A TX_WRITESYMBOL with a frame in progress answers OK. -/
theorem exec_txWriteSymbol_inProgress_ok {s t : State} (hc : s.tx.created = true) (hd : s.tx.state ≠ .done)
    (h : exec .txWriteSymbol s = .next t) : t.resp.extractLsb' 0 8 = 0x00 := by
  rw [exec_txWriteSymbol_inProgress hc hd] at h
  cases h
  exact respWord_status .ok _ _

/-- A run that answers a next state answers OK or EVENT_PENDING. -/
theorem runSamples_completes {N : Num} {ms : List (Nat × Nat)} {X : Ext N ms} {k : Nat} {s t : State}
    (h : runSamples N X k s = .next t) : t.resp.extractLsb' 0 8 = 0x00 ∨ t.resp.extractLsb' 0 8 = 0x09 := by
  obtain ⟨u, rfl | rfl⟩ := runSamples_next h
  · exact .inl (respWord_status .ok _ _)
  · exact .inr (respWord_status .eventPending _ _)

/-- A command with an effect of its own answers OK or EVENT_PENDING; any other only answers, having at most examined a table
(log 27). -/
theorem exec_answers_or_completes {i : Instr} {s t : State} (h : exec i s = .next t) :
    (∃ st d, t = respond st (s.setDraws d)) ∨ t.resp.extractLsb' 0 8 = 0x00 ∨ t.resp.extractLsb' 0 8 = 0x09 := by
  cases exec_effect h with
  | answered _ st d => exact .inl ⟨st, d, rfl⟩
  | txWriteSymbol _ hc hd => exact .inr (.inl (exec_txWriteSymbol_inProgress_ok hc hd h))
  | rxExecute _ _ _ _ _ _ hrun | rxAck _ _ _ hrun => exact .inr (runSamples_completes hrun)
  | allocDefault | txCreate | txAssemble | txDestroy | rxCreate | rxDestroy =>
    exact .inr (.inl (respWord_status .ok _ _))

/-- Settles O14: with an error status the command has only answered, and its answer is the status byte. -/
theorem errorsChangeNothing : Obligations.ErrorsChangeNothing := by
  intro i s t h hok hevent
  obtain ⟨st, d, rfl⟩ | hstatus | hstatus := exec_answers_or_completes h
  · rw [respond_resp, respWord_and_statusMask]
    rfl
  · exact absurd hstatus hok
  · exact absurd hstatus hevent

end Sys2Proof.Machine
end

section
/-! The state after reset: what every register and RES_PAY read, and every invariant (R116, R450, R451): O12 and O57. -/

namespace Sys2Proof.Machine

/-! ### The registers and RES_PAY -/

/-- The real 0 is the word 0 on the bus (R16). -/
theorem toWord_zero (N : Num) : N.toWord .zero = 0 := f32Round_zero

/-- The reals of the record at reset are 0 and go to the bus by `b32`; every other register is a field that is 0 or a word
packed from such fields (R451). -/
theorem readReg_resetOf_eq_zero (b : Build) {r : Reg} (h : r ∉ [Reg.id, .cap0, .cap1, .cap2, .txStatus]) :
    readReg (State.resetOf b) r = 0 := by
  cases r with
  | id | cap0 | cap1 | cap2 | txStatus => exact absurd h (by decide)
  | rxCfo | rxTfrac | rxPhase | resSnr | resRssi => exact toWord_zero Config.num
  | _ => rfl

theorem memPeek_resetOf_resPay {b : Build} {a : Nat} (h : inRegion b .resPay a = true) :
    memPeek b (State.resetOf b).mem a = some 0 := unlisted_resPay h

/-- Settles O12: the registers that are not 0 show constants and the build; nothing is listed in RES_PAY, so it reads 0. -/
theorem resetRegisters : Obligations.ResetRegisters :=
  ⟨rfl, rfl, fun b => ⟨rfl, rfl, cap0Word_eq b, rfl, rfl, fun _ => readReg_resetOf_eq_zero b, rfl, rfl, rfl,
    fun _ => memPeek_resetOf_resPay⟩⟩

/-! ### The invariants -/

/-- Settles O57: each invariant holds of a record at reset and of the memory that lists nothing. -/
theorem invariantsAtReset : Obligations.InvariantsAtReset := by
  intro b
  have hmem : MemInv (State.resetOf b) := rfl
  have hprops : PropsInv (State.resetOf b) := BitVec.zero_and
  exact ⟨hmem, hprops, txInv_reset rfl, rxShapeInv_reset rfl, eventInv_reset rfl fun _ => memPeek_resetOf_resPay,
    (rangeInv_iff _).2 reset_inRange, countInv_reset rfl⟩

end Sys2Proof.Machine
end
